-- ==== Sys2Proof/Word.lean ====
section
/-! DEFINITION. The two element widths of SIRC: a byte of a byte buffer and a 32-bit register or pulse entry
(00_scope.md R7). -/

namespace Sys2Proof

/-- An element of a byte buffer, 8 bits (00_scope.md R7). -/
abbrev Byte := BitVec 8

/-- A control register or a pulse-buffer entry, 32 bits, unsigned (00_scope.md R7). -/
abbrev Word := BitVec 32

end Sys2Proof
end

