-- ==== Sys2Proof/Config.lean ====
section
/-! DEFINITION. What an implementation of SIRC fixes (the three OPEN capacities) and the one free value of the model. -/

namespace Sys2Proof

/-- The capacity parameters the spec leaves OPEN (00_scope.md R6; 93_implementation_defined.md P1 to P3). They are data,
held in State and changed by no step, so that a statement about every state is a statement about every choice of them
(log 3). -/
structure Params where
  /-- `IBUF_BYTES` -/
  ibufBytes : Nat
  /-- `OBUF_BYTES` -/
  obufBytes : Nat
  /-- `PBUF_ENTRIES` -/
  pbufEntries : Nat
deriving DecidableEq, Repr

namespace Config

/-- The defaults of 00_scope.md R6. -/
def defaultParams : Params := { ibufBytes := 65536, obufBytes := 131072, pbufEntries := 32768 }

/-- The least capacities of 00_scope.md R6, and (DEDUCED, log 3) that a length fits the 32-bit registers OLEN, PLEN and
POS that must hold it. -/
def paramsOk (p : Params) : Bool :=
  decide (16 ≤ p.ibufBytes) && decide (32 ≤ p.obufBytes) && decide (4 ≤ p.pbufEntries) &&
  decide (p.ibufBytes < 2 ^ 32) && decide (p.obufBytes < 2 ^ 32) && decide (p.pbufEntries < 2 ^ 32)

/-- FREE VALUE. A draw (00_scope.md R17): "a value this spec does not determine; a model must allow any value". The first
argument names the draw (a plain counter of State), the second the element of a buffer it stands in. It has no body:
nothing can be proved of its values (10_state.md R48; 93_implementation_defined.md U2 to U5; log 1). -/
opaque draw : Nat → Nat → Word

end Config

end Sys2Proof
end

