-- ==== Sys2Proof/Syntax.lean ====
section
/-! DEFINITION. The instructions of SIRC: one constructor for each row of spec/opcode_table.json. -/

namespace Sys2Proof

/-- The rows of the opcode table. The first twelve are command words (30_encoding.md R70 to R73); the rest are stream
forms, byte sequences that the operations read and write (30_encoding.md R75 to R88). -/
inductive Instr where
  /-- `PRONTO_DEC`, OP 0x01 (40_pronto.md R100); LEVEL is ignored (R72). -/
  | prontoDec (level : BitVec 2)
  /-- `BL_ENC`, OP 0x02 (41_broadlink.md R110). -/
  | blEnc (level : BitVec 2)
  /-- `BL_DEC`, OP 0x03 (41_broadlink.md R116). -/
  | blDec (level : BitVec 2)
  /-- `SER16`, OP 0x04 (41_broadlink.md R125). -/
  | ser16 (level : BitVec 2)
  /-- `TUYA_PACK`, OP 0x05 (43_tuya_levels.md R150). -/
  | tuyaPack (level : BitVec 2)
  /-- `TUYA_EXPAND`, OP 0x06 (42_tuya_format.md R140). -/
  | tuyaExpand (level : BitVec 2)
  /-- `B64_ENC`, OP 0x07 (44_base64.md R183). -/
  | b64Enc (level : BitVec 2)
  /-- `B64_DEC`, OP 0x08 (44_base64.md R185). -/
  | b64Dec (level : BitVec 2)
  /-- `TUYA_COMP`, OP 0x09 (45_chains.md R190). -/
  | tuyaComp (level : BitVec 2)
  /-- `PRONTO2BL`, OP 0x0A (45_chains.md R192). -/
  | pronto2Bl (level : BitVec 2)
  /-- `BL2TUYA`, OP 0x0B (45_chains.md R194). -/
  | bl2Tuya (level : BitVec 2)
  /-- `ILLEGAL`: any other command word, kept whole (30_encoding.md R73). -/
  | illegal (word : Word)
  /-- `LIT`: a literal block of its data bytes (30_encoding.md R81). -/
  | lit (data : List Byte)
  /-- `COPYS`: length field `f = length - 2` and `d = distance - 1` (30_encoding.md R82). -/
  | copyS (f : BitVec 3) (d : BitVec 13)
  /-- `COPYL`: `d = distance - 1` and `ext = length - 9` (30_encoding.md R83). -/
  | copyL (d : BitVec 13) (ext : Byte)
  /-- `P8`: a one-byte pulse code (30_encoding.md R77). -/
  | p8 (v : Byte)
  /-- `P16`: a three-byte pulse code (30_encoding.md R78). -/
  | p16 (v : BitVec 16)
  /-- `BL_HEADER`: the repeat byte and the payload length of a Broadlink packet (30_encoding.md R76). -/
  | blHeader (rep : Byte) (length : BitVec 16)
  /-- `PRONTO_HEADER`: words 1, 2 and 3 of a Pronto code, word 0 being 0 (30_encoding.md R75). -/
  | prontoHeader (divisor once rep : BitVec 16)
  /-- `PULSE16`: one serialised pulse (30_encoding.md R80). -/
  | pulse16 (p : BitVec 16)
  /-- `B64_QUANTUM`: the four 6-bit values of a quantum, a padding character counting as 0, and how many padding
  characters it ends with (30_encoding.md R88; 44_base64.md R182). -/
  | b64Quantum (a b c d : BitVec 6) (npad : Nat)
deriving DecidableEq, Repr

end Sys2Proof
end

