-- ==== Sys2Proof/Machine/State.lean ====
section
/-! DEFINITION. The state of one SIRC instance as plain data (10_state.md), the reasons a step can stop, and the state
right after reset (10_state.md R47; 70_reset_and_hazards.md R240). -/

namespace Sys2Proof.Machine

open Sys2Proof (Byte Word Params Instr)

/-- A buffer of `w`-bit elements: the elements whose content is determined, as (index, value) pairs with strictly rising
indices, and the name of the draw that every other element reads as (10_state.md R48; log 1, log 18). For `w = 8` the
cells are `Host.Cell`s. -/
structure Memory (w : Nat) where
  cells : List (Nat × BitVec w)
  seed : Nat
deriving DecidableEq, Repr

/-- The field STATE of register STATUS (10_state.md R24). -/
inductive Status where
  /-- 0: no result pending. -/
  | idle
  /-- 1: an operation is in progress. -/
  | busy
  /-- 2: the last operation completed with a result. -/
  | done
  /-- 3: the last operation ended with a fault. -/
  | fault
deriving DecidableEq, Repr

/-- The fault codes an operation can record in register ERR (60_exceptions.md R210). -/
inductive ErrCode where
  | invalidPreamble
  | lengthMismatch
  | unsupportedPacketType
  | truncatedPacket
  | encodingInvariantViolation
  | illegalCommand
  | capacityExceeded
  | valueRange
  | zeroCarrier
  | streamInvalid
  | base64Invalid
deriving DecidableEq, Repr

/-- A warning set (60_exceptions.md R227). -/
structure Warn where
  trailingNonzero : Bool
  zeroTick : Bool
deriving DecidableEq, Repr

/-- The empty warning set. -/
def Warn.none : Warn := { trailingNonzero := false, zeroTick := false }

/-- The suffix array `SFX` and the next position to insert, `np` (10_state.md R35, R36; 43_tuya_levels.md R157). -/
structure Sfx where
  entries : List Nat
  next : Nat
deriving DecidableEq, Repr

/-- A record of the level-3 table `PRED` (10_state.md R37). -/
structure PredRec where
  cost : Nat
  len : Nat
  dist : Nat
deriving DecidableEq, Repr

/-- The hidden state of a running operation: the working registers that live from one turn of the operation to the next,
the suffix array, the predecessor table and the chain scratch (10_state.md R35 to R38; log 7). The output cursor `o` is
`out.length`, the pulse cursor `q` is `pulses.length`. -/
structure Work where
  /-- The MODEL's: the operation is being carried out turn by turn (log 6). -/
  opened : Bool
  /-- The MODEL's: the stage of a composite operation (45_chains.md R190 to R194). -/
  stage : Nat
  /-- `pos` -/
  pos : Nat
  /-- `end`, the end of the Broadlink payload -/
  payloadEnd : Nat
  /-- `bs`, the start of the pending literal run -/
  runStart : Nat
  /-- `OBUF[0:o]`, the bytes emitted so far -/
  out : List Byte
  /-- `PBUF[0:q]`, the pulses pushed so far -/
  pulses : List Word
  /-- `warnset` -/
  warn : Warn
  /-- `SFX` and `np` -/
  sfx : Sfx
  /-- `PRED` -/
  pred : List (Option PredRec)
  /-- the chain scratch -/
  scratch : List Byte
deriving DecidableEq, Repr

/-- The working state between operations: everything holds nothing (10_state.md R47). -/
def Work.closed : Work :=
  { opened := false, stage := 0, pos := 0, payloadEnd := 0, runStart := 0, out := [], pulses := [], warn := Warn.none,
    sfx := { entries := [], next := 0 }, pred := [], scratch := [] }

/-- The working state at the start of an operation. -/
def Work.start : Work := { Work.closed with opened := true }

/-- The byte buffers a host transaction can name (20_memory.md R51). -/
inductive ByteSpace where
  | ibuf
  | obuf
deriving DecidableEq, Repr

/-- What the host can do to SIRC: the six transactions of 20_memory.md R51, and the reset input, asserted and released in one move
(70_reset_and_hazards.md R240, R241; log 20). -/
inductive Transaction where
  | regRead (r : Nat)
  | regWrite (r : Nat) (v : Word)
  | bufRead (x : ByteSpace) (i : Nat)
  | bufWrite (x : ByteSpace) (i : Nat) (b : Byte)
  | pulseRead (i : Nat)
  | pulseWrite (i : Nat) (v : Word)
  | reset
deriving DecidableEq, Repr

/-- One entry of the schedule: which agent moves next (log 4, log 6). -/
inductive Move where
  /-- The host's transaction. -/
  | host (t : Transaction)
  /-- The engine's turn: the whole operation, or one turn of an operation already opened. -/
  | engine
  /-- The engine opens its operation, to carry it out turn by turn. -/
  | openOp
deriving DecidableEq, Repr

/-- The buffers an operation has as outputs (the column "writes" of 30_encoding.md R71). -/
structure Outputs where
  obuf : Bool
  pbuf : Bool
deriving DecidableEq, Repr

/-- What one turn of an operation ends in: the operation goes on, it completes (with the position, warnings and outputs
of the working state), or it raises a fault with its recorded value, `none` standing for a draw (00_scope.md R13;
60_exceptions.md R222). -/
inductive Turn where
  | more (w : Work)
  | done (w : Work)
  | raise (c : ErrCode) (p : Option Nat) (ws : Warn)
deriving DecidableEq, Repr

/-- What the engine finds at the cursor of an opened operation: a stream form of the opcode table, or a turn that is no
form (the end of the input, a cut form, a Pronto burst word, a turn of a compressor). -/
inductive Fetched where
  | form (i : Instr)
  | plain (t : Turn)
deriving DecidableEq, Repr

/-- The reasons for which the machine itself stops: none. The faults of SIRC are recorded in ERR and leave a next state
(60_exceptions.md R221); "There is no `stuck` behaviour in SIRC" (93_implementation_defined.md section 1; log 17). -/
inductive Fault where
deriving DecidableEq, Repr

/-- The reasons for which a step has no meaning. -/
inductive Refusal where
  /-- Raised by an arm of `exec` for an instruction that has no meaning yet. Safe. No arm raises it. -/
  | notModelled (mnemonic : String)
deriving DecidableEq, Repr

/-- The state: the registers and buffers of 10_state.md R20, the hidden state of the running operation, and the model's
own fields `params`, `draws`, `sched` and `rdata`. Register ID and the reserved registers are hard-wired and have no
field; STATUS is a function of `status` and `ctrl`. -/
structure State where
  /-- The capacity parameters (00_scope.md R6; log 3). -/
  params : Params
  /-- `CTRL` (R22) -/
  ctrl : Word
  /-- `CMD` (R23) -/
  cmd : Word
  /-- `STATUS.STATE` (R24) -/
  status : Status
  /-- `ERR` (R25) -/
  err : Word
  /-- `WARN` (R26) -/
  warn : Word
  /-- `ILEN` (R27) -/
  ilen : Word
  /-- `OLEN` (R28) -/
  olen : Word
  /-- `PLEN` (R29) -/
  plen : Word
  /-- `POS` (R30) -/
  pos : Word
  /-- `IBUF` (R32) -/
  ibuf : Memory 8
  /-- `OBUF` (R33) -/
  obuf : Memory 8
  /-- `PBUF` (R34) -/
  pbuf : Memory 32
  /-- The hidden state of the running operation (R35 to R38). -/
  work : Work
  /-- The MODEL's: how many draws have been named so far (log 1). -/
  draws : Nat
  /-- The MODEL's: the moves still to happen (log 4). -/
  sched : List Move
  /-- The MODEL's: what the last read transaction returned (log 5). -/
  rdata : Word
deriving DecidableEq, Repr

/-- The machine right after reset (10_state.md R47; 70_reset_and_hazards.md R240): every register 0 but ID, STATE = IDLE,
every buffer element a draw, the hidden state empty. The seeds 0, 1, 2 and the counter 3, the empty schedule and the read
port's 0 are the model's (log 1, log 4, log 5); the capacities are the spec's defaults (log 3). -/
def State.reset : State :=
  { params := Config.defaultParams, ctrl := 0, cmd := 0, status := .idle, err := 0, warn := 0, ilen := 0, olen := 0,
    plen := 0, pos := 0, ibuf := { cells := [], seed := 0 }, obuf := { cells := [], seed := 1 },
    pbuf := { cells := [], seed := 2 }, work := Work.closed, draws := 3, sched := [], rdata := 0 }

end Sys2Proof.Machine
end

