-- ==== Sys2Proof/Machine/Flags.lean ====
section
/-! DEFINITION. The status flags of SIRC (10_state.md R41): STATUS with its interrupt line, the value of ERR, the value
of WARN. -/

namespace Sys2Proof.Machine

/-- The code of STATUS.STATE (10_state.md R24). -/
def Status.code : Status → Word
  | .idle => 0
  | .busy => 1
  | .done => 2
  | .fault => 3

/-- An operation has ended and has not been acknowledged. -/
def Status.finished : Status → Bool
  | .idle => false
  | .busy => false
  | .done => true
  | .fault => true

/-- `CTRL.IE` (10_state.md R22). -/
def State.ie (s : State) : Bool := s.ctrl.getLsbD 0

/-- The interrupt line, `CTRL.IE and (STATE = DONE or STATE = FAULT)` (60_exceptions.md R226). -/
def State.irq (s : State) : Bool := s.ie && s.status.finished

/-- The value of register STATUS (10_state.md R24). -/
def State.statusWord (s : State) : Word := s.status.code + (if s.irq then 4 else 0)

/-- `ERR.CODE` (60_exceptions.md R210). -/
def ErrCode.code : ErrCode → Nat
  | .invalidPreamble => 1
  | .lengthMismatch => 2
  | .unsupportedPacketType => 3
  | .truncatedPacket => 4
  | .encodingInvariantViolation => 5
  | .illegalCommand => 6
  | .capacityExceeded => 7
  | .valueRange => 8
  | .zeroCarrier => 9
  | .streamInvalid => 10
  | .base64Invalid => 11

/-- `ERR.CLASS` (60_exceptions.md R210, R224). -/
def ErrCode.cls : ErrCode → Nat
  | .invalidPreamble => 1
  | .lengthMismatch => 1
  | .unsupportedPacketType => 1
  | .truncatedPacket => 1
  | .encodingInvariantViolation => 2
  | .illegalCommand => 3
  | .capacityExceeded => 3
  | .valueRange => 3
  | .zeroCarrier => 3
  | .streamInvalid => 3
  | .base64Invalid => 3

/-- The value written to ERR, `CLASS << 8 | CODE` (60_exceptions.md R210). -/
def ErrCode.word (c : ErrCode) : Word := BitVec.ofNat 32 (c.cls * 256 + c.code)

/-- The value written to WARN (10_state.md R26). -/
def Warn.word (ws : Warn) : Word := (if ws.trailingNonzero then 1 else 0) + (if ws.zeroTick then 2 else 0)

/-- The warnings of a stage added to those gathered before it (45_chains.md R197). -/
def Warn.join (a b : Warn) : Warn :=
  { trailingNonzero := a.trailingNonzero || b.trailingNonzero, zeroTick := a.zeroTick || b.zeroTick }

end Sys2Proof.Machine
end

