-- ==== Sys2Proof/Machine/Constants.lean ====
section
/-! DEFINITION. The constants of 00_scope.md R5 and R21, each named once (93_implementation_defined.md U1; log 15). -/

namespace Sys2Proof.Machine

/-- `WINDOW`: the largest back-reference distance (R5). -/
def window : Nat := 8192
/-- `LEN_MAX`: the largest back-reference length, 255 + 9 (R5). -/
def lenMax : Nat := 264
/-- `LEN_MIN` (R5). -/
def lenMin : Nat := 3
/-- `LIT_MAX`: the most bytes of one literal block (R5). -/
def litMax : Nat := 32
/-- `TICK_NUM` (R5). -/
def tickNum : Nat := 269
/-- `TICK_DEN` (R5). -/
def tickDen : Nat := 8192
/-- The numerator of `PRONTO_UNIT = 120623/500000` microseconds (R5). -/
def prontoUnitNum : Nat := 120623
/-- The denominator of `PRONTO_UNIT` (R5). -/
def prontoUnitDen : Nat := 500000
/-- `BL_IR`: the Broadlink command byte for IR (R5). -/
def blIr : Byte := 0x26#8
/-- `BL_TRAILER` (R5). -/
def blTrailer : List Byte := [0x0d#8, 0x05#8]
/-- `BL_ALIGN` (R5). -/
def blAlign : Nat := 16
/-- `BL_BIAS` (R5). -/
def blBias : Nat := 4
/-- The least payload length BL_DEC accepts (41_broadlink.md R118). -/
def blMinPayload : Nat := 3
/-- `PULSE16_MAX` (R5). -/
def pulse16Max : Nat := 65535
/-- The constant of register ID (10_state.md R21). -/
def idWord : Word := 0x53495243#32
/-- The base64 padding character `=` (44_base64.md R181). -/
def padChar : Byte := 0x3D#8

end Sys2Proof.Machine
end

