-- ==== Sys2Proof/WellFormed.lean ====
section
/-! DEFINITION. Which instruction terms stand for an encoding: the ranges of the spec's field tables. -/

namespace Sys2Proof

/-- A command word is legal when bits 31:10 are 0 and OP is in 0x01..0x0B (30_encoding.md R73). -/
def legalCommand (w : Word) : Bool :=
  (w >>> 10 == 0) && decide (1 ≤ w.toNat % 256) && decide (w.toNat % 256 ≤ 11)

/-- The check of every instruction's operands. A `P8` of 0 can be written by BL_ENC but stands for no code that can be
read (30_encoding.md R77), so it is not well formed. -/
def Instr.wf : Instr → Bool
  | .prontoDec _ => true
  | .blEnc _ => true
  | .blDec _ => true
  | .ser16 _ => true
  | .tuyaPack _ => true
  | .tuyaExpand _ => true
  | .b64Enc _ => true
  | .b64Dec _ => true
  | .tuyaComp _ => true
  | .pronto2Bl _ => true
  | .bl2Tuya _ => true
  | .illegal w => !legalCommand w
  | .lit data => decide (1 ≤ data.length) && decide (data.length ≤ 32)
  | .copyS f _ => (f != 0) && (f != 7)
  | .copyL _ _ => true
  | .p8 v => v != 0
  | .p16 _ => true
  | .blHeader _ _ => true
  | .prontoHeader _ _ _ => true
  | .pulse16 _ => true
  | .b64Quantum _ _ c d npad =>
      decide (npad ≤ 2) && (decide (npad = 0) || d == 0) && (decide (npad ≤ 1) || c == 0)

end Sys2Proof
end

