-- ==== Sys2Proof/Decode.lean ====
section
/-! DEFINITION. Decoding of command words and stream forms, total on any word and any bytes, rejecting by name; and the
encoder, written from the same tables (30_encoding.md). -/

namespace Sys2Proof

open Machine (blIr padChar)

/-! ### Byte orders -/

/-- `be16(h, l) = h*256 + l` (00_scope.md R12). -/
def be16 (h l : Byte) : BitVec 16 := h ++ l

/-- `le16(l, h) = h*256 + l` (00_scope.md R12). -/
def le16 (l h : Byte) : BitVec 16 := h ++ l

/-- The low byte of a 16-bit value. -/
def lo8 (v : BitVec 16) : Byte := v.extractLsb' 0 8

/-- The high byte of a 16-bit value. -/
def hi8 (v : BitVec 16) : Byte := v.extractLsb' 8 8

/-! ### The base64 alphabet (44_base64.md R181) -/

/-- `ALPHA[s]`. -/
def alphaChar (s : BitVec 6) : Byte :=
  if s.toNat < 26 then BitVec.ofNat 8 (0x41 + s.toNat)
  else if s.toNat < 52 then BitVec.ofNat 8 (0x61 + (s.toNat - 26))
  else if s.toNat < 62 then BitVec.ofNat 8 (0x30 + (s.toNat - 52))
  else if s.toNat = 62 then 0x2B#8
  else 0x2F#8

/-- `VAL[c]`, defined on exactly the 64 characters of the alphabet. -/
def charVal (c : Byte) : Option (BitVec 6) :=
  if 0x41 ≤ c.toNat ∧ c.toNat ≤ 0x5A then some (BitVec.ofNat 6 (c.toNat - 0x41))
  else if 0x61 ≤ c.toNat ∧ c.toNat ≤ 0x7A then some (BitVec.ofNat 6 (c.toNat - 0x61 + 26))
  else if 0x30 ≤ c.toNat ∧ c.toNat ≤ 0x39 then some (BitVec.ofNat 6 (c.toNat - 0x30 + 52))
  else if c = 0x2B#8 then some 62#6
  else if c = 0x2F#8 then some 63#6
  else none

/-! ### Command words -/

/-- The instruction of a command word: OP in bits 7:0, LEVEL in bits 9:8, every other word illegal
(30_encoding.md R70, R71, R73). -/
def decodeCommand (w : Word) : Instr :=
  let level : BitVec 2 := w.extractLsb' 8 2
  if w.extractLsb' 10 22 = 0#22 then
    match (w.extractLsb' 0 8).toNat with
    | 1 => .prontoDec level
    | 2 => .blEnc level
    | 3 => .blDec level
    | 4 => .ser16 level
    | 5 => .tuyaPack level
    | 6 => .tuyaExpand level
    | 7 => .b64Enc level
    | 8 => .b64Dec level
    | 9 => .tuyaComp level
    | 10 => .pronto2Bl level
    | 11 => .bl2Tuya level
    | _ => .illegal w
  else .illegal w

/-- The word of an operation code and a level, bits 31:10 zero (30_encoding.md R70, R89). -/
def commandWord (op : Byte) (level : BitVec 2) : Word := (0#22 ++ level) ++ op

/-! ### Stream forms -/

/-- The byte formats of the stream forms (the column `format` of spec/opcode_table.json). -/
inductive Format where
  | tuyaBlock
  | blPulse
  | blFrame
  | pronto
  | pulses16
  | base64
deriving DecidableEq, Repr

/-- Why bytes are no form of their format. -/
inductive DecodeError where
  /-- The form runs past the end of its bytes. -/
  | truncated
  /-- A Broadlink packet whose first byte is not 0x26. -/
  | unsupportedType
  /-- A Pronto code whose first word is not 0. -/
  | badPreamble
  /-- A Pronto code with an odd number of bytes or without its first four words. -/
  | badLength
  /-- A base64 character, at this offset in its quantum, that may not stand there. -/
  | badCharacter (offset : Nat)
deriving DecidableEq, Repr

/-- A Tuya block, told by the top three bits of its first byte (30_encoding.md R81 to R84). -/
def decodeTuya : List Byte → Except DecodeError Instr
  | [] => .error .truncated
  | h :: rest =>
    let t : BitVec 3 := h.extractLsb' 5 3
    let dh : BitVec 5 := h.extractLsb' 0 5
    if t = 0#3 then
      let n := dh.toNat + 1
      if rest.length < n then .error .truncated else .ok (.lit (rest.take n))
    else if t = 7#3 then
      match rest with
      | ext :: dl :: _ => .ok (.copyL (dh ++ dl) ext)
      | _ => .error .truncated
    else
      match rest with
      | dl :: _ => .ok (.copyS t (dh ++ dl))
      | [] => .error .truncated

/-- A Broadlink pulse code, told by its first byte (30_encoding.md R77 to R79). -/
def decodePulse : List Byte → Except DecodeError Instr
  | [] => .error .truncated
  | v :: rest =>
    if v = 0#8 then
      match rest with
      | h :: l :: _ => .ok (.p16 (be16 h l))
      | _ => .error .truncated
    else .ok (.p8 v)

/-- The header of a Broadlink packet; the command byte is looked at as soon as it exists (30_encoding.md R76;
41_broadlink.md R117). -/
def decodeBlHeader : List Byte → Except DecodeError Instr
  | [] => .error .truncated
  | c :: rest =>
    if c = blIr then
      match rest with
      | r :: l :: h :: _ => .ok (.blHeader r (le16 l h))
      | _ => .error .truncated
    else .error .unsupportedType

/-- The header of a Pronto code: the preamble first, then the shape of the length (30_encoding.md R75;
40_pronto.md R101, R102). -/
def decodeProntoHeader (bs : List Byte) : Except DecodeError Instr :=
  match bs with
  | a :: b :: rest =>
    if be16 a b = 0#16 then
      if bs.length % 2 = 1 then .error .badLength
      else
        match rest with
        | d1 :: d0 :: o1 :: o0 :: r1 :: r0 :: _ => .ok (.prontoHeader (be16 d1 d0) (be16 o1 o0) (be16 r1 r0))
        | _ => .error .badLength
    else .error .badPreamble
  | _ => .error .badLength

/-- One serialised pulse, low byte first (30_encoding.md R80). -/
def decodePulse16 : List Byte → Except DecodeError Instr
  | l :: h :: _ => .ok (.pulse16 (le16 l h))
  | _ => .error .truncated

/-- A base64 quantum at the front of a text: four characters, `=` only in the last two places of the last quantum and
no data after it (44_base64.md R185; the offsets are those of R186). -/
def decodeQuantum : List Byte → Except DecodeError Instr
  | c0 :: c1 :: c2 :: c3 :: rest =>
    match charVal c0 with
    | none => .error (.badCharacter 0)
    | some a =>
      match charVal c1 with
      | none => .error (.badCharacter 1)
      | some b =>
        if c2 = padChar then
          if rest ≠ [] then .error (.badCharacter 2)
          else if c3 = padChar then .ok (.b64Quantum a b 0 0 2)
          else .error (.badCharacter 3)
        else
          match charVal c2 with
          | none => .error (.badCharacter 2)
          | some c =>
            if c3 = padChar then
              if rest ≠ [] then .error (.badCharacter 3) else .ok (.b64Quantum a b c 0 1)
            else
              match charVal c3 with
              | none => .error (.badCharacter 3)
              | some d => .ok (.b64Quantum a b c d 0)
  | _ => .error .truncated

/-- The form at the front of bytes of a format. -/
def decodeForm (fmt : Format) (bs : List Byte) : Except DecodeError Instr :=
  match fmt with
  | .tuyaBlock => decodeTuya bs
  | .blPulse => decodePulse bs
  | .blFrame => decodeBlHeader bs
  | .pronto => decodeProntoHeader bs
  | .pulses16 => decodePulse16 bs
  | .base64 => decodeQuantum bs

/-! ### The encoder -/

/-- An encoded instruction: a command word, or the bytes of a stream form of a format, first byte first. -/
inductive Encoded where
  | word (w : Word)
  | bytes (fmt : Format) (bs : List Byte)
deriving DecidableEq, Repr

/-- Decoding of an encoded instruction. -/
def decode : Encoded → Except DecodeError Instr
  | .word w => .ok (decodeCommand w)
  | .bytes fmt bs => decodeForm fmt bs

/-- The four characters of a quantum (44_base64.md R182). -/
def quantumChars (a b c d : BitVec 6) (npad : Nat) : List Byte :=
  [alphaChar a, alphaChar b, if npad ≤ 1 then alphaChar c else padChar, if npad = 0 then alphaChar d else padChar]

/-- The encoding of every instruction, from the tables of 30_encoding.md R70, R71 and R75 to R88. -/
def encode : Instr → Encoded
  | .prontoDec l => .word (commandWord 0x01#8 l)
  | .blEnc l => .word (commandWord 0x02#8 l)
  | .blDec l => .word (commandWord 0x03#8 l)
  | .ser16 l => .word (commandWord 0x04#8 l)
  | .tuyaPack l => .word (commandWord 0x05#8 l)
  | .tuyaExpand l => .word (commandWord 0x06#8 l)
  | .b64Enc l => .word (commandWord 0x07#8 l)
  | .b64Dec l => .word (commandWord 0x08#8 l)
  | .tuyaComp l => .word (commandWord 0x09#8 l)
  | .pronto2Bl l => .word (commandWord 0x0A#8 l)
  | .bl2Tuya l => .word (commandWord 0x0B#8 l)
  | .illegal w => .word w
  | .lit data => .bytes .tuyaBlock ((0#3 ++ BitVec.ofNat 5 (data.length - 1)) :: data)
  | .copyS f d => .bytes .tuyaBlock [f ++ d.extractLsb' 8 5, d.extractLsb' 0 8]
  | .copyL d ext => .bytes .tuyaBlock [7#3 ++ d.extractLsb' 8 5, ext, d.extractLsb' 0 8]
  | .p8 v => .bytes .blPulse [v]
  | .p16 v => .bytes .blPulse [0#8, hi8 v, lo8 v]
  | .blHeader r l => .bytes .blFrame [blIr, r, lo8 l, hi8 l]
  | .prontoHeader d o r => .bytes .pronto [0#8, 0#8, hi8 d, lo8 d, hi8 o, lo8 o, hi8 r, lo8 r]
  | .pulse16 p => .bytes .pulses16 [lo8 p, hi8 p]
  | .b64Quantum a b c d npad => .bytes .base64 (quantumChars a b c d npad)

/-! ### The opcode table's words -/

/-- The `n` bytes of a number, the first byte the MOST significant, as the rows of spec/opcode_table.json number the
bits of a stream form (`match` 0xE00000 of COPYL has its tag in the first byte; log 9). -/
def tableBytes : Nat → Nat → List Byte
  | 0, _ => []
  | n + 1, w => BitVec.ofNat 8 (w / 256 ^ n) :: tableBytes n w

/-- What a word of the opcode table is laid out as: the row whose width and fixed bits it has, in the table's order; a
form of operand bytes that the table gives no bits is followed by bytes of zeros (log 9). -/
def tableEncoded (nbits w : Nat) : Option Encoded :=
  if nbits = 8 then
    if w / 32 % 8 = 0 then some (.bytes .tuyaBlock (tableBytes 1 w ++ List.replicate 32 0#8))
    else some (.bytes .blPulse (tableBytes 1 w))
  else if nbits = 16 then
    if w / 8192 % 8 = 0 ∨ w / 8192 % 8 = 7 then some (.bytes .pulses16 (tableBytes 2 w))
    else some (.bytes .tuyaBlock (tableBytes 2 w))
  else if nbits = 24 then
    if w / 2097152 % 8 = 7 then some (.bytes .tuyaBlock (tableBytes 3 w))
    else if w / 65536 % 256 = 0 then some (.bytes .blPulse (tableBytes 3 w))
    else some (.bytes .base64 (quantumChars (BitVec.ofNat 6 (w / 262144)) (BitVec.ofNat 6 (w / 4096))
      (BitVec.ofNat 6 (w / 64)) (BitVec.ofNat 6 w) 0))
  else if nbits = 32 then
    if w / 16777216 % 256 = 38 then some (.bytes .blFrame (tableBytes 4 w))
    else some (.word (BitVec.ofNat 32 w))
  else if nbits = 64 then some (.bytes .pronto (tableBytes 8 w))
  else none

/-- The instruction the decoder reads from a word of the opcode table (none where it refuses). -/
def decodeTableWord (nbits w : Nat) : Option Instr :=
  match tableEncoded nbits w with
  | none => none
  | some e =>
    match decode e with
    | .ok i => some i
    | .error _ => none

end Sys2Proof
end

