-- ==== Sys2Proof/Machine/Operands.lean ====
section
/-! DEFINITION. Reading and writing of one buffer element, the operands of an operation (the valid parts of IBUF and
PBUF), and the numbers a form's fields stand for (30_encoding.md R85). -/

namespace Sys2Proof.Machine

open Sys2Proof

/-! ### Buffers -/

/-- The value listed for an index. -/
def cellAt {w : Nat} : List (Nat × BitVec w) → Nat → Option (BitVec w)
  | [], _ => none
  | (a, v) :: rest, i => if a = i then some v else cellAt rest i

/-- What an element that is not listed reads as: the free value of the buffer's seed (10_state.md R48; log 1, log 2). -/
def drawAt (w seed i : Nat) : BitVec w := (Config.draw seed i).setWidth w

/-- Element `i` of a buffer. -/
def Memory.read {w : Nat} (m : Memory w) (i : Nat) : BitVec w := (cellAt m.cells i).getD (drawAt w m.seed i)

/-- The cells with one element written, indices kept strictly rising. -/
def insertCell {w : Nat} (i : Nat) (v : BitVec w) : List (Nat × BitVec w) → List (Nat × BitVec w)
  | [] => [(i, v)]
  | (a, u) :: rest =>
    if i < a then (i, v) :: (a, u) :: rest
    else if i = a then (i, v) :: rest
    else (a, u) :: insertCell i v rest

/-- `X[i] <- v` (00_scope.md R12). -/
def Memory.write {w : Nat} (m : Memory w) (i : Nat) (v : BitVec w) : Memory w :=
  { m with cells := insertCell i v m.cells }

/-- The cells of a list of values from an index on. -/
def cellsFrom {w : Nat} : Nat → List (BitVec w) → List (Nat × BitVec w)
  | _, [] => []
  | i, v :: vs => (i, v) :: cellsFrom (i + 1) vs

/-- A buffer whose valid part is a list and whose other elements are draws. -/
def Memory.ofList {w : Nat} (vs : List (BitVec w)) (seed : Nat) : Memory w := { cells := cellsFrom 0 vs, seed := seed }

/-- `X[i], ..., X[i+n-1]` (00_scope.md R12). -/
def Memory.slice {w : Nat} (m : Memory w) : Nat → Nat → List (BitVec w)
  | _, 0 => []
  | i, n + 1 => m.read i :: m.slice (i + 1) n

/-- Strictly rising indices, from a bound on. -/
def risingFrom {w : Nat} : Nat → List (Nat × BitVec w) → Bool
  | _, [] => true
  | b, (a, _) :: rest => decide (b ≤ a) && risingFrom (a + 1) rest

/-- The canonical form of a buffer of `cap` elements: strictly rising indices, none outside the buffer. An unlisted
element reads as a draw, which no listed value is known to equal (log 18). -/
def Memory.wf {w : Nat} (cap : Nat) (m : Memory w) : Bool :=
  risingFrom 0 m.cells && m.cells.all (fun c => decide (c.1 < cap))

/-! ### The operands of an operation -/

/-- `IBUF[0:ILEN]` (10_state.md R27, R32). -/
def State.inputBytes (s : State) : List Byte := s.ibuf.slice 0 s.ilen.toNat

/-- `PBUF[0:PLEN]` (10_state.md R29, R34). -/
def State.inputPulses (s : State) : List Word := s.pbuf.slice 0 s.plen.toNat

/-- `OBUF[0:OLEN]` (10_state.md R28, R33). -/
def State.outputBytes (s : State) : List Byte := s.obuf.slice 0 s.olen.toNat

/-- `X[a:b]` of a list, empty when `a >= b` (00_scope.md R12). -/
def between (a b : Nat) (data : List Byte) : List Byte := (data.take b).drop a

/-! ### Fields of forms (30_encoding.md R85) -/

/-- `length = f + 2` of COPYS. -/
def shortLength (f : BitVec 3) : Nat := f.toNat + 2

/-- `length = ext + 9` of COPYL. -/
def longLength (ext : Byte) : Nat := ext.toNat + 9

/-- `distance = d + 1` of both distance forms. -/
def distanceOf (d : BitVec 13) : Nat := d.toNat + 1

end Sys2Proof.Machine
end

