-- ==== Sys2Proof/Machine/Ops.lean ====
section
/-! DEFINITION. The shared operations: emitting and pushing with their capacity checks, committing or invalidating an
output, completion, taking a fault and returning from one, and running an operation turn by turn. -/

namespace Sys2Proof.Machine

open Sys2Proof

/-! ### `emit` and `push` (00_scope.md R13) -/

/-- `emit` of each byte of a list in order. A fault leaves no partial output (60_exceptions.md R221), so the capacity is
checked once for the list. -/
def emit (cap : Nat) (bs out : List Byte) : Except ErrCode (List Byte) :=
  if cap < out.length + bs.length then .error .capacityExceeded else .ok (out ++ bs)

/-- `push(v)`. -/
def push (cap : Nat) (v : Word) (ps : List Word) : Except ErrCode (List Word) :=
  if cap ≤ ps.length then .error .capacityExceeded else .ok (ps ++ [v])

/-- The turn that goes on with the bytes emitted, at a new cursor, or raises the emission's fault with a draw for its
position. -/
def Work.emitting (w : Work) (p : Nat) (r : Except ErrCode (List Byte)) : Turn :=
  match r with
  | .error c => .raise c none w.warn
  | .ok out => .more { w with out := out, pos := p }

/-- The same for a push. -/
def Work.pushing (w : Work) (p : Nat) (r : Except ErrCode (List Word)) : Turn :=
  match r with
  | .error c => .raise c none w.warn
  | .ok ps => .more { w with pulses := ps, pos := p }

/-! ### Outputs -/

/-- `OBUF` and `OLEN` hold a result; the elements beyond it are draws (10_state.md R28, R33). -/
def State.commitObuf (s : State) (bs : List Byte) : State :=
  { s with obuf := Memory.ofList bs s.draws, olen := BitVec.ofNat 32 bs.length, draws := s.draws + 1 }

/-- `PBUF` and `PLEN` hold a result; the elements beyond it are draws (10_state.md R29, R34). -/
def State.commitPbuf (s : State) (ps : List Word) : State :=
  { s with pbuf := Memory.ofList ps s.draws, plen := BitVec.ofNat 32 ps.length, draws := s.draws + 1 }

/-- An invalidated output: length 0, every element a draw (60_exceptions.md R221). -/
def State.dropObuf (s : State) : State :=
  { s with obuf := { cells := [], seed := s.draws }, olen := 0, draws := s.draws + 1 }

/-- An invalidated pulse output (60_exceptions.md R221). -/
def State.dropPbuf (s : State) : State :=
  { s with pbuf := { cells := [], seed := s.draws }, plen := 0, draws := s.draws + 1 }

/-- The recorded value of a fault, a draw where the fault gives none (60_exceptions.md R222). -/
def State.recordPos (s : State) (p : Option Nat) : State :=
  match p with
  | some k => { s with pos := BitVec.ofNat 32 k }
  | none => { s with pos := Config.draw s.draws 0, draws := s.draws + 1 }

/-! ### Taking a fault, returning from one, completing -/

/-- TAKING A FAULT: the completion step of an operation that raised one. ERR, POS and WARN are written, the operation's
outputs invalidated, STATE becomes FAULT, the hidden state empty; nothing else changes and nothing is saved
(60_exceptions.md R221, R222; 10_state.md R46). -/
def State.takeFault (s : State) (outs : Outputs) (c : ErrCode) (p : Option Nat) (ws : Warn) : State :=
  let s1 := if outs.obuf then s.dropObuf else s
  let s2 := if outs.pbuf then s1.dropPbuf else s1
  { s2.recordPos p with err := c.word, warn := ws.word, status := .fault, work := Work.closed }

/-- Completion with a result (10_state.md R46): outputs and lengths, POS and WARN of the working state, ERR = 0, STATE =
DONE, the hidden state empty. -/
def State.complete (s : State) (outs : Outputs) (w : Work) : State :=
  let s1 := if outs.obuf then s.commitObuf w.out else s
  let s2 := if outs.pbuf then s1.commitPbuf w.pulses else s1
  { s2 with pos := BitVec.ofNat 32 w.pos, err := 0, warn := w.warn.word, status := .done, work := Work.closed }

/-- RETURN FROM A FAULT, and from a completion: `CTRL.ACK` moves DONE and FAULT to IDLE and has no effect elsewhere; nothing
is restored (60_exceptions.md R228). -/
def State.acknowledge (s : State) : State := if s.status.finished then { s with status := .idle } else s

/-- The state after a turn of the running operation. -/
def State.applyTurn (s : State) (outs : Outputs) : Turn → State
  | .more w => { s with work := w }
  | .done w => s.complete outs w
  | .raise c p ws => s.takeFault outs c p ws

/-! ### Running an operation -/

/-- Turns of an operation one after the other, at most so many. -/
def runTurns (f : Work → Turn) : Nat → Work → Turn
  | 0, w => .more w
  | k + 1, w =>
    match f w with
    | .more w' => runTurns f k w'
    | .done w' => .done w'
    | .raise c p ws => .raise c p ws

/-- A bound on the turns of an operation on `n` input units: every turn but the header's and the last one's advances the
cursor by at least 1, and a composite operation has at most four stages (70_reset_and_hazards.md R254; log 13). -/
def turnBound (n : Nat) : Nat := n + 8

/-- An operation that reads `IBUF`: the length is checked first (45_chains.md R202), then the turns run. -/
def State.runBytes (s : State) (outs : Outputs) (turn : List Byte → Work → Turn) : State :=
  if s.params.ibufBytes < s.ilen.toNat then s.takeFault outs .capacityExceeded none Warn.none
  else s.applyTurn outs (runTurns (turn s.inputBytes) (turnBound s.ilen.toNat) Work.start)

/-- An operation that reads `PBUF` (45_chains.md R202). -/
def State.runPulses (s : State) (outs : Outputs) (turn : List Word → Work → Turn) : State :=
  if s.params.pbufEntries < s.plen.toNat then s.takeFault outs .capacityExceeded none Warn.none
  else s.applyTurn outs (runTurns (turn s.inputPulses) (turnBound s.plen.toNat) Work.start)

/-- The two output columns of 30_encoding.md R71. -/
def toObuf : Outputs := { obuf := true, pbuf := false }
/-- `PBUF` only. -/
def toPbuf : Outputs := { obuf := false, pbuf := true }
/-- Both buffers. -/
def toBoth : Outputs := { obuf := true, pbuf := true }
/-- No output (60_exceptions.md R216). -/
def toNone : Outputs := { obuf := false, pbuf := false }

end Sys2Proof.Machine
end

