-- ==== Sys2Proof/Machine/Base64.lean ====
section
/-! DEFINITION. B64_ENC, B64_DEC and the form B64_QUANTUM (44_base64.md). -/

namespace Sys2Proof.Machine

open Sys2Proof

/-! ### B64_ENC -/

/-- The 24-bit group of three bytes, the first in bits 23:16 (44_base64.md R182). -/
def groupOf (b0 b1 b2 : Byte) : BitVec 24 := (b0 ++ b1) ++ b2

/-- The four characters of a group of which `npad` bytes are missing (44_base64.md R182). -/
def groupChars (g : BitVec 24) (npad : Nat) : List Byte :=
  quantumChars (g.extractLsb' 18 6) (g.extractLsb' 12 6) (g.extractLsb' 6 6) (g.extractLsb' 0 6) npad

/-- One turn of B64_ENC: the next one, two or three bytes become four characters (44_base64.md R183). -/
def b64EncTurn (p : Params) (data : List Byte) (w : Work) : Turn :=
  match data.drop w.pos with
  | [] => .done w
  | [b0] => w.emitting (w.pos + 1) (emit p.obufBytes (groupChars (groupOf b0 0 0) 2) w.out)
  | [b0, b1] => w.emitting (w.pos + 2) (emit p.obufBytes (groupChars (groupOf b0 b1 0) 1) w.out)
  | b0 :: b1 :: b2 :: _ => w.emitting (w.pos + 3) (emit p.obufBytes (groupChars (groupOf b0 b1 b2) 0) w.out)

/-- `B64_ENC` (44_base64.md R183). -/
def execB64Enc (_level : BitVec 2) (s : State) : Host.Outcome State Fault Refusal :=
  .next (s.runBytes toObuf (b64EncTurn s.params))

/-! ### B64_DEC -/

/-- `g = s[0] << 18 | s[1] << 12 | s[2] << 6 | s[3]` (44_base64.md R185). -/
def groupOfSextets (a b c d : BitVec 6) : BitVec 24 := (a ++ b) ++ (c ++ d)

/-- The turn of one quantum: the unused bits must be 0, then one, two or three bytes are emitted (44_base64.md R185). -/
def quantumTurn (p : Params) (a b c d : BitVec 6) (npad : Nat) (w : Work) : Turn :=
  let g := groupOfSextets a b c d
  if npad = 1 ∧ g.extractLsb' 0 8 ≠ 0#8 then .raise .base64Invalid (some (w.pos + 2)) w.warn
  else if npad = 2 ∧ g.extractLsb' 0 16 ≠ 0#16 then .raise .base64Invalid (some (w.pos + 1)) w.warn
  else
    w.emitting (w.pos + 4)
      (emit p.obufBytes
        (g.extractLsb' 16 8 ::
          ((if npad ≤ 1 then [g.extractLsb' 8 8] else []) ++ (if npad = 0 then [g.extractLsb' 0 8] else [])))
        w.out)

/-- What stands at the cursor of B64_DEC: the length is checked first, then quantum by quantum (44_base64.md R185, R186). -/
def fetchB64 (data : List Byte) (w : Work) : Fetched :=
  if data.length % 4 ≠ 0 then .plain (.raise .base64Invalid (some data.length) w.warn)
  else
    match data.drop w.pos with
    | [] => .plain (.done w)
    | b :: bs =>
      match decodeQuantum (b :: bs) with
      | .ok i => .form i
      | .error (.badCharacter j) => .plain (.raise .base64Invalid (some (w.pos + j)) w.warn)
      | .error _ => .plain (.raise .base64Invalid (some data.length) w.warn)

/-- One turn of B64_DEC (44_base64.md R185); the last form case is never met (log 13). -/
def b64DecTurn (p : Params) (data : List Byte) (w : Work) : Turn :=
  match fetchB64 data w with
  | .form (.b64Quantum a b c d npad) => quantumTurn p a b c d npad w
  | .form _ => .raise .base64Invalid (some w.pos) w.warn
  | .plain t => t

/-- `B64_DEC` (44_base64.md R185). -/
def execB64Dec (_level : BitVec 2) (s : State) : Host.Outcome State Fault Refusal :=
  .next (s.runBytes toObuf (b64DecTurn s.params))

/-- `B64_QUANTUM`: the engine takes a quantum of the running B64_DEC (44_base64.md R185; log 10). -/
def execB64Quantum (a b c d : BitVec 6) (npad : Nat) (s : State) : Host.Outcome State Fault Refusal :=
  .next (s.applyTurn toObuf (quantumTurn s.params a b c d npad s.work))

end Sys2Proof.Machine
end

