-- ==== Sys2Proof/Machine/Broadlink.lean ====
section
/-! DEFINITION. BL_ENC, BL_DEC, SER16 and the forms BL_HEADER, P8, P16 and PULSE16 (41_broadlink.md). -/

namespace Sys2Proof.Machine

open Sys2Proof

/-! ### BL_ENC -/

/-- The Broadlink tick of a pulse, `(p * 269) div 8192`, exact (41_broadlink.md R111). -/
def tick (v : Word) : Nat := v.toNat * tickNum / tickDen

/-- The pulse code of a tick: `P8` below 256, `P16` from 256 on (41_broadlink.md R111; `PULSE` of 30_encoding.md R91). -/
def pulseCode (t : Nat) : List Byte :=
  if t < 256 then [BitVec.ofNat 8 t] else [0#8, BitVec.ofNat 8 (t / 256), BitVec.ofNat 8 (t % 256)]

/-- Pass 1 of BL_ENC from entry `i` on: the lowest entry whose tick exceeds 65535 and the warnings gathered before it, or
the warnings of the whole train (41_broadlink.md R110, R112, R113). -/
def checkTicks : Nat → Warn → List Word → Except (Nat × Warn) Warn
  | _, ws, [] => .ok ws
  | i, ws, v :: vs =>
    if 65535 < tick v then .error (i, ws)
    else checkTicks (i + 1) (if tick v = 0 then { ws with zeroTick := true } else ws) vs

/-- The payload: one code per pulse, in order (41_broadlink.md R111). -/
def blPayload (pulses : List Word) : List Byte := pulses.flatMap (fun v => pulseCode (tick v))

/-- The number of padding bytes (41_broadlink.md R114). -/
def blPadding (l : Nat) : Nat :=
  (blAlign - ((l + blTrailer.length + 4 + blBias) % blAlign)) % blAlign

/-- The frame around a payload (30_encoding.md R76; 41_broadlink.md R114; `FRAME` of 30_encoding.md R91). -/
def blFrame (payload : List Byte) : List Byte :=
  [blIr, 0x00#8, BitVec.ofNat 8 (payload.length % 256), BitVec.ofNat 8 (payload.length / 256)] ++ payload ++
    blTrailer ++ List.replicate (blPadding payload.length) 0#8

/-- BL_ENC on a train, in one turn (41_broadlink.md R110). -/
def blEncTurn (p : Params) (pulses : List Word) (w : Work) : Turn :=
  if p.pbufEntries < pulses.length then .raise .capacityExceeded none w.warn
  else
    match checkTicks 0 w.warn pulses with
    | .error (i, ws) => .raise .valueRange (some i) ws
    | .ok ws =>
      if 65535 < (blPayload pulses).length then .raise .valueRange (some pulses.length) ws
      else
        match emit p.obufBytes (blFrame (blPayload pulses)) w.out with
        | .error c => .raise c none ws
        | .ok out => .done { w with out := out, pos := pulses.length, warn := ws }

/-- `BL_ENC` (41_broadlink.md R110, R115). -/
def execBlEnc (_level : BitVec 2) (s : State) : Host.Outcome State Fault Refusal :=
  .next (s.runPulses toObuf (blEncTurn s.params))

/-! ### BL_DEC -/

/-- A tick rescaled to microseconds, `round(v * 8192 / 269)` (41_broadlink.md R119). -/
def rescale (v : Nat) : Nat := (v * (2 * tickDen) + tickNum) / (2 * tickNum)

/-- The header's turn (41_broadlink.md R118). `data` is the whole input. -/
def blHeaderTurn (n : Nat) (length : BitVec 16) (w : Work) : Turn :=
  if length.toNat < blMinPayload then .raise .truncatedPacket (some 2) w.warn
  else if n < 4 + length.toNat then .raise .truncatedPacket (some n) w.warn
  else .more { w with pos := 4, payloadEnd := 4 + length.toNat }

/-- The turn of one pulse code of `size` bytes and tick `v`, with the input bytes after the code: a value above 65535 stops
the decode and is dropped, with a warning when a byte left over is not 0; any other is pushed (41_broadlink.md R119, R121,
R122). -/
def blCodeTurn (p : Params) (leftover : List Byte) (size v : Nat) (w : Work) : Turn :=
  if pulse16Max < rescale v then
    .done { w with
      pos := w.pos + size
      warn := if leftover.any (fun b => b != 0#8) then { w.warn with trailingNonzero := true } else w.warn }
  else w.pushing (w.pos + size) (push p.pbufEntries (BitVec.ofNat 32 (rescale v)) w.pulses)

/-- What stands at the cursor of BL_DEC: the header at 0, pulse codes within the declared payload, the end
(41_broadlink.md R116 to R120). -/
def fetchBl (data : List Byte) (w : Work) : Fetched :=
  if w.pos = 0 then
    match decodeBlHeader data with
    | .ok i => .form i
    | .error .unsupportedType => .plain (.raise .unsupportedPacketType (some 0) w.warn)
    | .error _ => .plain (.raise .truncatedPacket (some data.length) w.warn)
  else if w.payloadEnd ≤ w.pos then .plain (.done w)
  else
    match decodePulse (between w.pos w.payloadEnd data) with
    | .ok i => .form i
    | .error _ => .plain (.raise .truncatedPacket (some w.pos) w.warn)

/-- One turn of BL_DEC (41_broadlink.md R116). The decoders answer the three forms named or an error, so the last form case is
never met (log 13). -/
def blDecTurn (p : Params) (data : List Byte) (w : Work) : Turn :=
  match fetchBl data w with
  | .form (.blHeader _ length) => blHeaderTurn data.length length w
  | .form (.p8 v) => blCodeTurn p (data.drop (w.pos + 1)) 1 v.toNat w
  | .form (.p16 v) => blCodeTurn p (data.drop (w.pos + 3)) 3 v.toNat w
  | .form _ => .raise .truncatedPacket (some w.pos) w.warn
  | .plain t => t

/-- `BL_DEC` (41_broadlink.md R116, R124). -/
def execBlDec (_level : BitVec 2) (s : State) : Host.Outcome State Fault Refusal :=
  .next (s.runBytes toPbuf (blDecTurn s.params))

/-- The input bytes from an offset to the end, `IBUF[pos:n]` (41_broadlink.md R122). -/
def State.inputFrom (s : State) (p : Nat) : List Byte := s.ibuf.slice p (s.ilen.toNat - p)

/-- `BL_HEADER`: the engine takes the header of the running BL_DEC; the repeat byte is ignored (41_broadlink.md R118, R124;
log 10). -/
def execBlHeader (_rep : Byte) (length : BitVec 16) (s : State) : Host.Outcome State Fault Refusal :=
  .next (s.applyTurn toPbuf (blHeaderTurn s.ilen.toNat length s.work))

/-- `P8`: the engine takes a one-byte pulse code of the running BL_DEC (41_broadlink.md R119; log 10). -/
def execP8 (v : Byte) (s : State) : Host.Outcome State Fault Refusal :=
  .next (s.applyTurn toPbuf (blCodeTurn s.params (s.inputFrom (s.work.pos + 1)) 1 v.toNat s.work))

/-- `P16`: the engine takes a three-byte pulse code of the running BL_DEC (41_broadlink.md R119, R121, R122; log 10). -/
def execP16 (v : BitVec 16) (s : State) : Host.Outcome State Fault Refusal :=
  .next (s.applyTurn toPbuf (blCodeTurn s.params (s.inputFrom (s.work.pos + 3)) 3 v.toNat s.work))

/-! ### SER16 -/

/-- The turn of one serialised pulse: low byte, high byte (41_broadlink.md R125; 30_encoding.md R80). -/
def pulse16Turn (p : Params) (v : BitVec 16) (w : Work) : Turn :=
  w.emitting (w.pos + 1) (emit p.obufBytes [lo8 v, hi8 v] w.out)

/-- What stands at the cursor of SER16: the next pulse of the train as a serialised pulse, or the fault of one that has no
16-bit form, or the end (41_broadlink.md R125). -/
def fetchSer (pulses : List Word) (w : Work) : Fetched :=
  match pulses.drop w.pos with
  | [] => .plain (.done w)
  | v :: _ =>
    if pulse16Max < v.toNat then .plain (.raise .valueRange (some w.pos) w.warn)
    else .form (.pulse16 (v.setWidth 16))

/-- One turn of SER16 (41_broadlink.md R125); the last form case is never met (log 13). -/
def serTurn (p : Params) (pulses : List Word) (w : Work) : Turn :=
  match fetchSer pulses w with
  | .form (.pulse16 v) => pulse16Turn p v w
  | .form _ => .raise .valueRange (some w.pos) w.warn
  | .plain t => t

/-- `SER16` (41_broadlink.md R125). -/
def execSer16 (_level : BitVec 2) (s : State) : Host.Outcome State Fault Refusal :=
  .next (s.runPulses toObuf (serTurn s.params))

/-- `PULSE16`: the engine writes one serialised pulse of the running SER16 (41_broadlink.md R125; log 10). -/
def execPulse16 (p : BitVec 16) (s : State) : Host.Outcome State Fault Refusal :=
  .next (s.applyTurn toObuf (pulse16Turn s.params p s.work))

end Sys2Proof.Machine
end

