-- ==== Sys2Proof/Machine/Pronto.lean ====
section
/-! DEFINITION. PRONTO_DEC and the form PRONTO_HEADER (40_pronto.md). -/

namespace Sys2Proof.Machine

open Sys2Proof

/-- The pulse of a burst word, `round(word * divisor * 0.241246)` in exact arithmetic, a half rounded up
(40_pronto.md R104, R105). It is at most 1036112060 and fits the entry. -/
def prontoPulse (word divisor : BitVec 16) : Word :=
  BitVec.ofNat 32
    ((word.toNat * divisor.toNat * prontoUnitNum + prontoUnitDen / 2) / prontoUnitDen)

/-- The header's turn: the total word count against `4 + 2*(w[2] + w[3])`, then the divisor (40_pronto.md R102, R103). `n` is
the number of input bytes, two for each word, so that an odd `n` never agrees. -/
def prontoHeaderTurn (n : Nat) (divisor once rep : BitVec 16) (w : Work) : Turn :=
  if n ≠ 2 * (4 + 2 * (once.toNat + rep.toNat)) then .raise .lengthMismatch (some n) w.warn
  else if divisor = 0#16 then .raise .zeroCarrier (some 2) w.warn
  else .more { w with pos := 8 }

/-- The turn of one burst word: one pulse is pushed (40_pronto.md R104). -/
def prontoBurstTurn (p : Params) (word divisor : BitVec 16) (w : Work) : Turn :=
  w.pushing (w.pos + 2) (push p.pbufEntries (prontoPulse word divisor) w.pulses)

/-- `w[1]` of the input (40_pronto.md R100). -/
def prontoDivisor (data : List Byte) : BitVec 16 :=
  match data with
  | _ :: _ :: h :: l :: _ => be16 h l
  | _ => 0#16

/-- What stands at the cursor of PRONTO_DEC: the header at 0, burst words after it, the end. The faults of a code whose header
cannot be read are those of 40_pronto.md R101 and R102. -/
def fetchPronto (p : Params) (data : List Byte) (w : Work) : Fetched :=
  if w.pos = 0 then
    match decodeProntoHeader data with
    | .ok i => .form i
    | .error .badPreamble => .plain (.raise .invalidPreamble (some 0) w.warn)
    | .error _ => .plain (.raise .lengthMismatch (some data.length) w.warn)
  else
    match data.drop w.pos with
    | h :: l :: _ => .plain (prontoBurstTurn p (be16 h l) (prontoDivisor data) w)
    | _ => .plain (.done w)

/-- One turn of PRONTO_DEC (40_pronto.md R100). The decoder of Pronto codes answers a header or an error, so the last case is
never met (log 13). -/
def prontoTurn (p : Params) (data : List Byte) (w : Work) : Turn :=
  match fetchPronto p data w with
  | .form (.prontoHeader divisor once rep) => prontoHeaderTurn data.length divisor once rep w
  | .form _ => .raise .lengthMismatch (some data.length) w.warn
  | .plain t => t

/-- `PRONTO_DEC` (40_pronto.md R100, R106). -/
def execProntoDec (_level : BitVec 2) (s : State) : Host.Outcome State Fault Refusal :=
  .next (s.runBytes toPbuf (prontoTurn s.params))

/-- `PRONTO_HEADER`: the engine takes the header of the running PRONTO_DEC (40_pronto.md R102, R103; log 10). -/
def execProntoHeader (divisor once rep : BitVec 16) (s : State) : Host.Outcome State Fault Refusal :=
  .next (s.applyTurn toPbuf (prontoHeaderTurn s.ilen.toNat divisor once rep s.work))

end Sys2Proof.Machine
end

