-- ==== Sys2Proof/Machine/Tuya.lean ====
section
/-! DEFINITION. Emission of Tuya blocks, TUYA_EXPAND and the forms LIT, COPYS and COPYL (42_tuya_format.md). -/

namespace Sys2Proof.Machine

open Sys2Proof

/-! ### Emission (42_tuya_format.md R130 to R133) -/

/-- `emit_literal_block` (R131). -/
def emitLiteralBlock (cap : Nat) (bs out : List Byte) : Except ErrCode (List Byte) :=
  if bs.length < 1 ∨ litMax < bs.length then .error .encodingInvariantViolation
  else emit cap (BitVec.ofNat 8 (bs.length - 1) :: bs) out

/-- The bytes of a distance block (R132): `COPYL` when `length - 2 >= 7`, else `COPYS`. -/
def distanceBytes (length distance : Nat) : List Byte :=
  let d := distance - 1
  let f := length - 2
  if 7 ≤ f then [BitVec.ofNat 8 (0xE0 + d / 256), BitVec.ofNat 8 (f - 7), BitVec.ofNat 8 (d % 256)]
  else [BitVec.ofNat 8 (f * 32 + d / 256), BitVec.ofNat 8 (d % 256)]

/-- `emit_distance_block` (R132). -/
def emitDistanceBlock (cap length distance : Nat) (out : List Byte) : Except ErrCode (List Byte) :=
  if length < lenMin ∨ lenMax < length then .error .encodingInvariantViolation
  else if distance < 1 ∨ window < distance then .error .encodingInvariantViolation
  else emit cap (distanceBytes length distance) out

/-- Chunks of at most 32 bytes from the front, at most so many (R133). -/
def emitChunks (cap : Nat) : Nat → List Byte → List Byte → Except ErrCode (List Byte)
  | 0, _, out => .ok out
  | _ + 1, [], out => .ok out
  | k + 1, b :: bs, out =>
    match emitLiteralBlock cap ((b :: bs).take litMax) out with
    | .error c => .error c
    | .ok out' => emitChunks cap k ((b :: bs).drop litMax) out'

/-- `emit_literal_run` (R133; `LITRUN` of 30_encoding.md R91). -/
def emitLiteralRun (cap : Nat) (bs out : List Byte) : Except ErrCode (List Byte) :=
  emitChunks cap bs.length bs out

/-! ### The meaning of a stream (42_tuya_format.md R136) -/

/-- `repeat length times: out <- out ++ [ out[ len(out) - distance ] ]` (R136, R142). -/
def copyBytes (distance : Nat) : Nat → List Byte → List Byte
  | 0, out => out
  | k + 1, out => copyBytes distance k (out ++ [out.getD (out.length - distance) 0#8])

/-- The turn of a literal block (R140): its bytes are emitted and the cursor passes the block. -/
def litTurn (p : Params) (data : List Byte) (w : Work) : Turn :=
  w.emitting (w.pos + 1 + data.length) (emit p.obufBytes data w.out)

/-- The turn of a distance block of `size` bytes (R140, R141): the distance must not exceed what has been produced. -/
def copyTurn (p : Params) (size length distance : Nat) (w : Work) : Turn :=
  if w.out.length < distance then .raise .streamInvalid (some w.pos) w.warn
  else if p.obufBytes < w.out.length + length then .raise .capacityExceeded none w.warn
  else .more { w with out := copyBytes distance length w.out, pos := w.pos + size }

/-! ### TUYA_EXPAND -/

/-- What stands at the cursor of TUYA_EXPAND: a block, a block cut by the end of the stream, or the end (R140, R141). -/
def fetchTuya (data : List Byte) (w : Work) : Fetched :=
  match data.drop w.pos with
  | [] => .plain (.done w)
  | b :: bs =>
    match decodeTuya (b :: bs) with
    | .ok i => .form i
    | .error _ => .plain (.raise .streamInvalid (some w.pos) w.warn)

/-- One turn of TUYA_EXPAND (R140). The decoder answers the three blocks or an error, so the last form case is never met
(log 13). -/
def expandTurn (p : Params) (data : List Byte) (w : Work) : Turn :=
  match fetchTuya data w with
  | .form (.lit bs) => litTurn p bs w
  | .form (.copyS f d) => copyTurn p 2 (shortLength f) (distanceOf d) w
  | .form (.copyL d ext) => copyTurn p 3 (longLength ext) (distanceOf d) w
  | .form _ => .raise .streamInvalid (some w.pos) w.warn
  | .plain t => t

/-- `TUYA_EXPAND` (R140, R143). -/
def execTuyaExpand (_level : BitVec 2) (s : State) : Host.Outcome State Fault Refusal :=
  .next (s.runBytes toObuf (expandTurn s.params))

/-- `LIT`: the engine takes a literal block of the running TUYA_EXPAND (R136, R140; log 10). -/
def execLit (data : List Byte) (s : State) : Host.Outcome State Fault Refusal :=
  .next (s.applyTurn toObuf (litTurn s.params data s.work))

/-- `COPYS`: the engine takes a short distance block of the running TUYA_EXPAND (R136, R140; log 10). -/
def execCopyS (f : BitVec 3) (d : BitVec 13) (s : State) : Host.Outcome State Fault Refusal :=
  .next (s.applyTurn toObuf (copyTurn s.params 2 (shortLength f) (distanceOf d) s.work))

/-- `COPYL`: the engine takes a long distance block of the running TUYA_EXPAND (R136, R140; log 10). -/
def execCopyL (d : BitVec 13) (ext : Byte) (s : State) : Host.Outcome State Fault Refusal :=
  .next (s.applyTurn toObuf (copyTurn s.params 3 (longLength ext) (distanceOf d) s.work))

end Sys2Proof.Machine
end

