-- ==== Sys2Proof/Machine/TuyaPack.lean ====
section
/-! DEFINITION. TUYA_PACK: the four compression levels, the suffix array and the shortest-path pass
(43_tuya_levels.md). Throughout, `data` is the input and `data.length` its length `n`. -/

namespace Sys2Proof.Machine

open Sys2Proof

/-! ### Matches (00_scope.md R14, R15) -/

/-- The length of the longest common beginning of two byte sequences, at most `k`. -/
def commonLength : Nat → List Byte → List Byte → Nat
  | 0, _, _ => 0
  | _ + 1, [], _ => 0
  | _ + 1, _ :: _, [] => 0
  | k + 1, a :: as, b :: bs => if a = b then commonLength k as bs + 1 else 0

/-- `matchlen(data, n, pos, start)` (R15): the compared bytes may lie at or beyond `pos`; the end of the data bounds the
longer suffix too, because `start < pos`. -/
def matchLen (data : List Byte) (pos start : Nat) : Nat :=
  commonLength lenMax (data.drop pos) (data.drop start)

/-- Lexical order of byte sequences, a proper beginning being smaller (R14). -/
def lexLt : List Byte → List Byte → Bool
  | [], [] => false
  | [], _ :: _ => true
  | _ :: _, [] => false
  | a :: as, b :: bs => if a = b then lexLt as bs else decide (a.toNat < b.toNat)

/-- `suffix(a) < suffix(b)` (R14). -/
def suffixLt (data : List Byte) (a b : Nat) : Bool := lexLt (data.drop a) (data.drop b)

/-! ### Level 1 (43_tuya_levels.md R152) -/

/-- The scan of `FirstMatch` from distance `d` on, over so many distances. -/
def firstMatchFrom (data : List Byte) (pos : Nat) : Nat → Nat → Option (Nat × Nat)
  | 0, _ => none
  | k + 1, d =>
    if lenMin ≤ matchLen data pos (pos - d) then some (matchLen data pos (pos - d), d)
    else firstMatchFrom data pos k (d + 1)

/-- `FirstMatch(pos)`: distances 1 to `min(pos, 8192)`, the first that gives a length of 3 or more (R152). -/
def firstMatch (data : List Byte) (pos : Nat) : Option (Nat × Nat) :=
  firstMatchFrom data pos (min pos window) 1

/-! ### Level 2: the suffix array (43_tuya_levels.md R156 to R159) -/

/-- One turn of the maintenance loop (R157): position `np` is inserted behind the entries whose suffix is smaller, the
position 8193 before it removed first. -/
def Sfx.insertNext (data : List Byte) (x : Sfx) : Sfx :=
  let es := if window + 1 ≤ x.next then x.entries.erase (x.next - (window + 1)) else x.entries
  let j := es.countP (fun e => suffixLt data e x.next)
  { entries := es.take j ++ x.next :: es.drop j, next := x.next + 1 }

/-- So many turns of the maintenance loop. -/
def Sfx.advance (data : List Byte) : Nat → Sfx → Sfx
  | 0, x => x
  | k + 1, x => Sfx.advance data k (x.insertNext data)

/-- `SFX` brought up to `pos` (R157): `while np <= pos`. -/
def Sfx.bringUp (data : List Byte) (pos : Nat) (x : Sfx) : Sfx := x.advance data (pos + 1 - x.next)

/-- One candidate of `BestMatch` against the best so far: the longer one, the nearer one when equal (R159). -/
def betterMatch (data : List Byte) (pos : Nat) (best : Option (Nat × Nat)) (cand : Option Nat) : Option (Nat × Nat) :=
  match cand with
  | none => best
  | some p =>
    match best with
    | none => some (matchLen data pos p, pos - p)
    | some (bl, bd) =>
      if bl < matchLen data pos p ∨ (matchLen data pos p = bl ∧ pos - p < bd) then some (matchLen data pos p, pos - p)
      else some (bl, bd)

/-- `BestMatch(pos)` on the array brought up to `pos`: the neighbour at `idx + 1`, then the one at `idx - 1` (R159). -/
def bestMatch (data : List Byte) (pos : Nat) (x : Sfx) : Option (Nat × Nat) :=
  let idx := x.entries.idxOf pos
  let above := x.entries[idx + 1]?
  let below := if idx = 0 then none else x.entries[idx - 1]?
  betterMatch data pos (betterMatch data pos none above) below

/-! ### The greedy parse, levels 1 and 2 (43_tuya_levels.md R153, R161) -/

/-- `find` of the greedy parse, with the suffix array it leaves: level 2 keeps it up to date, level 1 has none. -/
def findMatch (level : BitVec 2) (data : List Byte) (pos : Nat) (x : Sfx) : Option (Nat × Nat) × Sfx :=
  if level = 1#2 then (firstMatch data pos, x)
  else (bestMatch data pos (x.bringUp data pos), x.bringUp data pos)

/-- The pending literal run, then a distance block (R153). -/
def emitMatch (cap : Nat) (run : List Byte) (l d : Nat) (out : List Byte) : Except ErrCode (List Byte) :=
  match emitLiteralRun cap run out with
  | .error c => .error c
  | .ok out' => emitDistanceBlock cap l d out'

/-- One turn of the greedy parse (R153): a match of length 3 or more is taken, else one byte joins the pending run; at the
end of the input the run is flushed. -/
def greedyTurn (p : Params) (level : BitVec 2) (data : List Byte) (w : Work) : Turn :=
  if data.length ≤ w.pos then
    match emitLiteralRun p.obufBytes (between w.runStart w.pos data) w.out with
    | .error c => .raise c none w.warn
    | .ok out => .done { w with out := out, pos := data.length }
  else
    let found := findMatch level data w.pos w.sfx
    match found.1 with
    | none => .more { w with pos := w.pos + 1, sfx := found.2 }
    | some (l, d) =>
      if lenMin ≤ l then
        match emitMatch p.obufBytes (between w.runStart w.pos data) l d w.out with
        | .error c => .raise c none w.warn
        | .ok out => .more { w with out := out, pos := w.pos + l, runStart := w.pos + l, sfx := found.2 }
      else .more { w with pos := w.pos + 1, sfx := found.2 }

/-! ### Level 3: the shortest path (43_tuya_levels.md R165 to R168) -/

/-- `PRED[0] <- (0, 0, 0)`, `PRED[1..n]` unset (R166). -/
def initPred (n : Nat) : List (Option PredRec) :=
  some { cost := 0, len := 0, dist := 0 } :: List.replicate n none

/-- `relax(pos, l, w, d)`: the record of `pos + l` is replaced when it is unset or strictly dearer (R166). -/
def relax (pos l cost d : Nat) (pred : List (Option PredRec)) : List (Option PredRec) :=
  match pred[pos]? with
  | some (some here) =>
    match pred[pos + l]? with
    | some (some there) =>
      if here.cost + cost < there.cost then pred.set (pos + l) (some { cost := here.cost + cost, len := l, dist := d })
      else pred
    | _ => pred.set (pos + l) (some { cost := here.cost + cost, len := l, dist := d })
  | _ => pred

/-- The cost of a match edge (R165; 42_tuya_format.md R134). -/
def matchCost (l : Nat) : Nat := if l < 9 then 2 else 3

/-- All edges out of a position: match edges, shortest first, then literal edges, shortest first (R165, R166). -/
def relaxAll (n pos bl bd : Nat) (pred : List (Option PredRec)) : List (Option PredRec) :=
  (List.range' 1 (min litMax (n - pos))).foldl (fun acc l => relax pos l (1 + l) 0 acc)
    ((List.range' lenMin (bl + 1 - lenMin)).foldl (fun acc l => relax pos l (matchCost l) bd acc) pred)

/-- An edge of the path: where it starts, its length, its distance (0 for a literal edge) (R167). -/
structure PathEdge where
  start : Nat
  len : Nat
  dist : Nat
deriving DecidableEq, Repr

/-- The walk back from `p`, at most so many edges (R167). -/
def walkBack (pred : List (Option PredRec)) : Nat → Nat → List PathEdge → List PathEdge
  | 0, _, acc => acc
  | k + 1, p, acc =>
    if p = 0 then acc
    else
      match pred[p]? with
      | some (some r) => walkBack pred k (p - r.len) ({ start := p - r.len, len := r.len, dist := r.dist } :: acc)
      | _ => acc

/-- The pending literal edges as one run (R168). -/
def flushRun (cap : Nat) (data : List Byte) (run : Option (Nat × Nat)) (out : List Byte) :
    Except ErrCode (List Byte) :=
  match run with
  | none => .ok out
  | some (s, e) => emitLiteralRun cap (between s e data) out

/-- Emission of a path: neighbouring literal edges as one run, match edges as distance blocks (R168). -/
def emitPath (cap : Nat) (data : List Byte) : List PathEdge → Option (Nat × Nat) → List Byte → Except ErrCode (List Byte)
  | [], run, out => flushRun cap data run out
  | e :: es, run, out =>
    if e.dist = 0 then
      match run with
      | none => emitPath cap data es (some (e.start, e.start + e.len)) out
      | some (s, _) => emitPath cap data es (some (s, e.start + e.len)) out
    else
      match flushRun cap data run out with
      | .error c => .error c
      | .ok out' =>
        match emitDistanceBlock cap e.len e.dist out' with
        | .error c => .error c
        | .ok out'' => emitPath cap data es none out''

/-- One turn of level 3: the forward pass at one position, and after the last one the path and its emission (R166 to
R168). -/
def optimalTurn (p : Params) (data : List Byte) (w : Work) : Turn :=
  if data.length ≤ w.pos then
    match emitPath p.obufBytes data (walkBack w.pred data.length data.length []) none w.out with
    | .error c => .raise c none w.warn
    | .ok out => .done { w with out := out, pos := data.length }
  else
    let x := w.sfx.bringUp data w.pos
    let pred := if w.pos = 0 then initPred data.length else w.pred
    let best := (bestMatch data w.pos x).getD (0, 0)
    .more { w with pos := w.pos + 1, sfx := x, pred := relaxAll data.length w.pos best.1 best.2 pred }

/-! ### TUYA_PACK -/

/-- Level 0, in one turn: the whole input as one literal run (R151). -/
def literalTurn (p : Params) (data : List Byte) (w : Work) : Turn :=
  match emitLiteralRun p.obufBytes data w.out with
  | .error c => .raise c none w.warn
  | .ok out => .done { w with out := out, pos := data.length }

/-- One turn of TUYA_PACK at a level (R150). -/
def packTurn (p : Params) (level : BitVec 2) (data : List Byte) (w : Work) : Turn :=
  if level = 0#2 then literalTurn p data w
  else if level = 3#2 then optimalTurn p data w
  else greedyTurn p level data w

/-- `TUYA_PACK` (R150, R172). -/
def execTuyaPack (level : BitVec 2) (s : State) : Host.Outcome State Fault Refusal :=
  .next (s.runBytes toObuf (packTurn s.params level))

end Sys2Proof.Machine
end

