-- ==== Sys2Proof/Machine/Chains.lean ====
section
/-! DEFINITION. TUYA_COMP, PRONTO2BL and BL2TUYA, the composite operations (45_chains.md), and the illegal command
(60_exceptions.md R216). -/

namespace Sys2Proof.Machine

open Sys2Proof

/-- A stage that consumes bytes: its input is subject to the stand-alone operation's check, its fault ends the composite
operation with the warnings gathered before it kept, its result goes on to `k` (45_chains.md R196, R197). A stage never runs
out of turns (log 13). -/
def byteStage (p : Params) (turn : List Byte → Work → Turn) (data : List Byte) (w : Work) (k : Work → Turn) : Turn :=
  if p.ibufBytes < data.length then .raise .capacityExceeded none w.warn
  else
    match runTurns (turn data) (turnBound data.length) Work.start with
    | .done r => k r
    | .raise c q ws => .raise c q (w.warn.join ws)
    | .more _ => .raise .encodingInvariantViolation none w.warn

/-- A stage that consumes pulses (45_chains.md R196, R197). -/
def pulseStage (p : Params) (turn : List Word → Work → Turn) (pulses : List Word) (w : Work) (k : Work → Turn) : Turn :=
  if p.pbufEntries < pulses.length then .raise .capacityExceeded none w.warn
  else
    match runTurns (turn pulses) (turnBound pulses.length) Work.start with
    | .done r => k r
    | .raise c q ws => .raise c q (w.warn.join ws)
    | .more _ => .raise .encodingInvariantViolation none w.warn

/-- One stage of TUYA_COMP: TUYA_PACK into the chain scratch, then B64_ENC of it (45_chains.md R190). -/
def tuyaCompTurn (p : Params) (level : BitVec 2) (data : List Byte) (w : Work) : Turn :=
  if w.stage = 0 then
    byteStage p (packTurn p level) data w fun r => .more { w with stage := 1, scratch := r.out }
  else
    byteStage p (b64EncTurn p) w.scratch w fun r => .done { w with out := r.out, pos := data.length }

/-- One stage of PRONTO2BL: PRONTO_DEC, then BL_ENC of its train (45_chains.md R192). -/
def pronto2BlTurn (p : Params) (data : List Byte) (w : Work) : Turn :=
  if w.stage = 0 then
    byteStage p (prontoTurn p) data w fun r =>
      .more { w with stage := 1, pulses := r.pulses, warn := w.warn.join r.warn }
  else
    pulseStage p (blEncTurn p) w.pulses w fun r =>
      .done { w with out := r.out, pos := data.length, warn := w.warn.join r.warn }

/-- One stage of BL2TUYA: BL_DEC, SER16 of its train, TUYA_PACK, B64_ENC; POS is that of the BL_DEC stage
(45_chains.md R194). -/
def bl2TuyaTurn (p : Params) (level : BitVec 2) (data : List Byte) (w : Work) : Turn :=
  if w.stage = 0 then
    byteStage p (blDecTurn p) data w fun r =>
      .more { w with stage := 1, pulses := r.pulses, pos := r.pos, warn := w.warn.join r.warn }
  else if w.stage = 1 then
    pulseStage p (serTurn p) w.pulses w fun r => .more { w with stage := 2, scratch := r.out }
  else if w.stage = 2 then
    byteStage p (packTurn p level) w.scratch w fun r => .more { w with stage := 3, scratch := r.out }
  else
    byteStage p (b64EncTurn p) w.scratch w fun r => .done { w with out := r.out }

/-- `TUYA_COMP` (45_chains.md R190). -/
def execTuyaComp (level : BitVec 2) (s : State) : Host.Outcome State Fault Refusal :=
  .next (s.runBytes toObuf (tuyaCompTurn s.params level))

/-- `PRONTO2BL` (45_chains.md R192). -/
def execPronto2Bl (_level : BitVec 2) (s : State) : Host.Outcome State Fault Refusal :=
  .next (s.runBytes toBoth (pronto2BlTurn s.params))

/-- `BL2TUYA` (45_chains.md R194). -/
def execBl2Tuya (level : BitVec 2) (s : State) : Host.Outcome State Fault Refusal :=
  .next (s.runBytes toBoth (bl2TuyaTurn s.params level))

/-- `ILLEGAL`: the operation does nothing but fault with IllegalCommand, POS 0, no warning, no output touched
(30_encoding.md R73; 60_exceptions.md R216). -/
def execIllegal (_word : Word) (s : State) : Host.Outcome State Fault Refusal :=
  .next (s.takeFault toNone .illegalCommand (some 0) Warn.none)

end Sys2Proof.Machine
end

