-- ==== Sys2Proof/Machine/Engine.lean ====
section
/-! DEFINITION. The engine's side of a step: opening an operation, and what stands at the cursor of an opened one (log 6). -/

namespace Sys2Proof.Machine

open Sys2Proof

/-- The outputs of the operation a command word names (30_encoding.md R71); a stream form is no command. -/
def commandOutputs : Instr → Outputs
  | .prontoDec _ => toPbuf
  | .blEnc _ => toObuf
  | .blDec _ => toPbuf
  | .ser16 _ => toObuf
  | .tuyaPack _ => toObuf
  | .tuyaExpand _ => toObuf
  | .b64Enc _ => toObuf
  | .b64Dec _ => toObuf
  | .tuyaComp _ => toObuf
  | .pronto2Bl _ => toBoth
  | .bl2Tuya _ => toBoth
  | .illegal _ => toNone
  | .lit _ => toNone
  | .copyS _ _ => toNone
  | .copyL _ _ => toNone
  | .p8 _ => toNone
  | .p16 _ => toNone
  | .blHeader _ _ => toNone
  | .prontoHeader _ _ _ => toNone
  | .pulse16 _ => toNone
  | .b64Quantum _ _ _ _ _ => toNone

/-- Whether an operation reads PBUF (20_memory.md R52). -/
def readsPulses : Instr → Bool
  | .blEnc _ => true
  | .ser16 _ => true
  | _ => false

/-- The running operation. -/
def State.command (s : State) : Instr := decodeCommand s.cmd

/-- The common prologue of 45_chains.md R202, as the fault it raises: an illegal word, then the input length. -/
def State.prologueFault (s : State) : Option (ErrCode × Option Nat) :=
  match s.command with
  | .illegal _ => some (.illegalCommand, some 0)
  | i =>
    if readsPulses i then
      if s.params.pbufEntries < s.plen.toNat then some (.capacityExceeded, none) else none
    else if s.params.ibufBytes < s.ilen.toNat then some (.capacityExceeded, none)
    else none

/-- The engine opens its operation, to carry it out turn by turn: the prologue, then the working state of the start. Nothing
happens when no operation is running or it is already open. -/
def State.openOp (s : State) : State :=
  if s.status = .busy ∧ s.work.opened = false then
    match s.prologueFault with
    | some (c, p) => s.takeFault (commandOutputs s.command) c p Warn.none
    | none => { s with work := Work.start }
  else s

/-- What stands at the cursor of the opened operation: a stream form, which the step runs as an instruction, or a turn that is
no form. A command word is no stream form and decoding never gives one for CMD (the last cases; log 13). -/
def State.fetch (s : State) : Fetched :=
  match s.command with
  | .prontoDec _ => fetchPronto s.params s.inputBytes s.work
  | .blEnc _ => .plain (blEncTurn s.params s.inputPulses s.work)
  | .blDec _ => fetchBl s.inputBytes s.work
  | .ser16 _ => fetchSer s.inputPulses s.work
  | .tuyaPack level => .plain (packTurn s.params level s.inputBytes s.work)
  | .tuyaExpand _ => fetchTuya s.inputBytes s.work
  | .b64Enc _ => .plain (b64EncTurn s.params s.inputBytes s.work)
  | .b64Dec _ => fetchB64 s.inputBytes s.work
  | .tuyaComp level => .plain (tuyaCompTurn s.params level s.inputBytes s.work)
  | .pronto2Bl _ => .plain (pronto2BlTurn s.params s.inputBytes s.work)
  | .bl2Tuya level => .plain (bl2TuyaTurn s.params level s.inputBytes s.work)
  | .illegal _ => .plain (.raise .illegalCommand (some 0) Warn.none)
  | .lit _ => .plain (.raise .illegalCommand (some 0) Warn.none)
  | .copyS _ _ => .plain (.raise .illegalCommand (some 0) Warn.none)
  | .copyL _ _ => .plain (.raise .illegalCommand (some 0) Warn.none)
  | .p8 _ => .plain (.raise .illegalCommand (some 0) Warn.none)
  | .p16 _ => .plain (.raise .illegalCommand (some 0) Warn.none)
  | .blHeader _ _ => .plain (.raise .illegalCommand (some 0) Warn.none)
  | .prontoHeader _ _ _ => .plain (.raise .illegalCommand (some 0) Warn.none)
  | .pulse16 _ => .plain (.raise .illegalCommand (some 0) Warn.none)
  | .b64Quantum _ _ _ _ _ => .plain (.raise .illegalCommand (some 0) Warn.none)

/-! ### Placing an instruction where the next step fetches it -/

/-- The bytes of a stream form at the cursor `p` of the operation with command word `c`, whose input they end. -/
def State.placeBytes (s : State) (c : Word) (p : Nat) (bs : List Byte) : State :=
  { s with
    status := .busy
    cmd := c
    ilen := BitVec.ofNat 32 (p + bs.length)
    ibuf := { s.ibuf with cells := cellsFrom p bs }
    work := { Work.start with pos := p, payloadEnd := p + bs.length }
    sched := [] }

/-- An encoded instruction where the next step fetches it: a command word in CMD of a started operation, a stream form at the
cursor of the operation that takes it (log 9). -/
def State.place (s : State) : Encoded → State
  | .word w => { s with status := .busy, cmd := w, work := Work.closed, sched := [] }
  | .bytes .tuyaBlock bs => s.placeBytes (commandWord 0x06#8 0#2) 0 bs
  | .bytes .blPulse bs => s.placeBytes (commandWord 0x03#8 0#2) 4 bs
  | .bytes .blFrame bs => s.placeBytes (commandWord 0x03#8 0#2) 0 bs
  | .bytes .pronto bs => s.placeBytes (commandWord 0x01#8 0#2) 0 bs
  | .bytes .base64 bs => s.placeBytes (commandWord 0x08#8 0#2) 0 bs
  | .bytes .pulses16 bs =>
    match bs with
    | l :: h :: _ =>
      { s with
        status := .busy
        cmd := commandWord 0x04#8 0#2
        plen := 1
        pbuf := { s.pbuf with cells := [(0, (le16 l h).setWidth 32)] }
        work := Work.start
        sched := [] }
    | _ => s

end Sys2Proof.Machine
end

