-- ==== Sys2Proof/Machine/Dispatch.lean ====
section
/-! DEFINITION. The meaning of every instruction: one arm for each constructor of `Instr`. -/

namespace Sys2Proof.Machine

open Sys2Proof

def exec (i : Instr) (s : State) : Host.Outcome State Fault Refusal :=
  match i with
  | .prontoDec level => Sys2Proof.Machine.execProntoDec level s
  | .blEnc level => Sys2Proof.Machine.execBlEnc level s
  | .blDec level => Sys2Proof.Machine.execBlDec level s
  | .ser16 level => Sys2Proof.Machine.execSer16 level s
  | .tuyaPack level => Sys2Proof.Machine.execTuyaPack level s
  | .tuyaExpand level => Sys2Proof.Machine.execTuyaExpand level s
  | .b64Enc level => Sys2Proof.Machine.execB64Enc level s
  | .b64Dec level => Sys2Proof.Machine.execB64Dec level s
  | .tuyaComp level => Sys2Proof.Machine.execTuyaComp level s
  | .pronto2Bl level => Sys2Proof.Machine.execPronto2Bl level s
  | .bl2Tuya level => Sys2Proof.Machine.execBl2Tuya level s
  | .illegal word => Sys2Proof.Machine.execIllegal word s
  | .lit data => Sys2Proof.Machine.execLit data s
  | .copyS f d => Sys2Proof.Machine.execCopyS f d s
  | .copyL d ext => Sys2Proof.Machine.execCopyL d ext s
  | .p8 v => Sys2Proof.Machine.execP8 v s
  | .p16 v => Sys2Proof.Machine.execP16 v s
  | .blHeader rep length => Sys2Proof.Machine.execBlHeader rep length s
  | .prontoHeader divisor once rep => Sys2Proof.Machine.execProntoHeader divisor once rep s
  | .pulse16 p => Sys2Proof.Machine.execPulse16 p s
  | .b64Quantum a b c d npad => Sys2Proof.Machine.execB64Quantum a b c d npad s

end Sys2Proof.Machine
end

