-- ==== Sys2Proof/Machine/HostPort.lean ====
section
/-! DEFINITION. The host port: the six transactions of 20_memory.md R51 and the reset input (70_reset_and_hazards.md R240,
R241). -/

namespace Sys2Proof.Machine

open Sys2Proof

/-! ### Reads -/

/-- The value a register reads as when it is not hidden (10_state.md R21 to R31; 20_memory.md R51, R62): ID, CTRL, CMD,
STATUS, ERR, WARN, ILEN, OLEN, PLEN, POS; every other number reads 0. -/
def State.regValue (s : State) (r : Nat) : Word :=
  match r with
  | 0 => idWord
  | 1 => s.ctrl
  | 2 => s.cmd
  | 3 => s.statusWord
  | 4 => s.err
  | 5 => s.warn
  | 6 => s.ilen
  | 7 => s.olen
  | 8 => s.plen
  | 9 => s.pos
  | _ => 0

/-- The registers whose reads are draws while BUSY: ERR, WARN, OLEN, PLEN, POS (20_memory.md R60). -/
def hiddenWhileBusy (r : Nat) : Bool := r == 4 || r == 5 || r == 7 || r == 8 || r == 9

/-- A value is returned to the host. -/
def State.answer (s : State) (v : Word) : State := { s with rdata := v }

/-- A fresh draw of `w` bits is returned to the host (20_memory.md R60: "not necessarily the same on two reads"). -/
def State.answerDraw (s : State) (w : Nat) : State :=
  { s with rdata := (drawAt w s.draws 0).setWidth 32, draws := s.draws + 1 }

/-- `RegRead(r)` (20_memory.md R51, R60). -/
def State.regRead (s : State) (r : Nat) : State :=
  if s.status = .busy ∧ hiddenWhileBusy r = true then s.answerDraw 32 else s.answer (s.regValue r)

/-- The capacity of a byte buffer (00_scope.md R6). -/
def State.capacityOf (s : State) : ByteSpace → Nat
  | .ibuf => s.params.ibufBytes
  | .obuf => s.params.obufBytes

/-- A byte buffer. -/
def State.byteBuffer (s : State) : ByteSpace → Memory 8
  | .ibuf => s.ibuf
  | .obuf => s.obuf

/-- `BufRead(X, i)`: 0 outside the buffer, a draw while BUSY, else the byte (20_memory.md R51, R60; log 8). -/
def State.bufRead (s : State) (x : ByteSpace) (i : Nat) : State :=
  if s.capacityOf x ≤ i then s.answer 0
  else if s.status = .busy then s.answerDraw 8
  else s.answer (((s.byteBuffer x).read i).setWidth 32)

/-- `PulseRead(i)` (20_memory.md R51, R60; log 8). -/
def State.pulseRead (s : State) (i : Nat) : State :=
  if s.params.pbufEntries ≤ i then s.answer 0
  else if s.status = .busy then s.answerDraw 32
  else s.answer (s.pbuf.read i)

/-! ### Writes -/

/-- A write to CTRL, in every state: IE is stored, bit 1 acknowledges, every other bit is ignored (10_state.md R22;
60_exceptions.md R228). -/
def State.writeCtrl (s : State) (v : Word) : State :=
  if v.getLsbD 1 then { s.acknowledge with ctrl := v &&& 1 } else { s with ctrl := v &&& 1 }

/-- A write to CMD: dropped while BUSY, else stored, and the operation starts (10_state.md R23, R45;
70_reset_and_hazards.md R247). -/
def State.writeCmd (s : State) (v : Word) : State :=
  if s.status = .busy then s else { s with cmd := v, status := .busy, work := Work.closed }

/-- `RegWrite(r, v)`: CTRL, CMD, ILEN and PLEN; every other register number ignores it (10_state.md R21 to R31;
20_memory.md R51, R60). -/
def State.regWrite (s : State) (r : Nat) (v : Word) : State :=
  match r with
  | 1 => s.writeCtrl v
  | 2 => s.writeCmd v
  | 6 => if s.status = .busy then s else { s with ilen := v }
  | 8 => if s.status = .busy then s else { s with plen := v }
  | _ => s

/-- `BufWrite(X, i, b)`: only IBUF, only inside it, not while BUSY (10_state.md R32, R33; 20_memory.md R51, R60). -/
def State.bufWrite (s : State) (x : ByteSpace) (i : Nat) (b : Byte) : State :=
  match x with
  | .obuf => s
  | .ibuf =>
    if s.status = .busy ∨ s.params.ibufBytes ≤ i then s else { s with ibuf := s.ibuf.write i b }

/-- `PulseWrite(i, v)` (10_state.md R34; 20_memory.md R51, R60). -/
def State.pulseWrite (s : State) (i : Nat) (v : Word) : State :=
  if s.status = .busy ∨ s.params.pbufEntries ≤ i then s else { s with pbuf := s.pbuf.write i v }

/-! ### Reset -/

/-- The reset input, in any state: the state of 10_state.md R47, every buffer element a new draw, a running operation
abandoned (70_reset_and_hazards.md R240, R241). An assertion of the input is this one move, so that no transaction falls inside it: what
one would do there the spec does not say (DESIGN CHOICE, log 20). What is not SIRC's stays: the capacities, the rest of the schedule and the
host's read port (log 14). -/
def State.hardReset (s : State) : State :=
  { State.reset with
    params := s.params
    ibuf := { cells := [], seed := s.draws }
    obuf := { cells := [], seed := s.draws + 1 }
    pbuf := { cells := [], seed := s.draws + 2 }
    draws := s.draws + 3
    sched := s.sched
    rdata := s.rdata }

/-- One transaction of the host (20_memory.md R51, R61). -/
def State.transact (s : State) : Transaction → State
  | .regRead r => s.regRead r
  | .regWrite r v => s.regWrite r v
  | .bufRead x i => s.bufRead x i
  | .bufWrite x i b => s.bufWrite x i b
  | .pulseRead i => s.pulseRead i
  | .pulseWrite i v => s.pulseWrite i v
  | .reset => s.hardReset

end Sys2Proof.Machine
end

