-- ==== Sys2Proof/Machine/Step.lean ====
section
/-! DEFINITION. One step of the machine: the next move of the schedule, or the engine's turn when the schedule is empty
(log 4, log 6). -/

namespace Sys2Proof.Machine

open Sys2Proof

/-- The engine's turn: nothing unless BUSY (60_exceptions.md R236); the whole operation of the command word, or, when the
operation is open, the form or turn at its cursor. -/
def State.engineTurn (s : State) : Host.Outcome State Fault Refusal :=
  if s.status = .busy then
    if s.work.opened then
      match s.fetch with
      | .form i => exec i s
      | .plain t => .next (s.applyTurn (commandOutputs s.command) t)
    else exec s.command s
  else .next s

/-- One step: the schedule's next move; with an empty schedule the engine moves. -/
def step (s : State) : Host.Outcome State Fault Refusal :=
  match s.sched with
  | [] => s.engineTurn
  | .host t :: rest => .next (({ s with sched := rest } : State).transact t)
  | .engine :: rest => ({ s with sched := rest } : State).engineTurn
  | .openOp :: rest => .next ({ s with sched := rest } : State).openOp

/-- A word of the opcode table stored where the next step fetches its instruction (log 9). -/
def State.withFetchWord (s : State) (nbits w : Nat) : State :=
  match tableEncoded nbits w with
  | some e => s.place e
  | none => s

end Sys2Proof.Machine
end

