-- ==== Sys2Proof/Machine/Script.lean ====
section
/-! DEFINITION. The assembler notation of 30_encoding.md R89 to R92: command lines, stream-form lines, the pseudo-instructions
and host scripts as schedules of moves. Where the notation gives a line no result, log 19 says what stands here. -/

namespace Sys2Proof.Machine

open Sys2Proof

/-- The command word of an encoded command (R89: `OP | LEVEL << 8`). A stream form is no command and has no command word; the 0 it
gets here is the model's choice (DESIGN CHOICE, log 19). -/
def assembleCommand (i : Instr) : Word :=
  match encode i with
  | .word w => w
  | .bytes _ _ => 0

/-- `LIT b0 b1 ...`, 1 to 32 bytes (R90). -/
def assembleLit (data : List Byte) : Option Instr :=
  if 1 ≤ data.length ∧ data.length ≤ litMax then some (.lit data) else none

/-- `COPY <length>, <distance>`: COPYS when `length <= 8`, else COPYL; an assembly error outside the ranges (R90). -/
def assembleCopy (length distance : Nat) : Option Instr :=
  if lenMin ≤ length ∧ length ≤ lenMax ∧ 1 ≤ distance ∧ distance ≤ window then
    if length ≤ 8 then some (.copyS (BitVec.ofNat 3 (length - 2)) (BitVec.ofNat 13 (distance - 1)))
    else some (.copyL (BitVec.ofNat 13 (distance - 1)) (BitVec.ofNat 8 (length - 9)))
  else none

/-- The bytes of an encoded form, none for a command word. -/
def formBytes (i : Instr) : List Byte :=
  match encode i with
  | .word _ => []
  | .bytes _ bs => bs

/-- `LITRUN` (R91): the literal-run rule without a capacity. -/
def assembleLitRun (data : List Byte) : List Byte :=
  match emitLiteralRun (data.length * 2) data [] with
  | .ok out => out
  | .error _ => []

/-- `PULSE <t>` for a tick up to 65535 (R91). -/
def assemblePulse (t : Nat) : Option (List Byte) := if t < 65536 then some (pulseCode t) else none

/-- `FRAME <codes>` (R91). For codes of more than 65535 bytes, whose length has no 16-bit little-endian form, the spec gives no
result; that there is none is the model's choice (DESIGN CHOICE, log 19). -/
def assembleFrame (codes : List Byte) : Option (List Byte) := if codes.length < 65536 then some (blFrame codes) else none

/-- `B64 <bytes>` (R91): the base64 text of the bytes. -/
def assembleB64 : List Byte → List Byte
  | [] => []
  | [b0] => groupChars (groupOf b0 0 0) 2
  | [b0, b1] => groupChars (groupOf b0 b1 0) 1
  | b0 :: b1 :: b2 :: rest => groupChars (groupOf b0 b1 b2) 0 ++ assembleB64 rest

/-- A line of a host script (R92). -/
inductive ScriptLine where
  | ibuf (bs : List Byte)
  | pbuf (ps : List Word)
  | command (i : Instr)
  | wait
  | ack
  | mov
  | transaction (t : Transaction)
deriving DecidableEq, Repr

/-- Byte writes from an index on. -/
def writesFrom : Nat → List Byte → List Move
  | _, [] => []
  | i, b :: bs => .host (.bufWrite .ibuf i b) :: writesFrom (i + 1) bs

/-- Pulse writes from an index on. -/
def pulseWritesFrom : Nat → List Word → List Move
  | _, [] => []
  | i, v :: vs => .host (.pulseWrite i v) :: pulseWritesFrom (i + 1) vs

/-- The copies of `mov`, read and write in turn. -/
def copiesFrom : Nat → List Byte → List Move
  | _, [] => []
  | i, b :: bs => .host (.bufRead .obuf i) :: .host (.bufWrite .ibuf i b) :: copiesFrom (i + 1) bs

/-- `wait` issued in a state: STATUS is read again and again until STATE is not BUSY, at most so often (R92). The engine has one turn
after each read that shows BUSY, with which it takes its operation whole or, if it is open, the next turn of it (DESIGN CHOICE,
log 19). -/
def State.waitMoves : Nat → State → List Move
  | 0, _ => [.host (.regRead 3)]
  | k + 1, s =>
    if s.status = .busy then
      match s.engineTurn with
      | .next t => .host (.regRead 3) :: .engine :: t.waitMoves k
      | .fault _ => [.host (.regRead 3)]
      | .refused _ => [.host (.regRead 3)]
    else [.host (.regRead 3)]

/-- A bound on the turns after which a started operation has ended, whole or turn by turn: the last read of a `wait` line shows
STATE not BUSY (theorem `wait_ends`; 70_reset_and_hazards.md R254). -/
def State.waitBound (s : State) : Nat := turnBound (s.ilen.toNat + s.plen.toNat)

/-- The moves of a script line issued in a state (R92). A list too long for its 32-bit length register, which no buffer holds (log 3), has its count cut to 32 bits
(DESIGN CHOICE, log 19). -/
def ScriptLine.moves (s : State) : ScriptLine → List Move
  | .ibuf bs => writesFrom 0 bs ++ [.host (.regWrite 6 (BitVec.ofNat 32 bs.length))]
  | .pbuf ps => pulseWritesFrom 0 ps ++ [.host (.regWrite 8 (BitVec.ofNat 32 ps.length))]
  | .command i => [.host (.regWrite 2 (assembleCommand i))]
  | .wait => s.waitMoves s.waitBound
  | .ack => [.host (.regWrite 1 ((s.ctrl &&& 1) ||| 2))]
  | .mov => copiesFrom 0 s.outputBytes ++ [.host (.regWrite 6 s.olen)]
  | .transaction t => [.host t]

end Sys2Proof.Machine
end

