-- ==== Sys2Proof/Safety.lean ====
section
/-! DEFINITION. The terms in which claims about SIRC are made: the invariant of the machine, and results of the operations in
closed form, written from the rules and not from the turns that compute them. -/

namespace Sys2Proof.Machine

open Sys2Proof

/-! ### The invariant -/

/-- The values register ERR can hold: 0, or the value of one of the eleven codes (60_exceptions.md R210). -/
def errValues : List Word :=
  [0x0000, 0x0101, 0x0102, 0x0103, 0x0104, 0x0205, 0x0306, 0x0307, 0x0308, 0x0309, 0x030A, 0x030B]

/-- What every step keeps: legal capacities (00_scope.md R6); buffers in canonical form; the reserved bits of CTRL, ERR and
WARN reading 0 and ERR holding a listed value (10_state.md R22, R25, R26; 60_exceptions.md R210); OLEN within OBUF and
`OBUF[0:OLEN]` exactly the determined elements of OBUF (10_state.md R28, R33); the hidden state within the capacities, and
empty between operations (10_state.md R35, R47); every draw already named has a number below the counter (log 1). -/
def State.inv (s : State) : Bool :=
  Config.paramsOk s.params &&
  s.ibuf.wf s.params.ibufBytes && s.obuf.wf s.params.obufBytes && s.pbuf.wf s.params.pbufEntries &&
  decide (s.ctrl.toNat ≤ 1) && decide (s.err ∈ errValues) && decide (s.warn.toNat ≤ 3) &&
  decide (s.olen.toNat ≤ s.params.obufBytes) &&
  decide (s.obuf.cells.map Prod.fst = List.range s.olen.toNat) &&
  decide (s.work.out.length ≤ s.params.obufBytes) && decide (s.work.pulses.length ≤ s.params.pbufEntries) &&
  (decide (s.status = .busy) || decide (s.work = Work.closed)) &&
  decide (s.ibuf.seed < s.draws) && decide (s.obuf.seed < s.draws) && decide (s.pbuf.seed < s.draws)

/-! ### Kinds of instruction -/

/-- A command: an instruction that stands for a whole operation (30_encoding.md R70, R71, R73). -/
def isCommand : Instr → Bool
  | .prontoDec _ => true
  | .blEnc _ => true
  | .blDec _ => true
  | .ser16 _ => true
  | .tuyaPack _ => true
  | .tuyaExpand _ => true
  | .b64Enc _ => true
  | .b64Dec _ => true
  | .tuyaComp _ => true
  | .pronto2Bl _ => true
  | .bl2Tuya _ => true
  | .illegal _ => true
  | .lit _ => false
  | .copyS _ _ => false
  | .copyL _ _ => false
  | .p8 _ => false
  | .p16 _ => false
  | .blHeader _ _ => false
  | .prontoHeader _ _ _ => false
  | .pulse16 _ => false
  | .b64Quantum _ _ _ _ _ => false

/-- A Broadlink pulse code as a decoder reads it: `P8` never with the byte 0 (30_encoding.md R77 to R79). -/
def isPulseCode : Instr → Bool
  | .p8 v => v != 0
  | .p16 _ => true
  | _ => false

/-- The microseconds of a pulse code (41_broadlink.md R119). -/
def codeMicros : Instr → Nat
  | .p8 v => (v.toNat * 16384 + 269) / 538
  | .p16 v => (v.toNat * 16384 + 269) / 538
  | _ => 0

/-- The bytes of a list of stream forms, one after the other. -/
def formsBytes (forms : List Instr) : List Byte := forms.flatMap formBytes

/-! ### What an operation may change -/

/-- Only what the engine writes at a completion step may differ: outputs and their lengths, POS, ERR, WARN, STATE, the hidden
state, and the model's counter of draws (10_state.md R46; 60_exceptions.md R221). -/
def onlyResults (s t : State) : Prop :=
  t = { s with
    obuf := t.obuf
    olen := t.olen
    pbuf := t.pbuf
    plen := t.plen
    draws := t.draws
    pos := t.pos
    err := t.err
    warn := t.warn
    status := t.status
    work := t.work }

/-- A buffer that is no output keeps its content and its length (10_state.md R28, R29). -/
def othersKept (s t : State) (outs : Outputs) : Prop :=
  (outs.obuf = false → t.obuf = s.obuf ∧ t.olen = s.olen) ∧ (outs.pbuf = false → t.pbuf = s.pbuf ∧ t.plen = s.plen)

/-- Every output is invalidated: length 0, no element determined, the draws new ones (60_exceptions.md R221). -/
def outputsInvalid (s t : State) (outs : Outputs) : Prop :=
  (outs.obuf = true → t.obuf.cells = [] ∧ t.olen = 0 ∧ s.draws ≤ t.obuf.seed) ∧
  (outs.pbuf = true → t.pbuf.cells = [] ∧ t.plen = 0 ∧ s.draws ≤ t.pbuf.seed)

/-! ### Results in closed form -/

/-- The burst words of a Pronto code after its header, big-endian (20_memory.md R54). -/
def burstWords : List Byte → List (BitVec 16)
  | h :: l :: rest => be16 h l :: burstWords rest
  | _ => []

/-- `round(word * divisor * 0.241246)`, a half rounded up (40_pronto.md R104, R105). -/
def refPulse (divisor word : BitVec 16) : Word :=
  BitVec.ofNat 32 ((word.toNat * divisor.toNat * 120623 + 250000) / 500000)

/-- The tick of a pulse (41_broadlink.md R111). -/
def refTick (p : Word) : Nat := p.toNat * 269 / 8192

/-- The pulse code of a tick (30_encoding.md R77, R78). -/
def refCode (t : Nat) : List Byte :=
  if t < 256 then [BitVec.ofNat 8 t] else [0#8, BitVec.ofNat 8 (t / 256), BitVec.ofNat 8 (t % 256)]

/-- The payload of a train (41_broadlink.md R111). -/
def refPayload (ps : List Word) : List Byte := ps.flatMap fun p => refCode (refTick p)

/-- The frame around a payload (30_encoding.md R76; 41_broadlink.md R114). -/
def refFrame (payload : List Byte) : List Byte :=
  [0x26#8, 0x00#8, BitVec.ofNat 8 (payload.length % 256), BitVec.ofNat 8 (payload.length / 256)] ++ payload ++
    [0x0d#8, 0x05#8] ++ List.replicate ((16 - (payload.length + 10) % 16) % 16) 0#8

/-- A tick in microseconds, `round(t * 8192 / 269)` (41_broadlink.md R119). -/
def refMicros (t : Nat) : Nat := (t * 16384 + 269) / 538

/-- A train as little-endian 16-bit values (20_memory.md R57). -/
def refSerial (ps : List Word) : List Byte :=
  ps.flatMap fun p => [BitVec.ofNat 8 (p.toNat % 256), BitVec.ofNat 8 (p.toNat / 256)]

/-- The bytes of a distance block (42_tuya_format.md R132; 30_encoding.md R82, R83). -/
def refDistance (length distance : Nat) : List Byte :=
  if length < 9 then
    [BitVec.ofNat 8 ((length - 2) * 32 + (distance - 1) / 256), BitVec.ofNat 8 ((distance - 1) % 256)]
  else [BitVec.ofNat 8 (224 + (distance - 1) / 256), BitVec.ofNat 8 (length - 9), BitVec.ofNat 8 ((distance - 1) % 256)]

/-- The meaning of a Tuya stream, block by block from an output already produced, at most so many blocks; none where a block is
cut or refers beyond the output (42_tuya_format.md R136). -/
def refMeaningFrom : Nat → List Byte → List Byte → Option (List Byte)
  | _, [], out => some out
  | 0, _ :: _, _ => none
  | k + 1, h :: rest, out =>
    let t := h.toNat / 32
    let m := h.toNat % 32
    if t = 0 then
      if rest.length < m + 1 then none else refMeaningFrom k (rest.drop (m + 1)) (out ++ rest.take (m + 1))
    else if t = 7 then
      match rest with
      | ext :: dl :: rest' =>
        if out.length < m * 256 + dl.toNat + 1 then none
        else refMeaningFrom k rest' (copyBytes (m * 256 + dl.toNat + 1) (ext.toNat + 9) out)
      | _ => none
    else
      match rest with
      | dl :: rest' =>
        if out.length < m * 256 + dl.toNat + 1 then none
        else refMeaningFrom k rest' (copyBytes (m * 256 + dl.toNat + 1) (t + 2) out)
      | [] => none

/-- `expand(S)` (42_tuya_format.md R136). -/
def refMeaning (stream : List Byte) : Option (List Byte) := refMeaningFrom stream.length stream []

/-- A literal run in blocks of at most 32 bytes, full blocks first, at most so many blocks (42_tuya_format.md R133). -/
def refLiterals : Nat → List Byte → List Byte
  | 0, _ => []
  | _ + 1, [] => []
  | k + 1, b :: bs =>
    BitVec.ofNat 8 (((b :: bs).take 32).length - 1) :: (b :: bs).take 32 ++ refLiterals k ((b :: bs).drop 32)

/-- The most bytes any level gives for `n` input bytes, `n + ceil(n/32)` (43_tuya_levels.md R151, R172). -/
def packBound (n : Nat) : Nat := n + (n + 31) / 32

/-- `BestMatch(pos)` on the suffix array brought up to `pos` from empty (43_tuya_levels.md R157, R159). -/
def bestFrom (data : List Byte) (pos : Nat) : Option (Nat × Nat) :=
  bestMatch data pos (Sfx.bringUp data pos { entries := [], next := 0 })

/-- `BestMatch(pos)` as level 3 uses it, `(0, 0)` when there is none (43_tuya_levels.md R166). -/
def refBest (data : List Byte) (pos : Nat) : Nat × Nat := (bestFrom data pos).getD (0, 0)

/-- Position `p` is a neighbour of `pos` in the suffix array: an earlier position of the window, and no other position of the window
has its suffix between the two (43_tuya_levels.md R156, R159). -/
def neighbour (data : List Byte) (pos p : Nat) : Prop :=
  p < pos ∧ pos ≤ p + 8192 ∧
  ∀ q, q < pos → pos ≤ q + 8192 →
    ¬ (suffixLt data p q = true ∧ suffixLt data q pos = true) ∧ ¬ (suffixLt data pos q = true ∧ suffixLt data q p = true)

/-- A path of the graph of 43_tuya_levels.md R165 from node `p` to node `goal`. -/
def graphPath (data : List Byte) (goal : Nat) : Nat → List PathEdge → Bool
  | p, [] => decide (p = goal)
  | p, e :: es =>
    decide (e.start = p) && decide (p < data.length) &&
    ((decide (e.dist = 0) && decide (1 ≤ e.len) && decide (e.len ≤ min 32 (data.length - p))) ||
     (decide (1 ≤ e.dist) && decide (e.dist = (refBest data p).2) && decide (3 ≤ e.len) &&
      decide (e.len ≤ (refBest data p).1))) &&
    graphPath data goal (p + e.len) es

/-- Of two edges into one node, `e` is relaxed no later than `f`: from a lower position, or from the same one as the match edge of
the two, or as the same edge (43_tuya_levels.md R166). -/
def relaxedBefore (e f : PathEdge) : Prop := e.start < f.start ∨ (e.start = f.start ∧ (e = f ∨ (e.dist ≠ 0 ∧ f.dist = 0)))

/-- The stream of a path: neighbouring literal edges merged into one run, match edges as distance blocks; `run` is the pending run
(43_tuya_levels.md R153, R168). -/
def pathStream (data : List Byte) : List Byte → List PathEdge → List Byte
  | run, [] => refLiterals run.length run
  | run, e :: es =>
    if e.dist = 0 then pathStream data (run ++ between e.start (e.start + e.len) data) es
    else refLiterals run.length run ++ refDistance e.len e.dist ++ pathStream data [] es

/-- The greedy parse from `pos` on, as a path, in at most so many turns: a match of length 3 or more is taken, else one literal byte
(43_tuya_levels.md R153). -/
def greedyPath (find : Nat → Option (Nat × Nat)) (n : Nat) : Nat → Nat → List PathEdge
  | 0, _ => []
  | k + 1, pos =>
    if n ≤ pos then []
    else
      match find pos with
      | some (l, d) =>
        if 3 ≤ l then { start := pos, len := l, dist := d } :: greedyPath find n k (pos + l)
        else { start := pos, len := 1, dist := 0 } :: greedyPath find n k (pos + 1)
      | none => { start := pos, len := 1, dist := 0 } :: greedyPath find n k (pos + 1)

/-- The cost of an edge (43_tuya_levels.md R165). -/
def edgeCost (e : PathEdge) : Nat := if e.dist = 0 then 1 + e.len else if e.len < 9 then 2 else 3

/-- The cost of a path. -/
def pathCost (es : List PathEdge) : Nat := (es.map edgeCost).sum

/-- The base64 alphabet, in the order of its values (44_base64.md R181). -/
def refAlphabet : List Byte :=
  (List.range 26).map (fun k => BitVec.ofNat 8 (0x41 + k)) ++ (List.range 26).map (fun k => BitVec.ofNat 8 (0x61 + k)) ++
    (List.range 10).map (fun k => BitVec.ofNat 8 (0x30 + k)) ++ [0x2B#8, 0x2F#8]

/-- `ALPHA[v]` (44_base64.md R181). -/
def refChar (v : Nat) : Byte := refAlphabet.getD v 0#8

/-- The base64 text of bytes: three bytes give four characters, a last group of one or two is padded (44_base64.md R182). -/
def refText : List Byte → List Byte
  | [] => []
  | [a] => [refChar (a.toNat / 4), refChar (a.toNat % 4 * 16), 0x3D#8, 0x3D#8]
  | [a, b] =>
    [refChar (a.toNat / 4), refChar (a.toNat % 4 * 16 + b.toNat / 16), refChar (b.toNat % 16 * 4), 0x3D#8]
  | a :: b :: c :: rest =>
    refChar (a.toNat / 4) :: refChar (a.toNat % 4 * 16 + b.toNat / 16) :: refChar (b.toNat % 16 * 4 + c.toNat / 64) ::
      refChar (c.toNat % 64) :: refText rest

/-- The state after an operation that completes with a byte result in OBUF and leaves the rest as it was (10_state.md R46). -/
def doneWithBytes (s : State) (out : List Byte) (pos warn : Word) : State :=
  { s with
    obuf := { cells := cellsFrom 0 out, seed := s.draws }
    olen := BitVec.ofNat 32 out.length
    draws := s.draws + 1
    pos := pos
    warn := warn
    err := 0
    status := .done
    work := Work.closed }

/-- The state after an operation that completes with a train in PBUF (10_state.md R46). -/
def doneWithPulses (s : State) (ps : List Word) (pos warn : Word) : State :=
  { s with
    pbuf := { cells := cellsFrom 0 ps, seed := s.draws }
    plen := BitVec.ofNat 32 ps.length
    draws := s.draws + 1
    pos := pos
    warn := warn
    err := 0
    status := .done
    work := Work.closed }

/-- The state after an operation that completes with both outputs (10_state.md R46). -/
def doneWithBoth (s : State) (out : List Byte) (ps : List Word) (pos warn : Word) : State :=
  { s with
    obuf := { cells := cellsFrom 0 out, seed := s.draws }
    olen := BitVec.ofNat 32 out.length
    pbuf := { cells := cellsFrom 0 ps, seed := s.draws + 1 }
    plen := BitVec.ofNat 32 ps.length
    draws := s.draws + 2
    pos := pos
    warn := warn
    err := 0
    status := .done
    work := Work.closed }

/-- The state after an operation with OBUF as its output that faults at a stated position (60_exceptions.md R221). -/
def faultedBytes (s : State) (err pos warn : Word) : State :=
  { s with
    obuf := { cells := [], seed := s.draws }
    olen := 0
    draws := s.draws + 1
    pos := pos
    warn := warn
    err := err
    status := .fault
    work := Work.closed }

/-- The state after an operation with PBUF as its output that faults at a stated position (60_exceptions.md R221). -/
def faultedPulses (s : State) (err pos warn : Word) : State :=
  { s with
    pbuf := { cells := [], seed := s.draws }
    plen := 0
    draws := s.draws + 1
    pos := pos
    warn := warn
    err := err
    status := .fault
    work := Work.closed }

/-- The state after an operation with both outputs that faults at a stated position (45_chains.md R197). -/
def faultedBoth (s : State) (err pos warn : Word) : State :=
  { s with
    obuf := { cells := [], seed := s.draws }
    olen := 0
    pbuf := { cells := [], seed := s.draws + 1 }
    plen := 0
    draws := s.draws + 2
    pos := pos
    warn := warn
    err := err
    status := .fault
    work := Work.closed }

/-- `t` is the state after an operation with OBUF as its output that ends in CapacityExceeded: POS is a draw, of which nothing is
said (60_exceptions.md R217, R222). -/
def overflowedBytes (s t : State) (warn : Word) : Prop := t = { faultedBytes s 0x0307 t.pos warn with draws := t.draws }

/-- The same with PBUF as the output. -/
def overflowedPulses (s t : State) (warn : Word) : Prop := t = { faultedPulses s 0x0307 t.pos warn with draws := t.draws }

/-- The same with both outputs (45_chains.md R197). -/
def overflowedBoth (s t : State) (warn : Word) : Prop := t = { faultedBoth s 0x0307 t.pos warn with draws := t.draws }

end Sys2Proof.Machine
end

