-- ==== Sys2Proof/Certificates/Slice0/Obligations.lean ====
section
/-! DEFINITION. The statements for the provers. Each docstring names the rule of spec/ that the statement formalises, or says
what it rests on. The equations give the whole next state, so that each is a frame as well: a field they do not name keeps its
value, and a byte outside an output keeps its value because its buffer does. A draw that the spec leaves open (POS of
CapacityExceeded, the elements beyond a result) is compared with nothing: the seeds are the model's names for draws (log 1). -/

section

open Sys2Proof Sys2Proof.Machine

/-! ### Encodings -/

/-- Decoding the encoding of a well-formed instruction gives it back, with every operand at every value
(30_encoding.md R70 to R88). -/
def Obligations.DecodeEncode : Prop :=
  ∀ i : Instr, i.wf = true → decode (encode i) = .ok i

/-- What a stream decoder reads is well formed and is the encoding that stands at the front of the bytes: no byte pattern has two
readings (30_encoding.md R86). -/
def Obligations.DecodedFormsReencode : Prop :=
  ∀ (fmt : Format) (bs : List Byte) (i : Instr), decodeForm fmt bs = .ok i →
    i.wf = true ∧ ∃ enc rest : List Byte, encode i = .bytes fmt enc ∧ bs = enc ++ rest

/-- Every 32-bit word is the encoding of exactly the command it decodes to (30_encoding.md R70, R71, R73). -/
def Obligations.CommandWordsReencode : Prop :=
  ∀ w : Word, (decodeCommand w).wf = true ∧ isCommand (decodeCommand w) = true ∧ encode (decodeCommand w) = .word w

/-- The operation codes with every LEVEL, a command word, and written-out bytes of each format: Tuya blocks, a pulse code, the two
headers, a serialised pulse and a base64 quantum (30_encoding.md R71, R75, R76, R78, R80 to R83, R88 to R90; 44_base64.md R181,
R182). -/
def Obligations.CommandWordTable : Prop :=
  (∀ level : BitVec 2,
    decodeCommand (BitVec.ofNat 32 (level.toNat * 256 + 1)) = .prontoDec level ∧
    decodeCommand (BitVec.ofNat 32 (level.toNat * 256 + 2)) = .blEnc level ∧
    decodeCommand (BitVec.ofNat 32 (level.toNat * 256 + 3)) = .blDec level ∧
    decodeCommand (BitVec.ofNat 32 (level.toNat * 256 + 4)) = .ser16 level ∧
    decodeCommand (BitVec.ofNat 32 (level.toNat * 256 + 5)) = .tuyaPack level ∧
    decodeCommand (BitVec.ofNat 32 (level.toNat * 256 + 6)) = .tuyaExpand level ∧
    decodeCommand (BitVec.ofNat 32 (level.toNat * 256 + 7)) = .b64Enc level ∧
    decodeCommand (BitVec.ofNat 32 (level.toNat * 256 + 8)) = .b64Dec level ∧
    decodeCommand (BitVec.ofNat 32 (level.toNat * 256 + 9)) = .tuyaComp level ∧
    decodeCommand (BitVec.ofNat 32 (level.toNat * 256 + 10)) = .pronto2Bl level ∧
    decodeCommand (BitVec.ofNat 32 (level.toNat * 256 + 11)) = .bl2Tuya level) ∧
  decode (.word 0x00000205) = .ok (.tuyaPack 2) ∧
  decode (.bytes .tuyaBlock [0x00, 0x41]) = .ok (.lit [0x41]) ∧
  decode (.bytes .tuyaBlock [0xc0, 0x07]) = .ok (.copyS 6 7) ∧
  decode (.bytes .tuyaBlock [0xe0, 0x00, 0x00]) = .ok (.copyL 0 0) ∧
  decode (.bytes .blPulse [0x00, 0x05, 0x17]) = .ok (.p16 1303) ∧
  decode (.bytes .blFrame [0x26, 0x00, 0x0a, 0x00]) = .ok (.blHeader 0 10) ∧
  decode (.bytes .pronto [0x00, 0x00, 0x00, 0x6d, 0x00, 0x02, 0x00, 0x01]) = .ok (.prontoHeader 109 2 1) ∧
  decode (.bytes .pulses16 [0x36, 0x23]) = .ok (.pulse16 9014) ∧
  decode (.bytes .base64 [0x51, 0x55, 0x49, 0x3d]) = .ok (.b64Quantum 16 20 8 0 1)

/-- An illegal command word is one with a bit of 31:10 set, or with OP 0 or 0x0C to 0xFF, and no other. Written outside BUSY it
starts an operation that only faults: IllegalCommand, POS 0, WARN 0, and no buffer and no length changes
(30_encoding.md R73; 60_exceptions.md R216). -/
def Obligations.IllegalCommand : Prop :=
  (∀ w : Word, decodeCommand w = .illegal w ↔ (w >>> 10 ≠ 0 ∨ w.toNat % 256 = 0 ∨ 12 ≤ w.toNat % 256)) ∧
  (∀ (w : Word) (s : State), exec (.illegal w) s =
    .next { s with err := 0x0306, pos := 0, warn := 0, status := .fault, work := Work.closed }) ∧
  (∀ (s : State) (w : Word) (rest : List Move), s.status ≠ .busy →
    (w >>> 10 ≠ 0 ∨ w.toNat % 256 = 0 ∨ 12 ≤ w.toNat % 256) →
    step { s with sched := .host (.regWrite 2 w) :: .engine :: rest } =
      .next { s with cmd := w, status := .busy, work := Work.closed, sched := .engine :: rest } ∧
    step { s with cmd := w, status := .busy, work := Work.closed, sched := .engine :: rest } =
      .next { s with
        cmd := w, err := 0x0306, pos := 0, warn := 0, status := .fault, work := Work.closed, sched := rest })

/-- The block that a first byte announces (30_encoding.md R84). -/
def Obligations.TuyaFirstByte : Prop :=
  ∀ (h : Byte) (rest : List Byte),
    (h.toNat < 0x20 → rest.length < h.toNat + 1 → decodeTuya (h :: rest) = .error .truncated) ∧
    (h.toNat < 0x20 → h.toNat + 1 ≤ rest.length → decodeTuya (h :: rest) = .ok (.lit (rest.take (h.toNat + 1)))) ∧
    (0x20 ≤ h.toNat → rest = [] → decodeTuya (h :: rest) = .error .truncated) ∧
    (∀ (dl : Byte) (more : List Byte), 0x20 ≤ h.toNat → h.toNat ≤ 0xDF → rest = dl :: more →
      ∃ (f : BitVec 3) (d : BitVec 13), decodeTuya (h :: rest) = .ok (.copyS f d) ∧
        shortLength f = h.toNat / 32 + 2 ∧ distanceOf d = h.toNat % 32 * 256 + dl.toNat + 1) ∧
    (0xE0 ≤ h.toNat → rest.length < 2 → decodeTuya (h :: rest) = .error .truncated) ∧
    (∀ (ext dl : Byte) (more : List Byte), 0xE0 ≤ h.toNat → rest = ext :: dl :: more →
      ∃ d : BitVec 13, decodeTuya (h :: rest) = .ok (.copyL d ext) ∧
        longLength ext = ext.toNat + 9 ∧ distanceOf d = h.toNat % 32 * 256 + dl.toNat + 1)

/-- Every pair of a length in 3..264 and a distance in 1..8192 is written as a distance block that reads back as the pair, COPYS up
to length 8 and COPYL from 9; outside the ranges the emission raises EncodingInvariantViolation
(42_tuya_format.md R132; 30_encoding.md R86). -/
def Obligations.DistanceBlocks : Prop :=
  ∀ (cap length distance : Nat) (out rest : List Byte),
    (3 ≤ length → length ≤ 264 → 1 ≤ distance → distance ≤ 8192 →
      emitDistanceBlock cap length distance out = emit cap (distanceBytes length distance) out ∧
      ((length ≤ 8 → (distanceBytes length distance).length = 2 ∧
          ∃ (f : BitVec 3) (d : BitVec 13), decodeTuya (distanceBytes length distance ++ rest) = .ok (.copyS f d) ∧
            shortLength f = length ∧ distanceOf d = distance) ∧
       (9 ≤ length → (distanceBytes length distance).length = 3 ∧
          ∃ (d : BitVec 13) (ext : Byte), decodeTuya (distanceBytes length distance ++ rest) = .ok (.copyL d ext) ∧
            longLength ext = length ∧ distanceOf d = distance))) ∧
    ((length < 3 ∨ 264 < length ∨ distance < 1 ∨ 8192 < distance) →
      emitDistanceBlock cap length distance out = .error .encodingInvariantViolation)

/-- A literal run is written as full chunks of 32 bytes from the front and the remainder last, `m + ceil(m/32)` bytes, or it does
not fit the output (42_tuya_format.md R133). -/
def Obligations.LiteralRun : Prop :=
  ∀ (cap : Nat) (bs out : List Byte),
    (refLiterals bs.length bs).length = bs.length + (bs.length + 31) / 32 ∧
    (out.length + (refLiterals bs.length bs).length ≤ cap →
      emitLiteralRun cap bs out = .ok (out ++ refLiterals bs.length bs)) ∧
    (out.length ≤ cap → cap < out.length + (refLiterals bs.length bs).length →
      emitLiteralRun cap bs out = .error .capacityExceeded)

/-! ### Stream forms -/

/-- `LIT`: its bytes are appended and the cursor passes the block, or they do not fit (42_tuya_format.md R136, R140). For a state in
which no TUYA_EXPAND runs, and for data of 0 or more than 32 bytes, which no encoding has, this is the model's choice (DEDUCED,
log 10). -/
def Obligations.LitForm : Prop :=
  ∀ (s : State) (data : List Byte),
    (s.work.out.length + data.length ≤ s.params.obufBytes →
      exec (.lit data) s =
        .next { s with work := { s.work with out := s.work.out ++ data, pos := s.work.pos + 1 + data.length } }) ∧
    (s.params.obufBytes < s.work.out.length + data.length →
      ∃ t, exec (.lit data) s = .next t ∧ overflowedBytes s t s.work.warn.word)

/-- `COPYS` and `COPYL`: each appended byte is the byte `distance` positions before it, also where the copy reads what it has just
written; a distance beyond the output is StreamInvalid at the block's first byte (42_tuya_format.md R136, R140 to R142). For a state
in which no TUYA_EXPAND runs, and for COPYS with the field 0 or 7, which R82 does not give, this is the model's choice (DEDUCED,
log 10). -/
def Obligations.CopyForms : Prop :=
  ∀ (s : State) (i : Instr) (size length distance : Nat),
    ((∃ (f : BitVec 3) (d : BitVec 13), i = .copyS f d ∧ size = 2 ∧ length = f.toNat + 2 ∧ distance = d.toNat + 1) ∨
     (∃ (d : BitVec 13) (ext : Byte), i = .copyL d ext ∧ size = 3 ∧ length = ext.toNat + 9 ∧ distance = d.toNat + 1)) →
    (distance ≤ s.work.out.length → s.work.out.length + length ≤ s.params.obufBytes →
      ∃ out : List Byte,
        exec i s = .next { s with work := { s.work with out := out, pos := s.work.pos + size } } ∧
        out.length = s.work.out.length + length ∧
        (∀ k, k < s.work.out.length → out[k]? = s.work.out[k]?) ∧
        (∀ k, k < length → out[s.work.out.length + k]? = out[s.work.out.length + k - distance]?)) ∧
    (distance ≤ s.work.out.length → s.params.obufBytes < s.work.out.length + length →
      ∃ t, exec i s = .next t ∧ overflowedBytes s t s.work.warn.word) ∧
    (s.work.out.length < distance →
      exec i s = .next (faultedBytes s 0x030A (BitVec.ofNat 32 s.work.pos) s.work.warn.word))

/-- `P8` and `P16`: the tick is rescaled and pushed; from tick 2152 on a `P16` ends the decode, is dropped, and leaves a warning
when a byte after it is not 0 (41_broadlink.md R119, R121, R122). For a state in which no BL_DEC runs, and for `P8` with the byte 0,
which R77 says is never read, this is the model's choice (DEDUCED, log 10). -/
def Obligations.PulseCodeForms : Prop :=
  ∀ s : State,
    (∀ v : Byte, s.work.pulses.length < s.params.pbufEntries →
      exec (.p8 v) s = .next { s with work := { s.work with
        pulses := s.work.pulses ++ [BitVec.ofNat 32 (refMicros v.toNat)], pos := s.work.pos + 1 } }) ∧
    (∀ v : BitVec 16, v.toNat < 2152 → s.work.pulses.length < s.params.pbufEntries →
      exec (.p16 v) s = .next { s with work := { s.work with
        pulses := s.work.pulses ++ [BitVec.ofNat 32 (refMicros v.toNat)], pos := s.work.pos + 3 } }) ∧
    (∀ v : BitVec 16, 2152 ≤ v.toNat →
      (∀ k, s.work.pos + 3 ≤ k → k < s.ilen.toNat → s.ibuf.read k = 0) →
      exec (.p16 v) s =
        .next (doneWithPulses s s.work.pulses (BitVec.ofNat 32 (s.work.pos + 3)) s.work.warn.word)) ∧
    (∀ (v : BitVec 16) (k : Nat), 2152 ≤ v.toNat → s.work.pos + 3 ≤ k → k < s.ilen.toNat → s.ibuf.read k ≠ 0 →
      exec (.p16 v) s =
        .next (doneWithPulses s s.work.pulses (BitVec.ofNat 32 (s.work.pos + 3)) (s.work.warn.word ||| 1))) ∧
    (s.params.pbufEntries ≤ s.work.pulses.length →
      (∀ v : Byte, ∃ t, exec (.p8 v) s = .next t ∧ overflowedPulses s t s.work.warn.word) ∧
      (∀ v : BitVec 16, v.toNat < 2152 →
        ∃ t, exec (.p16 v) s = .next t ∧ overflowedPulses s t s.work.warn.word))

/-- `BL_HEADER` and `PRONTO_HEADER`: the length checks in their order, then the cursor passes the header; a Pronto code with an odd
number of bytes has no word count that agrees (41_broadlink.md R118; 40_pronto.md R102, R103). For a state in which no BL_DEC or
PRONTO_DEC runs this is the model's choice (DEDUCED, log 10). -/
def Obligations.HeaderForms : Prop :=
  ∀ s : State,
    (∀ (rep : Byte) (length : BitVec 16),
      (3 ≤ length.toNat → 4 + length.toNat ≤ s.ilen.toNat →
        exec (.blHeader rep length) s =
          .next { s with work := { s.work with pos := 4, payloadEnd := 4 + length.toNat } }) ∧
      (length.toNat < 3 →
        exec (.blHeader rep length) s = .next (faultedPulses s 0x0104 2 s.work.warn.word)) ∧
      (3 ≤ length.toNat → s.ilen.toNat < 4 + length.toNat →
        exec (.blHeader rep length) s = .next (faultedPulses s 0x0104 s.ilen s.work.warn.word))) ∧
    (∀ divisor once rep : BitVec 16,
      (s.ilen.toNat % 2 = 0 → s.ilen.toNat / 2 = 4 + 2 * (once.toNat + rep.toNat) → divisor ≠ 0 →
        exec (.prontoHeader divisor once rep) s = .next { s with work := { s.work with pos := 8 } }) ∧
      ((s.ilen.toNat % 2 = 1 ∨ s.ilen.toNat / 2 ≠ 4 + 2 * (once.toNat + rep.toNat)) →
        exec (.prontoHeader divisor once rep) s = .next (faultedPulses s 0x0102 s.ilen s.work.warn.word)) ∧
      (s.ilen.toNat % 2 = 0 → s.ilen.toNat / 2 = 4 + 2 * (once.toNat + rep.toNat) → divisor = 0 →
        exec (.prontoHeader divisor once rep) s = .next (faultedPulses s 0x0309 2 s.work.warn.word)))

/-- `PULSE16`: the low byte, then the high byte, or they do not fit (30_encoding.md R80; 41_broadlink.md R125). No operation reads this
form; that its meaning is the turn of SER16 that writes it, in any state, is the model's choice (DEDUCED, log 10). -/
def Obligations.Pulse16Form : Prop :=
  ∀ (s : State) (p : BitVec 16),
    (s.work.out.length + 2 ≤ s.params.obufBytes →
      exec (.pulse16 p) s = .next { s with work := { s.work with
        out := s.work.out ++ [BitVec.ofNat 8 (p.toNat % 256), BitVec.ofNat 8 (p.toNat / 256)]
        pos := s.work.pos + 1 } }) ∧
    (s.params.obufBytes < s.work.out.length + 2 →
      ∃ t, exec (.pulse16 p) s = .next t ∧ overflowedBytes s t s.work.warn.word)

/-- `B64_QUANTUM`: three, two or one bytes of the 24-bit group; bits that belong to no byte must be 0
(44_base64.md R182, R185, R186). The decoder reads a padded quantum only at the end of a text; that the form completes in any state,
also where no B64_DEC runs or the cursor is not at the last quantum, is the model's choice (DEDUCED, log 10). -/
def Obligations.QuantumForm : Prop :=
  ∀ (s : State) (a b c d : BitVec 6),
    let b0 : Byte := BitVec.ofNat 8 (a.toNat * 4 + b.toNat / 16)
    let b1 : Byte := BitVec.ofNat 8 (b.toNat % 16 * 16 + c.toNat / 4)
    let b2 : Byte := BitVec.ofNat 8 (c.toNat % 4 * 64 + d.toNat)
    (s.work.out.length + 3 ≤ s.params.obufBytes →
      exec (.b64Quantum a b c d 0) s =
        .next { s with work := { s.work with out := s.work.out ++ [b0, b1, b2], pos := s.work.pos + 4 } }) ∧
    (b2 = 0 → s.work.out.length + 2 ≤ s.params.obufBytes →
      exec (.b64Quantum a b c d 1) s =
        .next { s with work := { s.work with out := s.work.out ++ [b0, b1], pos := s.work.pos + 4 } }) ∧
    (b1 = 0 → b2 = 0 → s.work.out.length + 1 ≤ s.params.obufBytes →
      exec (.b64Quantum a b c d 2) s =
        .next { s with work := { s.work with out := s.work.out ++ [b0], pos := s.work.pos + 4 } }) ∧
    (b2 ≠ 0 → exec (.b64Quantum a b c d 1) s =
      .next (faultedBytes s 0x030B (BitVec.ofNat 32 (s.work.pos + 2)) s.work.warn.word)) ∧
    ((b1 ≠ 0 ∨ b2 ≠ 0) → exec (.b64Quantum a b c d 2) s =
      .next (faultedBytes s 0x030B (BitVec.ofNat 32 (s.work.pos + 1)) s.work.warn.word)) ∧
    (s.params.obufBytes < s.work.out.length + 3 →
      ∃ t, exec (.b64Quantum a b c d 0) s = .next t ∧ overflowedBytes s t s.work.warn.word) ∧
    (b2 = 0 → s.params.obufBytes < s.work.out.length + 2 →
      ∃ t, exec (.b64Quantum a b c d 1) s = .next t ∧ overflowedBytes s t s.work.warn.word) ∧
    (b1 = 0 → b2 = 0 → s.params.obufBytes < s.work.out.length + 1 →
      ∃ t, exec (.b64Quantum a b c d 2) s = .next t ∧ overflowedBytes s t s.work.warn.word)

/-! ### PRONTO_DEC -/

/-- PRONTO_DEC of a well-formed code: one pulse per burst word, in order (40_pronto.md R100, R104, R106). -/
def Obligations.ProntoDecode : Prop :=
  ∀ (s : State) (level : BitVec 2) (divisor once rep : BitVec 16) (rest : List Byte),
    s.ilen.toNat ≤ s.params.ibufBytes →
    s.inputBytes = formBytes (.prontoHeader divisor once rep) ++ rest →
    rest.length = 4 * (once.toNat + rep.toNat) → divisor ≠ 0 →
    2 * (once.toNat + rep.toNat) ≤ s.params.pbufEntries →
    exec (.prontoDec level) s =
      .next (doneWithPulses s ((burstWords rest).map (refPulse divisor)) s.ilen 0)

/-- The pulse of a burst word is `word * divisor * 0.241246` rounded to the nearest integer, a half up; it is at most 1036112060 and
fits the entry (40_pronto.md R104, R105). -/
def Obligations.ProntoPulseRounding : Prop :=
  ∀ divisor word : BitVec 16,
    prontoPulse word divisor = refPulse divisor word ∧
    (refPulse divisor word).toNat * 500000 ≤ word.toNat * divisor.toNat * 120623 + 250000 ∧
    word.toNat * divisor.toNat * 120623 + 250000 < ((refPulse divisor word).toNat + 1) * 500000 ∧
    (refPulse divisor word).toNat ≤ 1036112060

/-- The faults of PRONTO_DEC in their order: the preamble, the length, the divisor, the room for the pulses
(40_pronto.md R101 to R103, R106; 60_exceptions.md R225). -/
def Obligations.ProntoFaults : Prop :=
  ∀ (s : State) (level : BitVec 2), s.ilen.toNat ≤ s.params.ibufBytes →
    (s.ilen.toNat < 2 → exec (.prontoDec level) s = .next (faultedPulses s 0x0102 s.ilen 0)) ∧
    (∀ (a b : Byte) (rest : List Byte), s.inputBytes = a :: b :: rest → (a ≠ 0 ∨ b ≠ 0) →
      exec (.prontoDec level) s = .next (faultedPulses s 0x0101 0 0)) ∧
    (∀ rest : List Byte, s.inputBytes = 0 :: 0 :: rest → (rest.length % 2 = 1 ∨ rest.length < 6) →
      exec (.prontoDec level) s = .next (faultedPulses s 0x0102 s.ilen 0)) ∧
    (∀ (divisor once rep : BitVec 16) (rest : List Byte),
      s.inputBytes = formBytes (.prontoHeader divisor once rep) ++ rest →
      (rest.length ≠ 4 * (once.toNat + rep.toNat) →
        exec (.prontoDec level) s = .next (faultedPulses s 0x0102 s.ilen 0)) ∧
      (rest.length = 4 * (once.toNat + rep.toNat) → divisor = 0 →
        exec (.prontoDec level) s = .next (faultedPulses s 0x0309 2 0)) ∧
      (rest.length = 4 * (once.toNat + rep.toNat) → divisor ≠ 0 →
        s.params.pbufEntries < 2 * (once.toNat + rep.toNat) →
        ∃ t, exec (.prontoDec level) s = .next t ∧ overflowedPulses s t 0))

/-! ### BL_ENC -/

/-- BL_ENC of a train whose ticks and payload fit: the frame, POS = PLEN, and the warning ZERO_TICK exactly when a tick is 0
(41_broadlink.md R110 to R115). -/
def Obligations.BlEncode : Prop :=
  ∀ (s : State) (level : BitVec 2), s.plen.toNat ≤ s.params.pbufEntries →
    (∀ p ∈ s.inputPulses, refTick p ≤ 65535) → (refPayload s.inputPulses).length ≤ 65535 →
    (refFrame (refPayload s.inputPulses)).length ≤ s.params.obufBytes →
    exec (.blEnc level) s =
      .next (doneWithBytes s (refFrame (refPayload s.inputPulses)) s.plen
        (if s.inputPulses.any (fun p => refTick p == 0) then 2 else 0))

/-- The faults of BL_ENC in their order: the first pulse whose tick exceeds 65535, with the warnings before it; a payload above 65535
bytes; a frame that does not fit (41_broadlink.md R112, R115; 60_exceptions.md R221, R225). -/
def Obligations.BlEncodeRange : Prop :=
  ∀ (s : State) (level : BitVec 2), s.plen.toNat ≤ s.params.pbufEntries →
    (∀ (before after : List Word) (v : Word), s.inputPulses = before ++ v :: after →
      (∀ p ∈ before, refTick p ≤ 65535) → 65535 < refTick v →
      exec (.blEnc level) s =
        .next (faultedBytes s 0x0308 (BitVec.ofNat 32 before.length)
          (if before.any (fun p => refTick p == 0) then 2 else 0))) ∧
    ((∀ p ∈ s.inputPulses, refTick p ≤ 65535) → 65535 < (refPayload s.inputPulses).length →
      exec (.blEnc level) s =
        .next (faultedBytes s 0x0308 s.plen (if s.inputPulses.any (fun p => refTick p == 0) then 2 else 0))) ∧
    ((∀ p ∈ s.inputPulses, refTick p ≤ 65535) → (refPayload s.inputPulses).length ≤ 65535 →
      s.params.obufBytes < (refFrame (refPayload s.inputPulses)).length →
      ∃ t, exec (.blEnc level) s = .next t ∧
        overflowedBytes s t (if s.inputPulses.any (fun p => refTick p == 0) then 2 else 0))

/-- The frame around a payload of `L` bytes: header, payload, trailer, then fewer than 16 zero bytes up to a length that is 12
modulo 16 (30_encoding.md R76; 41_broadlink.md R114, R127). `blFrame` is the frame BL_ENC writes. -/
def Obligations.FramePadding : Prop :=
  ∀ payload : List Byte,
    blFrame payload = refFrame payload ∧ ((refFrame payload).length + 4) % 16 = 0 ∧
    payload.length + 6 ≤ (refFrame payload).length ∧ (refFrame payload).length < payload.length + 22 ∧
    (refFrame payload).take 4 = [0x26, 0x00, BitVec.ofNat 8 (payload.length % 256), BitVec.ofNat 8 (payload.length / 256)] ∧
    ((refFrame payload).drop 4).take payload.length = payload ∧
    (refFrame payload)[4 + payload.length]? = some 0x0d ∧ (refFrame payload)[5 + payload.length]? = some 0x05 ∧
    ∀ k, 6 + payload.length ≤ k → k < (refFrame payload).length → (refFrame payload)[k]? = some 0

/-! ### BL_DEC -/

/-- BL_DEC of a packet whose payload is a sequence of pulse codes up to 65535 microseconds: one pulse per code, POS just past the
payload, no warning, whatever the repeat byte and the bytes after the payload (41_broadlink.md R116, R119, R124). -/
def Obligations.BlDecode : Prop :=
  ∀ (s : State) (level : BitVec 2) (rep : Byte) (length : BitVec 16) (codes : List Instr) (tail : List Byte),
    s.ilen.toNat ≤ s.params.ibufBytes →
    s.inputBytes = formBytes (.blHeader rep length) ++ formsBytes codes ++ tail →
    (formsBytes codes).length = length.toNat → 3 ≤ length.toNat →
    (∀ c ∈ codes, isPulseCode c = true ∧ codeMicros c ≤ 65535) → codes.length ≤ s.params.pbufEntries →
    exec (.blDec level) s =
      .next (doneWithPulses s (codes.map fun c => BitVec.ofNat 32 (codeMicros c))
        (BitVec.ofNat 32 (4 + length.toNat)) 0)

/-- BL_DEC stops at the first code above 65535 microseconds, which is a `P16` of tick 2152 or more: it and the rest are dropped, POS is
just past it, and TRAILING_NONZERO is set exactly when one of the bytes after it, to the end of the input, is not 0
(41_broadlink.md R121, R122). -/
def Obligations.BlDecodeEarlyStop : Prop :=
  (∀ v : BitVec 16, 65535 < codeMicros (.p16 v) ↔ 2152 ≤ v.toNat) ∧
  (∀ v : Byte, codeMicros (.p8 v) ≤ 65535) ∧
  ∀ (s : State) (level : BitVec 2) (rep : Byte) (length : BitVec 16) (codes : List Instr) (v : BitVec 16)
    (after : List Byte),
    s.ilen.toNat ≤ s.params.ibufBytes →
    s.inputBytes = formBytes (.blHeader rep length) ++ formsBytes codes ++ formBytes (.p16 v) ++ after →
    (formsBytes codes).length + 3 ≤ length.toNat → length.toNat ≤ (formsBytes codes).length + 3 + after.length →
    (∀ c ∈ codes, isPulseCode c = true ∧ codeMicros c ≤ 65535) → codes.length ≤ s.params.pbufEntries →
    2152 ≤ v.toNat →
    exec (.blDec level) s =
      .next (doneWithPulses s (codes.map fun c => BitVec.ofNat 32 (codeMicros c))
        (BitVec.ofNat 32 (4 + (formsBytes codes).length + 3)) (if after.any (fun b => b != 0) then 1 else 0))

/-- The faults of BL_DEC in their order: no byte, the packet type, the header, the declared length, a code cut by the end of the
payload, the room for the pulses (41_broadlink.md R117, R118, R120, R124; 60_exceptions.md R225). -/
def Obligations.BlDecodeFaults : Prop :=
  ∀ (s : State) (level : BitVec 2), s.ilen.toNat ≤ s.params.ibufBytes →
    (s.ilen = 0 → exec (.blDec level) s = .next (faultedPulses s 0x0104 0 0)) ∧
    (∀ (b : Byte) (rest : List Byte), s.inputBytes = b :: rest → b ≠ 0x26 →
      exec (.blDec level) s = .next (faultedPulses s 0x0103 0 0)) ∧
    (∀ rest : List Byte, s.inputBytes = 0x26 :: rest → rest.length < 3 →
      exec (.blDec level) s = .next (faultedPulses s 0x0104 s.ilen 0)) ∧
    (∀ (rep : Byte) (length : BitVec 16) (rest : List Byte),
      s.inputBytes = formBytes (.blHeader rep length) ++ rest →
      (length.toNat < 3 → exec (.blDec level) s = .next (faultedPulses s 0x0104 2 0)) ∧
      (3 ≤ length.toNat → rest.length < length.toNat →
        exec (.blDec level) s = .next (faultedPulses s 0x0104 s.ilen 0)) ∧
      (3 ≤ length.toNat → length.toNat ≤ rest.length →
        ∀ (codes : List Instr) (after : List Byte),
          (∀ c ∈ codes, isPulseCode c = true ∧ codeMicros c ≤ 65535) →
          (rest = formsBytes codes ++ 0 :: after → codes.length ≤ s.params.pbufEntries →
            (formsBytes codes).length < length.toNat → length.toNat < (formsBytes codes).length + 3 →
            exec (.blDec level) s =
              .next (faultedPulses s 0x0104 (BitVec.ofNat 32 (4 + (formsBytes codes).length)) 0)) ∧
          (rest = formsBytes codes ++ after → codes.length = s.params.pbufEntries + 1 →
            (formsBytes codes).length ≤ length.toNat →
            ∃ t, exec (.blDec level) s = .next t ∧ overflowedPulses s t 0)))

/-- Round trip: BL_DEC of the packet of a train of pulses from 31 to 65535, with a payload of at least 3 bytes, gives as many pulses,
each within `8192/269 + 1/2` microseconds of its original (41_broadlink.md R126). The packet is `refFrame (refPayload train)`; that it
is what BL_ENC writes is the statement `BlEncode`. -/
def Obligations.BroadlinkRoundTrip : Prop :=
  ∀ (s : State) (level : BitVec 2) (train : List Word),
    (∀ p ∈ train, 31 ≤ p.toNat ∧ p.toNat ≤ 65535) →
    3 ≤ (refPayload train).length → (refPayload train).length ≤ 65535 → train.length ≤ s.params.pbufEntries →
    s.ilen.toNat ≤ s.params.ibufBytes → s.inputBytes = refFrame (refPayload train) →
    ∃ decoded : List Word,
      exec (.blDec level) s =
        .next (doneWithPulses s decoded (BitVec.ofNat 32 (4 + (refPayload train).length)) 0) ∧
      decoded.length = train.length ∧
      ∀ (k : Nat) (p q : Word), train[k]? = some p → decoded[k]? = some q →
        538 * p.toNat < 538 * q.toNat + 16653 ∧ 538 * q.toNat < 538 * p.toNat + 16653

/-- The thresholds of the two scalings, which BL_ENC and BL_DEC compute as `tick` and `rescale`, and the drift: a decoded tick
re-encodes to itself or to the tick below (41_broadlink.md R111, R112, R119, R121; 70_reset_and_hazards.md R255). -/
def Obligations.TickThresholds : Prop :=
  (∀ p : Word, tick p = refTick p ∧ (tick p = 0 ↔ p.toNat ≤ 30) ∧ (tick p = 1 ↔ 31 ≤ p.toNat ∧ p.toNat ≤ 60) ∧
    (256 ≤ tick p ↔ 7797 ≤ p.toNat) ∧ (65535 < tick p ↔ 1995803 ≤ p.toNat)) ∧
  (∀ t : Nat, t < 65536 →
    rescale t = refMicros t ∧ (65535 < rescale t ↔ 2152 ≤ t) ∧ rescale t ≤ 1995772 ∧
    (tick (BitVec.ofNat 32 (rescale t)) = t ∨ tick (BitVec.ofNat 32 (rescale t)) + 1 = t))

/-! ### SER16 -/

/-- SER16 of a train of pulses up to 65535 (41_broadlink.md R125). -/
def Obligations.Serialise : Prop :=
  ∀ (s : State) (level : BitVec 2), s.plen.toNat ≤ s.params.pbufEntries →
    (∀ p ∈ s.inputPulses, p.toNat ≤ 65535) → 2 * s.plen.toNat ≤ s.params.obufBytes →
    exec (.ser16 level) s = .next (doneWithBytes s (refSerial s.inputPulses) s.plen 0)

/-- SER16 faults at the first pulse above 65535, before writing it, or where the output ends (41_broadlink.md R125;
60_exceptions.md R225). -/
def Obligations.SerialiseRange : Prop :=
  ∀ (s : State) (level : BitVec 2) (before after : List Word), s.plen.toNat ≤ s.params.pbufEntries →
    (∀ p ∈ before, p.toNat ≤ 65535) →
    (∀ v : Word, s.inputPulses = before ++ v :: after → 65535 < v.toNat → 2 * before.length ≤ s.params.obufBytes →
      exec (.ser16 level) s = .next (faultedBytes s 0x0308 (BitVec.ofNat 32 before.length) 0)) ∧
    (s.inputPulses = before ++ after → s.params.obufBytes < 2 * before.length →
      ∃ t, exec (.ser16 level) s = .next t ∧ overflowedBytes s t 0)

/-! ### TUYA_EXPAND -/

/-- TUYA_EXPAND of a stream that has a meaning gives the meaning (42_tuya_format.md R136, R140, R143). -/
def Obligations.Expand : Prop :=
  ∀ (s : State) (level : BitVec 2) (out : List Byte), s.ilen.toNat ≤ s.params.ibufBytes →
    refMeaning s.inputBytes = some out → out.length ≤ s.params.obufBytes →
    exec (.tuyaExpand level) s = .next (doneWithBytes s out s.ilen 0)

/-- The faults of TUYA_EXPAND at a block that follows whole blocks: cut by the end of the stream, or referring beyond the output, it is
StreamInvalid at its first byte; too long for the output, it is CapacityExceeded (42_tuya_format.md R140, R141). -/
def Obligations.ExpandInvalid : Prop :=
  ∀ (s : State) (level : BitVec 2) (blocks rest out : List Byte), s.ilen.toNat ≤ s.params.ibufBytes →
    s.inputBytes = blocks ++ rest → refMeaning blocks = some out → out.length ≤ s.params.obufBytes →
    (rest ≠ [] → decodeTuya rest = .error .truncated →
      exec (.tuyaExpand level) s = .next (faultedBytes s 0x030A (BitVec.ofNat 32 blocks.length) 0)) ∧
    (∀ (f : BitVec 3) (d : BitVec 13), decodeTuya rest = .ok (.copyS f d) →
      (out.length < distanceOf d →
        exec (.tuyaExpand level) s = .next (faultedBytes s 0x030A (BitVec.ofNat 32 blocks.length) 0)) ∧
      (distanceOf d ≤ out.length → s.params.obufBytes < out.length + shortLength f →
        ∃ t, exec (.tuyaExpand level) s = .next t ∧ overflowedBytes s t 0)) ∧
    (∀ (d : BitVec 13) (ext : Byte), decodeTuya rest = .ok (.copyL d ext) →
      (out.length < distanceOf d →
        exec (.tuyaExpand level) s = .next (faultedBytes s 0x030A (BitVec.ofNat 32 blocks.length) 0)) ∧
      (distanceOf d ≤ out.length → s.params.obufBytes < out.length + longLength ext →
        ∃ t, exec (.tuyaExpand level) s = .next t ∧ overflowedBytes s t 0)) ∧
    (∀ data : List Byte, decodeTuya rest = .ok (.lit data) → s.params.obufBytes < out.length + data.length →
      ∃ t, exec (.tuyaExpand level) s = .next t ∧ overflowedBytes s t 0)

/-! ### TUYA_PACK -/

/-- At every level the stream means the input, and is at most `n + ceil(n/32)` bytes long; with that much room TUYA_PACK completes
(43_tuya_levels.md R171, R172). -/
def Obligations.PackRoundTrip : Prop :=
  ∀ (s : State) (level : BitVec 2), s.ilen.toNat ≤ s.params.ibufBytes →
    packBound s.ilen.toNat ≤ s.params.obufBytes →
    ∃ stream : List Byte,
      exec (.tuyaPack level) s = .next (doneWithBytes s stream s.ilen 0) ∧
      refMeaning stream = some s.inputBytes ∧ stream.length ≤ packBound s.ilen.toNat

/-- Level 0 emits the whole input as one literal run, `n + ceil(n/32)` bytes, or it does not fit (43_tuya_levels.md R151). -/
def Obligations.PackLiterals : Prop :=
  ∀ s : State, s.ilen.toNat ≤ s.params.ibufBytes →
    (refLiterals s.ilen.toNat s.inputBytes).length = packBound s.ilen.toNat ∧
    (packBound s.ilen.toNat ≤ s.params.obufBytes →
      exec (.tuyaPack 0) s = .next (doneWithBytes s (refLiterals s.ilen.toNat s.inputBytes) s.ilen 0)) ∧
    (s.params.obufBytes < packBound s.ilen.toNat →
      ∃ t, exec (.tuyaPack 0) s = .next t ∧ overflowedBytes s t 0)

/-- `matchlen` is the largest length up to 264 and the end of the data for which the two suffixes agree (00_scope.md R15). -/
def Obligations.MatchLength : Prop :=
  ∀ (data : List Byte) (pos start : Nat), start < pos → pos < data.length →
    matchLen data pos start ≤ 264 ∧ matchLen data pos start ≤ data.length - pos ∧
    (∀ k, k < matchLen data pos start → data[pos + k]? = data[start + k]?) ∧
    ∀ l, l ≤ 264 → l ≤ data.length - pos → (∀ k, k < l → data[pos + k]? = data[start + k]?) →
      l ≤ matchLen data pos start

/-- `FirstMatch` is the nearest of the distances 1 to `min(pos, 8192)` whose match has length 3 or more, with its full length; none when
there is no such distance (43_tuya_levels.md R152). -/
def Obligations.FirstMatch : Prop :=
  ∀ (data : List Byte) (pos : Nat),
    (∀ l d : Nat, firstMatch data pos = some (l, d) ↔
      1 ≤ d ∧ d ≤ min pos 8192 ∧ l = matchLen data pos (pos - d) ∧ 3 ≤ l ∧
      ∀ d', 1 ≤ d' → d' < d → matchLen data pos (pos - d') < 3) ∧
    (firstMatch data pos = none ↔ ∀ d, 1 ≤ d → d ≤ min pos 8192 → matchLen data pos (pos - d) < 3)

/-- The suffix array brought up to a position holds exactly the positions of the window and the position itself, each once, in
increasing suffix order, `min(pos, 8192) + 1` of them, whether it is brought up at once or in stages; and the suffix order is that of
the first byte that differs, a proper beginning being smaller (43_tuya_levels.md R156, R157; 00_scope.md R14). -/
def Obligations.SuffixArray : Prop :=
  (∀ (data : List Byte) (a b : Nat), a < data.length → b < data.length →
    (suffixLt data a b = true ↔
      (∃ (k : Nat) (x y : Byte), data[a + k]? = some x ∧ data[b + k]? = some y ∧ x.toNat < y.toNat ∧
        ∀ j, j < k → data[a + j]? = data[b + j]?) ∨
      (b < a ∧ ∀ j, a + j < data.length → data[a + j]? = data[b + j]?))) ∧
  ∀ (data : List Byte) (pos : Nat), pos < data.length →
    let x := Sfx.bringUp data pos { entries := [], next := 0 }
    x.next = pos + 1 ∧ x.entries.length = min pos 8192 + 1 ∧
    (∀ p, p ∈ x.entries ↔ pos - 8192 ≤ p ∧ p ≤ pos) ∧
    x.entries.Pairwise (fun a b => suffixLt data a b = true) ∧
    ∀ q, q ≤ pos → Sfx.bringUp data pos (Sfx.bringUp data q { entries := [], next := 0 }) = x

/-- `BestMatch` finds, from two neighbours, a match as long as any in the window (43_tuya_levels.md R160). -/
def Obligations.BestMatchLongest : Prop :=
  ∀ (data : List Byte) (pos : Nat), 1 ≤ pos → pos < data.length →
    ∃ l d : Nat, bestMatch data pos (Sfx.bringUp data pos { entries := [], next := 0 }) = some (l, d) ∧
      1 ≤ d ∧ d ≤ 8192 ∧ d ≤ pos ∧ l = matchLen data pos (pos - d) ∧
      ∀ p, p < pos → pos ≤ p + 8192 → matchLen data pos p ≤ l

/-- The stream of level 3 is that of one cheapest path of the graph: no path is cheaper, and among equally cheap ways to reach a node
the path takes the first one relaxed, from the lowest position and there by the match edge (43_tuya_levels.md R165 to R169). The
stream is as long as the path is dear, and it is written where it fits. -/
def Obligations.ShortestPath : Prop :=
  ∀ s : State, s.ilen.toNat ≤ s.params.ibufBytes →
    ∃ (stream : List Byte) (path : List PathEdge),
      graphPath s.inputBytes s.inputBytes.length 0 path = true ∧
      (∀ other : List PathEdge, graphPath s.inputBytes s.inputBytes.length 0 other = true → pathCost path ≤ pathCost other) ∧
      (∀ (before after : List PathEdge) (e : PathEdge) (others : List PathEdge) (f : PathEdge), path = before ++ e :: after →
        graphPath s.inputBytes (e.start + e.len) 0 (others ++ [f]) = true →
        pathCost (before ++ [e]) ≤ pathCost (others ++ [f]) ∧
        (pathCost (before ++ [e]) = pathCost (others ++ [f]) → relaxedBefore e f)) ∧
      stream = pathStream s.inputBytes [] path ∧
      stream.length = pathCost path ∧ stream.length ≤ packBound s.ilen.toNat ∧
      (stream.length ≤ s.params.obufBytes → exec (.tuyaPack 3) s = .next (doneWithBytes s stream s.ilen 0)) ∧
      (s.params.obufBytes < stream.length → ∃ t, exec (.tuyaPack 3) s = .next t ∧ overflowedBytes s t 0)

/-- The stream of levels 1 and 2 is that of the greedy parse with FirstMatch or with BestMatch, and is written where it fits; and
BestMatch is, of the one or two neighbours in suffix order, the one with the longer match, the nearer one when they are equal
(43_tuya_levels.md R153, R159, R161). -/
def Obligations.GreedyParse : Prop :=
  (∀ (s : State) (level : BitVec 2) (find : Nat → Option (Nat × Nat)) (stream : List Byte),
    s.ilen.toNat ≤ s.params.ibufBytes →
    ((level = 1 ∧ find = firstMatch s.inputBytes) ∨ (level = 2 ∧ find = bestFrom s.inputBytes)) →
    stream = pathStream s.inputBytes [] (greedyPath find s.inputBytes.length s.inputBytes.length 0) →
    (stream.length ≤ s.params.obufBytes →
      exec (.tuyaPack level) s = .next (doneWithBytes s stream s.ilen 0)) ∧
    (s.params.obufBytes < stream.length → ∃ t, exec (.tuyaPack level) s = .next t ∧ overflowedBytes s t 0)) ∧
  (∀ (data : List Byte) (pos l d : Nat), pos < data.length →
    (bestFrom data pos = some (l, d) ↔
      1 ≤ d ∧ d ≤ pos ∧ neighbour data pos (pos - d) ∧ l = matchLen data pos (pos - d) ∧
      ∀ p, neighbour data pos p → matchLen data pos p < l ∨ (matchLen data pos p = l ∧ d ≤ pos - p)))

/-- Where a level completes, level 3 completes with an output no longer (43_tuya_levels.md R169). The capacities are legal, so that
OLEN holds the length; that a legal capacity is below 2^32 is the model's (DEDUCED, log 3), 00_scope.md R6 does not say it. -/
def Obligations.MonotoneCompactness : Prop :=
  ∀ (s t t3 : State) (level : BitVec 2), Config.paramsOk s.params = true →
    exec (.tuyaPack level) s = .next t → t.status = .done → exec (.tuyaPack 3) s = .next t3 →
    t3.status = .done ∧ t3.olen.toNat ≤ t.olen.toNat

/-- No operation raises EncodingInvariantViolation (43_tuya_levels.md R170; 60_exceptions.md R215). -/
def Obligations.EmissionInvariant : Prop :=
  ∀ (s t : State) (i : Instr), isCommand i = true → exec i s = .next t → t.err ≠ 0x0205

/-! ### Base64 -/

/-- B64_ENC writes the text, `4 * ceil(n/3)` characters of the alphabet, or it does not fit; the 64 characters are those of the
alphabet's table, each with its value (44_base64.md R181 to R183). -/
def Obligations.Base64Encode : Prop :=
  (∀ v : BitVec 6, alphaChar v = refChar v.toNat ∧ charVal (refChar v.toNat) = some v) ∧
  (∀ c : Byte, c ∉ refAlphabet → charVal c = none) ∧
  (∀ data : List Byte, assembleB64 data = refText data) ∧
  ∀ (s : State) (level : BitVec 2), s.ilen.toNat ≤ s.params.ibufBytes →
    (refText s.inputBytes).length = 4 * ((s.ilen.toNat + 2) / 3) ∧
    (4 * ((s.ilen.toNat + 2) / 3) ≤ s.params.obufBytes →
      exec (.b64Enc level) s = .next (doneWithBytes s (refText s.inputBytes) s.ilen 0)) ∧
    (s.params.obufBytes < 4 * ((s.ilen.toNat + 2) / 3) →
      ∃ t, exec (.b64Enc level) s = .next t ∧ overflowedBytes s t 0)

/-- B64_DEC undoes B64_ENC, and completes on no other text (44_base64.md R184, R185). -/
def Obligations.Base64Inverse : Prop :=
  (∀ (s : State) (level : BitVec 2) (data : List Byte), s.ilen.toNat ≤ s.params.ibufBytes →
    s.inputBytes = assembleB64 data → data.length ≤ s.params.obufBytes →
    exec (.b64Dec level) s = .next (doneWithBytes s data s.ilen 0)) ∧
  (∀ (s t : State) (level : BitVec 2), exec (.b64Dec level) s = .next t → t.status = .done →
    ∃ data : List Byte, s.inputBytes = assembleB64 data ∧ t = doneWithBytes s data s.ilen 0)

/-- The faults of B64_DEC: the length first; then, after whole quanta that fit the output, the first character of the next quantum
that may not stand where it stands, at its offset (a byte outside the alphabet, `=` in the first two places or before the last
quantum, data after `=`); then bits that belong to no byte, at the last data character; and an output that does not fit
(44_base64.md R185, R186; 60_exceptions.md R217). -/
def Obligations.Base64Faults : Prop :=
  ∀ (s : State) (level : BitVec 2), s.ilen.toNat ≤ s.params.ibufBytes →
    (s.ilen.toNat % 4 ≠ 0 → exec (.b64Dec level) s = .next (faultedBytes s 0x030B s.ilen 0)) ∧
    (∀ (data : List Byte) (c0 c1 c2 c3 : Byte) (more : List Byte), s.ilen.toNat % 4 = 0 →
      s.inputBytes = refText data ++ c0 :: c1 :: c2 :: c3 :: more → data.length % 3 = 0 → data.length ≤ s.params.obufBytes →
      (c0 ∉ refAlphabet → exec (.b64Dec level) s = .next (faultedBytes s 0x030B (BitVec.ofNat 32 (refText data).length) 0)) ∧
      (c0 ∈ refAlphabet → c1 ∉ refAlphabet →
        exec (.b64Dec level) s = .next (faultedBytes s 0x030B (BitVec.ofNat 32 ((refText data).length + 1)) 0)) ∧
      (c0 ∈ refAlphabet → c1 ∈ refAlphabet → c2 ∉ refAlphabet → (c2 ≠ 0x3D ∨ more ≠ []) →
        exec (.b64Dec level) s = .next (faultedBytes s 0x030B (BitVec.ofNat 32 ((refText data).length + 2)) 0)) ∧
      (c0 ∈ refAlphabet → c1 ∈ refAlphabet → c2 = 0x3D → more = [] → c3 ≠ 0x3D →
        exec (.b64Dec level) s = .next (faultedBytes s 0x030B (BitVec.ofNat 32 ((refText data).length + 3)) 0)) ∧
      (c0 ∈ refAlphabet → c1 ∈ refAlphabet → c2 ∈ refAlphabet → c3 ∉ refAlphabet → (c3 ≠ 0x3D ∨ more ≠ []) →
        exec (.b64Dec level) s = .next (faultedBytes s 0x030B (BitVec.ofNat 32 ((refText data).length + 3)) 0)) ∧
      (c0 ∈ refAlphabet → c1 ∈ refAlphabet → c2 ∈ refAlphabet → c3 = 0x3D → more = [] →
        refAlphabet.idxOf c2 % 4 ≠ 0 →
        exec (.b64Dec level) s = .next (faultedBytes s 0x030B (BitVec.ofNat 32 ((refText data).length + 2)) 0)) ∧
      (c0 ∈ refAlphabet → c1 ∈ refAlphabet → c2 = 0x3D → c3 = 0x3D → more = [] → refAlphabet.idxOf c1 % 16 ≠ 0 →
        exec (.b64Dec level) s = .next (faultedBytes s 0x030B (BitVec.ofNat 32 ((refText data).length + 1)) 0))) ∧
    (∀ data more : List Byte, s.ilen.toNat % 4 = 0 → s.inputBytes = refText data ++ more →
      (more = [] ∨ data.length % 3 = 0) → s.params.obufBytes < data.length →
      ∃ t, exec (.b64Dec level) s = .next t ∧ overflowedBytes s t 0)

/-! ### Composite operations -/

/-- TUYA_COMP is B64_ENC of the stream of TUYA_PACK at the same level, and POS is ILEN; a stream longer than IBUF can feed, or whose
text does not fit OBUF, and a TUYA_PACK stage that faults end the whole in CapacityExceeded (45_chains.md R190, R196, R197;
60_exceptions.md R217). -/
def Obligations.TuyaText : Prop :=
  ∀ (s : State) (level : BitVec 2), s.ilen.toNat ≤ s.params.ibufBytes →
    (packBound s.ilen.toNat ≤ s.params.ibufBytes → 4 * ((packBound s.ilen.toNat + 2) / 3) ≤ s.params.obufBytes →
      ∃ stream : List Byte,
        exec (.tuyaPack level) s = .next (doneWithBytes s stream s.ilen 0) ∧
        exec (.tuyaComp level) s = .next (doneWithBytes s (assembleB64 stream) s.ilen 0)) ∧
    (∀ stream : List Byte, exec (.tuyaPack level) s = .next (doneWithBytes s stream s.ilen 0) →
      (stream.length ≤ s.params.ibufBytes → 4 * ((stream.length + 2) / 3) ≤ s.params.obufBytes →
        exec (.tuyaComp level) s = .next (doneWithBytes s (assembleB64 stream) s.ilen 0)) ∧
      ((s.params.ibufBytes < stream.length ∨ s.params.obufBytes < 4 * ((stream.length + 2) / 3)) →
        ∃ u, exec (.tuyaComp level) s = .next u ∧ overflowedBytes s u 0)) ∧
    (∀ t : State, exec (.tuyaPack level) s = .next t → t.status = .fault →
      ∃ u, exec (.tuyaComp level) s = .next u ∧ overflowedBytes s u 0)

/-- PRONTO2BL keeps the train of PRONTO_DEC in PBUF and writes the frame of BL_ENC for it to OBUF. A fault of the PRONTO_DEC stage ends
the whole with that fault's code and position, and so do those of the BL_ENC stage (a tick out of range, a payload too long, a frame
that does not fit), with the warnings gathered before it; both outputs are invalidated (45_chains.md R192, R196, R197). -/
def Obligations.ProntoToBroadlink : Prop :=
  ∀ (s : State) (level : BitVec 2), s.ilen.toNat ≤ s.params.ibufBytes →
    (∀ (divisor once rep : BitVec 16) (rest : List Byte) (train : List Word),
      s.inputBytes = formBytes (.prontoHeader divisor once rep) ++ rest →
      rest.length = 4 * (once.toNat + rep.toNat) → divisor ≠ 0 →
      2 * (once.toNat + rep.toNat) ≤ s.params.pbufEntries →
      train = (burstWords rest).map (refPulse divisor) →
      ((∀ p ∈ train, refTick p ≤ 65535) → (refPayload train).length ≤ 65535 →
        (refFrame (refPayload train)).length ≤ s.params.obufBytes →
        exec (.pronto2Bl level) s =
          .next (doneWithBoth s (refFrame (refPayload train)) train s.ilen
            (if train.any (fun p => refTick p == 0) then 2 else 0))) ∧
      (∀ (before after : List Word) (v : Word), train = before ++ v :: after →
        (∀ p ∈ before, refTick p ≤ 65535) → 65535 < refTick v →
        exec (.pronto2Bl level) s =
          .next (faultedBoth s 0x0308 (BitVec.ofNat 32 before.length)
            (if before.any (fun p => refTick p == 0) then 2 else 0))) ∧
      ((∀ p ∈ train, refTick p ≤ 65535) → 65535 < (refPayload train).length →
        exec (.pronto2Bl level) s =
          .next (faultedBoth s 0x0308 (BitVec.ofNat 32 train.length)
            (if train.any (fun p => refTick p == 0) then 2 else 0))) ∧
      ((∀ p ∈ train, refTick p ≤ 65535) → (refPayload train).length ≤ 65535 →
        s.params.obufBytes < (refFrame (refPayload train)).length →
        ∃ u, exec (.pronto2Bl level) s = .next u ∧
          overflowedBoth s u (if train.any (fun p => refTick p == 0) then 2 else 0))) ∧
    (∀ t : State, exec (.prontoDec level) s = .next t → t.status = .fault →
      (t.err ≠ 0x0307 → exec (.pronto2Bl level) s = .next (faultedBoth s t.err t.pos t.warn)) ∧
      (t.err = 0x0307 → ∃ u, exec (.pronto2Bl level) s = .next u ∧ overflowedBoth s u t.warn))

/-- BL2TUYA keeps the train of BL_DEC in PBUF, with POS and WARN of BL_DEC, and writes to OBUF the base64 text of the stream that
TUYA_PACK gives at CMD.LEVEL for the serialised train, whatever packet BL_DEC completes on, one that stops early too (statements
`BlDecode`, `BlDecodeEarlyStop`). Where a stage's bytes do not fit, the whole ends in CapacityExceeded with BL_DEC's warnings; where
BL_DEC faults, the whole ends with that fault (45_chains.md R194, R196, R197). -/
def Obligations.BroadlinkToTuya : Prop :=
  ∀ (s : State) (level : BitVec 2), s.ilen.toNat ≤ s.params.ibufBytes →
    (∀ (rep : Byte) (length : BitVec 16) (codes : List Instr) (tail : List Byte) (train : List Word),
      s.inputBytes = formBytes (.blHeader rep length) ++ formsBytes codes ++ tail →
      (formsBytes codes).length = length.toNat → 3 ≤ length.toNat →
      (∀ c ∈ codes, isPulseCode c = true ∧ codeMicros c ≤ 65535) → codes.length ≤ s.params.pbufEntries →
      packBound (2 * codes.length) ≤ s.params.ibufBytes →
      4 * ((packBound (2 * codes.length) + 2) / 3) ≤ s.params.obufBytes →
      train = codes.map (fun c => BitVec.ofNat 32 (codeMicros c)) →
      ∃ stream : List Byte,
        refMeaning stream = some (refSerial train) ∧
        exec (.bl2Tuya level) s =
          .next (doneWithBoth s (assembleB64 stream) train (BitVec.ofNat 32 (4 + length.toNat)) 0)) ∧
    (∀ (train : List Word) (pos warn : Word), exec (.blDec level) s = .next (doneWithPulses s train pos warn) →
      (packBound (2 * train.length) ≤ s.params.ibufBytes →
        4 * ((packBound (2 * train.length) + 2) / 3) ≤ s.params.obufBytes →
        ∃ stream : List Byte,
          refMeaning stream = some (refSerial train) ∧
          (∀ r : State, r.params = s.params → r.inputBytes = refSerial train →
            exec (.tuyaPack level) r = .next (doneWithBytes r stream r.ilen 0)) ∧
          exec (.bl2Tuya level) s = .next (doneWithBoth s (assembleB64 stream) train pos warn)) ∧
      ((s.params.obufBytes < 2 * train.length ∨ s.params.ibufBytes < 2 * train.length) →
        ∃ u, exec (.bl2Tuya level) s = .next u ∧ overflowedBoth s u warn) ∧
      (∀ r t : State, r.params = s.params → r.inputBytes = refSerial train → exec (.tuyaPack level) r = .next t →
        t.status = .fault → ∃ u, exec (.bl2Tuya level) s = .next u ∧ overflowedBoth s u warn) ∧
      (∀ (r : State) (stream : List Byte), r.params = s.params → r.inputBytes = refSerial train →
        2 * train.length ≤ s.params.obufBytes →
        exec (.tuyaPack level) r = .next (doneWithBytes r stream r.ilen 0) →
        (stream.length ≤ s.params.ibufBytes → 4 * ((stream.length + 2) / 3) ≤ s.params.obufBytes →
          exec (.bl2Tuya level) s = .next (doneWithBoth s (assembleB64 stream) train pos warn)) ∧
        ((s.params.ibufBytes < stream.length ∨ s.params.obufBytes < 4 * ((stream.length + 2) / 3)) →
          ∃ u, exec (.bl2Tuya level) s = .next u ∧ overflowedBoth s u warn))) ∧
    (∀ t : State, exec (.blDec level) s = .next t → t.status = .fault →
      (t.err ≠ 0x0307 → exec (.bl2Tuya level) s = .next (faultedBoth s t.err t.pos t.warn)) ∧
      (t.err = 0x0307 → ∃ u, exec (.bl2Tuya level) s = .next u ∧ overflowedBoth s u t.warn))

/-! ### What holds of every operation -/

/-- The common prologue: an input longer than its buffer is CapacityExceeded before anything else is looked at
(45_chains.md R202; 60_exceptions.md R217). -/
def Obligations.InputCapacity : Prop :=
  ∀ (s : State) (i : Instr), isCommand i = true → (∀ w : Word, i ≠ .illegal w) →
    (if readsPulses i = true then s.params.pbufEntries < s.plen.toNat else s.params.ibufBytes < s.ilen.toNat) →
    ∃ t, exec i s = .next t ∧ onlyResults s t ∧ othersKept s t (commandOutputs i) ∧
      outputsInvalid s t (commandOutputs i) ∧
      t.status = .fault ∧ t.err = 0x0307 ∧ t.warn = 0 ∧ t.work = Work.closed

/-- Taking a fault: ERR holds one of the listed values, every output is invalidated, the hidden state is empty, and nothing else
changes: inputs, CMD, CTRL and the buffers that are no outputs keep their values (60_exceptions.md R210, R221). -/
def Obligations.FaultEffects : Prop :=
  ∀ (s t : State) (i : Instr), isCommand i = true → exec i s = .next t → t.status = .fault →
    onlyResults s t ∧ othersKept s t (commandOutputs i) ∧ outputsInvalid s t (commandOutputs i) ∧
    t.work = Work.closed ∧ t.err ∈ errValues ∧ t.err ≠ 0

/-- Every operation ends, from every state: DONE with ERR 0 or FAULT with ERR not 0, the hidden state empty, and only its own
results written (70_reset_and_hazards.md R254; 10_state.md R46; 20_memory.md R52). -/
def Obligations.OperationEnds : Prop :=
  ∀ (s : State) (i : Instr), isCommand i = true →
    ∃ t, exec i s = .next t ∧ onlyResults s t ∧ othersKept s t (commandOutputs i) ∧ t.work = Work.closed ∧
      ((t.status = .done ∧ t.err = 0) ∨ (t.status = .fault ∧ t.err ≠ 0))

/-- An operation's result depends on its command word, the lengths and the valid parts of the inputs, and on nothing else: not on
STATUS, ERR, WARN, POS, OBUF or the elements beyond the valid parts (00_scope.md R9; 10_state.md R41; 45_chains.md R203). POS of
CapacityExceeded and of EncodingInvariantViolation is a draw and is not compared (60_exceptions.md R222). -/
def Obligations.Purity : Prop :=
  ∀ (s s' t t' : State) (i : Instr), isCommand i = true →
    s.params = s'.params → s.ilen = s'.ilen → s.plen = s'.plen →
    s.inputBytes = s'.inputBytes → s.inputPulses = s'.inputPulses →
    exec i s = .next t → exec i s' = .next t' →
    t.status = t'.status ∧ t.err = t'.err ∧ t.warn = t'.warn ∧ (t.err ≠ 0x0307 → t.err ≠ 0x0205 → t.pos = t'.pos) ∧
    ((commandOutputs i).obuf = true → t.olen = t'.olen ∧ t.obuf.cells = t'.obuf.cells) ∧
    ((commandOutputs i).pbuf = true → t.plen = t'.plen ∧ t.pbuf.cells = t'.pbuf.cells)

/-- No LEVEL is illegal, and LEVEL is ignored by every operation that does not use it: two legal words with the same OP, not 5, 9
or 11, run alike (30_encoding.md R72). -/
def Obligations.LevelIgnored : Prop :=
  (∀ v : Word, v >>> 10 = 0 → 1 ≤ v.toNat % 256 → v.toNat % 256 ≤ 11 → ∀ u, decodeCommand v ≠ .illegal u) ∧
  ∀ (v w : Word) (s : State), v >>> 10 = 0 → w >>> 10 = 0 → v.toNat % 256 = w.toNat % 256 →
    v.toNat % 256 ∈ [1, 2, 3, 4, 6, 7, 8, 10] →
    exec (decodeCommand v) s = exec (decodeCommand w) s

/-! ### The machine -/

/-- A step of a started operation runs the instruction that CMD decodes to; a step of an opened one runs the stream form that the bytes
at its cursor decode to (for SER16 the form that the pulse at its cursor is); with another agent to move, or when not BUSY, the engine
does nothing (10_state.md R40, R45; 60_exceptions.md R236; log 6, log 10). -/
def Obligations.StepRunsDecoded : Prop :=
  (∀ (s : State) (rest : List Move), s.status = .busy → s.work.opened = false →
    (s.sched = [] → step s = exec (decodeCommand s.cmd) s) ∧
    step { s with sched := .engine :: rest } = exec (decodeCommand s.cmd) { s with sched := rest }) ∧
  (∀ (s : State) (level : BitVec 2) (i : Instr), s.status = .busy → s.work.opened = true → s.sched = [] →
    (decodeCommand s.cmd = .tuyaExpand level → s.inputBytes.drop s.work.pos ≠ [] →
      decodeForm .tuyaBlock (s.inputBytes.drop s.work.pos) = .ok i → step s = exec i s) ∧
    (decodeCommand s.cmd = .blDec level → s.work.pos = 0 →
      decodeForm .blFrame s.inputBytes = .ok i → step s = exec i s) ∧
    (decodeCommand s.cmd = .blDec level → s.work.pos ≠ 0 → s.work.pos < s.work.payloadEnd →
      decodeForm .blPulse (between s.work.pos s.work.payloadEnd s.inputBytes) = .ok i → step s = exec i s) ∧
    (decodeCommand s.cmd = .prontoDec level → s.work.pos = 0 →
      decodeForm .pronto s.inputBytes = .ok i → step s = exec i s) ∧
    (decodeCommand s.cmd = .b64Dec level → s.inputBytes.length % 4 = 0 → s.inputBytes.drop s.work.pos ≠ [] →
      decodeForm .base64 (s.inputBytes.drop s.work.pos) = .ok i → step s = exec i s) ∧
    (∀ v : Word, decodeCommand s.cmd = .ser16 level → s.inputPulses[s.work.pos]? = some v → v.toNat ≤ 65535 →
      step s = exec (.pulse16 (v.setWidth 16)) s)) ∧
  (∀ s : State, s.status ≠ .busy → s.sched = [] → step s = .next s)

/-- The invariant of the machine is kept by every step, from every state that has it (00_scope.md R6; 10_state.md R22, R25, R26, R28,
R33, R35; 60_exceptions.md R210; the clauses on the model's own fields: log 1, log 18). -/
def Obligations.InvariantKept : Prop :=
  ∀ s t : State, s.inv = true → step s = .next t → t.inv = true

/-- The invariant holds at reset. -/
def Obligations.InvariantAtReset : Prop := State.reset.inv = true

/-- The registers after reset, read by the host: ID and zeros, IDLE, the interrupt line low, the hidden state empty, no element of a
buffer determined (10_state.md R47). -/
def Obligations.ResetState : Prop :=
  State.reset.regValue 0 = 0x53495243 ∧ (∀ r, 1 ≤ r → State.reset.regValue r = 0) ∧
  State.reset.status = .idle ∧ State.reset.irq = false ∧ State.reset.work = Work.closed ∧
  State.reset.ibuf.cells = [] ∧ State.reset.obuf.cells = [] ∧ State.reset.pbuf.cells = []

/-- The reset input in any state, BUSY included: registers 0, IDLE, the running operation abandoned with nothing recorded, the buffers
draws again and not what they held (70_reset_and_hazards.md R240, R241). That the capacities, the rest of the schedule and the read
port stay is the model's choice (log 14). -/
def Obligations.ResetInput : Prop :=
  ∀ (s : State) (rest : List Move),
    ∃ t, step { s with sched := .host .reset :: rest } = .next t ∧
      t.regValue 0 = 0x53495243 ∧ (∀ r, 1 ≤ r → t.regValue r = 0) ∧
      t.status = .idle ∧ t.irq = false ∧ t.work = Work.closed ∧
      t.ibuf.cells = [] ∧ t.obuf.cells = [] ∧ t.pbuf.cells = [] ∧
      s.draws ≤ t.ibuf.seed ∧ s.draws ≤ t.obuf.seed ∧ s.draws ≤ t.pbuf.seed ∧
      t.params = s.params ∧ t.sched = rest ∧ t.rdata = s.rdata

/-- An operation carried out turn by turn ends, after finitely many steps, in the state that the operation taken whole gives at once
(00_scope.md R8; 70_reset_and_hazards.md R254; log 6). -/
def Obligations.TurnByTurn : Prop :=
  ∀ s : State, s.status = .busy → s.work.opened = false → s.sched = [] →
    ∃ (k : Nat) (t : State), exec s.command s = .next t ∧ t.status ≠ .busy ∧
      Host.Core.run Sys2Proof.core k s.openOp = .next t

/-- What the host can do while BUSY: ID, CTRL, CMD, STATUS and ILEN read as they are; ERR, WARN, OLEN, PLEN, POS and every buffer
element read as the next draw, a new one each time; writes to CMD, ILEN, PLEN and the buffers are ignored; a write to CTRL takes
effect. So two BUSY states that agree on what is not hidden answer every transaction alike, whatever the operation has done and
whatever ERR, WARN, OLEN, PLEN, POS and the buffers hold (20_memory.md R60). The names of the draws are the model's (DESIGN CHOICE,
log 1); that a read outside a buffer answers 0 also while BUSY is the model's (DEDUCED, log 8). -/
def Obligations.BusyAccess : Prop :=
  (∀ (s : State) (rest : List Move), s.status = .busy →
    (∀ r, r ∈ [0, 1, 2, 3, 6] →
      step { s with sched := .host (.regRead r) :: rest } = .next { s with sched := rest, rdata := s.regValue r }) ∧
    s.statusWord = 1 ∧
    (∀ r, r ∈ [4, 5, 7, 8, 9] → step { s with sched := .host (.regRead r) :: rest } =
      .next { s with sched := rest, rdata := Config.draw s.draws 0, draws := s.draws + 1 }) ∧
    (∀ x i, i < s.capacityOf x → step { s with sched := .host (.bufRead x i) :: rest } =
      .next { s with sched := rest, rdata := Config.draw s.draws 0 &&& 0xFF, draws := s.draws + 1 }) ∧
    (∀ i, i < s.params.pbufEntries → step { s with sched := .host (.pulseRead i) :: rest } =
      .next { s with sched := rest, rdata := Config.draw s.draws 0, draws := s.draws + 1 }) ∧
    (∀ x i, s.capacityOf x ≤ i → step { s with sched := .host (.bufRead x i) :: rest } =
      .next { s with sched := rest, rdata := 0 }) ∧
    (∀ i, s.params.pbufEntries ≤ i → step { s with sched := .host (.pulseRead i) :: rest } =
      .next { s with sched := rest, rdata := 0 }) ∧
    (∀ r v, r ≠ 1 → step { s with sched := .host (.regWrite r v) :: rest } = .next { s with sched := rest }) ∧
    (∀ x i b, step { s with sched := .host (.bufWrite x i b) :: rest } = .next { s with sched := rest }) ∧
    (∀ i v, step { s with sched := .host (.pulseWrite i v) :: rest } = .next { s with sched := rest }) ∧
    (∀ v, step { s with sched := .host (.regWrite 1 v) :: rest } = .next { s with sched := rest, ctrl := v &&& 1 })) ∧
  (∀ (s r : State) (tr : Transaction) (rest : List Move), s.status = .busy → r.status = .busy → r.params = s.params →
    r.ctrl = s.ctrl → r.cmd = s.cmd → r.ilen = s.ilen → r.draws = s.draws → r.rdata = s.rdata →
    ∃ t u, step { s with sched := .host tr :: rest } = .next t ∧ step { r with sched := .host tr :: rest } = .next u ∧
      u.rdata = t.rdata ∧ u.status = t.status ∧ u.ctrl = t.ctrl ∧ u.cmd = t.cmd ∧ u.ilen = t.ilen ∧ u.irq = t.irq ∧
      u.draws = t.draws)

/-- A command written outside BUSY is stored and starts at once, also from DONE and FAULT without an acknowledge; CTRL stores IE and its
bit 1 acknowledges DONE and FAULT, leaving every result as it is, and does nothing elsewhere (10_state.md R22, R23, R45;
60_exceptions.md R228). -/
def Obligations.StartAndAcknowledge : Prop :=
  ∀ (s : State) (rest : List Move) (v : Word),
    (s.status ≠ .busy → step { s with sched := .host (.regWrite 2 v) :: rest } =
      .next { s with cmd := v, status := .busy, work := Work.closed, sched := rest }) ∧
    (v.getLsbD 1 = true → (s.status = .done ∨ s.status = .fault) →
      step { s with sched := .host (.regWrite 1 v) :: rest } =
        .next { s with ctrl := v &&& 1, status := .idle, sched := rest } ∧
      State.irq { s with ctrl := v &&& 1, status := .idle, sched := rest } = false) ∧
    ((v.getLsbD 1 = false ∨ s.status = .idle ∨ s.status = .busy) →
      step { s with sched := .host (.regWrite 1 v) :: rest } = .next { s with ctrl := v &&& 1, sched := rest })

/-- Register reads, outside BUSY and in BUSY of what is not hidden then: every number has the value of its register and no read has a
side effect beyond the answer. ID reads the constant and numbers above 9 read 0 in every state; STATUS is STATE with the interrupt line
in bit 2; ID, STATUS, ERR, WARN, OLEN, POS and the reserved numbers ignore writes in every state (10_state.md R21, R24 to R31;
20_memory.md R61, R62; 60_exceptions.md R226). -/
def Obligations.RegisterMap : Prop :=
  ∀ (s : State) (rest : List Move),
    (∀ r, (s.status ≠ .busy ∨ r ∉ [4, 5, 7, 8, 9]) →
      step { s with sched := .host (.regRead r) :: rest } = .next { s with sched := rest, rdata := s.regValue r }) ∧
    s.regValue 0 = 0x53495243 ∧ s.regValue 1 = s.ctrl ∧ s.regValue 2 = s.cmd ∧ s.regValue 4 = s.err ∧
    s.regValue 5 = s.warn ∧ s.regValue 6 = s.ilen ∧ s.regValue 7 = s.olen ∧ s.regValue 8 = s.plen ∧
    s.regValue 9 = s.pos ∧ (∀ r, 10 ≤ r → s.regValue r = 0) ∧
    (s.irq = true ↔ s.ctrl.getLsbD 0 = true ∧ (s.status = .done ∨ s.status = .fault)) ∧
    (s.status = .idle → (s.regValue 3).toNat % 4 = 0) ∧ (s.status = .busy → (s.regValue 3).toNat % 4 = 1) ∧
    (s.status = .done → (s.regValue 3).toNat % 4 = 2) ∧ (s.status = .fault → (s.regValue 3).toNat % 4 = 3) ∧
    ((s.regValue 3).getLsbD 2 = s.irq) ∧ (s.regValue 3).toNat < 8 ∧
    (∀ r v, r ∉ [1, 2, 6, 8] → step { s with sched := .host (.regWrite r v) :: rest } = .next { s with sched := rest }) ∧
    (∀ v, s.status ≠ .busy →
      step { s with sched := .host (.regWrite 6 v) :: rest } = .next { s with ilen := v, sched := rest } ∧
      step { s with sched := .host (.regWrite 8 v) :: rest } = .next { s with plen := v, sched := rest })

/-- Buffer transactions outside BUSY: a write inside IBUF or PBUF changes that element and no other and no other field, a read answers the
element; outside the space a read answers 0 and a write does nothing; OBUF ignores writes (20_memory.md R51). -/
def Obligations.BufferTransactions : Prop :=
  ∀ (s : State) (rest : List Move), s.status ≠ .busy →
    (∀ i b, i < s.params.ibufBytes →
      ∃ m : Memory 8, step { s with sched := .host (.bufWrite .ibuf i b) :: rest } =
        .next { s with ibuf := m, sched := rest } ∧
        m.read i = b ∧ ∀ j, j ≠ i → m.read j = s.ibuf.read j) ∧
    (∀ i v, i < s.params.pbufEntries →
      ∃ m : Memory 32, step { s with sched := .host (.pulseWrite i v) :: rest } =
        .next { s with pbuf := m, sched := rest } ∧
        m.read i = v ∧ ∀ j, j ≠ i → m.read j = s.pbuf.read j) ∧
    (∀ i, i < s.params.ibufBytes → step { s with sched := .host (.bufRead .ibuf i) :: rest } =
      .next { s with sched := rest, rdata := (s.ibuf.read i).setWidth 32 }) ∧
    (∀ i, i < s.params.obufBytes → step { s with sched := .host (.bufRead .obuf i) :: rest } =
      .next { s with sched := rest, rdata := (s.obuf.read i).setWidth 32 }) ∧
    (∀ i, i < s.params.pbufEntries → step { s with sched := .host (.pulseRead i) :: rest } =
      .next { s with sched := rest, rdata := s.pbuf.read i }) ∧
    (∀ x i, s.capacityOf x ≤ i → step { s with sched := .host (.bufRead x i) :: rest } =
      .next { s with sched := rest, rdata := 0 }) ∧
    (∀ i, s.params.pbufEntries ≤ i → step { s with sched := .host (.pulseRead i) :: rest } =
      .next { s with sched := rest, rdata := 0 }) ∧
    (∀ i b, s.params.ibufBytes ≤ i →
      step { s with sched := .host (.bufWrite .ibuf i b) :: rest } = .next { s with sched := rest }) ∧
    (∀ i v, s.params.pbufEntries ≤ i →
      step { s with sched := .host (.pulseWrite i v) :: rest } = .next { s with sched := rest }) ∧
    (∀ i b, step { s with sched := .host (.bufWrite .obuf i b) :: rest } = .next { s with sched := rest })

end
end

