-- ==== Sys2Proof/Laws/Memory.lean ====
section
/-! SUPPORT. The laws of buffers: a read after a write, the canonical form, and the operands of an operation. -/

namespace Sys2Proof.Machine

open Sys2Proof

variable {w : Nat}

/-! ### Read after write -/

theorem cellAt_insertCell (i j : Nat) (v : BitVec w) (cs : List (Nat × BitVec w)) :
    cellAt (insertCell i v cs) j = if i = j then some v else cellAt cs j := by
  induction cs with
  | nil => simp [insertCell, cellAt]
  | cons c rest ih =>
    obtain ⟨a, u⟩ := c
    simp only [insertCell]
    split
    · simp [cellAt]
    · split
      · subst_vars; simp only [cellAt]; split <;> rfl
      · simp only [cellAt, ih]
        split
        · split <;> [omega; rfl]
        · rfl

@[simp] theorem read_write_same (m : Memory w) (i : Nat) (v : BitVec w) : (m.write i v).read i = v := by
  simp [Memory.read, Memory.write, cellAt_insertCell]

theorem read_write_other (m : Memory w) {i j : Nat} (v : BitVec w) (h : j ≠ i) :
    (m.write i v).read j = m.read j := by
  simp [Memory.read, Memory.write, cellAt_insertCell, Ne.symm h]

@[simp] theorem write_seed (m : Memory w) (i : Nat) (v : BitVec w) : (m.write i v).seed = m.seed := rfl

/-! ### The canonical form -/

theorem risingFrom_insertCell (i : Nat) (v : BitVec w) (cs : List (Nat × BitVec w)) (b : Nat) (hb : b ≤ i)
    (h : risingFrom b cs = true) : risingFrom b (insertCell i v cs) = true := by
  induction cs generalizing b with
  | nil => simp [insertCell, risingFrom, hb]
  | cons c rest ih =>
    obtain ⟨a, u⟩ := c
    simp only [risingFrom, Bool.and_eq_true, decide_eq_true_eq] at h
    simp only [insertCell]
    split
    · simp only [risingFrom, Bool.and_eq_true, decide_eq_true_eq]
      exact ⟨hb, by omega, h.2⟩
    · split
      · subst_vars; simp [risingFrom, h]
      · simp only [risingFrom, Bool.and_eq_true, decide_eq_true_eq]
        exact ⟨h.1, ih _ (by omega) h.2⟩

theorem mem_insertCell (i : Nat) (v : BitVec w) (cs : List (Nat × BitVec w)) {c : Nat × BitVec w}
    (h : c ∈ insertCell i v cs) : c = (i, v) ∨ c ∈ cs := by
  induction cs with
  | nil => simpa [insertCell] using h
  | cons d rest ih =>
    obtain ⟨a, u⟩ := d
    simp only [insertCell] at h
    split at h
    · simpa using h
    · split at h
      · rcases List.mem_cons.1 h with rfl | h
        · exact .inl rfl
        · exact .inr (List.mem_cons_of_mem _ h)
      · rcases List.mem_cons.1 h with rfl | h
        · exact .inr (List.mem_cons_self ..)
        · exact (ih h).imp_right (List.mem_cons_of_mem _)

theorem Memory.wf_iff (cap : Nat) (m : Memory w) :
    m.wf cap = true ↔ risingFrom 0 m.cells = true ∧ ∀ c ∈ m.cells, c.1 < cap := by
  simp [Memory.wf]

/-- A write inside the buffer keeps the canonical form. -/
theorem Memory.wf_write {cap i : Nat} (m : Memory w) (v : BitVec w) (hi : i < cap) (h : m.wf cap = true) :
    (m.write i v).wf cap = true := by
  rw [Memory.wf_iff] at h ⊢
  refine ⟨risingFrom_insertCell i v _ 0 (Nat.zero_le _) h.1, fun c hc => ?_⟩
  rcases mem_insertCell i v _ hc with rfl | hc
  · exact hi
  · exact h.2 c hc

theorem risingFrom_cellsFrom (vs : List (BitVec w)) (b i : Nat) (h : b ≤ i) :
    risingFrom b (cellsFrom i vs) = true := by
  induction vs generalizing b i with
  | nil => rfl
  | cons v vs ih => simp [cellsFrom, risingFrom, h, ih (i + 1) (i + 1) (Nat.le_refl _)]

theorem map_fst_cellsFrom (vs : List (BitVec w)) (i : Nat) :
    (cellsFrom i vs).map Prod.fst = List.range' i vs.length := by
  induction vs generalizing i with
  | nil => rfl
  | cons v vs ih => simp [cellsFrom, ih, List.range'_succ]

theorem lt_of_mem_cellsFrom (vs : List (BitVec w)) (i : Nat) {c : Nat × BitVec w} (h : c ∈ cellsFrom i vs) :
    c.1 < i + vs.length := by
  have := List.mem_map_of_mem (f := Prod.fst) h
  rw [map_fst_cellsFrom, List.mem_range'_1] at this
  exact this.2

/-- A buffer that holds a list in full is in canonical form. -/
theorem Memory.wf_ofList {cap : Nat} (vs : List (BitVec w)) (seed : Nat) (h : vs.length ≤ cap) :
    (Memory.ofList vs seed).wf cap = true := by
  rw [Memory.wf_iff]
  refine ⟨risingFrom_cellsFrom vs 0 0 (Nat.le_refl _), fun c hc => ?_⟩
  have := lt_of_mem_cellsFrom vs 0 hc
  omega

/-- A buffer with nothing determined is in canonical form. -/
@[simp] theorem Memory.wf_nil (cap seed : Nat) : Memory.wf cap ({ cells := [], seed := seed } : Memory w) = true := rfl

theorem cellAt_of_lt (cs : List (Nat × BitVec w)) (b i : Nat) (h : risingFrom b cs = true) (hi : i < b) :
    cellAt cs i = none := by
  induction cs generalizing b with
  | nil => rfl
  | cons c rest ih =>
    obtain ⟨a, u⟩ := c
    simp only [risingFrom, Bool.and_eq_true, decide_eq_true_eq] at h
    simp only [cellAt]
    rw [if_neg (by omega), ih _ h.2 (by omega)]

/-- Two canonical lists of cells that list the same values are the same list: equal buffers are equal data. -/
theorem cells_ext (cs ds : List (Nat × BitVec w)) (b : Nat) (hc : risingFrom b cs = true)
    (hd : risingFrom b ds = true) (h : ∀ i, cellAt cs i = cellAt ds i) : cs = ds := by
  induction cs generalizing ds b with
  | nil =>
    cases ds with
    | nil => rfl
    | cons d ds =>
      have := h d.1
      simp [cellAt] at this
  | cons c cs ih =>
    cases ds with
    | nil =>
      have := h c.1
      simp [cellAt] at this
    | cons d ds =>
      obtain ⟨a, u⟩ := c
      obtain ⟨e, v⟩ := d
      simp only [risingFrom, Bool.and_eq_true, decide_eq_true_eq] at hc hd
      have hae : a = e := by
        rcases Nat.lt_trichotomy a e with hlt | heq | hgt
        · have := h a
          simp only [cellAt, if_true] at this
          rw [if_neg (by omega), cellAt_of_lt ds _ a hd.2 (by omega)] at this
          cases this
        · exact heq
        · have := h e
          simp only [cellAt, if_true] at this
          rw [if_neg (by omega), cellAt_of_lt cs _ e hc.2 (by omega)] at this
          cases this
      subst hae
      have huv : u = v := by
        have := h a
        simpa [cellAt] using this
      subst huv
      have := ih ds (a + 1) hc.2 hd.2 fun i => by
        have := h i
        simp only [cellAt] at this
        by_cases hi : a = i
        · subst hi
          rw [cellAt_of_lt cs _ a hc.2 (by omega), cellAt_of_lt ds _ a hd.2 (by omega)]
        · rwa [if_neg hi, if_neg hi] at this
      rw [this]

/-! ### A buffer that holds a list -/

theorem cellAt_cellsFrom (vs : List (BitVec w)) (b i : Nat) (h : b ≤ i) :
    cellAt (cellsFrom b vs) i = vs[i - b]? := by
  induction vs generalizing b with
  | nil => simp [cellsFrom, cellAt]
  | cons v vs ih =>
    simp only [cellsFrom, cellAt]
    split
    · subst_vars; simp
    · rw [ih (b + 1) (by omega), show i - b = (i - (b + 1)) + 1 by omega, List.getElem?_cons_succ]

theorem read_ofList (vs : List (BitVec w)) (seed i : Nat) :
    (Memory.ofList vs seed).read i = vs[i]?.getD (drawAt w seed i) := by
  simp [Memory.read, Memory.ofList, cellAt_cellsFrom]

@[simp] theorem slice_length (m : Memory w) (i n : Nat) : (m.slice i n).length = n := by
  induction n generalizing i with
  | zero => rfl
  | succ n ih => simp [Memory.slice, ih]

theorem slice_getElem? (m : Memory w) (i n k : Nat) (h : k < n) : (m.slice i n)[k]? = some (m.read (i + k)) := by
  induction n generalizing i k with
  | zero => omega
  | succ n ih =>
    cases k with
    | zero => simp [Memory.slice]
    | succ k => simp [Memory.slice, ih (i + 1) k (by omega), Nat.add_comm, Nat.add_left_comm]

theorem slice_add (m : Memory w) (i a b : Nat) : m.slice i (a + b) = m.slice i a ++ m.slice (i + a) b := by
  induction a generalizing i with
  | zero => simp [Memory.slice]
  | succ a ih =>
    rw [show a + 1 + b = (a + b) + 1 by omega]
    simp only [Memory.slice, ih, List.cons_append]
    rw [show i + 1 + a = i + (a + 1) by omega]

/-- The valid part of a buffer that holds a list is the list. -/
theorem slice_ofList (vs : List (BitVec w)) (seed : Nat) : (Memory.ofList vs seed).slice 0 vs.length = vs := by
  apply List.ext_getElem?
  intro k
  rcases Nat.lt_or_ge k vs.length with h | h
  · simp [slice_getElem? _ 0 _ k h, read_ofList, List.getElem?_eq_getElem h]
  · rw [List.getElem?_eq_none (by simpa using h), List.getElem?_eq_none h]

@[simp] theorem inputBytes_length (s : State) : s.inputBytes.length = s.ilen.toNat := by simp [State.inputBytes]

@[simp] theorem inputPulses_length (s : State) : s.inputPulses.length = s.plen.toNat := by simp [State.inputPulses]

/-- The input from an offset on, as BL_DEC's leftover is read (41_broadlink.md R122). -/
theorem inputFrom_eq_drop (s : State) (p : Nat) : s.inputFrom p = s.inputBytes.drop p := by
  rcases Nat.lt_or_ge s.ilen.toNat p with h | h
  · rw [List.drop_eq_nil_of_le (by simpa using Nat.le_of_lt h)]
    simp [State.inputFrom, show s.ilen.toNat - p = 0 by omega, Memory.slice]
  · have : s.inputBytes = s.ibuf.slice 0 p ++ s.ibuf.slice p (s.ilen.toNat - p) := by
      have := slice_add s.ibuf 0 p (s.ilen.toNat - p)
      rw [Nat.zero_add, show p + (s.ilen.toNat - p) = s.ilen.toNat by omega] at this
      exact this
    rw [this, List.drop_left' (by simp), State.inputFrom]

/-! ### The host's writes and the engine's results keep the form -/

theorem bufWrite_ibuf_wf (s : State) (x : ByteSpace) (i : Nat) (b : Byte)
    (h : s.ibuf.wf s.params.ibufBytes = true) :
    (s.bufWrite x i b).ibuf.wf (s.bufWrite x i b).params.ibufBytes = true := by
  cases x with
  | obuf => exact h
  | ibuf =>
    simp only [State.bufWrite]
    split
    · exact h
    · rename_i hc
      exact Memory.wf_write _ _ (by simp only [not_or, Nat.not_le] at hc; exact hc.2) h

theorem pulseWrite_pbuf_wf (s : State) (i : Nat) (v : Word) (h : s.pbuf.wf s.params.pbufEntries = true) :
    (s.pulseWrite i v).pbuf.wf (s.pulseWrite i v).params.pbufEntries = true := by
  simp only [State.pulseWrite]
  split
  · exact h
  · rename_i hc
    exact Memory.wf_write _ _ (by simp only [not_or, Nat.not_le] at hc; exact hc.2) h

theorem commitObuf_wf (s : State) (bs : List Byte) (h : bs.length ≤ s.params.obufBytes) :
    (s.commitObuf bs).obuf.wf (s.commitObuf bs).params.obufBytes = true := Memory.wf_ofList bs _ h

theorem commitPbuf_wf (s : State) (ps : List Word) (h : ps.length ≤ s.params.pbufEntries) :
    (s.commitPbuf ps).pbuf.wf (s.commitPbuf ps).params.pbufEntries = true := Memory.wf_ofList ps _ h

theorem dropObuf_wf (s : State) : s.dropObuf.obuf.wf s.dropObuf.params.obufBytes = true := rfl

theorem dropPbuf_wf (s : State) : s.dropPbuf.pbuf.wf s.dropPbuf.params.pbufEntries = true := rfl

theorem reset_memories_wf :
    State.reset.ibuf.wf State.reset.params.ibufBytes = true ∧ State.reset.obuf.wf State.reset.params.obufBytes = true ∧
    State.reset.pbuf.wf State.reset.params.pbufEntries = true := ⟨rfl, rfl, rfl⟩

end Sys2Proof.Machine
end

