-- ==== Sys2Proof/Laws/State.lean ====
section
/-! SUPPORT. What each update of the state does to each field, so that no later proof unfolds an update. -/

namespace Sys2Proof.Machine

open Sys2Proof

/-! ### `commitObuf` -/

@[simp] theorem commitObuf_params (s : State) (bs : List Byte) : (s.commitObuf bs).params = s.params := rfl
@[simp] theorem commitObuf_ctrl (s : State) (bs : List Byte) : (s.commitObuf bs).ctrl = s.ctrl := rfl
@[simp] theorem commitObuf_cmd (s : State) (bs : List Byte) : (s.commitObuf bs).cmd = s.cmd := rfl
@[simp] theorem commitObuf_status (s : State) (bs : List Byte) : (s.commitObuf bs).status = s.status := rfl
@[simp] theorem commitObuf_err (s : State) (bs : List Byte) : (s.commitObuf bs).err = s.err := rfl
@[simp] theorem commitObuf_warn (s : State) (bs : List Byte) : (s.commitObuf bs).warn = s.warn := rfl
@[simp] theorem commitObuf_ilen (s : State) (bs : List Byte) : (s.commitObuf bs).ilen = s.ilen := rfl
@[simp] theorem commitObuf_olen (s : State) (bs : List Byte) : (s.commitObuf bs).olen = BitVec.ofNat 32 bs.length := rfl
@[simp] theorem commitObuf_plen (s : State) (bs : List Byte) : (s.commitObuf bs).plen = s.plen := rfl
@[simp] theorem commitObuf_pos (s : State) (bs : List Byte) : (s.commitObuf bs).pos = s.pos := rfl
@[simp] theorem commitObuf_ibuf (s : State) (bs : List Byte) : (s.commitObuf bs).ibuf = s.ibuf := rfl
@[simp] theorem commitObuf_obuf (s : State) (bs : List Byte) : (s.commitObuf bs).obuf = Memory.ofList bs s.draws := rfl
@[simp] theorem commitObuf_pbuf (s : State) (bs : List Byte) : (s.commitObuf bs).pbuf = s.pbuf := rfl
@[simp] theorem commitObuf_work (s : State) (bs : List Byte) : (s.commitObuf bs).work = s.work := rfl
@[simp] theorem commitObuf_draws (s : State) (bs : List Byte) : (s.commitObuf bs).draws = s.draws + 1 := rfl
@[simp] theorem commitObuf_sched (s : State) (bs : List Byte) : (s.commitObuf bs).sched = s.sched := rfl
@[simp] theorem commitObuf_rdata (s : State) (bs : List Byte) : (s.commitObuf bs).rdata = s.rdata := rfl

/-! ### `commitPbuf` -/

@[simp] theorem commitPbuf_params (s : State) (ps : List Word) : (s.commitPbuf ps).params = s.params := rfl
@[simp] theorem commitPbuf_ctrl (s : State) (ps : List Word) : (s.commitPbuf ps).ctrl = s.ctrl := rfl
@[simp] theorem commitPbuf_cmd (s : State) (ps : List Word) : (s.commitPbuf ps).cmd = s.cmd := rfl
@[simp] theorem commitPbuf_status (s : State) (ps : List Word) : (s.commitPbuf ps).status = s.status := rfl
@[simp] theorem commitPbuf_err (s : State) (ps : List Word) : (s.commitPbuf ps).err = s.err := rfl
@[simp] theorem commitPbuf_warn (s : State) (ps : List Word) : (s.commitPbuf ps).warn = s.warn := rfl
@[simp] theorem commitPbuf_ilen (s : State) (ps : List Word) : (s.commitPbuf ps).ilen = s.ilen := rfl
@[simp] theorem commitPbuf_olen (s : State) (ps : List Word) : (s.commitPbuf ps).olen = s.olen := rfl
@[simp] theorem commitPbuf_plen (s : State) (ps : List Word) : (s.commitPbuf ps).plen = BitVec.ofNat 32 ps.length := rfl
@[simp] theorem commitPbuf_pos (s : State) (ps : List Word) : (s.commitPbuf ps).pos = s.pos := rfl
@[simp] theorem commitPbuf_ibuf (s : State) (ps : List Word) : (s.commitPbuf ps).ibuf = s.ibuf := rfl
@[simp] theorem commitPbuf_obuf (s : State) (ps : List Word) : (s.commitPbuf ps).obuf = s.obuf := rfl
@[simp] theorem commitPbuf_pbuf (s : State) (ps : List Word) : (s.commitPbuf ps).pbuf = Memory.ofList ps s.draws := rfl
@[simp] theorem commitPbuf_work (s : State) (ps : List Word) : (s.commitPbuf ps).work = s.work := rfl
@[simp] theorem commitPbuf_draws (s : State) (ps : List Word) : (s.commitPbuf ps).draws = s.draws + 1 := rfl
@[simp] theorem commitPbuf_sched (s : State) (ps : List Word) : (s.commitPbuf ps).sched = s.sched := rfl
@[simp] theorem commitPbuf_rdata (s : State) (ps : List Word) : (s.commitPbuf ps).rdata = s.rdata := rfl

/-! ### `dropObuf` -/

@[simp] theorem dropObuf_params (s : State) : s.dropObuf.params = s.params := rfl
@[simp] theorem dropObuf_ctrl (s : State) : s.dropObuf.ctrl = s.ctrl := rfl
@[simp] theorem dropObuf_cmd (s : State) : s.dropObuf.cmd = s.cmd := rfl
@[simp] theorem dropObuf_status (s : State) : s.dropObuf.status = s.status := rfl
@[simp] theorem dropObuf_err (s : State) : s.dropObuf.err = s.err := rfl
@[simp] theorem dropObuf_warn (s : State) : s.dropObuf.warn = s.warn := rfl
@[simp] theorem dropObuf_ilen (s : State) : s.dropObuf.ilen = s.ilen := rfl
@[simp] theorem dropObuf_olen (s : State) : s.dropObuf.olen = 0 := rfl
@[simp] theorem dropObuf_plen (s : State) : s.dropObuf.plen = s.plen := rfl
@[simp] theorem dropObuf_pos (s : State) : s.dropObuf.pos = s.pos := rfl
@[simp] theorem dropObuf_ibuf (s : State) : s.dropObuf.ibuf = s.ibuf := rfl
@[simp] theorem dropObuf_obuf (s : State) : s.dropObuf.obuf = { cells := [], seed := s.draws } := rfl
@[simp] theorem dropObuf_pbuf (s : State) : s.dropObuf.pbuf = s.pbuf := rfl
@[simp] theorem dropObuf_work (s : State) : s.dropObuf.work = s.work := rfl
@[simp] theorem dropObuf_draws (s : State) : s.dropObuf.draws = s.draws + 1 := rfl
@[simp] theorem dropObuf_sched (s : State) : s.dropObuf.sched = s.sched := rfl
@[simp] theorem dropObuf_rdata (s : State) : s.dropObuf.rdata = s.rdata := rfl

/-! ### `dropPbuf` -/

@[simp] theorem dropPbuf_params (s : State) : s.dropPbuf.params = s.params := rfl
@[simp] theorem dropPbuf_ctrl (s : State) : s.dropPbuf.ctrl = s.ctrl := rfl
@[simp] theorem dropPbuf_cmd (s : State) : s.dropPbuf.cmd = s.cmd := rfl
@[simp] theorem dropPbuf_status (s : State) : s.dropPbuf.status = s.status := rfl
@[simp] theorem dropPbuf_err (s : State) : s.dropPbuf.err = s.err := rfl
@[simp] theorem dropPbuf_warn (s : State) : s.dropPbuf.warn = s.warn := rfl
@[simp] theorem dropPbuf_ilen (s : State) : s.dropPbuf.ilen = s.ilen := rfl
@[simp] theorem dropPbuf_olen (s : State) : s.dropPbuf.olen = s.olen := rfl
@[simp] theorem dropPbuf_plen (s : State) : s.dropPbuf.plen = 0 := rfl
@[simp] theorem dropPbuf_pos (s : State) : s.dropPbuf.pos = s.pos := rfl
@[simp] theorem dropPbuf_ibuf (s : State) : s.dropPbuf.ibuf = s.ibuf := rfl
@[simp] theorem dropPbuf_obuf (s : State) : s.dropPbuf.obuf = s.obuf := rfl
@[simp] theorem dropPbuf_pbuf (s : State) : s.dropPbuf.pbuf = { cells := [], seed := s.draws } := rfl
@[simp] theorem dropPbuf_work (s : State) : s.dropPbuf.work = s.work := rfl
@[simp] theorem dropPbuf_draws (s : State) : s.dropPbuf.draws = s.draws + 1 := rfl
@[simp] theorem dropPbuf_sched (s : State) : s.dropPbuf.sched = s.sched := rfl
@[simp] theorem dropPbuf_rdata (s : State) : s.dropPbuf.rdata = s.rdata := rfl

/-! ### `answer` -/

@[simp] theorem answer_params (s : State) (v : Word) : (s.answer v).params = s.params := rfl
@[simp] theorem answer_ctrl (s : State) (v : Word) : (s.answer v).ctrl = s.ctrl := rfl
@[simp] theorem answer_cmd (s : State) (v : Word) : (s.answer v).cmd = s.cmd := rfl
@[simp] theorem answer_status (s : State) (v : Word) : (s.answer v).status = s.status := rfl
@[simp] theorem answer_err (s : State) (v : Word) : (s.answer v).err = s.err := rfl
@[simp] theorem answer_warn (s : State) (v : Word) : (s.answer v).warn = s.warn := rfl
@[simp] theorem answer_ilen (s : State) (v : Word) : (s.answer v).ilen = s.ilen := rfl
@[simp] theorem answer_olen (s : State) (v : Word) : (s.answer v).olen = s.olen := rfl
@[simp] theorem answer_plen (s : State) (v : Word) : (s.answer v).plen = s.plen := rfl
@[simp] theorem answer_pos (s : State) (v : Word) : (s.answer v).pos = s.pos := rfl
@[simp] theorem answer_ibuf (s : State) (v : Word) : (s.answer v).ibuf = s.ibuf := rfl
@[simp] theorem answer_obuf (s : State) (v : Word) : (s.answer v).obuf = s.obuf := rfl
@[simp] theorem answer_pbuf (s : State) (v : Word) : (s.answer v).pbuf = s.pbuf := rfl
@[simp] theorem answer_work (s : State) (v : Word) : (s.answer v).work = s.work := rfl
@[simp] theorem answer_draws (s : State) (v : Word) : (s.answer v).draws = s.draws := rfl
@[simp] theorem answer_sched (s : State) (v : Word) : (s.answer v).sched = s.sched := rfl
@[simp] theorem answer_rdata (s : State) (v : Word) : (s.answer v).rdata = v := rfl

/-! ### `answerDraw` -/

@[simp] theorem answerDraw_params (s : State) (w : Nat) : (s.answerDraw w).params = s.params := rfl
@[simp] theorem answerDraw_ctrl (s : State) (w : Nat) : (s.answerDraw w).ctrl = s.ctrl := rfl
@[simp] theorem answerDraw_cmd (s : State) (w : Nat) : (s.answerDraw w).cmd = s.cmd := rfl
@[simp] theorem answerDraw_status (s : State) (w : Nat) : (s.answerDraw w).status = s.status := rfl
@[simp] theorem answerDraw_err (s : State) (w : Nat) : (s.answerDraw w).err = s.err := rfl
@[simp] theorem answerDraw_warn (s : State) (w : Nat) : (s.answerDraw w).warn = s.warn := rfl
@[simp] theorem answerDraw_ilen (s : State) (w : Nat) : (s.answerDraw w).ilen = s.ilen := rfl
@[simp] theorem answerDraw_olen (s : State) (w : Nat) : (s.answerDraw w).olen = s.olen := rfl
@[simp] theorem answerDraw_plen (s : State) (w : Nat) : (s.answerDraw w).plen = s.plen := rfl
@[simp] theorem answerDraw_pos (s : State) (w : Nat) : (s.answerDraw w).pos = s.pos := rfl
@[simp] theorem answerDraw_ibuf (s : State) (w : Nat) : (s.answerDraw w).ibuf = s.ibuf := rfl
@[simp] theorem answerDraw_obuf (s : State) (w : Nat) : (s.answerDraw w).obuf = s.obuf := rfl
@[simp] theorem answerDraw_pbuf (s : State) (w : Nat) : (s.answerDraw w).pbuf = s.pbuf := rfl
@[simp] theorem answerDraw_work (s : State) (w : Nat) : (s.answerDraw w).work = s.work := rfl
@[simp] theorem answerDraw_draws (s : State) (w : Nat) : (s.answerDraw w).draws = s.draws + 1 := rfl
@[simp] theorem answerDraw_sched (s : State) (w : Nat) : (s.answerDraw w).sched = s.sched := rfl
@[simp] theorem answerDraw_rdata (s : State) (w : Nat) : (s.answerDraw w).rdata = (drawAt w s.draws 0).setWidth 32 := rfl

/-! ### `hardReset` -/

@[simp] theorem hardReset_params (s : State) : s.hardReset.params = s.params := rfl
@[simp] theorem hardReset_ctrl (s : State) : s.hardReset.ctrl = 0 := rfl
@[simp] theorem hardReset_cmd (s : State) : s.hardReset.cmd = 0 := rfl
@[simp] theorem hardReset_status (s : State) : s.hardReset.status = .idle := rfl
@[simp] theorem hardReset_err (s : State) : s.hardReset.err = 0 := rfl
@[simp] theorem hardReset_warn (s : State) : s.hardReset.warn = 0 := rfl
@[simp] theorem hardReset_ilen (s : State) : s.hardReset.ilen = 0 := rfl
@[simp] theorem hardReset_olen (s : State) : s.hardReset.olen = 0 := rfl
@[simp] theorem hardReset_plen (s : State) : s.hardReset.plen = 0 := rfl
@[simp] theorem hardReset_pos (s : State) : s.hardReset.pos = 0 := rfl
@[simp] theorem hardReset_ibuf (s : State) : s.hardReset.ibuf = { cells := [], seed := s.draws } := rfl
@[simp] theorem hardReset_obuf (s : State) : s.hardReset.obuf = { cells := [], seed := s.draws + 1 } := rfl
@[simp] theorem hardReset_pbuf (s : State) : s.hardReset.pbuf = { cells := [], seed := s.draws + 2 } := rfl
@[simp] theorem hardReset_work (s : State) : s.hardReset.work = Work.closed := rfl
@[simp] theorem hardReset_draws (s : State) : s.hardReset.draws = s.draws + 3 := rfl
@[simp] theorem hardReset_sched (s : State) : s.hardReset.sched = s.sched := rfl
@[simp] theorem hardReset_rdata (s : State) : s.hardReset.rdata = s.rdata := rfl

/-! ### The working state -/

@[simp] theorem closed_opened : Work.closed.opened = false := rfl
@[simp] theorem closed_out : Work.closed.out = [] := rfl
@[simp] theorem closed_pulses : Work.closed.pulses = [] := rfl
@[simp] theorem start_opened : Work.start.opened = true := rfl
@[simp] theorem start_stage : Work.start.stage = 0 := rfl
@[simp] theorem start_pos : Work.start.pos = 0 := rfl
@[simp] theorem start_payloadEnd : Work.start.payloadEnd = 0 := rfl
@[simp] theorem start_runStart : Work.start.runStart = 0 := rfl
@[simp] theorem start_out : Work.start.out = [] := rfl
@[simp] theorem start_pulses : Work.start.pulses = [] := rfl
@[simp] theorem start_warn : Work.start.warn = Warn.none := rfl
@[simp] theorem start_sfx : Work.start.sfx = { entries := [], next := 0 } := rfl
@[simp] theorem start_pred : Work.start.pred = [] := rfl
@[simp] theorem start_scratch : Work.start.scratch = [] := rfl
@[simp] theorem warn_none_word : Warn.none.word = 0 := rfl

end Sys2Proof.Machine
end

