-- ==== Sys2Proof/Laws/Ops.lean ====
section
/-! SUPPORT. What each shared operation can do, said once: a proof cites these and does not unfold the operation. -/

namespace Sys2Proof.Machine

open Sys2Proof

/-! ### `emit` and `push` -/

theorem emit_eq_ok_iff (cap : Nat) (bs out r : List Byte) :
    emit cap bs out = .ok r ↔ out.length + bs.length ≤ cap ∧ r = out ++ bs := by
  unfold emit
  split
  · simp; omega
  · simp [eq_comm]; omega

theorem emit_eq_error_iff (cap : Nat) (bs out : List Byte) (c : ErrCode) :
    emit cap bs out = .error c ↔ cap < out.length + bs.length ∧ c = .capacityExceeded := by
  unfold emit
  split
  · simp_all [eq_comm]
  · simp_all

theorem push_eq_ok_iff (cap : Nat) (v : Word) (ps r : List Word) :
    push cap v ps = .ok r ↔ ps.length < cap ∧ r = ps ++ [v] := by
  unfold push
  split
  · simp; omega
  · simp [eq_comm]; omega

theorem push_eq_error_iff (cap : Nat) (v : Word) (ps : List Word) (c : ErrCode) :
    push cap v ps = .error c ↔ cap ≤ ps.length ∧ c = .capacityExceeded := by
  unfold push
  split
  · simp_all [eq_comm]
  · simp_all

/-- The turn that emits bytes. -/
theorem emitting_emit (w : Work) (p cap : Nat) (bs : List Byte) :
    w.emitting p (emit cap bs w.out) =
      if w.out.length + bs.length ≤ cap then .more { w with out := w.out ++ bs, pos := p }
      else .raise .capacityExceeded none w.warn := by
  unfold emit
  split <;> split <;> first | omega | rfl

/-- The turn that pushes a pulse. -/
theorem pushing_push (w : Work) (p cap : Nat) (v : Word) :
    w.pushing p (push cap v w.pulses) =
      if w.pulses.length < cap then .more { w with pulses := w.pulses ++ [v], pos := p }
      else .raise .capacityExceeded none w.warn := by
  unfold push
  split <;> split <;> first | omega | rfl

/-! ### Taking a fault -/

@[simp] theorem takeFault_status (s : State) (o : Outputs) (c : ErrCode) (p : Option Nat) (ws : Warn) :
    (s.takeFault o c p ws).status = .fault := rfl
@[simp] theorem takeFault_err (s : State) (o : Outputs) (c : ErrCode) (p : Option Nat) (ws : Warn) :
    (s.takeFault o c p ws).err = c.word := rfl
@[simp] theorem takeFault_warn (s : State) (o : Outputs) (c : ErrCode) (p : Option Nat) (ws : Warn) :
    (s.takeFault o c p ws).warn = ws.word := rfl
@[simp] theorem takeFault_work (s : State) (o : Outputs) (c : ErrCode) (p : Option Nat) (ws : Warn) :
    (s.takeFault o c p ws).work = Work.closed := rfl

/-- With a stated position and OBUF as the output. -/
theorem takeFault_toObuf (s : State) (c : ErrCode) (k : Nat) (ws : Warn) :
    s.takeFault toObuf c (some k) ws = faultedBytes s c.word (BitVec.ofNat 32 k) ws.word := rfl

/-- With a stated position and PBUF as the output. -/
theorem takeFault_toPbuf (s : State) (c : ErrCode) (k : Nat) (ws : Warn) :
    s.takeFault toPbuf c (some k) ws = faultedPulses s c.word (BitVec.ofNat 32 k) ws.word := rfl

/-- With a stated position and both outputs. -/
theorem takeFault_toBoth (s : State) (c : ErrCode) (k : Nat) (ws : Warn) :
    s.takeFault toBoth c (some k) ws = faultedBoth s c.word (BitVec.ofNat 32 k) ws.word := rfl

/-- CapacityExceeded with OBUF as the output. -/
theorem takeFault_overflowedBytes (s : State) (ws : Warn) :
    overflowedBytes s (s.takeFault toObuf .capacityExceeded none ws) ws.word := rfl

/-- CapacityExceeded with PBUF as the output. -/
theorem takeFault_overflowedPulses (s : State) (ws : Warn) :
    overflowedPulses s (s.takeFault toPbuf .capacityExceeded none ws) ws.word := rfl

/-- CapacityExceeded with both outputs. -/
theorem takeFault_overflowedBoth (s : State) (ws : Warn) :
    overflowedBoth s (s.takeFault toBoth .capacityExceeded none ws) ws.word := rfl

/-- Everything a fault does, whatever its outputs (60_exceptions.md R221). -/
theorem takeFault_effects (s : State) (o : Outputs) (c : ErrCode) (p : Option Nat) (ws : Warn) :
    onlyResults s (s.takeFault o c p ws) ∧ othersKept s (s.takeFault o c p ws) o ∧
    outputsInvalid s (s.takeFault o c p ws) o := by
  obtain ⟨_ | _, _ | _⟩ := o <;> cases p <;>
    refine ⟨rfl, ⟨?_, ?_⟩, ?_, ?_⟩ <;> simp [State.takeFault, State.recordPos]

/-- The value written to ERR is a listed one and is not 0 (60_exceptions.md R210). -/
theorem word_mem_errValues (c : ErrCode) : c.word ∈ errValues ∧ c.word ≠ 0 := by
  cases c <;> decide

/-! ### Completing -/

@[simp] theorem complete_status (s : State) (o : Outputs) (w : Work) : (s.complete o w).status = .done := rfl
@[simp] theorem complete_err (s : State) (o : Outputs) (w : Work) : (s.complete o w).err = 0 := rfl
@[simp] theorem complete_warn (s : State) (o : Outputs) (w : Work) : (s.complete o w).warn = w.warn.word := rfl
@[simp] theorem complete_work (s : State) (o : Outputs) (w : Work) : (s.complete o w).work = Work.closed := rfl
@[simp] theorem complete_pos (s : State) (o : Outputs) (w : Work) :
    (s.complete o w).pos = BitVec.ofNat 32 w.pos := rfl

theorem complete_toObuf (s : State) (w : Work) :
    s.complete toObuf w = doneWithBytes s w.out (BitVec.ofNat 32 w.pos) w.warn.word := rfl

theorem complete_toPbuf (s : State) (w : Work) :
    s.complete toPbuf w = doneWithPulses s w.pulses (BitVec.ofNat 32 w.pos) w.warn.word := rfl

theorem complete_toBoth (s : State) (w : Work) :
    s.complete toBoth w = doneWithBoth s w.out w.pulses (BitVec.ofNat 32 w.pos) w.warn.word := rfl

/-- Everything a completion does, whatever its outputs (10_state.md R46). -/
theorem complete_effects (s : State) (o : Outputs) (w : Work) :
    onlyResults s (s.complete o w) ∧ othersKept s (s.complete o w) o := by
  obtain ⟨_ | _, _ | _⟩ := o <;> refine ⟨rfl, ?_, ?_⟩ <;> simp [State.complete]

/-! ### The state after a turn -/

@[simp] theorem applyTurn_more (s : State) (o : Outputs) (w : Work) :
    s.applyTurn o (.more w) = { s with work := w } := rfl
@[simp] theorem applyTurn_done (s : State) (o : Outputs) (w : Work) : s.applyTurn o (.done w) = s.complete o w := rfl
@[simp] theorem applyTurn_raise (s : State) (o : Outputs) (c : ErrCode) (p : Option Nat) (ws : Warn) :
    s.applyTurn o (.raise c p ws) = s.takeFault o c p ws := rfl

/-! ### Running turns -/

@[simp] theorem runTurns_zero (f : Work → Turn) (w : Work) : runTurns f 0 w = .more w := rfl

theorem runTurns_of_more {f : Work → Turn} {w w' : Work} (k : Nat) (h : f w = .more w') :
    runTurns f (k + 1) w = runTurns f k w' := by simp [runTurns, h]

theorem runTurns_of_done {f : Work → Turn} {w w' : Work} (k : Nat) (h : f w = .done w') :
    runTurns f (k + 1) w = .done w' := by simp [runTurns, h]

theorem runTurns_of_raise {f : Work → Turn} {w : Work} {c : ErrCode} {p : Option Nat} {ws : Warn} (k : Nat)
    (h : f w = .raise c p ws) : runTurns f (k + 1) w = .raise c p ws := by simp [runTurns, h]

/-- Running so many turns and then some more is running them all, where the first ones go on. -/
theorem runTurns_add {f : Work → Turn} (j k : Nat) (w w' : Work) (h : runTurns f j w = .more w') :
    runTurns f (j + k) w = runTurns f k w' := by
  induction j generalizing w with
  | zero => simp at h; simp [h]
  | succ j ih =>
    rw [show j + 1 + k = (j + k) + 1 by omega]
    cases hw : f w with
    | more v => rw [runTurns_of_more _ hw] at h ⊢; exact ih v h
    | done v => rw [runTurns_of_done _ hw] at h; cases h
    | raise c p ws => rw [runTurns_of_raise _ hw] at h; cases h

/-- A run that has ended ends alike with more turns allowed. -/
theorem runTurns_stable {f : Work → Turn} (j k : Nat) (w : Work) (h : ∀ w', runTurns f j w ≠ .more w') :
    runTurns f (j + k) w = runTurns f j w := by
  induction j generalizing w with
  | zero => exact absurd rfl (h w)
  | succ j ih =>
    rw [show j + 1 + k = (j + k) + 1 by omega]
    cases hw : f w with
    | more v =>
      simp only [runTurns_of_more _ hw] at h ⊢
      exact ih v h
    | done v => rw [runTurns_of_done _ hw, runTurns_of_done _ hw]
    | raise c p ws => rw [runTurns_of_raise _ hw, runTurns_of_raise _ hw]

/-- What a run can answer, when every turn that goes on keeps `P`: the answer is the last turn's, taken where `P` holds. -/
theorem runTurns_cases {f : Work → Turn} {P : Work → Prop} (step : ∀ w w', P w → f w = .more w' → P w') (k : Nat)
    (w : Work) (h : P w) :
    (∃ v, P v ∧ runTurns f k w = .more v) ∨ (∃ v, P v ∧ f v = runTurns f k w) := by
  induction k generalizing w with
  | zero => exact .inl ⟨w, h, rfl⟩
  | succ k ih =>
    cases hw : f w with
    | more v => rw [runTurns_of_more _ hw]; exact ih v (step w v h hw)
    | done v => exact .inr ⟨w, h, by rw [runTurns_of_done _ hw, hw]⟩
    | raise c p ws => exact .inr ⟨w, h, by rw [runTurns_of_raise _ hw, hw]⟩

/-- A run ends within as many turns as a measure allows that every turn that goes on lowers. -/
theorem runTurns_ends {f : Work → Turn} {P : Work → Prop} (m : Work → Nat)
    (step : ∀ w w', P w → f w = .more w' → P w' ∧ m w' < m w) (k : Nat) (w : Work) (h : P w) (hk : m w < k) :
    ∀ w', runTurns f k w ≠ .more w' := by
  induction k generalizing w with
  | zero => omega
  | succ k ih =>
    intro w'
    cases hw : f w with
    | more v =>
      obtain ⟨hv, hm⟩ := step w v h hw
      rw [runTurns_of_more _ hw]
      exact ih v hv (by omega) w'
    | done v => rw [runTurns_of_done _ hw]; exact fun h => Turn.noConfusion h
    | raise c p ws => rw [runTurns_of_raise _ hw]; exact fun h => Turn.noConfusion h

/-! ### Whole operations -/

theorem runBytes_of_gt {s : State} {o : Outputs} {f : List Byte → Work → Turn}
    (h : s.params.ibufBytes < s.ilen.toNat) :
    s.runBytes o f = s.takeFault o .capacityExceeded none Warn.none := by simp [State.runBytes, h]

theorem runBytes_of_le {s : State} {o : Outputs} {f : List Byte → Work → Turn}
    (h : s.ilen.toNat ≤ s.params.ibufBytes) :
    s.runBytes o f = s.applyTurn o (runTurns (f s.inputBytes) (turnBound s.ilen.toNat) Work.start) := by
  simp [State.runBytes, Nat.not_lt.2 h]

theorem runPulses_of_gt {s : State} {o : Outputs} {f : List Word → Work → Turn}
    (h : s.params.pbufEntries < s.plen.toNat) :
    s.runPulses o f = s.takeFault o .capacityExceeded none Warn.none := by simp [State.runPulses, h]

theorem runPulses_of_le {s : State} {o : Outputs} {f : List Word → Work → Turn}
    (h : s.plen.toNat ≤ s.params.pbufEntries) :
    s.runPulses o f = s.applyTurn o (runTurns (f s.inputPulses) (turnBound s.plen.toNat) Work.start) := by
  simp [State.runPulses, Nat.not_lt.2 h]

/-! ### The copy of a distance block -/

theorem copyBytes_length (d n : Nat) (out : List Byte) : (copyBytes d n out).length = out.length + n := by
  induction n generalizing out with
  | zero => rfl
  | succ n ih => simp only [copyBytes, ih, List.length_append, List.length_singleton]; omega

/-! ### Acknowledging -/

theorem acknowledge_of_finished {s : State} (h : s.status.finished = true) :
    s.acknowledge = { s with status := .idle } := by simp [State.acknowledge, h]

theorem acknowledge_of_not {s : State} (h : s.status.finished = false) : s.acknowledge = s := by
  simp [State.acknowledge, h]

end Sys2Proof.Machine
end

