-- ==== Sys2Proof/Laws/Exec.lean ====
section
/-! SUPPORT. What `exec` is for each instruction, in the terms of the shared operations, and what a stage of a composite operation can
answer. -/

namespace Sys2Proof.Machine

open Sys2Proof

/-! ### `exec`, instruction by instruction -/

theorem exec_prontoDec (level : BitVec 2) (s : State) :
    exec (.prontoDec level) s = .next (s.runBytes toPbuf (prontoTurn s.params)) := rfl

theorem exec_blEnc (level : BitVec 2) (s : State) :
    exec (.blEnc level) s = .next (s.runPulses toObuf (blEncTurn s.params)) := rfl

theorem exec_blDec (level : BitVec 2) (s : State) :
    exec (.blDec level) s = .next (s.runBytes toPbuf (blDecTurn s.params)) := rfl

theorem exec_ser16 (level : BitVec 2) (s : State) :
    exec (.ser16 level) s = .next (s.runPulses toObuf (serTurn s.params)) := rfl

theorem exec_tuyaPack (level : BitVec 2) (s : State) :
    exec (.tuyaPack level) s = .next (s.runBytes toObuf (packTurn s.params level)) := rfl

theorem exec_tuyaExpand (level : BitVec 2) (s : State) :
    exec (.tuyaExpand level) s = .next (s.runBytes toObuf (expandTurn s.params)) := rfl

theorem exec_b64Enc (level : BitVec 2) (s : State) :
    exec (.b64Enc level) s = .next (s.runBytes toObuf (b64EncTurn s.params)) := rfl

theorem exec_b64Dec (level : BitVec 2) (s : State) :
    exec (.b64Dec level) s = .next (s.runBytes toObuf (b64DecTurn s.params)) := rfl

theorem exec_tuyaComp (level : BitVec 2) (s : State) :
    exec (.tuyaComp level) s = .next (s.runBytes toObuf (tuyaCompTurn s.params level)) := rfl

theorem exec_pronto2Bl (level : BitVec 2) (s : State) :
    exec (.pronto2Bl level) s = .next (s.runBytes toBoth (pronto2BlTurn s.params)) := rfl

theorem exec_bl2Tuya (level : BitVec 2) (s : State) :
    exec (.bl2Tuya level) s = .next (s.runBytes toBoth (bl2TuyaTurn s.params level)) := rfl

theorem exec_illegal (word : Word) (s : State) :
    exec (.illegal word) s = .next (s.takeFault toNone .illegalCommand (some 0) Warn.none) := rfl

theorem exec_lit (data : List Byte) (s : State) :
    exec (.lit data) s = .next (s.applyTurn toObuf (litTurn s.params data s.work)) := rfl

theorem exec_copyS (f : BitVec 3) (d : BitVec 13) (s : State) :
    exec (.copyS f d) s = .next (s.applyTurn toObuf (copyTurn s.params 2 (shortLength f) (distanceOf d) s.work)) := rfl

theorem exec_copyL (d : BitVec 13) (ext : Byte) (s : State) :
    exec (.copyL d ext) s = .next (s.applyTurn toObuf (copyTurn s.params 3 (longLength ext) (distanceOf d) s.work)) := rfl

theorem exec_p8 (v : Byte) (s : State) :
    exec (.p8 v) s =
      .next (s.applyTurn toPbuf (blCodeTurn s.params (s.inputBytes.drop (s.work.pos + 1)) 1 v.toNat s.work)) := by
  rw [← inputFrom_eq_drop]; rfl

theorem exec_p16 (v : BitVec 16) (s : State) :
    exec (.p16 v) s =
      .next (s.applyTurn toPbuf (blCodeTurn s.params (s.inputBytes.drop (s.work.pos + 3)) 3 v.toNat s.work)) := by
  rw [← inputFrom_eq_drop]; rfl

theorem exec_blHeader (rep : Byte) (length : BitVec 16) (s : State) :
    exec (.blHeader rep length) s = .next (s.applyTurn toPbuf (blHeaderTurn s.inputBytes.length length s.work)) := by
  rw [inputBytes_length]; rfl

theorem exec_prontoHeader (divisor once rep : BitVec 16) (s : State) :
    exec (.prontoHeader divisor once rep) s =
      .next (s.applyTurn toPbuf (prontoHeaderTurn s.inputBytes.length divisor once rep s.work)) := by
  rw [inputBytes_length]; rfl

theorem exec_pulse16 (p : BitVec 16) (s : State) :
    exec (.pulse16 p) s = .next (s.applyTurn toObuf (pulse16Turn s.params p s.work)) := rfl

theorem exec_b64Quantum (a b c d : BitVec 6) (npad : Nat) (s : State) :
    exec (.b64Quantum a b c d npad) s = .next (s.applyTurn toObuf (quantumTurn s.params a b c d npad s.work)) := rfl

/-! ### Stages -/

/-- A byte stage: the input is too long, or the stand-alone operation's turns end in a result that goes on, in a fault that is kept with
the warnings joined, or not at all. -/
theorem byteStage_cases (p : Params) (turn : List Byte → Work → Turn) (data : List Byte) (w : Work) (k : Work → Turn) :
    (p.ibufBytes < data.length ∧ byteStage p turn data w k = .raise .capacityExceeded none w.warn) ∨
    (data.length ≤ p.ibufBytes ∧
      ((∃ r, runTurns (turn data) (turnBound data.length) Work.start = .done r ∧ byteStage p turn data w k = k r) ∨
       (∃ c q ws, runTurns (turn data) (turnBound data.length) Work.start = .raise c q ws ∧
         byteStage p turn data w k = .raise c q (w.warn.join ws)) ∨
       (∃ r, runTurns (turn data) (turnBound data.length) Work.start = .more r))) := by
  unfold byteStage
  split
  · exact .inl ⟨‹_›, rfl⟩
  · refine .inr ⟨by omega, ?_⟩
    cases h : runTurns (turn data) (turnBound data.length) Work.start with
    | done r => exact .inl ⟨r, rfl, rfl⟩
    | raise c q ws => exact .inr (.inl ⟨c, q, ws, rfl, rfl⟩)
    | more r => exact .inr (.inr ⟨r, rfl⟩)

/-- A pulse stage, alike. -/
theorem pulseStage_cases (p : Params) (turn : List Word → Work → Turn) (pulses : List Word) (w : Work) (k : Work → Turn) :
    (p.pbufEntries < pulses.length ∧ pulseStage p turn pulses w k = .raise .capacityExceeded none w.warn) ∨
    (pulses.length ≤ p.pbufEntries ∧
      ((∃ r, runTurns (turn pulses) (turnBound pulses.length) Work.start = .done r ∧
         pulseStage p turn pulses w k = k r) ∨
       (∃ c q ws, runTurns (turn pulses) (turnBound pulses.length) Work.start = .raise c q ws ∧
         pulseStage p turn pulses w k = .raise c q (w.warn.join ws)) ∨
       (∃ r, runTurns (turn pulses) (turnBound pulses.length) Work.start = .more r))) := by
  unfold pulseStage
  split
  · exact .inl ⟨‹_›, rfl⟩
  · refine .inr ⟨by omega, ?_⟩
    cases h : runTurns (turn pulses) (turnBound pulses.length) Work.start with
    | done r => exact .inl ⟨r, rfl, rfl⟩
    | raise c q ws => exact .inr (.inl ⟨c, q, ws, rfl, rfl⟩)
    | more r => exact .inr (.inr ⟨r, rfl⟩)

end Sys2Proof.Machine
end

