-- ==== Sys2Proof/Laws/PerInstr.lean ====
section
/-! SUPPORT. A family of facts with one lemma for each instruction: which of the two layers of 30_encoding.md an instruction is
encoded in. -/

namespace Sys2Proof.Laws

open Sys2Proof Sys2Proof.Machine

/-- A command is encoded as a word, a stream form as bytes, at least one. -/
def EncodingLayer.Statement (i : Instr) : Prop :=
  (isCommand i = true → ∃ w, encode i = .word w) ∧
  (isCommand i = false → ∃ fmt b bs, encode i = .bytes fmt (b :: bs))

theorem EncodingLayer.prontoDec (level : BitVec 2) : EncodingLayer.Statement (.prontoDec level) :=
  ⟨fun _ => ⟨_, rfl⟩, fun h => Bool.noConfusion h⟩

theorem EncodingLayer.blEnc (level : BitVec 2) : EncodingLayer.Statement (.blEnc level) :=
  ⟨fun _ => ⟨_, rfl⟩, fun h => Bool.noConfusion h⟩

theorem EncodingLayer.blDec (level : BitVec 2) : EncodingLayer.Statement (.blDec level) :=
  ⟨fun _ => ⟨_, rfl⟩, fun h => Bool.noConfusion h⟩

theorem EncodingLayer.ser16 (level : BitVec 2) : EncodingLayer.Statement (.ser16 level) :=
  ⟨fun _ => ⟨_, rfl⟩, fun h => Bool.noConfusion h⟩

theorem EncodingLayer.tuyaPack (level : BitVec 2) : EncodingLayer.Statement (.tuyaPack level) :=
  ⟨fun _ => ⟨_, rfl⟩, fun h => Bool.noConfusion h⟩

theorem EncodingLayer.tuyaExpand (level : BitVec 2) : EncodingLayer.Statement (.tuyaExpand level) :=
  ⟨fun _ => ⟨_, rfl⟩, fun h => Bool.noConfusion h⟩

theorem EncodingLayer.b64Enc (level : BitVec 2) : EncodingLayer.Statement (.b64Enc level) :=
  ⟨fun _ => ⟨_, rfl⟩, fun h => Bool.noConfusion h⟩

theorem EncodingLayer.b64Dec (level : BitVec 2) : EncodingLayer.Statement (.b64Dec level) :=
  ⟨fun _ => ⟨_, rfl⟩, fun h => Bool.noConfusion h⟩

theorem EncodingLayer.tuyaComp (level : BitVec 2) : EncodingLayer.Statement (.tuyaComp level) :=
  ⟨fun _ => ⟨_, rfl⟩, fun h => Bool.noConfusion h⟩

theorem EncodingLayer.pronto2Bl (level : BitVec 2) : EncodingLayer.Statement (.pronto2Bl level) :=
  ⟨fun _ => ⟨_, rfl⟩, fun h => Bool.noConfusion h⟩

theorem EncodingLayer.bl2Tuya (level : BitVec 2) : EncodingLayer.Statement (.bl2Tuya level) :=
  ⟨fun _ => ⟨_, rfl⟩, fun h => Bool.noConfusion h⟩

theorem EncodingLayer.illegal (word : Word) : EncodingLayer.Statement (.illegal word) :=
  ⟨fun _ => ⟨_, rfl⟩, fun h => Bool.noConfusion h⟩

theorem EncodingLayer.lit (data : List Byte) : EncodingLayer.Statement (.lit data) :=
  ⟨fun h => Bool.noConfusion h, fun _ => ⟨_, _, _, rfl⟩⟩

theorem EncodingLayer.copyS (f : BitVec 3) (d : BitVec 13) : EncodingLayer.Statement (.copyS f d) :=
  ⟨fun h => Bool.noConfusion h, fun _ => ⟨_, _, _, rfl⟩⟩

theorem EncodingLayer.copyL (d : BitVec 13) (ext : Byte) : EncodingLayer.Statement (.copyL d ext) :=
  ⟨fun h => Bool.noConfusion h, fun _ => ⟨_, _, _, rfl⟩⟩

theorem EncodingLayer.p8 (v : Byte) : EncodingLayer.Statement (.p8 v) :=
  ⟨fun h => Bool.noConfusion h, fun _ => ⟨_, _, _, rfl⟩⟩

theorem EncodingLayer.p16 (v : BitVec 16) : EncodingLayer.Statement (.p16 v) :=
  ⟨fun h => Bool.noConfusion h, fun _ => ⟨_, _, _, rfl⟩⟩

theorem EncodingLayer.blHeader (rep : Byte) (length : BitVec 16) : EncodingLayer.Statement (.blHeader rep length) :=
  ⟨fun h => Bool.noConfusion h, fun _ => ⟨_, _, _, rfl⟩⟩

theorem EncodingLayer.prontoHeader (divisor once rep : BitVec 16) : EncodingLayer.Statement (.prontoHeader divisor once rep) :=
  ⟨fun h => Bool.noConfusion h, fun _ => ⟨_, _, _, rfl⟩⟩

theorem EncodingLayer.pulse16 (p : BitVec 16) : EncodingLayer.Statement (.pulse16 p) :=
  ⟨fun h => Bool.noConfusion h, fun _ => ⟨_, _, _, rfl⟩⟩

theorem EncodingLayer.b64Quantum (a b c d : BitVec 6) (npad : Nat) : EncodingLayer.Statement (.b64Quantum a b c d npad) :=
  ⟨fun h => Bool.noConfusion h, fun _ => ⟨_, _, _, rfl⟩⟩

end Sys2Proof.Laws
end

