-- ==== Sys2Proof/Laws/Turns.lean ====
section
/-! SUPPORT. Every turn of an operation that goes on makes progress, so that an operation ends within the bound of its turns, and the
last read of a `wait` line shows STATE not BUSY. -/

namespace Sys2Proof.Machine

open Sys2Proof

/-! ### Progress of the turns of an operation on `n` input units -/

/-- A turn that goes on was taken before the end of the input, moves the cursor on and leaves the operation open. -/
def Advances (n : Nat) (f : Work → Turn) : Prop :=
  ∀ w w', f w = .more w' → w.pos < n ∧ w.pos < w'.pos ∧ w'.opened = w.opened

theorem emitting_more {w w' : Work} {p : Nat} {r : Except ErrCode (List Byte)} (h : w.emitting p r = .more w') :
    w'.pos = p ∧ w'.opened = w.opened := by
  unfold Work.emitting at h
  split at h <;> cases h
  exact ⟨rfl, rfl⟩

theorem pushing_more {w w' : Work} {p : Nat} {r : Except ErrCode (List Word)} (h : w.pushing p r = .more w') :
    w'.pos = p ∧ w'.opened = w.opened := by
  unfold Work.pushing at h
  split at h <;> cases h
  exact ⟨rfl, rfl⟩

theorem lt_of_drop_eq_cons {α : Type} {l : List α} {p : Nat} {a : α} {rest : List α} (h : l.drop p = a :: rest) :
    p < l.length := by
  rcases Nat.lt_or_ge p l.length with hp | hp
  · exact hp
  · rw [List.drop_eq_nil_of_le hp] at h; cases h

theorem prontoTurn_advances (p : Params) (data : List Byte) : Advances data.length (prontoTurn p data) := by
  intro w w' h
  unfold prontoTurn at h
  split at h
  · rename_i d o r hf
    unfold fetchPronto at hf
    unfold prontoHeaderTurn at h
    split at hf
    · rename_i h0
      split at h
      · cases h
      · split at h
        · cases h
        · cases h; exact ⟨by omega, by simp [h0], rfl⟩
    · split at hf <;> cases hf
  · cases h
  · rename_i t hf
    subst h
    unfold fetchPronto at hf
    split at hf
    · split at hf <;> cases hf
    · split at hf
      · rename_i hd
        injection hf with hf
        obtain ⟨h1, h2⟩ := pushing_more hf
        exact ⟨lt_of_drop_eq_cons hd, by omega, h2⟩
      · cases hf

theorem blCodeTurn_more {p : Params} {left : List Byte} {size v : Nat} {w w' : Work}
    (h : blCodeTurn p left size v w = .more w') : w'.pos = w.pos + size ∧ w'.opened = w.opened := by
  unfold blCodeTurn at h
  split at h
  · cases h
  · exact pushing_more h

theorem fetchBl_code_lt {data : List Byte} {w : Work} {i : Instr} (h : fetchBl data w = .form i) :
    (w.pos = 0 ∧ decodeBlHeader data = .ok i) ∨ (w.pos < data.length ∧ w.pos ≠ 0 ∧ decodePulse (between w.pos w.payloadEnd data) = .ok i) := by
  unfold fetchBl at h
  split at h
  · rename_i h0
    split at h <;> cases h
    exact .inl ⟨h0, ‹_›⟩
  · split at h
    · cases h
    · split at h <;> cases h
      rename_i h0 _ _ hd
      refine .inr ⟨?_, h0, hd⟩
      rcases Nat.lt_or_ge w.pos data.length with hp | hp
      · exact hp
      · rw [between, List.drop_eq_nil_of_le (by simp; omega)] at hd; cases hd

theorem blDecTurn_advances (p : Params) (data : List Byte) : Advances data.length (blDecTurn p data) := by
  intro w w' h
  unfold blDecTurn at h
  split at h
  · rename_i hf
    unfold blHeaderTurn at h
    rcases fetchBl_code_lt hf with ⟨h0, -⟩ | ⟨-, -, hd⟩
    · split at h
      · cases h
      · split at h <;> cases h
        exact ⟨by omega, by simp [h0], rfl⟩
    · unfold decodePulse at hd
      repeat' split at hd
      all_goals cases hd
  · rename_i hf
    obtain ⟨h1, h2⟩ := blCodeTurn_more h
    rcases fetchBl_code_lt hf with ⟨h0, hd⟩ | ⟨hl, -, -⟩
    · unfold decodeBlHeader at hd
      repeat' split at hd
      all_goals cases hd
    · exact ⟨hl, by omega, h2⟩
  · rename_i hf
    obtain ⟨h1, h2⟩ := blCodeTurn_more h
    rcases fetchBl_code_lt hf with ⟨h0, hd⟩ | ⟨hl, -, -⟩
    · unfold decodeBlHeader at hd
      repeat' split at hd
      all_goals cases hd
    · exact ⟨hl, by omega, h2⟩
  · cases h
  · rename_i t hf
    subst h
    unfold fetchBl at hf
    repeat' split at hf
    all_goals cases hf

theorem serTurn_advances (p : Params) (pulses : List Word) : Advances pulses.length (serTurn p pulses) := by
  intro w w' h
  unfold serTurn at h
  split at h
  · rename_i hf
    unfold fetchSer at hf
    split at hf
    · cases hf
    · rename_i hd
      obtain ⟨h1, h2⟩ := emitting_more h
      exact ⟨lt_of_drop_eq_cons hd, by omega, h2⟩
  · cases h
  · rename_i hf
    subst h
    unfold fetchSer at hf
    repeat' split at hf
    all_goals cases hf

theorem copyTurn_more {p : Params} {size length distance : Nat} {w w' : Work}
    (h : copyTurn p size length distance w = .more w') : w'.pos = w.pos + size ∧ w'.opened = w.opened := by
  unfold copyTurn at h
  repeat' split at h
  all_goals cases h
  exact ⟨rfl, rfl⟩

theorem fetchTuya_form_lt {data : List Byte} {w : Work} {i : Instr} (h : fetchTuya data w = .form i) :
    w.pos < data.length := by
  unfold fetchTuya at h
  split at h
  · cases h
  · exact lt_of_drop_eq_cons ‹_›

theorem expandTurn_advances (p : Params) (data : List Byte) : Advances data.length (expandTurn p data) := by
  intro w w' h
  unfold expandTurn at h
  split at h
  · rename_i hf
    obtain ⟨h1, h2⟩ := emitting_more h
    exact ⟨fetchTuya_form_lt hf, by omega, h2⟩
  · rename_i hf
    obtain ⟨h1, h2⟩ := copyTurn_more h
    exact ⟨fetchTuya_form_lt hf, by omega, h2⟩
  · rename_i hf
    obtain ⟨h1, h2⟩ := copyTurn_more h
    exact ⟨fetchTuya_form_lt hf, by omega, h2⟩
  · cases h
  · rename_i hf
    subst h
    unfold fetchTuya at hf
    repeat' split at hf
    all_goals cases hf

theorem b64EncTurn_advances (p : Params) (data : List Byte) : Advances data.length (b64EncTurn p data) := by
  intro w w' h
  unfold b64EncTurn at h
  split at h
  · cases h
  all_goals
    rename_i hd
    obtain ⟨h1, h2⟩ := emitting_more h
    exact ⟨lt_of_drop_eq_cons hd, by omega, h2⟩

theorem quantumTurn_more {p : Params} {a b c d : BitVec 6} {npad : Nat} {w w' : Work}
    (h : quantumTurn p a b c d npad w = .more w') : w'.pos = w.pos + 4 ∧ w'.opened = w.opened := by
  unfold quantumTurn at h
  dsimp only at h
  split at h
  · cases h
  · split at h
    · cases h
    · exact emitting_more h

theorem b64DecTurn_advances (p : Params) (data : List Byte) : Advances data.length (b64DecTurn p data) := by
  intro w w' h
  unfold b64DecTurn at h
  split at h
  · rename_i hf
    obtain ⟨h1, h2⟩ := quantumTurn_more h
    unfold fetchB64 at hf
    split at hf
    · cases hf
    · split at hf
      · cases hf
      · exact ⟨lt_of_drop_eq_cons ‹_›, by omega, h2⟩
  · cases h
  · rename_i hf
    subst h
    unfold fetchB64 at hf
    repeat' split at hf
    all_goals cases hf

theorem packTurn_advances (p : Params) (level : BitVec 2) (data : List Byte) :
    Advances data.length (packTurn p level data) := by
  intro w w' h
  unfold packTurn at h
  split at h
  · unfold literalTurn at h
    split at h <;> cases h
  · split at h
    · unfold optimalTurn at h
      split at h
      · split at h <;> cases h
      · cases h
        exact ⟨by omega, by simp, rfl⟩
    · unfold greedyTurn at h
      split at h
      · split at h <;> cases h
      · dsimp only at h
        split at h
        · cases h; exact ⟨by omega, by simp, rfl⟩
        · split at h
          · split at h
            · cases h
            · cases h
              have : 3 ≤ _ := ‹lenMin ≤ _›
              exact ⟨by omega, by simp; omega, rfl⟩
          · cases h; exact ⟨by omega, by simp, rfl⟩

theorem blEncTurn_never_more (p : Params) (pulses : List Word) (w w' : Work) : blEncTurn p pulses w ≠ .more w' := by
  intro h
  unfold blEncTurn at h
  repeat' split at h
  all_goals cases h

/-- An operation whose turns advance ends within the bound. -/
theorem runTurns_ends_of_advances {n : Nat} {f : Work → Turn} (h : Advances n f) (w w' : Work) :
    runTurns f (turnBound n) w ≠ .more w' := by
  refine runTurns_ends (P := fun _ => True) (fun w => n - w.pos) ?_ _ w trivial (by unfold turnBound; omega) w'
  intro v v' _ hv
  obtain ⟨h1, h2, -⟩ := h v v' hv
  exact ⟨trivial, by omega⟩

/-! ### Progress of the stages of a composite operation -/

/-- A stage that goes on is one of the first three, the next one follows it, and the operation stays open. -/
def StagesOn (f : Work → Turn) : Prop := ∀ w w', f w = .more w' → w.stage < 3 ∧ w'.stage = w.stage + 1 ∧ w'.opened = w.opened

theorem byteStage_more {p : Params} {turn : List Byte → Work → Turn} {data : List Byte} {w w' : Work} {k : Work → Turn}
    (h : byteStage p turn data w k = .more w') : ∃ r, k r = .more w' := by
  unfold byteStage at h
  repeat' split at h
  all_goals first | cases h | exact ⟨_, h⟩

theorem pulseStage_more {p : Params} {turn : List Word → Work → Turn} {pulses : List Word} {w w' : Work} {k : Work → Turn}
    (h : pulseStage p turn pulses w k = .more w') : ∃ r, k r = .more w' := by
  unfold pulseStage at h
  repeat' split at h
  all_goals first | cases h | exact ⟨_, h⟩

theorem tuyaCompTurn_stagesOn (p : Params) (level : BitVec 2) (data : List Byte) : StagesOn (tuyaCompTurn p level data) := by
  intro w w' h
  unfold tuyaCompTurn at h
  split at h
  · obtain ⟨r, hr⟩ := byteStage_more h
    cases hr
    exact ⟨by omega, by simp [*], rfl⟩
  · obtain ⟨r, hr⟩ := byteStage_more h
    cases hr

theorem pronto2BlTurn_stagesOn (p : Params) (data : List Byte) : StagesOn (pronto2BlTurn p data) := by
  intro w w' h
  unfold pronto2BlTurn at h
  split at h
  · obtain ⟨r, hr⟩ := byteStage_more h
    cases hr
    exact ⟨by omega, by simp [*], rfl⟩
  · obtain ⟨r, hr⟩ := pulseStage_more h
    cases hr

theorem bl2TuyaTurn_stagesOn (p : Params) (level : BitVec 2) (data : List Byte) : StagesOn (bl2TuyaTurn p level data) := by
  intro w w' h
  unfold bl2TuyaTurn at h
  split at h
  · obtain ⟨r, hr⟩ := byteStage_more h
    cases hr
    exact ⟨by omega, by simp [*], rfl⟩
  · split at h
    · obtain ⟨r, hr⟩ := pulseStage_more h
      cases hr
      exact ⟨by omega, by simp [*], rfl⟩
    · split at h
      · obtain ⟨r, hr⟩ := byteStage_more h
        cases hr
        exact ⟨by omega, by simp [*], rfl⟩
      · obtain ⟨r, hr⟩ := byteStage_more h
        cases hr

theorem runTurns_ends_of_stagesOn {n : Nat} {f : Work → Turn} (h : StagesOn f) (w w' : Work) :
    runTurns f (turnBound n) w ≠ .more w' := by
  refine runTurns_ends (P := fun _ => True) (fun w => 3 - w.stage) ?_ _ w trivial (by unfold turnBound; omega) w'
  intro v v' _ hv
  obtain ⟨h1, h2, -⟩ := h v v' hv
  exact ⟨trivial, by omega⟩

/-! ### The engine's turn -/

/-- The turn of the operation of a command; a stream form is none and gets the turn `State.fetch` gives it (log 13). -/
def operationTurn (p : Params) (data : List Byte) (pulses : List Word) : Instr → Work → Turn
  | .prontoDec _ => prontoTurn p data
  | .blEnc _ => blEncTurn p pulses
  | .blDec _ => blDecTurn p data
  | .ser16 _ => serTurn p pulses
  | .tuyaPack level => packTurn p level data
  | .tuyaExpand _ => expandTurn p data
  | .b64Enc _ => b64EncTurn p data
  | .b64Dec _ => b64DecTurn p data
  | .tuyaComp level => tuyaCompTurn p level data
  | .pronto2Bl _ => pronto2BlTurn p data
  | .bl2Tuya level => bl2TuyaTurn p level data
  | _ => fun _ => .raise .illegalCommand (some 0) Warn.none

theorem decodeProntoHeader_form {bs : List Byte} {i : Instr} (h : decodeProntoHeader bs = .ok i) :
    ∃ d o r, i = .prontoHeader d o r := by
  unfold decodeProntoHeader at h
  repeat' split at h
  all_goals first | cases h; done | (injection h with h; exact ⟨_, _, _, h.symm⟩)

theorem decodeTuya_form {bs : List Byte} {i : Instr} (h : decodeTuya bs = .ok i) :
    (∃ d, i = .lit d) ∨ (∃ f d, i = .copyS f d) ∨ (∃ d e, i = .copyL d e) := by
  unfold decodeTuya at h
  dsimp only at h
  repeat' split at h
  all_goals first | cases h; done | (injection h with h; subst h; simp)

theorem decodeQuantum_form {bs : List Byte} {i : Instr} (h : decodeQuantum bs = .ok i) :
    ∃ a b c d n, i = .b64Quantum a b c d n := by
  unfold decodeQuantum at h
  repeat' split at h
  all_goals first | cases h; done | (injection h with h; exact ⟨_, _, _, _, _, h.symm⟩)

theorem decodePulse_form {bs : List Byte} {i : Instr} (h : decodePulse bs = .ok i) :
    (∃ v, i = .p8 v) ∨ (∃ v, i = .p16 v) := by
  unfold decodePulse at h
  repeat' split at h
  all_goals first | cases h; done | (injection h with h; subst h; simp)

theorem decodeBlHeader_form {bs : List Byte} {i : Instr} (h : decodeBlHeader bs = .ok i) :
    ∃ r l, i = .blHeader r l := by
  unfold decodeBlHeader at h
  repeat' split at h
  all_goals first | cases h; done | (injection h with h; exact ⟨_, _, h.symm⟩)

/-- The engine's turn of an opened operation is its operation's turn, be it a stream form run as an instruction or not. -/
theorem engineTurn_opened {s : State} (hb : s.status = .busy) (ho : s.work.opened = true) :
    s.engineTurn =
      .next (s.applyTurn (commandOutputs s.command)
        (operationTurn s.params s.inputBytes s.inputPulses s.command s.work)) := by
  have e : s.engineTurn = (match s.fetch with
      | .form i => exec i s
      | .plain t => .next (s.applyTurn (commandOutputs s.command) t)) :=
    (if_pos hb).trans (if_pos ho)
  rw [e]
  unfold State.fetch
  cases hc : s.command with
  | prontoDec level =>
    simp only [operationTurn, prontoTurn]
    cases hf : fetchPronto s.params s.inputBytes s.work with
    | plain t => rfl
    | form i =>
      have : ∃ d o r, i = .prontoHeader d o r := by
        unfold fetchPronto at hf
        split at hf
        · split at hf <;> cases hf
          exact decodeProntoHeader_form ‹_›
        · split at hf <;> cases hf
      obtain ⟨d, o, r, rfl⟩ := this
      exact exec_prontoHeader d o r s
  | blDec level =>
    simp only [operationTurn, blDecTurn]
    cases hf : fetchBl s.inputBytes s.work with
    | plain t => rfl
    | form i =>
      rcases fetchBl_code_lt hf with ⟨-, hd⟩ | ⟨-, -, hd⟩
      · obtain ⟨r, l, rfl⟩ := decodeBlHeader_form hd
        exact exec_blHeader r l s
      · rcases decodePulse_form hd with ⟨v, rfl⟩ | ⟨v, rfl⟩
        · exact exec_p8 v s
        · exact exec_p16 v s
  | ser16 level =>
    simp only [operationTurn, serTurn]
    cases hf : fetchSer s.inputPulses s.work with
    | plain t => rfl
    | form i =>
      have : ∃ v, i = .pulse16 v := by
        unfold fetchSer at hf
        repeat' split at hf
        all_goals first | cases hf; done | (injection hf with hf; exact ⟨_, hf.symm⟩)
      obtain ⟨v, rfl⟩ := this
      exact exec_pulse16 v s
  | tuyaExpand level =>
    simp only [operationTurn, expandTurn]
    cases hf : fetchTuya s.inputBytes s.work with
    | plain t => rfl
    | form i =>
      have : (∃ d, i = .lit d) ∨ (∃ f d, i = .copyS f d) ∨ (∃ d e, i = .copyL d e) := by
        unfold fetchTuya at hf
        split at hf
        · cases hf
        · split at hf <;> cases hf
          exact decodeTuya_form ‹_›
      rcases this with ⟨d, rfl⟩ | ⟨f, d, rfl⟩ | ⟨d, ext, rfl⟩ <;> rfl
  | b64Dec level =>
    simp only [operationTurn, b64DecTurn]
    cases hf : fetchB64 s.inputBytes s.work with
    | plain t => rfl
    | form i =>
      have : ∃ a b c d n, i = .b64Quantum a b c d n := by
        unfold fetchB64 at hf
        split at hf
        · cases hf
        · split at hf
          · cases hf
          · split at hf <;> cases hf
            exact decodeQuantum_form ‹_›
      obtain ⟨a, b, c, d, n, rfl⟩ := this
      rfl
  | _ => rfl

/-- A measure of the turns an opened operation on `n` input units may still take. -/
def turnsLeft (n : Nat) (w : Work) : Instr → Nat
  | .tuyaComp _ => 3 - w.stage
  | .pronto2Bl _ => 3 - w.stage
  | .bl2Tuya _ => 3 - w.stage
  | _ => n - w.pos

/-- A turn of an operation that goes on lowers the measure and leaves the operation open. -/
theorem operationTurn_more {p : Params} {data : List Byte} {pulses : List Word} {i : Instr} {w w' : Work}
    (h : operationTurn p data pulses i w = .more w') :
    turnsLeft (data.length + pulses.length) w' i < turnsLeft (data.length + pulses.length) w i ∧ w'.opened = w.opened := by
  have adv : ∀ (n : Nat) (f : Work → Turn), Advances n f → n ≤ data.length + pulses.length → f w = .more w' →
      data.length + pulses.length - w'.pos < data.length + pulses.length - w.pos ∧ w'.opened = w.opened := by
    intro n f hf hn hm
    obtain ⟨h1, h2, h3⟩ := hf w w' hm
    exact ⟨by omega, h3⟩
  have stg : ∀ f : Work → Turn, StagesOn f → f w = .more w' → 3 - w'.stage < 3 - w.stage ∧ w'.opened = w.opened := by
    intro f hf hm
    obtain ⟨h1, h2, h3⟩ := hf w w' hm
    exact ⟨by omega, h3⟩
  cases i with
  | prontoDec level => exact adv _ _ (prontoTurn_advances p data) (by omega) h
  | blEnc level => exact absurd h (blEncTurn_never_more p pulses w w')
  | blDec level => exact adv _ _ (blDecTurn_advances p data) (by omega) h
  | ser16 level => exact adv _ _ (serTurn_advances p pulses) (by omega) h
  | tuyaPack level => exact adv _ _ (packTurn_advances p level data) (by omega) h
  | tuyaExpand level => exact adv _ _ (expandTurn_advances p data) (by omega) h
  | b64Enc level => exact adv _ _ (b64EncTurn_advances p data) (by omega) h
  | b64Dec level => exact adv _ _ (b64DecTurn_advances p data) (by omega) h
  | tuyaComp level => exact stg _ (tuyaCompTurn_stagesOn p level data) h
  | pronto2Bl level => exact stg _ (pronto2BlTurn_stagesOn p data) h
  | bl2Tuya level => exact stg _ (bl2TuyaTurn_stagesOn p level data) h
  | _ => cases h

/-- A turn that does not go on ends the operation. -/
theorem applyTurn_not_busy (s : State) (o : Outputs) {t : Turn} (h : ∀ w, t ≠ .more w) : (s.applyTurn o t).status ≠ .busy := by
  cases t with
  | more w => exact absurd rfl (h w)
  | done w => simp
  | raise c p ws => simp

theorem runBytes_not_busy (s : State) (o : Outputs) {f : List Byte → Work → Turn}
    (h : ∀ w, runTurns (f s.inputBytes) (turnBound s.inputBytes.length) Work.start ≠ .more w) :
    (s.runBytes o f).status ≠ .busy := by
  rcases Nat.lt_or_ge s.params.ibufBytes s.ilen.toNat with hl | hl
  · simp [runBytes_of_gt hl]
  · rw [runBytes_of_le hl]
    exact applyTurn_not_busy _ _ (by simpa using h)

theorem runPulses_not_busy (s : State) (o : Outputs) {f : List Word → Work → Turn}
    (h : ∀ w, runTurns (f s.inputPulses) (turnBound s.inputPulses.length) Work.start ≠ .more w) :
    (s.runPulses o f).status ≠ .busy := by
  rcases Nat.lt_or_ge s.params.pbufEntries s.plen.toNat with hl | hl
  · simp [runPulses_of_gt hl]
  · rw [runPulses_of_le hl]
    exact applyTurn_not_busy _ _ (by simpa using h)

/-- CMD decodes to a command. -/
theorem isCommand_decodeCommand (v : Word) : isCommand (decodeCommand v) = true := by
  unfold decodeCommand
  dsimp only
  repeat' split
  all_goals rfl

/-- A command carried out whole answers a state that is not BUSY. -/
theorem exec_command_not_busy (s : State) {i : Instr} (h : isCommand i = true) :
    ∃ t, exec i s = .next t ∧ t.status ≠ .busy := by
  cases i with
  | prontoDec level =>
    exact ⟨_, exec_prontoDec level s, runBytes_not_busy s _ (runTurns_ends_of_advances (prontoTurn_advances _ _) _)⟩
  | blEnc level =>
    refine ⟨_, exec_blEnc level s, runPulses_not_busy s _ (runTurns_ends_of_advances ?_ _)⟩
    exact fun w w' hw => absurd hw (blEncTurn_never_more _ _ w w')
  | blDec level =>
    exact ⟨_, exec_blDec level s, runBytes_not_busy s _ (runTurns_ends_of_advances (blDecTurn_advances _ _) _)⟩
  | ser16 level =>
    exact ⟨_, exec_ser16 level s, runPulses_not_busy s _ (runTurns_ends_of_advances (serTurn_advances _ _) _)⟩
  | tuyaPack level =>
    exact ⟨_, exec_tuyaPack level s, runBytes_not_busy s _ (runTurns_ends_of_advances (packTurn_advances _ _ _) _)⟩
  | tuyaExpand level =>
    exact ⟨_, exec_tuyaExpand level s, runBytes_not_busy s _ (runTurns_ends_of_advances (expandTurn_advances _ _) _)⟩
  | b64Enc level =>
    exact ⟨_, exec_b64Enc level s, runBytes_not_busy s _ (runTurns_ends_of_advances (b64EncTurn_advances _ _) _)⟩
  | b64Dec level =>
    exact ⟨_, exec_b64Dec level s, runBytes_not_busy s _ (runTurns_ends_of_advances (b64DecTurn_advances _ _) _)⟩
  | tuyaComp level =>
    exact ⟨_, exec_tuyaComp level s, runBytes_not_busy s _ (runTurns_ends_of_stagesOn (tuyaCompTurn_stagesOn _ _ _) _)⟩
  | pronto2Bl level =>
    exact ⟨_, exec_pronto2Bl level s, runBytes_not_busy s _ (runTurns_ends_of_stagesOn (pronto2BlTurn_stagesOn _ _) _)⟩
  | bl2Tuya level =>
    exact ⟨_, exec_bl2Tuya level s, runBytes_not_busy s _ (runTurns_ends_of_stagesOn (bl2TuyaTurn_stagesOn _ _ _) _)⟩
  | illegal word => exact ⟨_, exec_illegal word s, by simp⟩
  | _ => cases h

/-- What the engine's turn of a started operation answers: the operation has ended, or it was open, stays open and has fewer turns
left. -/
theorem engineTurn_cases {s : State} (hb : s.status = .busy) :
    ∃ t, s.engineTurn = .next t ∧
      (t.status ≠ .busy ∨
       (s.work.opened = true ∧ ∃ w, t = { s with work := w } ∧ w.opened = true ∧
        turnsLeft (s.ilen.toNat + s.plen.toNat) w s.command < turnsLeft (s.ilen.toNat + s.plen.toNat) s.work s.command)) := by
  cases ho : s.work.opened with
  | false =>
    obtain ⟨t, ht, hs⟩ := exec_command_not_busy s (isCommand_decodeCommand s.cmd)
    refine ⟨t, ?_, .inl hs⟩
    simpa [State.engineTurn, hb, ho, State.command] using ht
  | true =>
    refine ⟨_, engineTurn_opened hb ho, ?_⟩
    cases ht : operationTurn s.params s.inputBytes s.inputPulses s.command s.work with
    | more w =>
      obtain ⟨hm, hw⟩ := operationTurn_more ht
      simp only [inputBytes_length, inputPulses_length] at hm
      exact .inr ⟨rfl, w, rfl, hw.trans ho, hm⟩
    | done w => exact .inl (by simp)
    | raise c p ws => exact .inl (by simp)

/-! ### The engine does not see the schedule or the read port -/

/-- A state with another schedule and read port. -/
def State.withHost (s : State) (ms : List Move) (v : Word) : State := { s with sched := ms, rdata := v }

theorem applyTurn_withHost (s : State) (o : Outputs) (t : Turn) (ms : List Move) (v : Word) :
    (s.withHost ms v).applyTurn o t = (s.applyTurn o t).withHost ms v := by
  obtain ⟨_ | _, _ | _⟩ := o <;> cases t with
  | raise c p ws => cases p <;> rfl
  | _ => rfl

theorem runBytes_withHost (s : State) (o : Outputs) (f : List Byte → Work → Turn) (ms : List Move) (v : Word) :
    (s.withHost ms v).runBytes o f = (s.runBytes o f).withHost ms v := by
  rcases Nat.lt_or_ge s.params.ibufBytes s.ilen.toNat with h | h
  · rw [runBytes_of_gt h, runBytes_of_gt (s := s.withHost ms v) h]
    exact applyTurn_withHost s o (.raise .capacityExceeded none Warn.none) ms v
  · rw [runBytes_of_le h, runBytes_of_le (s := s.withHost ms v) h]
    exact applyTurn_withHost s o _ ms v

theorem runPulses_withHost (s : State) (o : Outputs) (f : List Word → Work → Turn) (ms : List Move) (v : Word) :
    (s.withHost ms v).runPulses o f = (s.runPulses o f).withHost ms v := by
  rcases Nat.lt_or_ge s.params.pbufEntries s.plen.toNat with h | h
  · rw [runPulses_of_gt h, runPulses_of_gt (s := s.withHost ms v) h]
    exact applyTurn_withHost s o (.raise .capacityExceeded none Warn.none) ms v
  · rw [runPulses_of_le h, runPulses_of_le (s := s.withHost ms v) h]
    exact applyTurn_withHost s o _ ms v

theorem exec_command_withHost {s t : State} {i : Instr} (hc : isCommand i = true) (ms : List Move) (v : Word)
    (h : exec i s = .next t) : exec i (s.withHost ms v) = .next (t.withHost ms v) := by
  cases i with
  | blEnc level =>
    rw [exec_blEnc] at h ⊢; injection h with h; subst h; exact congrArg _ (runPulses_withHost s _ _ ms v)
  | ser16 level =>
    rw [exec_ser16] at h ⊢; injection h with h; subst h; exact congrArg _ (runPulses_withHost s _ _ ms v)
  | illegal word => injection h with h; subst h; rfl
  | lit _ => cases hc
  | copyS _ _ => cases hc
  | copyL _ _ => cases hc
  | p8 _ => cases hc
  | p16 _ => cases hc
  | blHeader _ _ => cases hc
  | prontoHeader _ _ _ => cases hc
  | pulse16 _ => cases hc
  | b64Quantum _ _ _ _ _ => cases hc
  | _ => injection h with h; subst h; exact congrArg _ (runBytes_withHost s _ _ ms v)

theorem engineTurn_withHost {s t : State} (hb : s.status = .busy) (ms : List Move) (v : Word) (h : s.engineTurn = .next t) :
    (s.withHost ms v).engineTurn = .next (t.withHost ms v) := by
  cases ho : s.work.opened with
  | false =>
    have e : ∀ r : State, r.status = .busy → r.work.opened = false → r.engineTurn = exec r.command r := by
      intro r h1 h2; simp [State.engineTurn, h1, h2]
    rw [e s hb ho] at h
    rw [e (s.withHost ms v) hb ho]
    exact exec_command_withHost (isCommand_decodeCommand s.cmd) ms v h
  | true =>
    rw [engineTurn_opened hb ho] at h
    injection h with h
    subst h
    rw [engineTurn_opened (s := s.withHost ms v) hb ho]
    exact congrArg _ (applyTurn_withHost s _ _ ms v)

/-! ### The line `wait` -/

theorem step_read_status (s : State) (ms : List Move) :
    step { s with sched := .host (.regRead 3) :: ms } = .next (s.withHost ms s.statusWord) := by
  simp [step, State.transact, State.regRead, hiddenWhileBusy]; rfl

theorem run_succ {s t : State} (k : Nat) (h : step s = .next t) :
    Host.Core.run Sys2Proof.core (k + 1) s = Host.Core.run Sys2Proof.core k t := by
  simp only [Host.Core.run]
  rw [show Sys2Proof.core.step s = .next t from h]

/-- The turns a started operation may still take, whole or turn by turn. -/
def State.turnsToEnd (s : State) : Nat :=
  if s.work.opened then turnsLeft (s.ilen.toNat + s.plen.toNat) s.work s.command + 1 else 1

theorem turnsToEnd_le_waitBound (s : State) : s.turnsToEnd ≤ s.waitBound := by
  unfold State.turnsToEnd State.waitBound turnBound turnsLeft
  split
  · split <;> omega
  · omega

theorem run_last_read (rest : List Move) (s : State) (v : Word) (hs : s.status ≠ .busy) :
    ∃ t, Host.Core.run Sys2Proof.core 1 (s.withHost (.host (.regRead 3) :: rest) v) = .next t ∧
      t.status ≠ .busy ∧ t.sched = rest ∧ t.rdata = t.statusWord :=
  ⟨s.withHost rest s.statusWord, run_succ 0 (step_read_status { s with rdata := v } rest), hs, rfl, rfl⟩

theorem run_waitMoves (rest : List Move) (k : Nat) (s : State) (v : Word) (hk : s.status = .busy → s.turnsToEnd ≤ k) :
    ∃ t, Host.Core.run Sys2Proof.core (s.waitMoves k).length (s.withHost (s.waitMoves k ++ rest) v) = .next t ∧
      t.status ≠ .busy ∧ t.sched = rest ∧ t.rdata = t.statusWord := by
  induction k generalizing s v with
  | zero =>
    by_cases hb : s.status = .busy
    · have := hk hb
      unfold State.turnsToEnd at this
      split at this <;> omega
    · exact run_last_read rest s v hb
  | succ k ih =>
    by_cases hb : s.status = .busy
    · obtain ⟨t, ht, hcase⟩ := engineTurn_cases hb
      have hw : s.waitMoves (k + 1) = .host (.regRead 3) :: .engine :: t.waitMoves k := by
        simp [State.waitMoves, hb, ht]
      have h1 : step (s.withHost (.host (.regRead 3) :: .engine :: (t.waitMoves k ++ rest)) v) =
          .next (s.withHost (.engine :: (t.waitMoves k ++ rest)) s.statusWord) :=
        step_read_status { s with rdata := v } _
      have h2 : step (s.withHost (.engine :: (t.waitMoves k ++ rest)) s.statusWord) =
          .next (t.withHost (t.waitMoves k ++ rest) s.statusWord) :=
        engineTurn_withHost hb (t.waitMoves k ++ rest) s.statusWord ht
      have hkt : t.status = .busy → t.turnsToEnd ≤ k := by
        intro htb
        rcases hcase with hn | ⟨ho, w, rfl, hwo, hlt⟩
        · exact absurd htb hn
        · have := hk hb
          rw [State.turnsToEnd, if_pos ho] at this
          rw [State.turnsToEnd, if_pos hwo]
          show turnsLeft (s.ilen.toNat + s.plen.toNat) w s.command + 1 ≤ k
          omega
      obtain ⟨u, hu, hrest⟩ := ih t s.statusWord hkt
      refine ⟨u, ?_, hrest⟩
      rw [hw]
      exact (run_succ _ h1).trans ((run_succ _ h2).trans hu)
    · have hw : s.waitMoves (k + 1) = [.host (.regRead 3)] := by simp [State.waitMoves, hb]
      rw [hw]
      exact run_last_read rest s v hb

/-- The line `wait`, issued in any state: its moves end with STATE not BUSY, and the last read of STATUS has answered so
(30_encoding.md R92). -/
theorem wait_ends (s : State) (rest : List Move) :
    ∃ t, Host.Core.run Sys2Proof.core (ScriptLine.wait.moves s).length { s with sched := ScriptLine.wait.moves s ++ rest } = .next t ∧
      t.status ≠ .busy ∧ t.sched = rest ∧ t.rdata = t.statusWord :=
  run_waitMoves rest s.waitBound s s.rdata (fun _ => turnsToEnd_le_waitBound s)

end Sys2Proof.Machine
end

