-- ==== Sys2Proof/Tests/Slice0.lean ====
section
/-! SUPPORT. Tests: ill-formed terms, decoding of words written out from the tables of 30_encoding.md, one step of each instruction
with the results of spec/95_test_vectors.md and of the rules' worked examples, and a witness for the hypotheses of every statement. -/

namespace Sys2Proof.Tests

set_option Elab.async false

open Sys2Proof Sys2Proof.Machine

/-! ### Small states -/

/-- A started operation on these bytes. -/
def onBytes (bs : List Byte) : State :=
  { State.reset with status := .busy, ilen := BitVec.ofNat 32 bs.length, ibuf := Memory.ofList bs 0 }

/-- A started operation on these pulses. -/
def onPulses (ps : List Word) : State :=
  { State.reset with status := .busy, plen := BitVec.ofNat 32 ps.length, pbuf := Memory.ofList ps 2 }

/-- An opened operation with this much done. -/
def opened (s : State) (p : Nat) (out : List Byte) (ps : List Word) : State :=
  { s with work := { Work.start with pos := p, out := out, pulses := ps } }

/-- The same with other capacities. -/
def tight (s : State) (i o p : Nat) : State :=
  { s with params := { ibufBytes := i, obufBytes := o, pbufEntries := p } }

/-- The state after an instruction. -/
def after (i : Instr) (s : State) : State :=
  match exec i s with
  | .next t => t
  | .fault _ => s
  | .refused _ => s

/-- The bytes determined in OBUF. -/
def bytesOf (s : State) : List Byte := s.obuf.cells.map Prod.snd

/-- The pulses determined in PBUF, as numbers. -/
def pulsesOf (s : State) : List Nat := s.pbuf.cells.map fun c => c.2.toNat

/-- What a check of every element of a list shows (the decision procedure for `∀ p ∈ l` would try every word). -/
theorem all_of {α : Type} {l : List α} {P : α → Prop} [DecidablePred P] (h : (l.all fun a => decide (P a)) = true) :
    ∀ a ∈ l, P a := by simpa using h

/-- STATE, ERR, POS and WARN. -/
def report (s : State) : Status × Nat × Nat × Nat := (s.status, s.err.toNat, s.pos.toNat, s.warn.toNat)

/-! ### Ill-formed terms -/

theorem test_wf_illegal : (Instr.illegal 0x00000305).wf = false := by decide
theorem test_wf_lit_empty : (Instr.lit []).wf = false := by decide
theorem test_wf_lit_long : (Instr.lit (List.replicate 33 0)).wf = false := by decide
theorem test_wf_copyS_zero : (Instr.copyS 0 0).wf = false := by decide
theorem test_wf_copyS_seven : (Instr.copyS 7 0).wf = false := by decide
theorem test_wf_p8_zero : (Instr.p8 0).wf = false := by decide
theorem test_wf_quantum_npad : (Instr.b64Quantum 0 0 0 0 3).wf = false := by decide
theorem test_wf_quantum_last : (Instr.b64Quantum 0 0 0 1 1).wf = false := by decide
theorem test_wf_quantum_third : (Instr.b64Quantum 0 0 1 0 2).wf = false := by decide

/-! ### Decoding of words written out from the tables (30_encoding.md R70, R71, R75 to R83, R88) -/

theorem test_decode_prontoDec : decodeCommand 0b00000000000000000000000000000001#32 = .prontoDec 0 := by decide
theorem test_decode_blEnc : decodeCommand 0b00000000000000000000000100000010#32 = .blEnc 1 := by decide
theorem test_decode_blDec : decodeCommand 0b00000000000000000000001000000011#32 = .blDec 2 := by decide
theorem test_decode_ser16 : decodeCommand 0b00000000000000000000001100000100#32 = .ser16 3 := by decide
theorem test_decode_tuyaPack : decodeCommand 0b00000000000000000000001000000101#32 = .tuyaPack 2 := by decide
theorem test_decode_tuyaExpand : decodeCommand 0b00000000000000000000000000000110#32 = .tuyaExpand 0 := by decide
theorem test_decode_b64Enc : decodeCommand 0b00000000000000000000000000000111#32 = .b64Enc 0 := by decide
theorem test_decode_b64Dec : decodeCommand 0b00000000000000000000000000001000#32 = .b64Dec 0 := by decide
theorem test_decode_tuyaComp : decodeCommand 0b00000000000000000000000100001001#32 = .tuyaComp 1 := by decide
theorem test_decode_pronto2Bl : decodeCommand 0b00000000000000000000000000001010#32 = .pronto2Bl 0 := by decide
theorem test_decode_bl2Tuya : decodeCommand 0b00000000000000000000001100001011#32 = .bl2Tuya 3 := by decide
theorem test_decode_illegal_op : decodeCommand 0b00000000000000000000000000001100#32 = .illegal 12 := by decide
theorem test_decode_illegal_bit : decodeCommand 0b00000000000000000000010000000101#32 = .illegal 0x405 := by decide

theorem test_decode_lit : decodeForm .tuyaBlock [0b00000001#8, 0x41, 0x42, 0x43] = .ok (.lit [0x41, 0x42]) := by rfl
theorem test_decode_copyS : decodeForm .tuyaBlock [0b11011111#8, 0b11111110#8] = .ok (.copyS 6 8190) := by rfl
theorem test_decode_copyL : decodeForm .tuyaBlock [0b11100001#8, 0b00011010#8, 0b00000010#8] = .ok (.copyL 258 26) := by
  rfl
theorem test_decode_p8 : decodeForm .blPulse [0b10010100#8, 0x13] = .ok (.p8 148) := by rfl
theorem test_decode_p16 : decodeForm .blPulse [0b00000000#8, 0b00000101#8, 0b00010111#8] = .ok (.p16 1303) := by rfl
theorem test_decode_blHeader : decodeForm .blFrame [0x26, 0x05, 0x0a, 0x01] = .ok (.blHeader 5 266) := by rfl
theorem test_decode_prontoHeader :
    decodeForm .pronto [0, 0, 0x00, 0x6d, 0x01, 0x02, 0x00, 0x01] = .ok (.prontoHeader 109 258 1) := by rfl
theorem test_decode_pulse16 : decodeForm .pulses16 [0b00110110#8, 0b00100011#8] = .ok (.pulse16 9014) := by rfl
/-- "QUI=" and "+/+/" (95_test_vectors.md A3, A6). -/
theorem test_decode_b64Quantum :
    decodeForm .base64 [0x51, 0x55, 0x49, 0x3d] = .ok (.b64Quantum 16 20 8 0 1) ∧
    decodeForm .base64 [0x2b, 0x2f, 0x2b, 0x2f] = .ok (.b64Quantum 62 63 62 63 0) := ⟨rfl, rfl⟩

/-! ### One operation each, with the results of 95_test_vectors.md -/

/-- The Pronto code of vector P1 (40_pronto.md R108). -/
def code1 : List Byte := [0, 0, 0, 0x6d, 0, 2, 0, 1, 1, 0x57, 0, 0xac, 0, 0x16, 0, 0x16, 0, 0x16, 5, 0xe6]

/-- The packet of vectors E1 and B1 (41_broadlink.md R115, R124). -/
def packet1 : List Byte := [0x26, 0, 0x0a, 0, 0, 1, 0x28, 0x94, 0x13, 0x13, 0x13, 0, 5, 0x17, 0x0d, 5] ++ List.replicate 12 0

/-- "AAAABBBBAAAABBBB" (43_tuya_levels.md R154). -/
def text1 : List Byte := [0x41, 0x41, 0x41, 0x41, 0x42, 0x42, 0x42, 0x42, 0x41, 0x41, 0x41, 0x41, 0x42, 0x42, 0x42, 0x42]

theorem test_prontoDec : pulsesOf (after (.prontoDec 0) (onBytes code1)) = [9019, 4523, 579, 579, 579, 39707] ∧
    report (after (.prontoDec 0) (onBytes code1)) = (.done, 0, 20, 0) := by decide +kernel

/-- The source's bad code (40_pronto.md R109). -/
theorem test_prontoDec_length :
    report (after (.prontoDec 0)
      (onBytes [0, 0, 0, 0x64, 0, 0, 0, 2, 0, 0x0a, 0, 0x14, 0, 0x1e, 0, 0x28, 0, 0x32, 0, 0x3c])) =
      (.fault, 0x0102, 20, 0) := by decide +kernel

theorem test_blEnc :
    bytesOf (after (.blEnc 0) (onPulses [9019, 4523, 579, 579, 579, 39707])) = packet1 := by decide +kernel

/-- 41_broadlink.md R112, R113: the warning is gathered before the fault. -/
theorem test_blEnc_range :
    report (after (.blEnc 0) (onPulses [30, 1995802, 1995803])) = (.fault, 0x0308, 2, 2) := by decide +kernel

theorem test_blDec : pulsesOf (after (.blDec 0) (onBytes packet1)) = [9014, 4507, 579, 579, 579, 39681] ∧
    report (after (.blDec 0) (onBytes packet1)) = (.done, 0, 14, 0) := by decide +kernel

/-- 70_reset_and_hazards.md R251. -/
theorem test_blDec_early :
    pulsesOf (after (.blDec 0) (onBytes [0x26, 0, 5, 0, 0x13, 0, 8, 0xfa, 0x13, 0x0d, 5, 0])) = [579] ∧
    report (after (.blDec 0) (onBytes [0x26, 0, 5, 0, 0x13, 0, 8, 0xfa, 0x13, 0x0d, 5, 0])) = (.done, 0, 8, 1) := by
  decide +kernel

theorem test_ser16 : bytesOf (after (.ser16 0) (onPulses [9014, 4507, 579, 579, 579, 39681])) =
    [0x36, 0x23, 0x9b, 0x11, 0x43, 2, 0x43, 2, 0x43, 2, 1, 0x9b] := by decide +kernel

theorem test_ser16_range : report (after (.ser16 0) (onPulses [65535, 65536])) = (.fault, 0x0308, 1, 0) := by
  decide +kernel

/-- Levels 1 and 2 (43_tuya_levels.md R154, R162). -/
theorem test_tuyaPack_greedy :
    bytesOf (after (.tuyaPack 1) (onBytes text1)) = [0, 0x41, 0x20, 0, 0, 0x42, 0x20, 0, 0x20, 6, 0x60, 7] ∧
    bytesOf (after (.tuyaPack 2) (onBytes text1)) = [0, 0x41, 0x20, 0, 0, 0x42, 0x20, 0, 0xc0, 7] := by decide +kernel

/-- Levels 0 and 3 (43_tuya_levels.md R173). -/
theorem test_tuyaPack_optimal :
    bytesOf (after (.tuyaPack 0) (onBytes text1)) = 0x0f :: text1 ∧
    bytesOf (after (.tuyaPack 3) (onBytes text1)) = [4, 0x41, 0x41, 0x41, 0x41, 0x42, 0x20, 0, 0xc0, 7] := by
  decide +kernel

/-- 42_tuya_format.md R143. -/
theorem test_tuyaExpand :
    bytesOf (after (.tuyaExpand 0) (onBytes [4, 0x41, 0x41, 0x41, 0x41, 0x42, 0x20, 0, 0xc0, 7])) = text1 := by
  decide +kernel

/-- 42_tuya_format.md R143 (f). -/
theorem test_tuyaExpand_cut : report (after (.tuyaExpand 0) (onBytes [0, 0x41, 0x20])) = (.fault, 0x030A, 2, 0) := by
  decide +kernel

/-- "QUJDQQ==" (95_test_vectors.md A5). -/
theorem test_b64Enc : bytesOf (after (.b64Enc 0) (onBytes [0x41, 0x42, 0x43, 0x41])) =
    [0x51, 0x55, 0x4a, 0x44, 0x51, 0x51, 0x3d, 0x3d] := by decide +kernel

theorem test_b64Dec : bytesOf (after (.b64Dec 0) (onBytes [0x51, 0x55, 0x4a, 0x44, 0x51, 0x51, 0x3d, 0x3d])) =
    [0x41, 0x42, 0x43, 0x41] := by decide +kernel

/-- "QR==" (44_base64.md R187 (c)). -/
theorem test_b64Dec_unused :
    report (after (.b64Dec 0) (onBytes [0x51, 0x52, 0x3d, 0x3d])) = (.fault, 0x030B, 1, 0) := by decide +kernel

/-- 95_test_vectors.md H2. -/
theorem test_tuyaComp : bytesOf (after (.tuyaComp 1) (onBytes [0x41, 0x41, 0x41, 0x41])) =
    [0x41, 0x45, 0x45, 0x67, 0x41, 0x41, 0x3d, 0x3d] := by decide +kernel

/-- 45_chains.md R192. -/
theorem test_pronto2Bl : bytesOf (after (.pronto2Bl 0) (onBytes code1)) = packet1 ∧
    pulsesOf (after (.pronto2Bl 0) (onBytes code1)) = [9019, 4523, 579, 579, 579, 39707] := by decide +kernel

/-- 45_chains.md R194, R197: the base64 text and the train; and a fault of the first stage, which leaves neither. -/
theorem test_bl2Tuya :
    bytesOf (after (.bl2Tuya 2) (onBytes packet1)) =
      [0x42, 0x54, 0x59, 0x6a, 0x6d, 0x78, 0x46, 0x44, 0x41, 0x6b, 0x41, 0x42, 0x41, 0x51, 0x47, 0x62] ∧
    pulsesOf (after (.bl2Tuya 2) (onBytes packet1)) = [9014, 4507, 579, 579, 579, 39681] ∧
    report (after (.bl2Tuya 2) (onBytes packet1)) = (.done, 0, 14, 0) := by decide +kernel

theorem test_bl2Tuya_fault : report (after (.bl2Tuya 2) (onBytes [0xb2, 0, 3, 0])) = (.fault, 0x0103, 0, 0) := by
  decide +kernel

theorem test_illegal : report (after (.illegal 0) (onBytes [])) = (.fault, 0x0306, 0, 0) := by decide

/-! ### One turn of each stream form -/

theorem test_lit : (after (.lit [7, 8]) (opened (onBytes []) 3 [1] [])).work.out = [1, 7, 8] ∧
    (after (.lit [7, 8]) (opened (onBytes []) 3 [1] [])).work.pos = 6 := by decide

/-- `COPY 4, 2` after "AB" (42_tuya_format.md R143 (d)). -/
theorem test_copyS : (after (.copyS 2 1) (opened (onBytes []) 3 [0x41, 0x42] [])).work.out =
    [0x41, 0x42, 0x41, 0x42, 0x41, 0x42] := by decide

theorem test_copyS_far : report (after (.copyS 2 2) (opened (onBytes []) 3 [0x41, 0x42] [])) = (.fault, 0x030A, 3, 0) := by
  decide

/-- `COPY 9, 1`. -/
theorem test_copyL : (after (.copyL 0 0) (opened (onBytes []) 2 [0x41] [])).work.out = List.replicate 10 0x41 := by decide

theorem test_p8 : (after (.p8 19) (opened (onBytes []) 4 [] [9014])).work.pulses = [9014, 579] := by decide

theorem test_p16 : (after (.p16 1303) (opened (onBytes []) 4 [] [])).work.pulses = [39681] := by decide

/-- Tick 2152 is 65536 microseconds (41_broadlink.md R121). -/
theorem test_p16_stop : report (after (.p16 2152) (opened (onBytes [0, 0, 0, 0, 0, 8, 0x68]) 4 [] [5])) = (.done, 0, 7, 0) := by
  decide +kernel

theorem test_blHeader : (after (.blHeader 9 3) (opened (onBytes [0x26, 9, 3, 0, 1, 1, 1]) 0 [] [])).work.payloadEnd = 7 ∧
    report (after (.blHeader 9 2) (opened (onBytes [0x26, 9, 2, 0, 1, 1, 1]) 0 [] [])) = (.fault, 0x0104, 2, 0) := by decide

theorem test_prontoHeader : (after (.prontoHeader 1 0 0) (opened (onBytes (List.replicate 8 0)) 0 [] [])).work.pos = 8 ∧
    report (after (.prontoHeader 0 0 0) (opened (onBytes (List.replicate 8 0)) 0 [] [])) = (.fault, 0x0309, 2, 0) := by decide

theorem test_pulse16 : (after (.pulse16 9014) (opened (onPulses [9014]) 0 [] [])).work.out = [0x36, 0x23] := by decide

theorem test_b64Quantum :
    (after (.b64Quantum 16 20 9 3 0) (opened (onBytes []) 0 [] [])).work.out = [0x41, 0x42, 0x43] ∧
    report (after (.b64Quantum 16 20 9 0 1) (opened (onBytes []) 4 [] [])) = (.fault, 0x030B, 6, 0) := by decide

/-! ### The host port and the fetch (95_test_vectors.md I5, I9, I13) -/

theorem test_ctrl : (State.reset.regWrite 1 0xFFFFFFFF).regRead 1 = { State.reset with ctrl := 1, rdata := 1 } := by
  decide

theorem test_ack : (({ State.reset with ctrl := 1, status := .done } : State).regWrite 1 3).statusWord = 0 := by decide

theorem test_cmd_busy : ({ State.reset with status := .busy, cmd := 0x109 } : State).regWrite 2 7 =
    { State.reset with status := .busy, cmd := 0x109 } := by decide

/-- 30_encoding.md R92: `wait` polls an operation taken whole twice, one opened on two literal blocks four times, and IDLE once. -/
theorem test_wait :
    (ScriptLine.wait.moves { onBytes [0, 0x41] with cmd := 6 }).length = 3 ∧
    (ScriptLine.wait.moves { opened (onBytes [0, 0x41, 0, 0x42]) 0 [] [] with cmd := 6 }).length = 7 ∧
    ScriptLine.wait.moves State.reset = [.host (.regRead 3)] := by decide +kernel

/-- 30_encoding.md R91: the packet of vector E1. -/
theorem test_assembleFrame :
    assembleFrame [0, 1, 0x28, 0x94, 0x13, 0x13, 0x13, 0, 5, 0x17] = some packet1 := by decide

theorem test_table_command : decodeTableWord 32 0x00000305 = some (.tuyaPack 3) ∧
    ((State.reset.withFetchWord 32 0x00000305).command = .tuyaPack 3) := by decide

theorem test_table_form : decodeTableWord 24 0xE00000 = some (.copyL 0 0) ∧
    decodeTableWord 16 0x2000 = some (.copyS 1 0) ∧ decodeTableWord 8 0x13 = some (.lit (List.replicate 20 0)) ∧
    decodeTableWord 32 0x26000000 = some (.blHeader 0 0) ∧ decodeTableWord 64 0 = some (.prontoHeader 0 0 0) := by decide

/-! ### Witnesses: states and operands that meet the hypotheses of each statement -/

theorem witness_DecodeEncode : (Instr.lit (List.replicate 32 0)).wf = true ∧ (Instr.copyS 6 8191).wf = true ∧
    (Instr.copyL 8191 255).wf = true ∧ (Instr.b64Quantum 63 63 63 0 1).wf = true ∧ (Instr.illegal 0xFFFFFFFF).wf = true := by
  decide

theorem witness_DecodedFormsReencode : decodeForm .tuyaBlock [0xff, 0xff, 0xff, 7] = .ok (.copyL 8191 255) := by rfl

theorem witness_IllegalCommand : State.reset.status ≠ .busy ∧ (0x400#32) >>> 10 ≠ 0 ∧ (0x100#32).toNat % 256 = 0 ∧
    12 ≤ (0x0C#32).toNat % 256 := by decide

theorem witness_TuyaFirstByte :
    ((0x1F#8).toNat < 0x20 ∧ ([] : List Byte).length < (0x1F#8).toNat + 1) ∧
    ((0x00#8).toNat < 0x20 ∧ (0x00#8).toNat + 1 ≤ ([5] : List Byte).length) ∧
    (0x20 ≤ (0x20#8).toNat ∧ (0x20#8).toNat ≤ 0xDF) ∧ (0x20 ≤ (0xDF#8).toNat ∧ (0xDF#8).toNat ≤ 0xDF) ∧
    (0xE0 ≤ (0xE0#8).toNat ∧ ([5] : List Byte).length < 2) ∧ 0xE0 ≤ (0xFF#8).toNat := by decide

theorem witness_DistanceBlocks : (3 ≤ 8 ∧ 8 ≤ 264 ∧ 1 ≤ 8192 ∧ 8192 ≤ 8192) ∧ (9 ≤ 264 ∧ 264 ≤ 264) ∧
    (2 < 3 ∨ 264 < 2 ∨ 1 < 1 ∨ 8192 < 1) := by decide

theorem witness_LiteralRun :
    ([] : List Byte).length + (refLiterals ([9] : List Byte).length [9]).length ≤ 2 ∧
    (([] : List Byte).length ≤ 1 ∧ 1 < ([] : List Byte).length + (refLiterals ([9] : List Byte).length [9]).length) := by decide

theorem witness_LitForm :
    ((opened (onBytes []) 0 [1] []).work.out.length + [2].length ≤ (opened (onBytes []) 0 [1] []).params.obufBytes) ∧
    (tight (opened (onBytes []) 0 [1] []) 16 1 4).params.obufBytes <
      (tight (opened (onBytes []) 0 [1] []) 16 1 4).work.out.length + [2].length := by decide

theorem witness_CopyForms :
    (∃ (f : BitVec 3) (d : BitVec 13), Instr.copyS 6 0 = .copyS f d ∧ 2 = 2 ∧ 8 = f.toNat + 2 ∧ 1 = d.toNat + 1) ∧
    (∃ (d : BitVec 13) (e : Byte), Instr.copyL 8191 255 = .copyL d e ∧ 3 = 3 ∧ 264 = e.toNat + 9 ∧ 8192 = d.toNat + 1) ∧
    (1 ≤ (opened (onBytes []) 0 [1] []).work.out.length ∧
      (opened (onBytes []) 0 [1] []).work.out.length + 8 ≤ (opened (onBytes []) 0 [1] []).params.obufBytes) ∧
    (tight (opened (onBytes []) 0 [1] []) 16 8 4).params.obufBytes <
      (tight (opened (onBytes []) 0 [1] []) 16 8 4).work.out.length + 8 ∧
    (opened (onBytes []) 0 [1] []).work.out.length < 8192 :=
  ⟨⟨6, 0, rfl, rfl, rfl, rfl⟩, ⟨8191, 255, rfl, rfl, rfl, rfl⟩, by decide, by decide, by decide⟩

theorem witness_PulseCodeForms :
    (opened (onBytes []) 4 [] []).work.pulses.length < (opened (onBytes []) 4 [] []).params.pbufEntries ∧
    (2151#16).toNat < 2152 ∧ 2152 ≤ (2152#16).toNat ∧
    (∀ k, (opened (onBytes []) 4 [] []).work.pos + 3 ≤ k → k < (opened (onBytes []) 4 [] []).ilen.toNat →
      (opened (onBytes []) 4 [] []).ibuf.read k = 0) ∧
    (4 + 3 ≤ 7 ∧ 7 < (onBytes [0, 0, 0, 0, 0, 8, 0x68, 1]).ilen.toNat ∧
      (onBytes [0, 0, 0, 0, 0, 8, 0x68, 1]).ibuf.read 7 ≠ 0) ∧
    (tight (opened (onBytes []) 4 [] [1, 2, 3, 4]) 16 32 4).params.pbufEntries ≤
      (tight (opened (onBytes []) 4 [] [1, 2, 3, 4]) 16 32 4).work.pulses.length := by
  refine ⟨by decide, by decide, by decide, ?_, by decide, by decide⟩
  intro k _ h
  exact absurd h (Nat.not_lt_zero k)

theorem witness_HeaderForms :
    (3 ≤ (3#16).toNat ∧ 4 + (3#16).toNat ≤ (onBytes (List.replicate 7 0)).ilen.toNat) ∧ (2#16).toNat < 3 ∧
    (onBytes (List.replicate 6 0)).ilen.toNat < 4 + (3#16).toNat ∧
    ((onBytes (List.replicate 8 0)).ilen.toNat % 2 = 0 ∧
      (onBytes (List.replicate 8 0)).ilen.toNat / 2 = 4 + 2 * ((0#16).toNat + (0#16).toNat) ∧ (1#16) ≠ 0) ∧
    (onBytes (List.replicate 9 0)).ilen.toNat % 2 = 1 ∧
    (onBytes (List.replicate 8 0)).ilen.toNat / 2 ≠ 4 + 2 * ((0#16).toNat + (1#16).toNat) := by decide

theorem witness_Pulse16Form :
    (opened (onPulses [1]) 0 [] []).work.out.length + 2 ≤ (opened (onPulses [1]) 0 [] []).params.obufBytes ∧
    (tight (opened (onPulses [1]) 0 [] []) 16 1 4).params.obufBytes <
      (tight (opened (onPulses [1]) 0 [] []) 16 1 4).work.out.length + 2 := by decide

theorem witness_QuantumForm :
    (opened (onBytes []) 0 [] []).work.out.length + 3 ≤ (opened (onBytes []) 0 [] []).params.obufBytes ∧
    (BitVec.ofNat 8 ((60#6).toNat % 4 * 64 + (0#6).toNat) : Byte) = 0 ∧
    (BitVec.ofNat 8 ((48#6).toNat % 16 * 16 + (0#6).toNat / 4) : Byte) = 0 ∧
    (BitVec.ofNat 8 ((1#6).toNat % 4 * 64 + (0#6).toNat) : Byte) ≠ 0 ∧
    (BitVec.ofNat 8 ((1#6).toNat % 16 * 16 + (0#6).toNat / 4) : Byte) ≠ 0 ∧
    (tight (opened (onBytes []) 0 [] []) 16 0 4).params.obufBytes <
      (tight (opened (onBytes []) 0 [] []) 16 0 4).work.out.length + 1 := by decide

theorem witness_ProntoDecode :
    (onBytes code1).ilen.toNat ≤ (onBytes code1).params.ibufBytes ∧
    (onBytes code1).inputBytes = formBytes (.prontoHeader 109 2 1) ++ code1.drop 8 ∧
    (code1.drop 8).length = 4 * ((2#16).toNat + (1#16).toNat) ∧ (109#16) ≠ 0 ∧
    2 * ((2#16).toNat + (1#16).toNat) ≤ (onBytes code1).params.pbufEntries := by decide +kernel

theorem witness_ProntoFaults :
    (onBytes [0]).ilen.toNat < 2 ∧ (onBytes [0, 1]).inputBytes = [0, 1] ∧ (0#8 ≠ 0 ∨ 1#8 ≠ 0) ∧
    (onBytes [0, 0, 5]).inputBytes = 0 :: 0 :: [5] ∧ [5#8].length % 2 = 1 ∧
    (onBytes (List.replicate 8 0)).inputBytes = formBytes (.prontoHeader 0 0 0) ++ [] ∧
    (onBytes (List.replicate 10 0)).inputBytes = formBytes (.prontoHeader 0 0 0) ++ [0, 0] ∧
    [0#8, 0#8].length ≠ 4 * ((0#16).toNat + (0#16).toNat) ∧
    (let s := tight (onBytes code1) 20 32 5;
      s.ilen.toNat ≤ s.params.ibufBytes ∧ s.inputBytes = formBytes (.prontoHeader 109 2 1) ++ code1.drop 8 ∧
      (code1.drop 8).length = 4 * ((2#16).toNat + (1#16).toNat) ∧ (109#16) ≠ 0 ∧
      s.params.pbufEntries < 2 * ((2#16).toNat + (1#16).toNat)) := by decide +kernel

theorem witness_BlEncode :
    (onPulses [0, 1995802]).plen.toNat ≤ (onPulses [0, 1995802]).params.pbufEntries ∧
    (∀ p ∈ (onPulses [0, 1995802]).inputPulses, refTick p ≤ 65535) ∧
    (refPayload (onPulses [0, 1995802]).inputPulses).length ≤ 65535 ∧
    (refFrame (refPayload (onPulses [0, 1995802]).inputPulses)).length ≤ (onPulses [0, 1995802]).params.obufBytes :=
  ⟨by decide +kernel, all_of (by decide +kernel), by decide +kernel, by decide +kernel⟩

theorem witness_BlEncodeRange :
    (onPulses [579, 1995803]).plen.toNat ≤ (onPulses [579, 1995803]).params.pbufEntries ∧
    ((onPulses [579, 1995803]).inputPulses = [579] ++ 1995803 :: [] ∧ (∀ p ∈ [(579 : Word)], refTick p ≤ 65535) ∧
      65535 < refTick 1995803) ∧
    (let s := tight (onPulses []) 16 11 4;
      s.plen.toNat ≤ s.params.pbufEntries ∧ s.inputPulses = [] ∧ (refPayload s.inputPulses).length ≤ 65535 ∧
      s.params.obufBytes < (refFrame (refPayload s.inputPulses)).length) :=
  ⟨by decide, ⟨by decide +kernel, all_of (by decide +kernel), by decide +kernel⟩, by decide +kernel, by decide +kernel, by decide +kernel,
    by decide +kernel⟩

theorem refPayload_replicate_length (n : Nat) (v : Word) :
    (refPayload (List.replicate n v)).length = n * (refCode (refTick v)).length := by
  simp [refPayload]

/-- A train of 65536 pulses has a payload that is too long. -/
theorem witness_BlEncodeRange_payload :
    let s := tight (onPulses (List.replicate 65536 579)) 16 32 65536
    s.plen.toNat ≤ s.params.pbufEntries ∧ (∀ p ∈ s.inputPulses, refTick p ≤ 65535) ∧
      65535 < (refPayload s.inputPulses).length := by
  have h : (tight (onPulses (List.replicate 65536 579)) 16 32 65536).inputPulses = List.replicate 65536 579 := by
    have := slice_ofList (List.replicate 65536 (579 : Word)) 2
    rw [List.length_replicate] at this
    simp only [State.inputPulses, tight, onPulses, List.length_replicate]
    exact this
  refine ⟨?_, ?_, ?_⟩
  · show (BitVec.ofNat 32 (List.replicate 65536 (579 : Word)).length).toNat ≤ 65536
    rw [List.length_replicate]
    decide
  · rw [h]
    intro p hp
    rw [List.eq_of_mem_replicate hp]
    decide
  · rw [h, refPayload_replicate_length]
    decide

theorem witness_BlDecode :
    let codes : List Instr := [.p16 0, .p8 1, .p16 2151]
    let s := onBytes ([0x26, 9, 7, 0] ++ formsBytes codes ++ [1])
    s.ilen.toNat ≤ s.params.ibufBytes ∧ s.inputBytes = formBytes (.blHeader 9 7) ++ formsBytes codes ++ [1] ∧
    (formsBytes codes).length = (7#16).toNat ∧ 3 ≤ (7#16).toNat ∧
    (∀ c ∈ codes, isPulseCode c = true ∧ codeMicros c ≤ 65535) ∧ codes.length ≤ s.params.pbufEntries := by decide +kernel

theorem witness_BlDecodeEarlyStop :
    let codes : List Instr := [.p8 19]
    let s := onBytes [0x26, 0, 5, 0, 0x13, 0, 8, 0x68, 0x13, 0]
    s.ilen.toNat ≤ s.params.ibufBytes ∧
    s.inputBytes = formBytes (.blHeader 0 5) ++ formsBytes codes ++ formBytes (.p16 2152) ++ [0x13, 0] ∧
    (formsBytes codes).length + 3 ≤ (5#16).toNat ∧ (5#16).toNat ≤ (formsBytes codes).length + 3 + [0x13#8, 0#8].length ∧
    (∀ c ∈ codes, isPulseCode c = true ∧ codeMicros c ≤ 65535) ∧ codes.length ≤ s.params.pbufEntries ∧
    2152 ≤ (2152#16).toNat := by decide +kernel

theorem witness_BlDecodeFaults :
    (onBytes []).ilen = 0 ∧ (onBytes [0x27]).inputBytes = 0x27 :: [] ∧ (0x27#8) ≠ 0x26 ∧
    ((onBytes [0x26, 0, 3]).inputBytes = 0x26 :: [0, 3] ∧ [0#8, 3#8].length < 3) ∧
    ((onBytes [0x26, 0, 2, 0, 1, 1]).inputBytes = formBytes (.blHeader 0 2) ++ [1, 1] ∧ (2#16).toNat < 3) ∧
    ((onBytes [0x26, 0, 3, 0, 1, 1]).inputBytes = formBytes (.blHeader 0 3) ++ [1, 1] ∧ [1#8, 1#8].length < (3#16).toNat) ∧
    (let codes : List Instr := [.p8 1];
      (onBytes [0x26, 0, 3, 0, 1, 0, 8]).inputBytes = formBytes (.blHeader 0 3) ++ (formsBytes codes ++ 0 :: [8]) ∧
      (formsBytes codes).length < (3#16).toNat ∧ (3#16).toNat < (formsBytes codes).length + 3 ∧
      (3#16).toNat ≤ (formsBytes codes ++ 0 :: [8]).length ∧
      (∀ c ∈ codes, isPulseCode c = true ∧ codeMicros c ≤ 65535)) ∧
    (let codes : List Instr := [.p8 1, .p8 2, .p8 3];
      let s := tight (onBytes [0x26, 0, 3, 0, 1, 2, 3]) 16 32 2;
      s.ilen.toNat ≤ s.params.ibufBytes ∧ s.inputBytes = formBytes (.blHeader 0 3) ++ (formsBytes codes ++ []) ∧
      codes.length = s.params.pbufEntries + 1 ∧ (3#16).toNat ≤ (formsBytes codes ++ []).length ∧
      (formsBytes codes).length ≤ (3#16).toNat ∧ (∀ c ∈ codes, isPulseCode c = true ∧ codeMicros c ≤ 65535)) := by
  decide +kernel

theorem witness_BroadlinkRoundTrip :
    let train : List Word := [31, 65535]
    let s := onBytes (refFrame (refPayload train))
    (∀ p ∈ train, 31 ≤ p.toNat ∧ p.toNat ≤ 65535) ∧ 3 ≤ (refPayload train).length ∧
    (refPayload train).length ≤ 65535 ∧ train.length ≤ s.params.pbufEntries ∧ s.ilen.toNat ≤ s.params.ibufBytes ∧
    s.inputBytes = refFrame (refPayload train) :=
  ⟨all_of (by decide +kernel), by decide +kernel, by decide +kernel, by decide +kernel, by decide +kernel,
    by decide +kernel⟩

theorem witness_Serialise :
    (onPulses [0, 65535]).plen.toNat ≤ (onPulses [0, 65535]).params.pbufEntries ∧
    (∀ p ∈ (onPulses [0, 65535]).inputPulses, p.toNat ≤ 65535) ∧
    2 * (onPulses [0, 65535]).plen.toNat ≤ (onPulses [0, 65535]).params.obufBytes :=
  ⟨by decide +kernel, all_of (by decide +kernel), by decide +kernel⟩

theorem witness_SerialiseRange :
    ((∀ p ∈ [(65535 : Word)], p.toNat ≤ 65535) ∧
      (tight (onPulses [65535, 65536]) 16 2 4).inputPulses = [65535] ++ 65536 :: [] ∧ 65535 < (65536 : Word).toNat ∧
      2 * [(65535 : Word)].length ≤ (tight (onPulses [65535, 65536]) 16 2 4).params.obufBytes) ∧
    ((tight (onPulses [65535, 65536]) 16 1 4).inputPulses = [65535] ++ [65536] ∧
      (tight (onPulses [65535, 65536]) 16 1 4).params.obufBytes < 2 * [(65535 : Word)].length) :=
  ⟨⟨all_of (by decide +kernel), by decide +kernel, by decide +kernel, by decide +kernel⟩, by decide +kernel,
    by decide +kernel⟩

theorem witness_Expand :
    let s := tight (onBytes [1, 0x41, 0x42, 0x40, 1]) 16 6 4
    s.ilen.toNat ≤ s.params.ibufBytes ∧ refMeaning s.inputBytes = some [0x41, 0x42, 0x41, 0x42, 0x41, 0x42] ∧
    [0x41#8, 0x42, 0x41, 0x42, 0x41, 0x42].length ≤ s.params.obufBytes := by decide +kernel

/-- Each clause in turn: a cut block, a copy from too far, a copy that does not fit (both forms), a literal block that does not fit. -/
theorem witness_ExpandInvalid :
    (refMeaning [0x00, 0x41] = some [0x41] ∧ [0x41#8].length ≤ 1) ∧
    ((onBytes [0, 0x41, 0x20]).inputBytes = [0, 0x41] ++ [0x20] ∧ decodeTuya [0x20] = .error .truncated) ∧
    ((onBytes [0, 0x41, 0x20, 1]).inputBytes = [0, 0x41] ++ [0x20, 1] ∧ decodeTuya [0x20, 1] = .ok (.copyS 1 1) ∧
      [0x41#8].length < distanceOf 1) ∧
    (let s := tight (onBytes [0, 0x41, 0x20, 0]) 16 3 4;
      s.ilen.toNat ≤ s.params.ibufBytes ∧ s.inputBytes = [0, 0x41] ++ [0x20, 0] ∧ [0x41#8].length ≤ s.params.obufBytes ∧
      decodeTuya [0x20, 0] = .ok (.copyS 1 0) ∧ distanceOf 0 ≤ [0x41#8].length ∧
      s.params.obufBytes < [0x41#8].length + shortLength 1) ∧
    ((onBytes [0, 0x41, 0xe0, 0, 1]).inputBytes = [0, 0x41] ++ [0xe0, 0, 1] ∧
      decodeTuya [0xe0, 0, 1] = .ok (.copyL 1 0) ∧ [0x41#8].length < distanceOf 1) ∧
    (let s := tight (onBytes [0, 0x41, 0xe0, 0, 0]) 16 9 4;
      s.ilen.toNat ≤ s.params.ibufBytes ∧ s.inputBytes = [0, 0x41] ++ [0xe0, 0, 0] ∧
      decodeTuya [0xe0, 0, 0] = .ok (.copyL 0 0) ∧ s.params.obufBytes < [0x41#8].length + longLength 0) ∧
    (let s := tight (onBytes [0, 0x41, 0, 0x42]) 16 1 4;
      s.ilen.toNat ≤ s.params.ibufBytes ∧ s.inputBytes = [0, 0x41] ++ [0, 0x42] ∧
      decodeTuya [0x00, 0x42] = .ok (.lit [0x42]) ∧ s.params.obufBytes < [0x41#8].length + [0x42#8].length) := by
  refine ⟨by decide +kernel, ⟨by decide +kernel, rfl⟩, ⟨by decide +kernel, rfl, by decide⟩,
    ⟨by decide, by decide +kernel, by decide, rfl, by decide, by decide⟩, ⟨by decide +kernel, rfl, by decide⟩,
    ⟨by decide, by decide +kernel, rfl, by decide⟩, ⟨by decide, by decide +kernel, rfl, by decide⟩⟩

theorem witness_PackRoundTrip :
    let s := tight (onBytes text1) 16 17 4
    s.ilen.toNat ≤ s.params.ibufBytes ∧ packBound s.ilen.toNat ≤ s.params.obufBytes := by decide +kernel

theorem witness_PackLiterals :
    let s := tight (onBytes text1) 16 17 4
    let r := tight (onBytes text1) 16 16 4
    (s.ilen.toNat ≤ s.params.ibufBytes ∧ packBound s.ilen.toNat ≤ s.params.obufBytes) ∧
    (r.ilen.toNat ≤ r.params.ibufBytes ∧ r.params.obufBytes < packBound r.ilen.toNat) := by decide +kernel

theorem witness_MatchLength : (0 < 1 ∧ 1 < text1.length) ∧ (3 ≤ 264 ∧ 3 ≤ text1.length - 1) ∧
    ∀ k, k < 3 → text1[1 + k]? = text1[0 + k]? := by decide

theorem witness_SuffixArray : 0 < text1.length ∧ 15 < text1.length ∧ 8 ≤ 15 := by decide

theorem witness_BestMatchLongest : 1 ≤ 1 ∧ 15 < text1.length := by decide

/-- The path of the worked example of 43_tuya_levels.md R173, another way to its second node, and a room that is too small. -/
theorem witness_ShortestPath :
    let s := tight (onBytes text1) 16 10 4
    let path : List PathEdge := [⟨0, 5, 0⟩, ⟨5, 3, 1⟩, ⟨8, 8, 8⟩]
    s.ilen.toNat ≤ s.params.ibufBytes ∧ graphPath s.inputBytes 16 0 path = true ∧
    graphPath s.inputBytes 16 0 [⟨0, 16, 0⟩] = true ∧
    graphPath s.inputBytes (0 + 5) 0 ([⟨0, 1, 0⟩, ⟨1, 3, 1⟩] ++ [⟨4, 1, 0⟩]) = true ∧
    (pathStream s.inputBytes [] path).length ≤ s.params.obufBytes ∧
    (tight (onBytes text1) 16 9 4).params.obufBytes < (pathStream s.inputBytes [] path).length := by decide +kernel

/-- The streams of the worked examples of 43_tuya_levels.md R154 and R162, in rooms that hold them and that do not; and the best
match of R160's example. -/
theorem witness_GreedyParse :
    (tight (onBytes text1) 16 12 4).ilen.toNat ≤ (tight (onBytes text1) 16 12 4).params.ibufBytes ∧
    (onBytes text1).inputBytes = text1 ∧
    pathStream text1 [] (greedyPath (firstMatch text1) 16 16 0) = [0, 0x41, 0x20, 0, 0, 0x42, 0x20, 0, 0x20, 6, 0x60, 7] ∧
    pathStream text1 [] (greedyPath (bestFrom text1) 16 16 0) = [0, 0x41, 0x20, 0, 0, 0x42, 0x20, 0, 0xc0, 7] ∧
    bestFrom [0x41, 0x41, 0x41, 0x41, 0x42, 0x41, 0x41, 0x41] 5 = some (3, 5) := by decide +kernel

theorem witness_MonotoneCompactness :
    ∃ t t3, Config.paramsOk (onBytes [7]).params = true ∧ exec (.tuyaPack 1) (onBytes [7]) = .next t ∧
      t.status = .done ∧ exec (.tuyaPack 3) (onBytes [7]) = .next t3 :=
  ⟨after (.tuyaPack 1) (onBytes [7]), after (.tuyaPack 3) (onBytes [7]), by decide, rfl, by decide +kernel, rfl⟩

theorem witness_EmissionInvariant : isCommand (.tuyaPack 2) = true ∧
    exec (.tuyaPack 2) (onBytes [7]) = .next (after (.tuyaPack 2) (onBytes [7])) := ⟨rfl, rfl⟩

theorem witness_Base64Encode :
    let s := tight (onBytes [7]) 16 4 4
    let r := tight (onBytes [7]) 16 3 4
    (s.ilen.toNat ≤ s.params.ibufBytes ∧ 4 * ((s.ilen.toNat + 2) / 3) ≤ s.params.obufBytes) ∧
    (r.ilen.toNat ≤ r.params.ibufBytes ∧ r.params.obufBytes < 4 * ((r.ilen.toNat + 2) / 3)) ∧ (0x3D#8) ∉ refAlphabet := by decide

theorem witness_Base64Inverse :
    let s := onBytes [0x51, 0x51, 0x3d, 0x3d]
    s.ilen.toNat ≤ s.params.ibufBytes ∧ s.inputBytes = assembleB64 [0x41] ∧ [0x41#8].length ≤ s.params.obufBytes ∧
    (after (.b64Dec 0) s).status = .done := by decide +kernel

/-- Each clause in turn, the characters of 44_base64.md R187 among them: "QUJ", then after "QUJD" the quanta "=Q==", "Q===", "QQ-Q",
"QQ=A", "QQQ-", "QQ==QUJD", "QUK=" and "QR==", then a text that does not fit. -/
theorem witness_Base64Faults :
    let front : List Byte := [0x51, 0x55, 0x4a, 0x44]
    let known : Byte → Prop := fun c => c ∈ refAlphabet
    (onBytes [0x51, 0x55, 0x4a]).ilen.toNat % 4 ≠ 0 ∧
    ((onBytes (front ++ [0x3d, 0x51, 0x3d, 0x3d])).ilen.toNat % 4 = 0 ∧
      (onBytes (front ++ [0x3d, 0x51, 0x3d, 0x3d])).inputBytes =
        refText [0x41, 0x42, 0x43] ++ 0x3d :: 0x51 :: 0x3d :: 0x3d :: [] ∧
      [0x41#8, 0x42, 0x43].length % 3 = 0 ∧ (0x3D#8) ∉ refAlphabet) ∧
    (known 0x51 ∧ (0x2D#8) ∉ refAlphabet ∧ (0x2D#8) ≠ 0x3D) ∧
    ((0x41#8) ≠ 0x3D ∧ (0x3D#8) ∉ refAlphabet ∧ [0x51#8, 0x55, 0x4a, 0x44] ≠ []) ∧
    (known 0x55 ∧ known 0x4b ∧ refAlphabet.idxOf 0x4b % 4 ≠ 0) ∧ (known 0x52 ∧ refAlphabet.idxOf 0x52 % 16 ≠ 0) ∧
    (let s := tight (onBytes front) 16 2 4;
      s.ilen.toNat % 4 = 0 ∧ s.inputBytes = refText [0x41, 0x42, 0x43] ++ [] ∧
      s.params.obufBytes < [0x41#8, 0x42, 0x43].length) := by
  refine ⟨by decide, by decide +kernel, by decide, by decide, by decide, by decide, by decide +kernel⟩

/-- Room for every stage; a stream of 17 bytes that is longer than IBUF; one whose text does not fit; a TUYA_PACK that faults. -/
theorem witness_TuyaText :
    (let s := tight (onBytes text1) 17 24 4
     s.ilen.toNat ≤ s.params.ibufBytes ∧ packBound s.ilen.toNat ≤ s.params.ibufBytes ∧
      4 * ((packBound s.ilen.toNat + 2) / 3) ≤ s.params.obufBytes) ∧
    (let s := tight (onBytes text1) 16 24 4
     exec (.tuyaPack 0) s = .next (doneWithBytes s (0x0f :: text1) s.ilen 0) ∧ s.params.ibufBytes < (0x0f :: text1).length) ∧
    (let s := tight (onBytes text1) 17 23 4
     exec (.tuyaPack 0) s = .next (doneWithBytes s (0x0f :: text1) s.ilen 0) ∧
      s.params.obufBytes < 4 * (((0x0f :: text1).length + 2) / 3)) ∧
    (let s := tight (onBytes text1) 17 16 4
     exec (.tuyaPack 0) s = .next (after (.tuyaPack 0) s) ∧ (after (.tuyaPack 0) s).status = .fault) := by
  refine ⟨by decide, ⟨?_, by decide⟩, ⟨?_, by decide⟩, ⟨rfl, by decide +kernel⟩⟩
  · exact congrArg Host.Outcome.next (by decide +kernel : after (.tuyaPack 0) (tight (onBytes text1) 16 24 4) = _)
  · exact congrArg Host.Outcome.next (by decide +kernel : after (.tuyaPack 0) (tight (onBytes text1) 17 23 4) = _)

theorem witness_ProntoToBroadlink :
    let train := (burstWords (code1.drop 8)).map (refPulse 109)
    (∀ p ∈ train, refTick p ≤ 65535) ∧ (refPayload train).length ≤ 65535 ∧
    (refFrame (refPayload train)).length ≤ (onBytes code1).params.obufBytes :=
  ⟨all_of (by decide +kernel), by decide +kernel, by decide +kernel⟩

/-- A code of one pair whose second pulse has no tick: `0xFFFF * 127` carrier units (40_pronto.md R105). -/
theorem witness_ProntoToBroadlink_range :
    let code : List Byte := [0, 0, 0, 0x7f, 0, 1, 0, 0, 0, 1, 0xff, 0xff]
    (onBytes code).inputBytes = formBytes (.prontoHeader 127 1 0) ++ [0, 1, 0xff, 0xff] ∧
    (burstWords [0, 1, 0xff, 0xff]).map (refPulse 127) = [31] ++ 2007877 :: [] ∧
    (∀ p ∈ [(31 : Word)], refTick p ≤ 65535) ∧ 65535 < refTick 2007877 :=
  ⟨by decide +kernel, by decide +kernel, all_of (by decide +kernel), by decide +kernel⟩

theorem onBytes_inputBytes (bs : List Byte) (h : bs.length < 2 ^ 32) : (onBytes bs).inputBytes = bs := by
  have hl : (BitVec.ofNat 32 bs.length).toNat = bs.length := by simpa using Nat.mod_eq_of_lt h
  show Memory.slice (Memory.ofList bs 0) 0 (BitVec.ofNat 32 bs.length).toNat = bs
  rw [hl]
  exact slice_ofList bs 0

theorem burstWords_replicate (n : Nat) : burstWords (List.replicate n [0#8, 1#8]).flatten = List.replicate n 1 := by
  induction n with
  | zero => rfl
  | succ n ih => rw [List.replicate_succ, List.flatten_cons, List.replicate_succ, ← ih]; rfl

/-- A code of 21846 burst words, each of a tick that takes three bytes, has a payload that is too long. -/
theorem witness_ProntoToBroadlink_payload :
    let rest : List Byte := (List.replicate 21846 [0#8, 1#8]).flatten
    let s := onBytes (formBytes (.prontoHeader 32400 10923 0) ++ rest)
    let train : List Word := List.replicate 21846 7816
    s.inputBytes = formBytes (.prontoHeader 32400 10923 0) ++ rest ∧
    rest.length = 4 * ((10923#16).toNat + (0#16).toNat) ∧ (32400#16) ≠ 0 ∧
    2 * ((10923#16).toNat + (0#16).toNat) ≤ s.params.pbufEntries ∧ train = (burstWords rest).map (refPulse 32400) ∧
    (∀ p ∈ train, refTick p ≤ 65535) ∧ 65535 < (refPayload train).length := by
  have hl : (List.replicate 21846 [0#8, 1#8]).flatten.length = 43692 := by
    rw [List.length_flatten, List.map_replicate, List.sum_replicate]; rfl
  refine ⟨onBytes_inputBytes _ ?_, hl, by decide, by decide, ?_, ?_, ?_⟩
  · rw [List.length_append, hl]; decide
  · rw [burstWords_replicate, List.map_replicate]
    exact congrArg (List.replicate 21846) (by decide : (7816 : Word) = refPulse 32400 1)
  · intro p hp
    rw [List.eq_of_mem_replicate hp]
    decide
  · rw [refPayload_replicate_length]
    decide

/-- A frame that does not fit, and a first stage that faults with a position and one that faults without (vector H9 among them). -/
theorem witness_ProntoToBroadlink_faults :
    (let s := tight (onBytes code1) 20 27 6
     s.params.obufBytes < (refFrame (refPayload ((burstWords (code1.drop 8)).map (refPulse 109)))).length) ∧
    (let s := onBytes [0, 1, 0, 0]
     exec (.prontoDec 0) s = .next (after (.prontoDec 0) s) ∧ (after (.prontoDec 0) s).status = .fault ∧
      (after (.prontoDec 0) s).err ≠ 0x0307) ∧
    (let s := tight (onBytes code1) 20 32 5
     exec (.prontoDec 0) s = .next (after (.prontoDec 0) s) ∧ (after (.prontoDec 0) s).status = .fault ∧
      (after (.prontoDec 0) s).err = 0x0307) :=
  ⟨by decide +kernel, ⟨rfl, by decide +kernel⟩, ⟨rfl, by decide +kernel⟩⟩

theorem witness_BroadlinkToTuya :
    let codes : List Instr := [.p8 19, .p8 19, .p8 19]
    let s := tight (onBytes [0x26, 0, 3, 0, 0x13, 0x13, 0x13]) 16 32 4
    s.ilen.toNat ≤ s.params.ibufBytes ∧ s.inputBytes = formBytes (.blHeader 0 3) ++ formsBytes codes ++ [] ∧
    (formsBytes codes).length = (3#16).toNat ∧ (∀ c ∈ codes, isPulseCode c = true ∧ codeMicros c ≤ 65535) ∧
    codes.length ≤ s.params.pbufEntries ∧ packBound (2 * codes.length) ≤ s.params.ibufBytes ∧
    4 * ((packBound (2 * codes.length) + 2) / 3) ≤ s.params.obufBytes := by decide +kernel

/-- A packet that stops early with a warning; its train of one pulse, in rooms that hold the text and that do not; a first stage
that faults with a position and one that faults without. -/
theorem witness_BroadlinkToTuya_stages :
    let bs : List Byte := [0x26, 0, 5, 0, 0x13, 0, 8, 0xfa, 0x13, 0x0d, 5, 0]
    (let s := tight (onBytes bs) 12 4 4
     exec (.blDec 0) s = .next (doneWithPulses s [579] 8 1) ∧ packBound (2 * [(579 : Word)].length) ≤ s.params.ibufBytes ∧
      4 * ((packBound (2 * [(579 : Word)].length) + 2) / 3) ≤ s.params.obufBytes ∧
      (let r := tight (onBytes [0x43, 2]) 12 4 4
       r.params = s.params ∧ r.inputBytes = refSerial [579] ∧
        exec (.tuyaPack 0) r = .next (doneWithBytes r [1, 0x43, 2] r.ilen 0))) ∧
    (let s := tight (onBytes bs) 12 3 4
     exec (.blDec 0) s = .next (doneWithPulses s [579] 8 1) ∧ s.params.obufBytes < 4 * ((([1, 0x43, 2] : List Byte).length + 2) / 3)) ∧
    (let s := tight (onBytes bs) 12 1 4
     exec (.blDec 0) s = .next (doneWithPulses s [579] 8 1) ∧ s.params.obufBytes < 2 * [(579 : Word)].length) ∧
    (let r := tight (onBytes [0x43, 2]) 12 2 4
     r.inputBytes = refSerial [579] ∧ exec (.tuyaPack 0) r = .next (after (.tuyaPack 0) r) ∧
      (after (.tuyaPack 0) r).status = .fault) ∧
    (let s := onBytes [0xb2, 0, 3, 0]
     exec (.blDec 0) s = .next (after (.blDec 0) s) ∧ (after (.blDec 0) s).status = .fault ∧ (after (.blDec 0) s).err ≠ 0x0307) ∧
    (let s := tight (onBytes bs) 12 32 0
     exec (.blDec 0) s = .next (after (.blDec 0) s) ∧ (after (.blDec 0) s).status = .fault ∧ (after (.blDec 0) s).err = 0x0307) := by
  refine ⟨⟨?_, by decide, by decide, rfl, by decide +kernel, ?_⟩, ⟨?_, by decide⟩, ⟨?_, by decide⟩,
    ⟨by decide +kernel, rfl, by decide +kernel⟩, ⟨rfl, by decide +kernel⟩, ⟨rfl, by decide +kernel⟩⟩
  · exact congrArg Host.Outcome.next (by decide +kernel : after (.blDec 0) _ = _)
  · exact congrArg Host.Outcome.next (by decide +kernel : after (.tuyaPack 0) _ = _)
  · exact congrArg Host.Outcome.next (by decide +kernel : after (.blDec 0) _ = _)
  · exact congrArg Host.Outcome.next (by decide +kernel : after (.blDec 0) _ = _)

theorem witness_InputCapacity : isCommand (.blEnc 0) = true ∧ readsPulses (.blEnc 0) = true ∧
    (tight (onPulses [1, 2]) 16 32 1).params.pbufEntries < (tight (onPulses [1, 2]) 16 32 1).plen.toNat ∧
    readsPulses (.b64Enc 0) = false ∧
    (tight (onBytes [1, 2]) 1 32 1).params.ibufBytes < (tight (onBytes [1, 2]) 1 32 1).ilen.toNat := by decide

theorem witness_FaultEffects : isCommand (.b64Dec 0) = true ∧
    exec (.b64Dec 0) (onBytes [0]) = .next (after (.b64Dec 0) (onBytes [0])) ∧
    (after (.b64Dec 0) (onBytes [0])).status = .fault := ⟨rfl, rfl, by decide +kernel⟩

theorem witness_OperationEnds : isCommand (.bl2Tuya 3) = true := rfl

theorem witness_Purity :
    let s := onBytes [0x41]
    let r : State := { s with err := 0x0306, pos := 9, status := .fault, olen := 4 }
    s.params = r.params ∧ s.ilen = r.ilen ∧ s.plen = r.plen ∧ s.inputBytes = r.inputBytes ∧
    s.inputPulses = r.inputPulses ∧ exec (.b64Enc 0) s = .next (after (.b64Enc 0) s) ∧
    exec (.b64Enc 0) r = .next (after (.b64Enc 0) r) ∧ (after (.b64Enc 0) s).err ≠ 0x0307 ∧
    (after (.b64Enc 0) s).err ≠ 0x0205 := by
  refine ⟨rfl, rfl, rfl, rfl, rfl, rfl, rfl, by decide +kernel, by decide +kernel⟩

theorem witness_LevelIgnored : (0x307#32) >>> 10 = 0 ∧ (0x007#32) >>> 10 = 0 ∧
    (0x307#32).toNat % 256 = (0x007#32).toNat % 256 ∧ (0x307#32).toNat % 256 ∈ [1, 2, 3, 4, 6, 7, 8, 10] ∧
    (1 ≤ (0x001#32).toNat % 256 ∧ (0x30B#32).toNat % 256 ≤ 11 ∧ (0x30B#32) >>> 10 = 0) := by decide

/-- Each clause: a started operation; an opened one at a block, a header, a pulse code, a Pronto header, a quantum and a pulse; and
IDLE. -/
theorem witness_StepRunsDecoded :
    ((onBytes []).status = .busy ∧ (onBytes []).work.opened = false ∧ (onBytes []).sched = []) ∧
    (let s : State := { opened (onBytes [0xff, 0x20, 0]) 1 [1] [] with cmd := 6 };
      s.work.opened = true ∧ decodeCommand s.cmd = .tuyaExpand 0 ∧ s.inputBytes.drop s.work.pos = [0x20, 0] ∧
      decodeForm .tuyaBlock [0x20, 0] = .ok (.copyS 1 0)) ∧
    (let s : State := { opened (onBytes [0x26, 0, 3, 0]) 0 [] [] with cmd := 3 };
      decodeCommand s.cmd = .blDec 0 ∧ s.work.pos = 0 ∧ s.inputBytes = [0x26, 0, 3, 0] ∧
      decodeForm .blFrame [0x26, 0, 3, 0] = .ok (.blHeader 0 3)) ∧
    (let s : State := { onBytes [0x26, 0, 3, 0, 5, 6, 7] with cmd := 3, work := { Work.start with pos := 6, payloadEnd := 7 } };
      decodeCommand s.cmd = .blDec 0 ∧ s.work.pos ≠ 0 ∧ s.work.pos < s.work.payloadEnd ∧
      between s.work.pos s.work.payloadEnd s.inputBytes = [7] ∧ decodeForm .blPulse [7] = .ok (.p8 7)) ∧
    (let s : State := { opened (onBytes (List.replicate 8 0)) 0 [] [] with cmd := 1 };
      decodeCommand s.cmd = .prontoDec 0 ∧ s.inputBytes = List.replicate 8 0 ∧
      decodeForm .pronto (List.replicate 8 0) = .ok (.prontoHeader 0 0 0)) ∧
    (let s : State := { opened (onBytes [0x51, 0x51, 0x3d, 0x3d]) 0 [] [] with cmd := 8 };
      decodeCommand s.cmd = .b64Dec 0 ∧ s.inputBytes.length % 4 = 0 ∧ s.inputBytes = [0x51, 0x51, 0x3d, 0x3d] ∧
      decodeForm .base64 [0x51, 0x51, 0x3d, 0x3d] = .ok (.b64Quantum 16 16 0 0 2)) ∧
    (let s : State := { opened (onPulses [65535]) 0 [] [] with cmd := 4 };
      decodeCommand s.cmd = .ser16 0 ∧ s.inputPulses[s.work.pos]? = some 65535 ∧ (65535 : Word).toNat ≤ 65535) ∧
    (State.reset.status ≠ .busy ∧ State.reset.sched = []) := by
  refine ⟨by decide, ⟨rfl, by decide, by decide +kernel, rfl⟩, ⟨by decide, rfl, by decide +kernel, rfl⟩,
    ⟨by decide, by decide, by decide, by decide +kernel, rfl⟩, ⟨by decide, by decide +kernel, rfl⟩,
    ⟨by decide, by decide, by decide +kernel, rfl⟩, ⟨by decide, by decide +kernel, by decide⟩, by decide⟩

theorem witness_InvariantKept : State.reset.inv = true ∧ step State.reset = .next State.reset := ⟨by decide, rfl⟩

theorem witness_TurnByTurn :
    (onBytes [0x41]).status = .busy ∧ (onBytes [0x41]).work.opened = false ∧ (onBytes [0x41]).sched = [] := by decide

theorem witness_BusyAccess :
    let s := tight (onBytes [1]) 16 32 4
    let r : State := { s with err := 0x0306, olen := 7, obuf := Memory.ofList [9] 1, work := Work.start }
    s.status = .busy ∧ 0 ∈ [0, 1, 2, 3, 6] ∧ 9 ∈ [4, 5, 7, 8, 9] ∧ 15 < s.capacityOf .ibuf ∧ 3 < s.params.pbufEntries ∧
    s.capacityOf .obuf ≤ 32 ∧ s.params.pbufEntries ≤ 4 ∧
    (r.status = .busy ∧ r.params = s.params ∧ r.ctrl = s.ctrl ∧ r.cmd = s.cmd ∧ r.ilen = s.ilen ∧ r.draws = s.draws ∧
      r.rdata = s.rdata) := by decide

theorem witness_StartAndAcknowledge :
    State.reset.status ≠ .busy ∧ (2 : Word).getLsbD 1 = true ∧
    ({ State.reset with status := .fault } : State).status = .fault ∧ (1 : Word).getLsbD 1 = false := by decide

theorem witness_RegisterMap : State.reset.status ≠ .busy ∧ (9 : Nat) ∉ [1, 2, 6, 8] ∧
    (15 : Nat) ∉ [4, 5, 7, 8, 9] := by decide

theorem witness_BufferTransactions :
    let s := tight State.reset 16 32 4
    s.status ≠ .busy ∧ 15 < s.params.ibufBytes ∧ 31 < s.params.obufBytes ∧ 3 < s.params.pbufEntries ∧
    s.capacityOf .ibuf ≤ 16 ∧ s.capacityOf .obuf ≤ 32 ∧ s.params.pbufEntries ≤ 4 := by decide

end Sys2Proof.Tests
end

section
/-! SUPPORT. What every turn of every operation keeps: the working state within the capacities, and a fault whose recorded
position is a draw only where the spec leaves it one (00_scope.md R13; 60_exceptions.md R221, R222). -/

namespace Sys2Proof.Machine

open Sys2Proof

/-! ### Sound turns -/

/-- The fault codes whose recorded position is a draw (60_exceptions.md R222). -/
def ErrCode.recordsDraw (c : ErrCode) : Prop := c = .capacityExceeded ∨ c = .encodingInvariantViolation

/-- The bytes emitted and the pulses pushed fit their buffers. -/
def Work.within (p : Params) (w : Work) : Prop := w.out.length ≤ p.obufBytes ∧ w.pulses.length ≤ p.pbufEntries

/-- A turn's working state fits the buffers, and its fault has a stated position unless its code is one of those that record a
draw. -/
def Turn.sound (p : Params) : Turn → Prop
  | .more w => w.within p
  | .done w => w.within p
  | .raise c q _ => q = none → c.recordsDraw

/-- From a working state that fits the buffers, the turn is sound. -/
def SoundTurn (p : Params) (f : Work → Turn) : Prop := ∀ w, w.within p → (f w).sound p

theorem start_within (p : Params) : Work.start.within p := ⟨Nat.zero_le _, Nat.zero_le _⟩

theorem sound_raise_some {p : Params} {c : ErrCode} {k : Nat} {ws : Warn} : (Turn.raise c (some k) ws).sound p :=
  fun h => nomatch h

theorem capacityExceeded_recordsDraw : ErrCode.capacityExceeded.recordsDraw := .inl rfl

theorem encodingInvariantViolation_recordsDraw : ErrCode.encodingInvariantViolation.recordsDraw := .inr rfl

/-! ### Emissions -/

/-- An emission's result fits the output, and its fault is one that records a draw. -/
def Fits {α : Type} (cap : Nat) : Except ErrCode (List α) → Prop
  | .ok r => r.length ≤ cap
  | .error c => c.recordsDraw

theorem Fits.length_le {α : Type} {cap : Nat} {e : Except ErrCode (List α)} {r : List α} (h : Fits cap e) (he : e = .ok r) :
    r.length ≤ cap := by
  subst he; exact h

theorem Fits.recordsDraw {α : Type} {cap : Nat} {e : Except ErrCode (List α)} {c : ErrCode} (h : Fits cap e)
    (he : e = .error c) : c.recordsDraw := by
  subst he; exact h

theorem emit_fits (cap : Nat) (bs out : List Byte) : Fits cap (emit cap bs out) := by
  cases h : emit cap bs out with
  | ok r =>
    obtain ⟨hle, rfl⟩ := (emit_eq_ok_iff cap bs out r).1 h
    simpa [Fits] using hle
  | error c =>
    obtain ⟨-, rfl⟩ := (emit_eq_error_iff cap bs out c).1 h
    exact capacityExceeded_recordsDraw

theorem push_fits (cap : Nat) (v : Word) (ps : List Word) : Fits cap (push cap v ps) := by
  cases h : push cap v ps with
  | ok r =>
    obtain ⟨hlt, rfl⟩ := (push_eq_ok_iff cap v ps r).1 h
    simpa [Fits] using hlt
  | error c =>
    obtain ⟨-, rfl⟩ := (push_eq_error_iff cap v ps c).1 h
    exact capacityExceeded_recordsDraw

theorem emitLiteralBlock_fits (cap : Nat) (bs out : List Byte) : Fits cap (emitLiteralBlock cap bs out) := by
  unfold emitLiteralBlock
  split
  · exact encodingInvariantViolation_recordsDraw
  · exact emit_fits _ _ _

theorem emitDistanceBlock_fits (cap length distance : Nat) (out : List Byte) :
    Fits cap (emitDistanceBlock cap length distance out) := by
  unfold emitDistanceBlock
  split
  · exact encodingInvariantViolation_recordsDraw
  · split
    · exact encodingInvariantViolation_recordsDraw
    · exact emit_fits _ _ _

theorem emitChunks_fits (cap k : Nat) (bs out : List Byte) (h : out.length ≤ cap) : Fits cap (emitChunks cap k bs out) := by
  induction k generalizing bs out with
  | zero => exact h
  | succ k ih =>
    cases bs with
    | nil => exact h
    | cons b bs =>
      have hblock := emitLiteralBlock_fits cap ((b :: bs).take litMax) out
      simp only [emitChunks]
      split
      · exact hblock.recordsDraw ‹_›
      · exact ih _ _ (hblock.length_le ‹_›)

theorem emitLiteralRun_fits (cap : Nat) (bs out : List Byte) (h : out.length ≤ cap) : Fits cap (emitLiteralRun cap bs out) :=
  emitChunks_fits cap bs.length bs out h

theorem emitMatch_fits (cap : Nat) (run : List Byte) (l d : Nat) (out : List Byte) (h : out.length ≤ cap) :
    Fits cap (emitMatch cap run l d out) := by
  unfold emitMatch
  split
  · exact (emitLiteralRun_fits cap run out h).recordsDraw ‹_›
  · exact emitDistanceBlock_fits _ _ _ _

theorem flushRun_fits (cap : Nat) (data : List Byte) (run : Option (Nat × Nat)) (out : List Byte) (h : out.length ≤ cap) :
    Fits cap (flushRun cap data run out) := by
  unfold flushRun
  split
  · exact h
  · exact emitLiteralRun_fits _ _ _ h

theorem emitPath_fits (cap : Nat) (data : List Byte) (es : List PathEdge) (run : Option (Nat × Nat)) (out : List Byte)
    (h : out.length ≤ cap) : Fits cap (emitPath cap data es run out) := by
  induction es generalizing run out with
  | nil => exact flushRun_fits cap data run out h
  | cons e es ih =>
    have hflush := flushRun_fits cap data run out h
    simp only [emitPath]
    split
    · split <;> exact ih _ _ h
    · split
      · exact hflush.recordsDraw ‹_›
      · rename_i out' _
        have hblock := emitDistanceBlock_fits cap e.len e.dist out'
        split
        · exact hblock.recordsDraw ‹_›
        · exact ih _ _ (hblock.length_le ‹_›)

/-! ### The turns of the operations -/

theorem emitting_sound {p : Params} {w : Work} (hw : w.within p) (q : Nat) {r : Except ErrCode (List Byte)}
    (hr : Fits p.obufBytes r) : (w.emitting q r).sound p := by
  cases r with
  | ok out => exact ⟨hr, hw.2⟩
  | error c => exact fun _ => hr

theorem pushing_sound {p : Params} {w : Work} (hw : w.within p) (q : Nat) {r : Except ErrCode (List Word)}
    (hr : Fits p.pbufEntries r) : (w.pushing q r).sound p := by
  cases r with
  | ok ps => exact ⟨hw.1, hr⟩
  | error c => exact fun _ => hr

theorem fetchPronto_plain_sound {p : Params} {data : List Byte} {w : Work} {t : Turn} (hw : w.within p)
    (h : fetchPronto p data w = .plain t) : t.sound p := by
  unfold fetchPronto at h
  split at h
  · split at h <;> cases h <;> exact sound_raise_some
  · split at h <;> cases h
    · exact pushing_sound hw _ (push_fits _ _ _)
    · exact hw

theorem prontoTurn_sound (p : Params) (data : List Byte) : SoundTurn p (prontoTurn p data) := by
  intro w hw
  unfold prontoTurn
  split
  · unfold prontoHeaderTurn
    split
    · exact sound_raise_some
    · split
      · exact sound_raise_some
      · exact hw
  · exact sound_raise_some
  · exact fetchPronto_plain_sound hw ‹_›

theorem blEncTurn_sound (p : Params) (pulses : List Word) : SoundTurn p (blEncTurn p pulses) := by
  intro w hw
  have hframe := emit_fits p.obufBytes (blFrame (blPayload pulses)) w.out
  unfold blEncTurn
  split
  · exact fun _ => capacityExceeded_recordsDraw
  · split
    · exact sound_raise_some
    · split
      · exact sound_raise_some
      · split
        · exact fun _ => hframe.recordsDraw ‹_›
        · exact ⟨hframe.length_le ‹_›, hw.2⟩

theorem fetchBl_plain_sound {p : Params} {data : List Byte} {w : Work} {t : Turn} (hw : w.within p)
    (h : fetchBl data w = .plain t) : t.sound p := by
  unfold fetchBl at h
  split at h
  · split at h <;> cases h <;> exact sound_raise_some
  · split at h
    · cases h; exact hw
    · split at h <;> cases h; exact sound_raise_some

theorem blCodeTurn_sound {p : Params} {w : Work} (hw : w.within p) (leftover : List Byte) (size v : Nat) :
    (blCodeTurn p leftover size v w).sound p := by
  unfold blCodeTurn
  split
  · exact hw
  · exact pushing_sound hw _ (push_fits _ _ _)

theorem blDecTurn_sound (p : Params) (data : List Byte) : SoundTurn p (blDecTurn p data) := by
  intro w hw
  unfold blDecTurn
  split
  · unfold blHeaderTurn
    split
    · exact sound_raise_some
    · split
      · exact sound_raise_some
      · exact hw
  · exact blCodeTurn_sound hw _ _ _
  · exact blCodeTurn_sound hw _ _ _
  · exact sound_raise_some
  · exact fetchBl_plain_sound hw ‹_›

theorem fetchSer_plain_sound {p : Params} {pulses : List Word} {w : Work} {t : Turn} (hw : w.within p)
    (h : fetchSer pulses w = .plain t) : t.sound p := by
  unfold fetchSer at h
  split at h
  · cases h; exact hw
  · split at h <;> cases h; exact sound_raise_some

theorem serTurn_sound (p : Params) (pulses : List Word) : SoundTurn p (serTurn p pulses) := by
  intro w hw
  unfold serTurn
  split
  · exact emitting_sound hw _ (emit_fits _ _ _)
  · exact sound_raise_some
  · exact fetchSer_plain_sound hw ‹_›

theorem fetchTuya_plain_sound {p : Params} {data : List Byte} {w : Work} {t : Turn} (hw : w.within p)
    (h : fetchTuya data w = .plain t) : t.sound p := by
  unfold fetchTuya at h
  split at h
  · cases h; exact hw
  · split at h <;> cases h; exact sound_raise_some

theorem copyTurn_sound {p : Params} {w : Work} (hw : w.within p) (size length distance : Nat) :
    (copyTurn p size length distance w).sound p := by
  unfold copyTurn
  split
  · exact sound_raise_some
  · split
    · exact fun _ => capacityExceeded_recordsDraw
    · exact ⟨by simp only [copyBytes_length]; omega, hw.2⟩

theorem expandTurn_sound (p : Params) (data : List Byte) : SoundTurn p (expandTurn p data) := by
  intro w hw
  unfold expandTurn
  split
  · exact emitting_sound hw _ (emit_fits _ _ _)
  · exact copyTurn_sound hw _ _ _
  · exact copyTurn_sound hw _ _ _
  · exact sound_raise_some
  · exact fetchTuya_plain_sound hw ‹_›

theorem literalTurn_sound (p : Params) (data : List Byte) : SoundTurn p (literalTurn p data) := by
  intro w hw
  have hrun := emitLiteralRun_fits p.obufBytes data w.out hw.1
  unfold literalTurn
  split
  · exact fun _ => hrun.recordsDraw ‹_›
  · exact ⟨hrun.length_le ‹_›, hw.2⟩

theorem optimalTurn_sound (p : Params) (data : List Byte) : SoundTurn p (optimalTurn p data) := by
  intro w hw
  have hpath := emitPath_fits p.obufBytes data (walkBack w.pred data.length data.length []) none w.out hw.1
  unfold optimalTurn
  split
  · split
    · exact fun _ => hpath.recordsDraw ‹_›
    · exact ⟨hpath.length_le ‹_›, hw.2⟩
  · exact hw

theorem greedyTurn_sound (p : Params) (level : BitVec 2) (data : List Byte) : SoundTurn p (greedyTurn p level data) := by
  intro w hw
  have hrun := emitLiteralRun_fits p.obufBytes (between w.runStart w.pos data) w.out hw.1
  unfold greedyTurn
  split
  · split
    · exact fun _ => hrun.recordsDraw ‹_›
    · exact ⟨hrun.length_le ‹_›, hw.2⟩
  · dsimp only
    split
    · exact hw
    · rename_i l d _
      have hmatch := emitMatch_fits p.obufBytes (between w.runStart w.pos data) l d w.out hw.1
      split
      · split
        · exact fun _ => hmatch.recordsDraw ‹_›
        · exact ⟨hmatch.length_le ‹_›, hw.2⟩
      · exact hw

theorem packTurn_sound (p : Params) (level : BitVec 2) (data : List Byte) : SoundTurn p (packTurn p level data) := by
  intro w hw
  unfold packTurn
  split
  · exact literalTurn_sound p data w hw
  · split
    · exact optimalTurn_sound p data w hw
    · exact greedyTurn_sound p level data w hw

theorem b64EncTurn_sound (p : Params) (data : List Byte) : SoundTurn p (b64EncTurn p data) := by
  intro w hw
  unfold b64EncTurn
  split
  · exact hw
  all_goals exact emitting_sound hw _ (emit_fits _ _ _)

theorem fetchB64_plain_sound {p : Params} {data : List Byte} {w : Work} {t : Turn} (hw : w.within p)
    (h : fetchB64 data w = .plain t) : t.sound p := by
  unfold fetchB64 at h
  split at h
  · cases h; exact sound_raise_some
  · split at h
    · cases h; exact hw
    · split at h <;> cases h <;> exact sound_raise_some

theorem quantumTurn_sound {p : Params} {w : Work} (hw : w.within p) (a b c d : BitVec 6) (npad : Nat) :
    (quantumTurn p a b c d npad w).sound p := by
  unfold quantumTurn
  dsimp only
  split
  · exact sound_raise_some
  · split
    · exact sound_raise_some
    · exact emitting_sound hw _ (emit_fits _ _ _)

theorem b64DecTurn_sound (p : Params) (data : List Byte) : SoundTurn p (b64DecTurn p data) := by
  intro w hw
  unfold b64DecTurn
  split
  · exact quantumTurn_sound hw _ _ _ _ _
  · exact sound_raise_some
  · exact fetchB64_plain_sound hw ‹_›

/-! ### Runs and stages -/

theorem runTurns_sound {p : Params} {f : Work → Turn} (hf : SoundTurn p f) (k : Nat) {w : Work} (hw : w.within p) :
    (runTurns f k w).sound p := by
  have keep : ∀ v v', v.within p → f v = .more v' → v'.within p := fun v v' hv hm => by simpa [Turn.sound, hm] using hf v hv
  rcases runTurns_cases keep k w hw with ⟨v, hv, hr⟩ | ⟨v, hv, hr⟩
  · rw [hr]; exact hv
  · rw [← hr]; exact hf v hv

theorem byteStage_sound {p : Params} {turn : List Byte → Work → Turn} (data : List Byte) (w : Work) {k : Work → Turn}
    (hf : SoundTurn p (turn data)) (hk : ∀ r, r.within p → (k r).sound p) : (byteStage p turn data w k).sound p := by
  have hrun := runTurns_sound hf (turnBound data.length) (start_within p)
  unfold byteStage
  split
  · exact fun _ => capacityExceeded_recordsDraw
  · split
    · rename_i hr; rw [hr] at hrun; exact hk _ hrun
    · rename_i hr; rw [hr] at hrun; exact hrun
    · exact fun _ => encodingInvariantViolation_recordsDraw

theorem pulseStage_sound {p : Params} {turn : List Word → Work → Turn} (pulses : List Word) (w : Work) {k : Work → Turn}
    (hf : SoundTurn p (turn pulses)) (hk : ∀ r, r.within p → (k r).sound p) : (pulseStage p turn pulses w k).sound p := by
  have hrun := runTurns_sound hf (turnBound pulses.length) (start_within p)
  unfold pulseStage
  split
  · exact fun _ => capacityExceeded_recordsDraw
  · split
    · rename_i hr; rw [hr] at hrun; exact hk _ hrun
    · rename_i hr; rw [hr] at hrun; exact hrun
    · exact fun _ => encodingInvariantViolation_recordsDraw

theorem tuyaCompTurn_sound (p : Params) (level : BitVec 2) (data : List Byte) : SoundTurn p (tuyaCompTurn p level data) := by
  intro w hw
  unfold tuyaCompTurn
  split
  · exact byteStage_sound _ _ (packTurn_sound p level data) fun r hr => hw
  · exact byteStage_sound _ _ (b64EncTurn_sound p _) fun r hr => ⟨hr.1, hw.2⟩

theorem pronto2BlTurn_sound (p : Params) (data : List Byte) : SoundTurn p (pronto2BlTurn p data) := by
  intro w hw
  unfold pronto2BlTurn
  split
  · exact byteStage_sound _ _ (prontoTurn_sound p data) fun r hr => ⟨hw.1, hr.2⟩
  · exact pulseStage_sound _ _ (blEncTurn_sound p _) fun r hr => ⟨hr.1, hw.2⟩

theorem bl2TuyaTurn_sound (p : Params) (level : BitVec 2) (data : List Byte) : SoundTurn p (bl2TuyaTurn p level data) := by
  intro w hw
  unfold bl2TuyaTurn
  split
  · exact byteStage_sound _ _ (blDecTurn_sound p data) fun r hr => ⟨hw.1, hr.2⟩
  · split
    · exact pulseStage_sound _ _ (serTurn_sound p _) fun r hr => hw
    · split
      · exact byteStage_sound _ _ (packTurn_sound p level _) fun r hr => hw
      · exact byteStage_sound _ _ (b64EncTurn_sound p _) fun r hr => ⟨hr.1, hw.2⟩

theorem operationTurn_sound (p : Params) (data : List Byte) (pulses : List Word) (i : Instr) :
    SoundTurn p (operationTurn p data pulses i) := by
  cases i with
  | prontoDec level => exact prontoTurn_sound p data
  | blEnc level => exact blEncTurn_sound p pulses
  | blDec level => exact blDecTurn_sound p data
  | ser16 level => exact serTurn_sound p pulses
  | tuyaPack level => exact packTurn_sound p level data
  | tuyaExpand level => exact expandTurn_sound p data
  | b64Enc level => exact b64EncTurn_sound p data
  | b64Dec level => exact b64DecTurn_sound p data
  | tuyaComp level => exact tuyaCompTurn_sound p level data
  | pronto2Bl level => exact pronto2BlTurn_sound p data
  | bl2Tuya level => exact bl2TuyaTurn_sound p level data
  | _ => exact fun w _ => sound_raise_some

end Sys2Proof.Machine
end

section
/-! SUPPORT. A whole operation as one turn of its command: what `exec` and the opening of an operation are in these terms. -/

namespace Sys2Proof.Machine

open Sys2Proof

/-! ### The turn a whole operation ends in -/

/-- The run of an operation on `n` input units whose buffer holds `cap` (45_chains.md R202). -/
def guardedRun (cap n : Nat) (f : Work → Turn) : Turn :=
  if cap < n then .raise .capacityExceeded none Warn.none else runTurns f (turnBound n) Work.start

/-- The turn that the operation of a command ends in, from the command and its inputs alone (00_scope.md R9). -/
def commandTurn (p : Params) (data : List Byte) (pulses : List Word) (i : Instr) : Turn :=
  match i with
  | .illegal _ => .raise .illegalCommand (some 0) Warn.none
  | i =>
    if readsPulses i then guardedRun p.pbufEntries pulses.length (operationTurn p data pulses i)
    else guardedRun p.ibufBytes data.length (operationTurn p data pulses i)

theorem guardedRun_of_gt {cap n : Nat} (f : Work → Turn) (h : cap < n) :
    guardedRun cap n f = .raise .capacityExceeded none Warn.none := if_pos h

theorem guardedRun_of_le {cap n : Nat} (f : Work → Turn) (h : n ≤ cap) :
    guardedRun cap n f = runTurns f (turnBound n) Work.start := if_neg (Nat.not_lt.2 h)

theorem commandTurn_illegal (p : Params) (data : List Byte) (pulses : List Word) (word : Word) :
    commandTurn p data pulses (.illegal word) = .raise .illegalCommand (some 0) Warn.none := rfl

theorem commandTurn_of_readsPulses (p : Params) (data : List Byte) (pulses : List Word) {i : Instr}
    (h : readsPulses i = true) :
    commandTurn p data pulses i = guardedRun p.pbufEntries pulses.length (operationTurn p data pulses i) := by
  unfold commandTurn
  split
  · cases h
  · exact if_pos h

theorem commandTurn_of_readsBytes (p : Params) (data : List Byte) (pulses : List Word) {i : Instr}
    (hi : ∀ word, i ≠ .illegal word) (h : readsPulses i = false) :
    commandTurn p data pulses i = guardedRun p.ibufBytes data.length (operationTurn p data pulses i) := by
  unfold commandTurn
  split
  · exact absurd rfl (hi _)
  · exact if_neg (Bool.eq_false_iff.1 h)

theorem runBytes_eq_applyTurn (s : State) (o : Outputs) (f : List Byte → Work → Turn) :
    s.runBytes o f = s.applyTurn o (guardedRun s.params.ibufBytes s.inputBytes.length (f s.inputBytes)) := by
  rw [inputBytes_length]
  rcases Nat.lt_or_ge s.params.ibufBytes s.ilen.toNat with h | h
  · rw [runBytes_of_gt h, guardedRun_of_gt _ h, applyTurn_raise]
  · rw [runBytes_of_le h, guardedRun_of_le _ h]

theorem runPulses_eq_applyTurn (s : State) (o : Outputs) (f : List Word → Work → Turn) :
    s.runPulses o f = s.applyTurn o (guardedRun s.params.pbufEntries s.inputPulses.length (f s.inputPulses)) := by
  rw [inputPulses_length]
  rcases Nat.lt_or_ge s.params.pbufEntries s.plen.toNat with h | h
  · rw [runPulses_of_gt h, guardedRun_of_gt _ h, applyTurn_raise]
  · rw [runPulses_of_le h, guardedRun_of_le _ h]

theorem isCommand_command (s : State) : isCommand s.command = true := isCommand_decodeCommand s.cmd

/-- A command carried out whole applies its turn to its outputs. -/
theorem exec_command (s : State) {i : Instr} (h : isCommand i = true) :
    exec i s = .next (s.applyTurn (commandOutputs i) (commandTurn s.params s.inputBytes s.inputPulses i)) := by
  cases i with
  | prontoDec level => exact congrArg _ (runBytes_eq_applyTurn s toPbuf (prontoTurn s.params))
  | blEnc level => exact congrArg _ (runPulses_eq_applyTurn s toObuf (blEncTurn s.params))
  | blDec level => exact congrArg _ (runBytes_eq_applyTurn s toPbuf (blDecTurn s.params))
  | ser16 level => exact congrArg _ (runPulses_eq_applyTurn s toObuf (serTurn s.params))
  | tuyaPack level => exact congrArg _ (runBytes_eq_applyTurn s toObuf (packTurn s.params level))
  | tuyaExpand level => exact congrArg _ (runBytes_eq_applyTurn s toObuf (expandTurn s.params))
  | b64Enc level => exact congrArg _ (runBytes_eq_applyTurn s toObuf (b64EncTurn s.params))
  | b64Dec level => exact congrArg _ (runBytes_eq_applyTurn s toObuf (b64DecTurn s.params))
  | tuyaComp level => exact congrArg _ (runBytes_eq_applyTurn s toObuf (tuyaCompTurn s.params level))
  | pronto2Bl level => exact congrArg _ (runBytes_eq_applyTurn s toBoth (pronto2BlTurn s.params))
  | bl2Tuya level => exact congrArg _ (runBytes_eq_applyTurn s toBoth (bl2TuyaTurn s.params level))
  | illegal word => rfl
  | _ => cases h

/-! ### How the turn of a command ends -/

theorem guardedRun_sound {p : Params} {f : Work → Turn} (cap n : Nat) (hf : SoundTurn p f) : (guardedRun cap n f).sound p := by
  unfold guardedRun
  split
  · exact fun _ => capacityExceeded_recordsDraw
  · exact runTurns_sound hf _ (start_within p)

theorem commandTurn_sound (p : Params) (data : List Byte) (pulses : List Word) (i : Instr) :
    (commandTurn p data pulses i).sound p := by
  unfold commandTurn
  split
  · exact sound_raise_some
  · split <;> exact guardedRun_sound _ _ (operationTurn_sound p data pulses _)

/-- The turns of an operation that reads PBUF do not depend on IBUF. -/
theorem operationTurn_of_readsPulses {i : Instr} (h : readsPulses i = true) (p : Params) (data : List Byte) (pulses : List Word) :
    operationTurn p data pulses i = operationTurn p [] pulses i := by
  cases i with
  | blEnc level => rfl
  | ser16 level => rfl
  | _ => cases h

/-- The turns of every other operation do not depend on PBUF. -/
theorem operationTurn_of_not_readsPulses {i : Instr} (h : readsPulses i = false) (p : Params) (data : List Byte)
    (pulses : List Word) : operationTurn p data pulses i = operationTurn p data [] i := by
  cases i with
  | blEnc level => cases h
  | ser16 level => cases h
  | _ => rfl

theorem turnsLeft_start_lt (n : Nat) (i : Instr) : turnsLeft n Work.start i < turnBound n := by
  unfold turnsLeft turnBound
  split <;> simp

theorem operationTurn_ends (p : Params) (data : List Byte) (pulses : List Word) (i : Instr) (w : Work) :
    runTurns (operationTurn p data pulses i) (turnBound (data.length + pulses.length)) Work.start ≠ .more w := by
  refine runTurns_ends (P := fun _ => True) (fun v => turnsLeft (data.length + pulses.length) v i) ?_ _ _ trivial
    (turnsLeft_start_lt _ i) w
  exact fun v v' _ hv => ⟨trivial, (operationTurn_more hv).1⟩

theorem guardedRun_ne_more {cap n : Nat} {f : Work → Turn} {w : Work} (h : runTurns f (turnBound n) Work.start ≠ .more w) :
    guardedRun cap n f ≠ .more w := by
  rcases Nat.lt_or_ge cap n with hn | hn
  · rw [guardedRun_of_gt f hn]; exact Turn.noConfusion
  · rwa [guardedRun_of_le f hn]

/-- The operation of every command ends (70_reset_and_hazards.md R254). -/
theorem commandTurn_ne_more (p : Params) (data : List Byte) (pulses : List Word) (i : Instr) (w : Work) :
    commandTurn p data pulses i ≠ .more w := by
  unfold commandTurn
  split
  · exact Turn.noConfusion
  · split
    · rename_i hr
      rw [operationTurn_of_readsPulses hr]
      exact guardedRun_ne_more (by simpa using operationTurn_ends p [] pulses _ w)
    · rename_i hr
      rw [operationTurn_of_not_readsPulses (Bool.eq_false_iff.2 hr)]
      exact guardedRun_ne_more (by simpa using operationTurn_ends p data [] _ w)

/-! ### The prologue -/

/-- A fault of the prologue is the fault of the whole operation (45_chains.md R202). -/
theorem commandTurn_of_prologueFault {s : State} {c : ErrCode} {q : Option Nat} (h : s.prologueFault = some (c, q)) :
    commandTurn s.params s.inputBytes s.inputPulses s.command = .raise c q Warn.none := by
  unfold State.prologueFault at h
  split at h
  · rename_i hi
    cases h
    rw [hi, commandTurn_illegal]
  · rename_i hi
    split at h
    · split at h <;> cases h
      rw [commandTurn_of_readsPulses _ _ _ ‹_›]
      exact guardedRun_of_gt _ (by simpa)
    · rename_i hr
      split at h <;> cases h
      rw [commandTurn_of_readsBytes _ _ _ hi (Bool.eq_false_iff.2 hr)]
      exact guardedRun_of_gt _ (by simpa)

/-- Past the prologue the whole operation is a run of its turns. -/
theorem commandTurn_of_no_prologueFault {s : State} (h : s.prologueFault = none) :
    ∃ k, commandTurn s.params s.inputBytes s.inputPulses s.command =
      runTurns (operationTurn s.params s.inputBytes s.inputPulses s.command) k Work.start := by
  unfold State.prologueFault at h
  split at h
  · cases h
  · rename_i hi
    split at h
    · split at h <;> cases h
      rw [commandTurn_of_readsPulses _ _ _ ‹_›]
      exact ⟨_, guardedRun_of_le _ (by rw [inputPulses_length]; omega)⟩
    · rename_i hr
      split at h <;> cases h
      rw [commandTurn_of_readsBytes _ _ _ hi (Bool.eq_false_iff.2 hr)]
      exact ⟨_, guardedRun_of_le _ (by rw [inputBytes_length]; omega)⟩

end Sys2Proof.Machine
end

section
/-! PROOFS. The invariant of the machine as a structure with named fields, and that each shared operation keeps it. -/

namespace Sys2Proof.Machine

open Sys2Proof

/-! ### The invariant, field by field -/

/-- The clauses of `State.inv`. -/
structure Kept (s : State) : Prop where
  params : Config.paramsOk s.params = true
  ibuf : s.ibuf.wf s.params.ibufBytes = true
  obuf : s.obuf.wf s.params.obufBytes = true
  pbuf : s.pbuf.wf s.params.pbufEntries = true
  ctrl : s.ctrl.toNat ≤ 1
  err : s.err ∈ errValues
  warn : s.warn.toNat ≤ 3
  olen : s.olen.toNat ≤ s.params.obufBytes
  determined : s.obuf.cells.map Prod.fst = List.range s.olen.toNat
  work : s.work.within s.params
  closed : s.status = .busy ∨ s.work = Work.closed
  ibufSeed : s.ibuf.seed < s.draws
  obufSeed : s.obuf.seed < s.draws
  pbufSeed : s.pbuf.seed < s.draws

theorem inv_iff (s : State) : s.inv = true ↔ Kept s := by
  simp only [State.inv, Bool.and_eq_true, Bool.or_eq_true, decide_eq_true_eq, and_assoc]
  constructor
  · rintro ⟨params, ibuf, obuf, pbuf, ctrl, err, warn, olen, determined, out, pulses, closed, ibufSeed, obufSeed, pbufSeed⟩
    exact ⟨params, ibuf, obuf, pbuf, ctrl, err, warn, olen, determined, ⟨out, pulses⟩, closed, ibufSeed, obufSeed, pbufSeed⟩
  · intro h
    exact ⟨h.params, h.ibuf, h.obuf, h.pbuf, h.ctrl, h.err, h.warn, h.olen, h.determined, h.work.1, h.work.2, h.closed,
      h.ibufSeed, h.obufSeed, h.pbufSeed⟩

theorem paramsOk_obufBytes_lt {p : Params} (h : Config.paramsOk p = true) : p.obufBytes < 2 ^ 32 := by
  simp only [Config.paramsOk, Bool.and_eq_true, decide_eq_true_eq] at h
  obtain ⟨⟨_, hobuf⟩, _⟩ := h
  exact hobuf

theorem closed_within (p : Params) : Work.closed.within p := ⟨Nat.zero_le _, Nat.zero_le _⟩

theorem word_toNat_le_three (ws : Warn) : ws.word.toNat ≤ 3 := by
  obtain ⟨_ | _, _ | _⟩ := ws <;> decide

/-! ### Outputs -/

section
variable {s : State}

theorem commitObuf_kept (h : Kept s) {bs : List Byte} (hbs : bs.length ≤ s.params.obufBytes) : Kept (s.commitObuf bs) := by
  have hlen : (BitVec.ofNat 32 bs.length).toNat = bs.length := by
    have := paramsOk_obufBytes_lt h.params
    exact Nat.mod_eq_of_lt (by omega)
  exact { h with
    obuf := commitObuf_wf s bs hbs
    olen := hlen.trans_le hbs
    determined := by
      rw [commitObuf_olen, hlen, List.range_eq_range']
      exact map_fst_cellsFrom bs 0
    ibufSeed := Nat.lt_succ_of_lt h.ibufSeed
    obufSeed := Nat.lt_succ_self _
    pbufSeed := Nat.lt_succ_of_lt h.pbufSeed }

theorem commitPbuf_kept (h : Kept s) {ps : List Word} (hps : ps.length ≤ s.params.pbufEntries) : Kept (s.commitPbuf ps) :=
  { h with
    pbuf := commitPbuf_wf s ps hps
    ibufSeed := Nat.lt_succ_of_lt h.ibufSeed
    obufSeed := Nat.lt_succ_of_lt h.obufSeed
    pbufSeed := Nat.lt_succ_self _ }

theorem dropObuf_kept (h : Kept s) : Kept s.dropObuf :=
  { h with
    obuf := dropObuf_wf s
    olen := Nat.zero_le _
    determined := rfl
    ibufSeed := Nat.lt_succ_of_lt h.ibufSeed
    obufSeed := Nat.lt_succ_self _
    pbufSeed := Nat.lt_succ_of_lt h.pbufSeed }

theorem dropPbuf_kept (h : Kept s) : Kept s.dropPbuf :=
  { h with
    pbuf := dropPbuf_wf s
    ibufSeed := Nat.lt_succ_of_lt h.ibufSeed
    obufSeed := Nat.lt_succ_of_lt h.obufSeed
    pbufSeed := Nat.lt_succ_self _ }

theorem recordPos_kept (h : Kept s) (q : Option Nat) : Kept (s.recordPos q) := by
  cases q with
  | some k => exact { h with }
  | none =>
    exact { h with
      ibufSeed := Nat.lt_succ_of_lt h.ibufSeed
      obufSeed := Nat.lt_succ_of_lt h.obufSeed
      pbufSeed := Nat.lt_succ_of_lt h.pbufSeed }

/-! ### The end of an operation -/

theorem takeFault_kept (h : Kept s) (o : Outputs) (c : ErrCode) (q : Option Nat) (ws : Warn) : Kept (s.takeFault o c q ws) := by
  have hobuf : Kept (if o.obuf then s.dropObuf else s) := by
    split
    · exact dropObuf_kept h
    · exact h
  have hpbuf : Kept (if o.pbuf then (if o.obuf then s.dropObuf else s).dropPbuf else if o.obuf then s.dropObuf else s) := by
    split
    · exact dropPbuf_kept hobuf
    · exact hobuf
  exact { recordPos_kept hpbuf q with
    err := (word_mem_errValues c).1
    warn := word_toNat_le_three ws
    work := closed_within _
    closed := .inr rfl }

theorem complete_kept (h : Kept s) (o : Outputs) {w : Work} (hw : w.within s.params) : Kept (s.complete o w) := by
  have hobuf : Kept (if o.obuf then s.commitObuf w.out else s) := by
    split
    · exact commitObuf_kept h hw.1
    · exact h
  have hpbuf : Kept (if o.pbuf then (if o.obuf then s.commitObuf w.out else s).commitPbuf w.pulses
      else if o.obuf then s.commitObuf w.out else s) := by
    split
    · refine commitPbuf_kept hobuf ?_
      split <;> exact hw.2
    · exact hobuf
  exact { hpbuf with
    err := List.mem_cons_self ..
    warn := word_toNat_le_three w.warn
    work := closed_within _
    closed := .inr rfl }

theorem setWork_kept (h : Kept s) (hb : s.status = .busy) {w : Work} (hw : w.within s.params) : Kept { s with work := w } :=
  { h with work := hw, closed := .inl hb }

theorem applyTurn_kept (h : Kept s) (hb : s.status = .busy) (o : Outputs) {t : Turn} (ht : t.sound s.params) :
    Kept (s.applyTurn o t) := by
  cases t with
  | more w => exact setWork_kept h hb ht
  | done w => exact complete_kept h o ht
  | raise c q ws => exact takeFault_kept h o c q ws

/-! ### The engine -/

theorem engineTurn_not_opened (hb : s.status = .busy) (ho : s.work.opened = false) :
    s.engineTurn = exec s.command s := by
  simp [State.engineTurn, hb, ho]

theorem engineTurn_not_busy (hb : s.status ≠ .busy) : s.engineTurn = .next s := if_neg hb

theorem engineTurn_kept {t : State} (h : Kept s) (ht : s.engineTurn = .next t) : Kept t := by
  by_cases hb : s.status = .busy
  · cases ho : s.work.opened with
    | false =>
      rw [engineTurn_not_opened hb ho, exec_command s (isCommand_command s)] at ht
      cases ht
      exact applyTurn_kept h hb _ (commandTurn_sound _ _ _ _)
    | true =>
      rw [engineTurn_opened hb ho] at ht
      cases ht
      exact applyTurn_kept h hb _ (operationTurn_sound _ _ _ _ _ h.work)
  · rw [engineTurn_not_busy hb] at ht
    cases ht
    exact h

theorem openOp_kept (h : Kept s) : Kept s.openOp := by
  unfold State.openOp
  split
  · rename_i hb
    split
    · exact takeFault_kept h _ _ _ _
    · exact setWork_kept h hb.1 (start_within _)
  · exact h

/-! ### The host -/

theorem answer_kept (h : Kept s) (v : Word) : Kept (s.answer v) := { h with }

theorem answerDraw_kept (h : Kept s) (n : Nat) : Kept (s.answerDraw n) :=
  { h with
    ibufSeed := Nat.lt_succ_of_lt h.ibufSeed
    obufSeed := Nat.lt_succ_of_lt h.obufSeed
    pbufSeed := Nat.lt_succ_of_lt h.pbufSeed }

theorem regRead_kept (h : Kept s) (r : Nat) : Kept (s.regRead r) := by
  unfold State.regRead
  split
  · exact answerDraw_kept h 32
  · exact answer_kept h _

theorem bufRead_kept (h : Kept s) (x : ByteSpace) (i : Nat) : Kept (s.bufRead x i) := by
  unfold State.bufRead
  split
  · exact answer_kept h _
  · split
    · exact answerDraw_kept h 8
    · exact answer_kept h _

theorem pulseRead_kept (h : Kept s) (i : Nat) : Kept (s.pulseRead i) := by
  unfold State.pulseRead
  split
  · exact answer_kept h _
  · split
    · exact answerDraw_kept h 32
    · exact answer_kept h _

theorem acknowledge_kept (h : Kept s) : Kept s.acknowledge := by
  unfold State.acknowledge
  split
  · rename_i hf
    have hnb : s.status ≠ .busy := by intro hb; simp [hb, Status.finished] at hf
    exact { h with closed := .inr (h.closed.resolve_left hnb) }
  · exact h

theorem setCtrl_kept (h : Kept s) (v : Word) : Kept { s with ctrl := v &&& 1 } :=
  { h with ctrl := by rw [BitVec.toNat_and]; exact Nat.and_le_right }

theorem writeCtrl_kept (h : Kept s) (v : Word) : Kept (s.writeCtrl v) := by
  unfold State.writeCtrl
  split
  · exact setCtrl_kept (acknowledge_kept h) v
  · exact setCtrl_kept h v

theorem writeCmd_kept (h : Kept s) (v : Word) : Kept (s.writeCmd v) := by
  unfold State.writeCmd
  split
  · exact h
  · exact { h with work := closed_within _, closed := .inl rfl }

theorem regWrite_kept (h : Kept s) (r : Nat) (v : Word) : Kept (s.regWrite r v) := by
  unfold State.regWrite
  split
  · exact writeCtrl_kept h v
  · exact writeCmd_kept h v
  · split
    · exact h
    · exact { h with }
  · split
    · exact h
    · exact { h with }
  · exact h

theorem bufWrite_kept (h : Kept s) (x : ByteSpace) (i : Nat) (b : Byte) : Kept (s.bufWrite x i b) := by
  have hwf := bufWrite_ibuf_wf s x i b h.ibuf
  cases x with
  | obuf => exact h
  | ibuf =>
    unfold State.bufWrite at hwf ⊢
    dsimp only at hwf ⊢
    split
    · exact h
    · rename_i hc
      rw [if_neg hc] at hwf
      exact { h with ibuf := hwf }

theorem pulseWrite_kept (h : Kept s) (i : Nat) (v : Word) : Kept (s.pulseWrite i v) := by
  have hwf := pulseWrite_pbuf_wf s i v h.pbuf
  unfold State.pulseWrite at hwf ⊢
  split
  · exact h
  · rename_i hc
    rw [if_neg hc] at hwf
    exact { h with pbuf := hwf }

theorem hardReset_kept (h : Kept s) : Kept s.hardReset where
  params := h.params
  ibuf := rfl
  obuf := rfl
  pbuf := rfl
  ctrl := Nat.zero_le _
  err := List.mem_cons_self ..
  warn := Nat.zero_le _
  olen := Nat.zero_le _
  determined := rfl
  work := closed_within _
  closed := .inr rfl
  ibufSeed := by simp
  obufSeed := by simp
  pbufSeed := by simp

theorem transact_kept (h : Kept s) (tr : Transaction) : Kept (s.transact tr) := by
  cases tr with
  | regRead r => exact regRead_kept h r
  | regWrite r v => exact regWrite_kept h r v
  | bufRead x i => exact bufRead_kept h x i
  | bufWrite x i b => exact bufWrite_kept h x i b
  | pulseRead i => exact pulseRead_kept h i
  | pulseWrite i v => exact pulseWrite_kept h i v
  | reset => exact hardReset_kept h

/-! ### One step -/

theorem setSched_kept (h : Kept s) (ms : List Move) : Kept { s with sched := ms } := { h with }

theorem step_kept {t : State} (h : Kept s) (ht : step s = .next t) : Kept t := by
  unfold step at ht
  split at ht
  · exact engineTurn_kept h ht
  · cases ht; exact transact_kept (setSched_kept h _) _
  · exact engineTurn_kept (setSched_kept h _) ht
  · cases ht; exact openOp_kept (setSched_kept h _)

end

/-- Settles O51: the clauses of the invariant are kept by the move that the step makes. -/
theorem invariantKept : Obligations.InvariantKept := by
  intro s t hs ht
  rw [inv_iff] at hs ⊢
  exact step_kept hs ht

end Sys2Proof.Machine
end

section
/-! PROOFS. Two states with equal inputs take the same turn of a command, which gives both the same result (00_scope.md R9). -/

namespace Sys2Proof.Machine

open Sys2Proof

theorem complete_output (s : State) (o : Outputs) (w : Work) :
    (o.obuf = true → (s.complete o w).olen = BitVec.ofNat 32 w.out.length ∧ (s.complete o w).obuf.cells = cellsFrom 0 w.out) ∧
    (o.pbuf = true →
      (s.complete o w).plen = BitVec.ofNat 32 w.pulses.length ∧ (s.complete o w).pbuf.cells = cellsFrom 0 w.pulses) := by
  obtain ⟨_ | _, _ | _⟩ := o <;> simp [State.complete, Memory.ofList]

/-- What the host can see of an operation's result, but for the names of draws, is the same in both states. -/
def SameResult (o : Outputs) (t t' : State) : Prop :=
  t.status = t'.status ∧ t.err = t'.err ∧ t.warn = t'.warn ∧ (t.err ≠ 0x0307 → t.err ≠ 0x0205 → t.pos = t'.pos) ∧
  (o.obuf = true → t.olen = t'.olen ∧ t.obuf.cells = t'.obuf.cells) ∧
  (o.pbuf = true → t.plen = t'.plen ∧ t.pbuf.cells = t'.pbuf.cells)

theorem complete_sameResult (s s' : State) (o : Outputs) (w : Work) : SameResult o (s.complete o w) (s'.complete o w) := by
  obtain ⟨hobuf, hpbuf⟩ := complete_output s o w
  obtain ⟨hobuf', hpbuf'⟩ := complete_output s' o w
  refine ⟨rfl, rfl, rfl, fun _ _ => rfl, fun ho => ?_, fun hp => ?_⟩
  · rw [(hobuf ho).1, (hobuf ho).2, (hobuf' ho).1, (hobuf' ho).2]
    exact ⟨rfl, rfl⟩
  · rw [(hpbuf hp).1, (hpbuf hp).2, (hpbuf' hp).1, (hpbuf' hp).2]
    exact ⟨rfl, rfl⟩

theorem takeFault_sameResult (s s' : State) (o : Outputs) {c : ErrCode} {q : Option Nat} (ws : Warn)
    (hq : q = none → c.recordsDraw) : SameResult o (s.takeFault o c q ws) (s'.takeFault o c q ws) := by
  obtain ⟨-, -, hobuf, hpbuf⟩ := takeFault_effects s o c q ws
  obtain ⟨-, -, hobuf', hpbuf'⟩ := takeFault_effects s' o c q ws
  refine ⟨rfl, rfl, rfl, fun h7 h5 => ?_, fun ho => ?_, fun hp => ?_⟩
  · cases q with
    | some k => rfl
    | none =>
      rcases hq rfl with rfl | rfl
      · exact absurd rfl h7
      · exact absurd rfl h5
  · obtain ⟨hcells, hlen, -⟩ := hobuf ho
    obtain ⟨hcells', hlen', -⟩ := hobuf' ho
    exact ⟨hlen.trans hlen'.symm, hcells.trans hcells'.symm⟩
  · obtain ⟨hcells, hlen, -⟩ := hpbuf hp
    obtain ⟨hcells', hlen', -⟩ := hpbuf' hp
    exact ⟨hlen.trans hlen'.symm, hcells.trans hcells'.symm⟩

theorem applyTurn_sameResult (s s' : State) (o : Outputs) {p : Params} {t : Turn} (hs : t.sound p) (hm : ∀ w, t ≠ .more w) :
    SameResult o (s.applyTurn o t) (s'.applyTurn o t) := by
  cases t with
  | more w => exact absurd rfl (hm w)
  | done w => exact complete_sameResult s s' o w
  | raise c q ws => exact takeFault_sameResult s s' o ws hs

/-- Settles O48: both states apply the same turn of the command. -/
theorem purity : Obligations.Purity := by
  intro s s' t t' i hi hp _ _ hdata hpulses ht ht'
  rw [exec_command s hi] at ht
  rw [exec_command s' hi, ← hp, ← hdata, ← hpulses] at ht'
  cases ht
  cases ht'
  exact applyTurn_sameResult s s' _ (commandTurn_sound _ _ _ i) (commandTurn_ne_more _ _ _ i)

end Sys2Proof.Machine
end

section
/-! PROOFS. The steps of an opened operation are the turns of the operation taken whole (00_scope.md R8; log 6). -/

namespace Sys2Proof.Machine

open Sys2Proof

theorem run_zero (s : State) : Host.Core.run Sys2Proof.core 0 s = .next s := rfl

/-- A turn that ends an operation leaves nothing of the working state it was taken in. -/
theorem applyTurn_setWork (s : State) (v : Work) (o : Outputs) {t : Turn} (h : ∀ w, t ≠ .more w) :
    ({ s with work := v } : State).applyTurn o t = s.applyTurn o t := by
  obtain ⟨_ | _, _ | _⟩ := o <;> cases t with
  | more w => exact absurd rfl (h w)
  | done w => rfl
  | raise c q ws => cases q <;> rfl

/-- The steps of an opened operation are the turns of its run. -/
theorem run_opened {s : State} (hb : s.status = .busy) (hs : s.sched = []) {T : Turn} (hT : ∀ w, T ≠ .more w) (n : Nat)
    (w : Work) (ho : w.opened = true)
    (h : runTurns (operationTurn s.params s.inputBytes s.inputPulses s.command) n w = T) :
    ∃ k, Host.Core.run Sys2Proof.core k { s with work := w } = .next (s.applyTurn (commandOutputs s.command) T) := by
  induction n generalizing w with
  | zero => exact absurd h.symm (hT w)
  | succ n ih =>
    have hstep : step { s with work := w } =
        .next (({ s with work := w } : State).applyTurn (commandOutputs s.command)
          (operationTurn s.params s.inputBytes s.inputPulses s.command w)) := by
      have he : step { s with work := w } = ({ s with work := w } : State).engineTurn := by simp [step, hs]
      rw [he]
      exact engineTurn_opened (s := { s with work := w }) hb ho
    cases hturn : operationTurn s.params s.inputBytes s.inputPulses s.command w with
    | more v =>
      rw [runTurns_of_more n hturn] at h
      obtain ⟨k, hk⟩ := ih v ((operationTurn_more hturn).2.trans ho) h
      rw [hturn] at hstep
      exact ⟨k + 1, (run_succ k hstep).trans hk⟩
    | done v =>
      rw [runTurns_of_done n hturn] at h
      rw [hturn, h, applyTurn_setWork s w _ hT] at hstep
      exact ⟨1, (run_succ 0 hstep).trans (run_zero _)⟩
    | raise c q ws =>
      rw [runTurns_of_raise n hturn] at h
      rw [hturn, h, applyTurn_setWork s w _ hT] at hstep
      exact ⟨1, (run_succ 0 hstep).trans (run_zero _)⟩

theorem openOp_of_prologueFault {s : State} {c : ErrCode} {q : Option Nat} (hb : s.status = .busy)
    (ho : s.work.opened = false) (h : s.prologueFault = some (c, q)) :
    s.openOp = s.takeFault (commandOutputs s.command) c q Warn.none := by
  simp [State.openOp, hb, ho, h]

theorem openOp_of_no_prologueFault {s : State} (hb : s.status = .busy) (ho : s.work.opened = false)
    (h : s.prologueFault = none) : s.openOp = { s with work := Work.start } := by
  simp [State.openOp, hb, ho, h]

theorem run_openOp {s : State} (hb : s.status = .busy) (ho : s.work.opened = false) (hs : s.sched = []) :
    ∃ k, Host.Core.run Sys2Proof.core k s.openOp = .next (s.applyTurn (commandOutputs s.command)
      (commandTurn s.params s.inputBytes s.inputPulses s.command)) := by
  cases hf : s.prologueFault with
  | some f =>
    obtain ⟨c, q⟩ := f
    rw [openOp_of_prologueFault hb ho hf, commandTurn_of_prologueFault hf, applyTurn_raise]
    exact ⟨0, run_zero _⟩
  | none =>
    obtain ⟨n, hn⟩ := commandTurn_of_no_prologueFault hf
    rw [openOp_of_no_prologueFault hb ho hf]
    exact run_opened hb hs (commandTurn_ne_more _ _ _ _) n Work.start start_opened hn.symm

/-- Settles O55: a fault of the prologue is taken at once by both; past it the steps of the opened operation are the turns of the
operation taken whole. -/
theorem turnByTurn : Obligations.TurnByTurn := by
  intro s hb ho hs
  obtain ⟨k, hk⟩ := run_openOp hb ho hs
  exact ⟨k, _, exec_command s (isCommand_command s), applyTurn_not_busy _ _ (commandTurn_ne_more _ _ _ _), hk⟩

end Sys2Proof.Machine
end

section
/-! PROOFS. The common length of two byte sequences is the largest on which they agree (00_scope.md R15). -/

namespace Sys2Proof.Machine

open Sys2Proof

theorem commonLength_le (k : Nat) (as bs : List Byte) : commonLength k as bs ≤ k := by
  fun_induction commonLength k as bs with
  | case4 k as b bs ih => exact Nat.succ_le_succ ih
  | _ => exact Nat.zero_le _

theorem commonLength_le_length (k : Nat) (as bs : List Byte) : commonLength k as bs ≤ as.length := by
  fun_induction commonLength k as bs with
  | case4 k as b bs ih => exact Nat.succ_le_succ ih
  | _ => exact Nat.zero_le _

/-- Two sequences agree below their common length. -/
theorem getElem?_eq_of_lt_commonLength (k : Nat) (as bs : List Byte) {j : Nat} (h : j < commonLength k as bs) :
    as[j]? = bs[j]? := by
  fun_induction commonLength k as bs generalizing j with
  | case4 k as b bs ih =>
    cases j with
    | zero => rfl
    | succ j => exact ih (Nat.lt_of_succ_lt_succ h)
  | _ => exact absurd h (Nat.not_lt_zero j)

/-- Every length on which two sequences agree is at most their common length. -/
theorem le_commonLength (k : Nat) (as bs : List Byte) {l : Nat} (hk : l ≤ k) (hl : l ≤ as.length)
    (h : ∀ j, j < l → as[j]? = bs[j]?) : l ≤ commonLength k as bs := by
  fun_induction commonLength k as bs generalizing l with
  | case1 as bs => exact hk
  | case2 k bs => exact hl
  | case3 k a as =>
    cases l with
    | zero => exact Nat.zero_le _
    | succ l => cases h 0 (Nat.succ_pos l)
  | case4 k as b bs ih =>
    cases l with
    | zero => exact Nat.zero_le _
    | succ l =>
      have htail : ∀ j, j < l → as[j]? = bs[j]? := fun j hj => h (j + 1) (Nat.succ_lt_succ hj)
      exact Nat.succ_le_succ (ih (Nat.le_of_succ_le_succ hk) (Nat.le_of_succ_le_succ hl) htail)
  | case5 k a as b bs hab =>
    cases l with
    | zero => exact Nat.zero_le _
    | succ l => exact absurd (Option.some.inj (h 0 (Nat.succ_pos l))) hab

/-- Settles O32: `matchLen` is the common length of the two suffixes, cut at 264; the end of the suffix from `pos` is the end of
the data. -/
theorem matchLength : Obligations.MatchLength := by
  intro data pos start _ _
  have hle := commonLength_le_length lenMax (data.drop pos) (data.drop start)
  rw [List.length_drop] at hle
  refine ⟨commonLength_le _ _ _, hle, fun k hk => ?_, fun l hl hend hagree => ?_⟩
  · simpa using getElem?_eq_of_lt_commonLength _ _ _ hk
  · exact le_commonLength _ _ _ hl (by simpa using hend) (by simpa using hagree)

end Sys2Proof.Machine
end

section
/-! SUPPORT. What a step makes of each move, and what stands at the cursor of each operation that reads stream forms (10_state.md R40,
R45; log 4, log 6, log 10). -/

namespace Sys2Proof.Machine

open Sys2Proof

/-! ### The move of a step -/

theorem step_host (s : State) (tr : Transaction) (rest : List Move) :
    step { s with sched := .host tr :: rest } = .next (({ s with sched := rest } : State).transact tr) := rfl

theorem step_engine (s : State) (rest : List Move) :
    step { s with sched := .engine :: rest } = ({ s with sched := rest } : State).engineTurn := rfl

theorem step_of_sched_nil {s : State} (h : s.sched = []) : step s = s.engineTurn := by
  simp [step, h]

theorem engineTurn_of_fetch_form {s : State} {i : Instr} (hb : s.status = .busy) (ho : s.work.opened = true)
    (hf : s.fetch = .form i) : s.engineTurn = exec i s := by
  simp [State.engineTurn, hb, ho, hf]

/-! ### The operation whose cursor is read -/

section
variable {s : State} {level : BitVec 2}

theorem fetch_of_prontoDec (h : s.command = .prontoDec level) : s.fetch = fetchPronto s.params s.inputBytes s.work := by
  simp [State.fetch, h]

theorem fetch_of_blDec (h : s.command = .blDec level) : s.fetch = fetchBl s.inputBytes s.work := by
  simp [State.fetch, h]

theorem fetch_of_ser16 (h : s.command = .ser16 level) : s.fetch = fetchSer s.inputPulses s.work := by
  simp [State.fetch, h]

theorem fetch_of_tuyaExpand (h : s.command = .tuyaExpand level) : s.fetch = fetchTuya s.inputBytes s.work := by
  simp [State.fetch, h]

theorem fetch_of_b64Dec (h : s.command = .b64Dec level) : s.fetch = fetchB64 s.inputBytes s.work := by
  simp [State.fetch, h]

end

/-! ### The form at the cursor -/

section
variable {data : List Byte} {w : Work} {i : Instr}

theorem fetchPronto_header (p : Params) (h0 : w.pos = 0) (hd : decodeForm .pronto data = .ok i) :
    fetchPronto p data w = .form i := by
  have hd : decodeProntoHeader data = .ok i := hd
  simp [fetchPronto, h0, hd]

theorem fetchBl_header (h0 : w.pos = 0) (hd : decodeForm .blFrame data = .ok i) : fetchBl data w = .form i := by
  have hd : decodeBlHeader data = .ok i := hd
  simp [fetchBl, h0, hd]

theorem fetchBl_code (h0 : w.pos ≠ 0) (hlt : w.pos < w.payloadEnd)
    (hd : decodeForm .blPulse (between w.pos w.payloadEnd data) = .ok i) : fetchBl data w = .form i := by
  have hd : decodePulse (between w.pos w.payloadEnd data) = .ok i := hd
  simp [fetchBl, h0, Nat.not_le.2 hlt, hd]

theorem fetchTuya_block (hne : data.drop w.pos ≠ []) (hd : decodeForm .tuyaBlock (data.drop w.pos) = .ok i) :
    fetchTuya data w = .form i := by
  obtain ⟨b, bs, hb⟩ := List.exists_cons_of_ne_nil hne
  have hd : decodeTuya (b :: bs) = .ok i := hb ▸ hd
  simp [fetchTuya, hb, hd]

theorem fetchB64_quantum (h4 : data.length % 4 = 0) (hne : data.drop w.pos ≠ [])
    (hd : decodeForm .base64 (data.drop w.pos) = .ok i) : fetchB64 data w = .form i := by
  obtain ⟨b, bs, hb⟩ := List.exists_cons_of_ne_nil hne
  have hd : decodeQuantum (b :: bs) = .ok i := hb ▸ hd
  simp [fetchB64, h4, hb, hd]

theorem fetchSer_pulse {pulses : List Word} {v : Word} (hv : pulses[w.pos]? = some v) (hmax : v.toNat ≤ 65535) :
    fetchSer pulses w = .form (.pulse16 (v.setWidth 16)) := by
  obtain ⟨hlt, rfl⟩ := List.getElem?_eq_some_iff.1 hv
  unfold fetchSer
  rw [List.drop_eq_getElem_cons hlt]
  exact if_neg (Nat.not_lt.2 hmax)

end

/-- Settles O50: a started operation runs its command, an opened one the form that the fetch of its operation decodes at the cursor,
and in every other STATE the engine's turn is empty. -/
theorem stepRunsDecoded : Obligations.StepRunsDecoded := by
  refine ⟨fun s rest hb ho => ⟨fun hs => ?_, ?_⟩, fun s level i hb ho hs => ?_, fun s hb hs => ?_⟩
  · exact (step_of_sched_nil hs).trans (engineTurn_not_opened hb ho)
  · exact (step_engine s rest).trans (engineTurn_not_opened hb ho)
  · have run {j : Instr} (hf : s.fetch = .form j) : step s = exec j s :=
      (step_of_sched_nil hs).trans (engineTurn_of_fetch_form hb ho hf)
    exact ⟨fun hc hne hd => run ((fetch_of_tuyaExpand hc).trans (fetchTuya_block hne hd)),
      fun hc h0 hd => run ((fetch_of_blDec hc).trans (fetchBl_header h0 hd)),
      fun hc h0 hlt hd => run ((fetch_of_blDec hc).trans (fetchBl_code h0 hlt hd)),
      fun hc h0 hd => run ((fetch_of_prontoDec hc).trans (fetchPronto_header _ h0 hd)),
      fun hc h4 hne hd => run ((fetch_of_b64Dec hc).trans (fetchB64_quantum h4 hne hd)),
      fun v hc hv hmax => run ((fetch_of_ser16 hc).trans (fetchSer_pulse hv hmax))⟩
  · exact (step_of_sched_nil hs).trans (engineTurn_not_busy hb)

end Sys2Proof.Machine
end

section
/-! PROOFS. The registers as the host reads and writes them, and the state that reset leaves (10_state.md R21 to R31, R47). -/

namespace Sys2Proof.Machine

open Sys2Proof

/-! ### STATUS and the interrupt line -/

theorem finished_iff (x : Status) : x.finished = true ↔ x = .done ∨ x = .fault := by
  cases x <;> simp [Status.finished]

theorem irq_iff (s : State) : s.irq = true ↔ s.ctrl.getLsbD 0 = true ∧ (s.status = .done ∨ s.status = .fault) := by
  rw [State.irq, Bool.and_eq_true, finished_iff, State.ie]

theorem statusWord_toNat (s : State) : s.statusWord.toNat = s.status.code.toNat + if s.irq then 4 else 0 := by
  unfold State.statusWord
  cases s.status <;> cases s.irq <;> rfl

theorem statusWord_getLsbD_two (s : State) : s.statusWord.getLsbD 2 = s.irq := by
  unfold State.statusWord
  cases s.status <;> cases s.irq <;> rfl

theorem code_toNat_lt_four (x : Status) : x.code.toNat < 4 := by
  cases x <;> decide

theorem statusWord_toNat_mod_four (s : State) : s.statusWord.toNat % 4 = s.status.code.toNat := by
  have hcode := code_toNat_lt_four s.status
  rw [statusWord_toNat]
  split <;> omega

theorem statusWord_toNat_lt_eight (s : State) : s.statusWord.toNat < 8 := by
  have hcode := code_toNat_lt_four s.status
  rw [statusWord_toNat]
  split <;> omega

/-! ### Reading and writing a register -/

theorem regValue_reserved (s : State) {r : Nat} (h : 10 ≤ r) : s.regValue r = 0 := by
  obtain ⟨k, rfl⟩ := Nat.exists_eq_add_of_le' h
  rfl

theorem hiddenWhileBusy_iff (r : Nat) : hiddenWhileBusy r = true ↔ r ∈ [4, 5, 7, 8, 9] := by
  simp [hiddenWhileBusy, or_assoc]

theorem regRead_shown (s : State) {r : Nat} (h : s.status ≠ .busy ∨ r ∉ [4, 5, 7, 8, 9]) :
    s.regRead r = s.answer (s.regValue r) := by
  refine if_neg fun ⟨hb, hr⟩ => ?_
  rcases h with h | h
  · exact h hb
  · exact h ((hiddenWhileBusy_iff r).1 hr)

theorem regWrite_ignored (s : State) {r : Nat} (v : Word) (h : r ∉ [1, 2, 6, 8]) : s.regWrite r v = s := by
  simp only [List.mem_cons, List.not_mem_nil, or_false, not_or] at h
  obtain ⟨hctrl, hcmd, hilen, hplen⟩ := h
  unfold State.regWrite
  split
  · exact absurd rfl hctrl
  · exact absurd rfl hcmd
  · exact absurd rfl hilen
  · exact absurd rfl hplen
  · rfl

theorem regWrite_ilen {s : State} (v : Word) (h : s.status ≠ .busy) : s.regWrite 6 v = { s with ilen := v } := if_neg h

theorem regWrite_plen {s : State} (v : Word) (h : s.status ≠ .busy) : s.regWrite 8 v = { s with plen := v } := if_neg h

/-- Settles O58: reads by `regRead_shown`, STATUS by its value as a number, writes by `regWrite_ignored` and the two length
registers. -/
theorem registerMap : Obligations.RegisterMap := by
  intro s rest
  have state {x : Status} (h : s.status = x) : (s.regValue 3).toNat % 4 = x.code.toNat :=
    h ▸ statusWord_toNat_mod_four s
  refine ⟨fun r hr => ?_, rfl, rfl, rfl, rfl, rfl, rfl, rfl, rfl, rfl, fun r hr => regValue_reserved s hr, irq_iff s,
    state, state, state, state, statusWord_getLsbD_two s, statusWord_toNat_lt_eight s, fun r v hr => ?_,
    fun v hb => ⟨?_, ?_⟩⟩
  · rw [step_host]
    exact congrArg _ (regRead_shown { s with sched := rest } hr)
  · rw [step_host]
    exact congrArg _ (regWrite_ignored { s with sched := rest } v hr)
  · rw [step_host]
    exact congrArg _ (regWrite_ilen (s := { s with sched := rest }) v hb)
  · rw [step_host]
    exact congrArg _ (regWrite_plen (s := { s with sched := rest }) v hb)

/-! ### The state after reset -/

theorem reset_kept : Kept State.reset :=
  let ⟨hibuf, hobuf, hpbuf⟩ := reset_memories_wf
  { params := by decide
    ibuf := hibuf
    obuf := hobuf
    pbuf := hpbuf
    ctrl := Nat.zero_le _
    err := List.mem_cons_self ..
    warn := Nat.zero_le _
    olen := Nat.zero_le _
    determined := rfl
    work := closed_within _
    closed := .inr rfl
    ibufSeed := by decide
    obufSeed := by decide
    pbufSeed := by decide }

/-- Settles O52: the clauses of the invariant, one by one. -/
theorem invariantAtReset : Obligations.InvariantAtReset := (inv_iff _).2 reset_kept

theorem reset_regValue {r : Nat} (h : 1 ≤ r) : State.reset.regValue r = 0 := by
  by_cases hr : r < 10
  · interval_cases r <;> rfl
  · exact regValue_reserved _ (Nat.not_lt.1 hr)

/-- Settles O53: the registers by `reset_regValue`; the other parts are fields of the state. -/
theorem resetState : Obligations.ResetState :=
  ⟨rfl, fun _ => reset_regValue, rfl, rfl, rfl, rfl, rfl, rfl⟩

end Sys2Proof.Machine
end

section
/-! SUPPORT. What each host transaction does, in each state it can be made in (20_memory.md R51, R60; log 8). -/

namespace Sys2Proof.Machine

open Sys2Proof

variable {s : State}

/-- A step with the host to move, from what its transaction does. -/
theorem step_eq_of_transact {tr : Transaction} {rest : List Move} {t : State}
    (h : ({ s with sched := rest } : State).transact tr = t) : step { s with sched := .host tr :: rest } = .next t :=
  (step_host s tr rest).trans (congrArg _ h)

/-! ### Reads -/

theorem regRead_hidden (hb : s.status = .busy) {r : Nat} (h : r ∈ [4, 5, 7, 8, 9]) : s.regRead r = s.answerDraw 32 :=
  if_pos ⟨hb, (hiddenWhileBusy_iff r).2 h⟩

theorem bufRead_outside {x : ByteSpace} {i : Nat} (h : s.capacityOf x ≤ i) : s.bufRead x i = s.answer 0 := if_pos h

theorem bufRead_of_lt {x : ByteSpace} {i : Nat} (h : i < s.capacityOf x) :
    s.bufRead x i =
      if s.status = .busy then s.answerDraw 8 else s.answer (((s.byteBuffer x).read i).setWidth 32) :=
  if_neg (Nat.not_le.2 h)

theorem bufRead_busy (hb : s.status = .busy) {x : ByteSpace} {i : Nat} (h : i < s.capacityOf x) :
    s.bufRead x i = s.answerDraw 8 :=
  (bufRead_of_lt h).trans (if_pos hb)

theorem bufRead_not_busy (hb : s.status ≠ .busy) {x : ByteSpace} {i : Nat} (h : i < s.capacityOf x) :
    s.bufRead x i = s.answer (((s.byteBuffer x).read i).setWidth 32) :=
  (bufRead_of_lt h).trans (if_neg hb)

theorem pulseRead_outside {i : Nat} (h : s.params.pbufEntries ≤ i) : s.pulseRead i = s.answer 0 := if_pos h

theorem pulseRead_of_lt {i : Nat} (h : i < s.params.pbufEntries) :
    s.pulseRead i = if s.status = .busy then s.answerDraw 32 else s.answer (s.pbuf.read i) :=
  if_neg (Nat.not_le.2 h)

theorem pulseRead_busy (hb : s.status = .busy) {i : Nat} (h : i < s.params.pbufEntries) :
    s.pulseRead i = s.answerDraw 32 :=
  (pulseRead_of_lt h).trans (if_pos hb)

theorem pulseRead_not_busy (hb : s.status ≠ .busy) {i : Nat} (h : i < s.params.pbufEntries) :
    s.pulseRead i = s.answer (s.pbuf.read i) :=
  (pulseRead_of_lt h).trans (if_neg hb)

/-- The draw that a register or a pulse reads as is all of the free value. -/
theorem answerDraw_word (s : State) :
    s.answerDraw 32 = { s with rdata := Config.draw s.draws 0, draws := s.draws + 1 } := by
  simp [State.answerDraw, drawAt]

theorem lowByte_setWidth (v : Word) : (v.setWidth 8).setWidth 32 = v &&& 0xFF := by
  apply BitVec.eq_of_toNat_eq
  rw [BitVec.toNat_setWidth_of_le (by decide), BitVec.toNat_setWidth, BitVec.toNat_and]
  exact (Nat.and_two_pow_sub_one_eq_mod v.toNat 8).symm

/-- The draw that a byte reads as is the low byte of the free value. -/
theorem answerDraw_byte (s : State) :
    s.answerDraw 8 = { s with rdata := Config.draw s.draws 0 &&& 0xFF, draws := s.draws + 1 } := by
  rw [State.answerDraw, drawAt, lowByte_setWidth]

/-! ### Writes -/

theorem bufWrite_obuf (s : State) (i : Nat) (b : Byte) : s.bufWrite .obuf i b = s := rfl

theorem bufWrite_ibuf_outside {i : Nat} {b : Byte} (h : s.params.ibufBytes ≤ i) : s.bufWrite .ibuf i b = s :=
  if_pos (.inr h)

theorem bufWrite_ibuf_not_busy (hb : s.status ≠ .busy) {i : Nat} (h : i < s.params.ibufBytes) (b : Byte) :
    s.bufWrite .ibuf i b = { s with ibuf := s.ibuf.write i b } :=
  if_neg (not_or.2 ⟨hb, Nat.not_le.2 h⟩)

theorem bufWrite_busy (hb : s.status = .busy) (x : ByteSpace) (i : Nat) (b : Byte) : s.bufWrite x i b = s := by
  cases x with
  | ibuf => exact if_pos (.inl hb)
  | obuf => exact bufWrite_obuf s i b

theorem pulseWrite_outside {i : Nat} {v : Word} (h : s.params.pbufEntries ≤ i) : s.pulseWrite i v = s :=
  if_pos (.inr h)

theorem pulseWrite_not_busy (hb : s.status ≠ .busy) {i : Nat} (h : i < s.params.pbufEntries) (v : Word) :
    s.pulseWrite i v = { s with pbuf := s.pbuf.write i v } :=
  if_neg (not_or.2 ⟨hb, Nat.not_le.2 h⟩)

theorem pulseWrite_busy (hb : s.status = .busy) (i : Nat) (v : Word) : s.pulseWrite i v = s := if_pos (.inl hb)

/-- While BUSY there is nothing to acknowledge, so a write to CTRL only stores IE. -/
theorem writeCtrl_busy (hb : s.status = .busy) (v : Word) : s.writeCtrl v = { s with ctrl := v &&& 1 } := by
  have hack : s.acknowledge = s := acknowledge_of_not (by rw [hb]; rfl)
  rw [State.writeCtrl, hack, ite_self]

theorem regWrite_busy (hb : s.status = .busy) {r : Nat} (h : r ≠ 1) (v : Word) : s.regWrite r v = s := by
  by_cases hr : r ∈ [1, 2, 6, 8]
  · simp only [List.mem_cons, List.not_mem_nil, or_false] at hr
    rcases hr with rfl | rfl | rfl | rfl
    case inl => exact absurd rfl h
    all_goals exact if_pos hb
  · exact regWrite_ignored s v hr

end Sys2Proof.Machine
end

section
/-! PROOFS. The host at the buffers outside BUSY, each clause by the rule of its transaction (20_memory.md R51). -/

namespace Sys2Proof.Machine

open Sys2Proof

/-- Settles O59: the rule of each transaction; the buffer after a write is `Memory.write`, read back by its two laws. -/
theorem bufferTransactions : Obligations.BufferTransactions := by
  intro s rest hs
  have hb : ({ s with sched := rest } : State).status ≠ .busy := hs
  refine ⟨fun i b hi => ⟨s.ibuf.write i b, ?_, read_write_same .., fun _ hj => read_write_other _ _ hj⟩,
    fun i v hi => ⟨s.pbuf.write i v, ?_, read_write_same .., fun _ hj => read_write_other _ _ hj⟩,
    fun i hi => ?_, fun i hi => ?_, fun i hi => ?_, fun x i hi => ?_, fun i hi => ?_, fun i b hi => ?_, fun i v hi => ?_,
    fun i b => ?_⟩ <;> apply step_eq_of_transact
  · exact bufWrite_ibuf_not_busy hb hi b
  · exact pulseWrite_not_busy hb hi v
  · exact bufRead_not_busy hb (x := .ibuf) hi
  · exact bufRead_not_busy hb (x := .obuf) hi
  · exact pulseRead_not_busy hb hi
  · exact bufRead_outside hi
  · exact pulseRead_outside hi
  · exact bufWrite_ibuf_outside hi
  · exact pulseWrite_outside hi
  · exact bufWrite_obuf _ i b

end Sys2Proof.Machine
end

section
/-! PROOFS. The host during BUSY: what each transaction answers, and that the answer hangs on nothing hidden (20_memory.md R60). -/

namespace Sys2Proof.Machine

open Sys2Proof

/-- Two states agree on everything that a host transaction can answer from while BUSY: all but ERR, WARN, OLEN, PLEN, POS, the
buffers, the hidden state and the schedule. -/
structure SameShown (s r : State) : Prop where
  params : r.params = s.params
  ctrl : r.ctrl = s.ctrl
  cmd : r.cmd = s.cmd
  status : r.status = s.status
  ilen : r.ilen = s.ilen
  draws : r.draws = s.draws
  rdata : r.rdata = s.rdata

section
variable {s r : State}

theorem SameShown.irq (h : SameShown s r) : r.irq = s.irq := by
  rw [State.irq, State.irq, State.ie, State.ie, h.ctrl, h.status]

theorem SameShown.statusWord (h : SameShown s r) : r.statusWord = s.statusWord := by
  rw [State.statusWord, State.statusWord, h.irq, h.status]

theorem SameShown.capacityOf (h : SameShown s r) (x : ByteSpace) : r.capacityOf x = s.capacityOf x := by
  cases x <;> simp only [State.capacityOf, h.params]

theorem SameShown.regValue (h : SameShown s r) : ∀ n, n ∉ [4, 5, 7, 8, 9] → r.regValue n = s.regValue n
  | 0, _ => rfl
  | 1, _ => h.ctrl
  | 2, _ => h.cmd
  | 3, _ => h.statusWord
  | 6, _ => h.ilen
  | 4, hn | 5, hn | 7, hn | 8, hn | 9, hn => absurd (by decide) hn
  | _ + 10, _ => rfl

theorem SameShown.answer (h : SameShown s r) (v : Word) : SameShown (s.answer v) (r.answer v) := { h with rdata := rfl }

theorem SameShown.answerDraw (h : SameShown s r) (n : Nat) : SameShown (s.answerDraw n) (r.answerDraw n) :=
  { h with
    draws := congrArg (· + 1) h.draws
    rdata := by rw [answerDraw_rdata, answerDraw_rdata, h.draws] }

theorem SameShown.setCtrl (h : SameShown s r) (v : Word) :
    SameShown { s with ctrl := v &&& 1 } { r with ctrl := v &&& 1 } := { h with ctrl := rfl }

theorem SameShown.hardReset (h : SameShown s r) : SameShown s.hardReset r.hardReset where
  params := h.params
  ctrl := rfl
  cmd := rfl
  status := rfl
  ilen := rfl
  draws := congrArg (· + 3) h.draws
  rdata := h.rdata

/-- A transaction during BUSY, of two states that agree on what is shown, leaves two states that agree on it: a read answers a
shown value, the next draw or 0, and of the writes only that to CTRL does anything. -/
theorem SameShown.transact (h : SameShown s r) (hs : s.status = .busy) (tr : Transaction) :
    SameShown (s.transact tr) (r.transact tr) := by
  have hr : r.status = .busy := h.status.trans hs
  cases tr with
  | regRead n =>
    change SameShown (s.regRead n) (r.regRead n)
    by_cases hn : n ∈ [4, 5, 7, 8, 9]
    · rw [regRead_hidden hs hn, regRead_hidden hr hn]
      exact h.answerDraw 32
    · rw [regRead_shown s (.inr hn), regRead_shown r (.inr hn), h.regValue n hn]
      exact h.answer _
  | regWrite n v =>
    change SameShown (s.regWrite n v) (r.regWrite n v)
    by_cases hn : n = 1
    · subst hn
      change SameShown (s.writeCtrl v) (r.writeCtrl v)
      rw [writeCtrl_busy hs, writeCtrl_busy hr]
      exact h.setCtrl v
    · rwa [regWrite_busy hs hn, regWrite_busy hr hn]
  | bufRead x i =>
    change SameShown (s.bufRead x i) (r.bufRead x i)
    rcases Nat.lt_or_ge i (s.capacityOf x) with hi | hi
    · rw [bufRead_busy hs hi, bufRead_busy hr (by rwa [h.capacityOf])]
      exact h.answerDraw 8
    · rw [bufRead_outside hi, bufRead_outside (by rwa [h.capacityOf])]
      exact h.answer 0
  | bufWrite x i b =>
    change SameShown (s.bufWrite x i b) (r.bufWrite x i b)
    rwa [bufWrite_busy hs, bufWrite_busy hr]
  | pulseRead i =>
    change SameShown (s.pulseRead i) (r.pulseRead i)
    rcases Nat.lt_or_ge i s.params.pbufEntries with hi | hi
    · rw [pulseRead_busy hs hi, pulseRead_busy hr (by rwa [h.params])]
      exact h.answerDraw 32
    · rw [pulseRead_outside hi, pulseRead_outside (by rwa [h.params])]
      exact h.answer 0
  | pulseWrite i v =>
    change SameShown (s.pulseWrite i v) (r.pulseWrite i v)
    rwa [pulseWrite_busy hs, pulseWrite_busy hr]
  | reset => exact h.hardReset

end

theorem statusWord_busy {s : State} (hb : s.status = .busy) : s.statusWord = 1 := by
  simp [State.statusWord, State.irq, hb, Status.finished, Status.code]

/-- Settles O56: the rule of each transaction during BUSY, and `SameShown.transact` for two states. -/
theorem busyAccess : Obligations.BusyAccess := by
  constructor
  · intro s rest hs
    have hb : ({ s with sched := rest } : State).status = .busy := hs
    have not_hidden : ∀ r ∈ [0, 1, 2, 3, 6], r ∉ [4, 5, 7, 8, 9] := by decide
    refine ⟨fun r hr => ?_, statusWord_busy hs, fun r hr => ?_, fun x i hi => ?_, fun i hi => ?_, fun x i hi => ?_,
      fun i hi => ?_, fun r v hr => ?_, fun x i b => ?_, fun i v => ?_, fun v => ?_⟩ <;> apply step_eq_of_transact
    · exact regRead_shown _ (.inr (not_hidden r hr))
    · exact (regRead_hidden hb hr).trans (answerDraw_word _)
    · exact (bufRead_busy hb hi).trans (answerDraw_byte _)
    · exact (pulseRead_busy hb hi).trans (answerDraw_word _)
    · exact bufRead_outside hi
    · exact pulseRead_outside hi
    · exact regWrite_busy hb hr v
    · exact bufWrite_busy hb x i b
    · exact pulseWrite_busy hb i v
    · exact writeCtrl_busy hb v
  · intro s r tr rest hs hr hparams hctrl hcmd hilen hdraws hrdata
    have shown : SameShown { s with sched := rest } { r with sched := rest } :=
      ⟨hparams, hctrl, hcmd, hr.trans hs.symm, hilen, hdraws, hrdata⟩
    have after := shown.transact hs tr
    exact ⟨_, _, step_host s tr rest, step_host r tr rest, after.rdata, after.status, after.ctrl, after.cmd, after.ilen,
      after.irq, after.draws⟩

end Sys2Proof.Machine
end

section
/-! SUPPORT. Words and bytes as their fields, and the fields as numbers (00_scope.md R12; 30_encoding.md R70, R82 to R84). -/

namespace Sys2Proof

theorem toNat_append_eq {m n : Nat} (x : BitVec m) (y : BitVec n) : (x ++ y).toNat = x.toNat * 2 ^ n + y.toNat := by
  rw [BitVec.toNat_append, ← Nat.shiftLeft_add_eq_or_of_lt y.isLt, Nat.shiftLeft_eq]

/-! ### 16-bit values -/

@[simp] theorem hi8_append (h l : Byte) : hi8 (h ++ l) = h := BitVec.extractLsb'_append_eq_left

@[simp] theorem lo8_append (h l : Byte) : lo8 (h ++ l) = l := BitVec.extractLsb'_append_eq_right

@[simp] theorem be16_hi8_lo8 (v : BitVec 16) : be16 (hi8 v) (lo8 v) = v :=
  BitVec.extractLsb'_append_extractLsb' (w := 8) (len := 8)

@[simp] theorem le16_lo8_hi8 (v : BitVec 16) : le16 (lo8 v) (hi8 v) = v := be16_hi8_lo8 v

@[simp] theorem hi8_be16 (h l : Byte) : hi8 (be16 h l) = h := hi8_append h l

@[simp] theorem lo8_be16 (h l : Byte) : lo8 (be16 h l) = l := lo8_append h l

@[simp] theorem hi8_le16 (l h : Byte) : hi8 (le16 l h) = h := hi8_append h l

@[simp] theorem lo8_le16 (l h : Byte) : lo8 (le16 l h) = l := lo8_append h l

theorem be16_eq_zero {h l : Byte} (hz : be16 h l = 0#16) : h = 0#8 ∧ l = 0#8 :=
  ⟨(hi8_be16 h l).symm.trans (congrArg hi8 hz), (lo8_be16 h l).symm.trans (congrArg lo8 hz)⟩

theorem lo8_eq_ofNat (v : BitVec 16) : lo8 v = BitVec.ofNat 8 (v.toNat % 256) := by
  apply BitVec.eq_of_toNat_eq
  simp [lo8]

theorem hi8_eq_ofNat (v : BitVec 16) : hi8 v = BitVec.ofNat 8 (v.toNat / 256) := by
  apply BitVec.eq_of_toNat_eq
  simp [hi8, Nat.shiftRight_eq_div_pow]

/-! ### The first byte of a Tuya block and the distance field -/

@[simp] theorem tag_append (t : BitVec 3) (m : BitVec 5) : (t ++ m : Byte).extractLsb' 5 3 = t :=
  BitVec.extractLsb'_append_eq_left

@[simp] theorem field_append (t : BitVec 3) (m : BitVec 5) : (t ++ m : Byte).extractLsb' 0 5 = m :=
  BitVec.extractLsb'_append_eq_right

/-- A byte is a tag of three bits and a field of five. -/
theorem exists_tag_append (h : Byte) : ∃ (t : BitVec 3) (m : BitVec 5), h = t ++ m :=
  ⟨_, _, (BitVec.extractLsb'_append_extractLsb' (w := 3) (len := 5)).symm⟩

theorem toNat_tag_append (t : BitVec 3) (m : BitVec 5) : (t ++ m : Byte).toNat = t.toNat * 32 + m.toNat :=
  toNat_append_eq t m

theorem tag_eq_zero_iff (t : BitVec 3) (m : BitVec 5) : t = 0#3 ↔ (t ++ m : Byte).toNat < 0x20 := by
  rw [toNat_tag_append, BitVec.toNat_eq]
  have := m.isLt
  simp only [BitVec.toNat_ofNat]
  omega

theorem tag_eq_seven_iff (t : BitVec 3) (m : BitVec 5) : t = 7#3 ↔ 0xE0 ≤ (t ++ m : Byte).toNat := by
  rw [toNat_tag_append, BitVec.toNat_eq]
  have := m.isLt
  have := t.isLt
  simp only [BitVec.toNat_ofNat]
  omega

@[simp] theorem high_distance_append (m : BitVec 5) (dl : Byte) : (m ++ dl : BitVec 13).extractLsb' 8 5 = m :=
  BitVec.extractLsb'_append_eq_left

@[simp] theorem low_distance_append (m : BitVec 5) (dl : Byte) : (m ++ dl : BitVec 13).extractLsb' 0 8 = dl :=
  BitVec.extractLsb'_append_eq_right

@[simp] theorem distance_append (d : BitVec 13) : d.extractLsb' 8 5 ++ d.extractLsb' 0 8 = d :=
  BitVec.extractLsb'_append_extractLsb' (w := 5) (len := 8)

theorem toNat_distance_append (m : BitVec 5) (dl : Byte) : (m ++ dl : BitVec 13).toNat = m.toNat * 256 + dl.toNat :=
  toNat_append_eq m dl

end Sys2Proof
end

section
/-! SUPPORT. What each stream decoder answers, case by case, and what each of its forms is encoded as (30_encoding.md R75 to
R88). -/

namespace Sys2Proof

open Machine (blIr padChar)

/-! ### Tuya blocks -/

theorem decodeTuya_lit {m : BitVec 5} {data : List Byte} (rest : List Byte) (h : data.length = m.toNat + 1) :
    decodeTuya ((0#3 ++ m) :: (data ++ rest)) = .ok (.lit data) := by
  simp [decodeTuya, ← h]

theorem decodeTuya_lit_cut {m : BitVec 5} {rest : List Byte} (h : rest.length < m.toNat + 1) :
    decodeTuya ((0#3 ++ m) :: rest) = .error .truncated := by
  simp [decodeTuya, h]

theorem decodeTuya_copyL (m : BitVec 5) (ext dl : Byte) (rest : List Byte) :
    decodeTuya ((7#3 ++ m) :: ext :: dl :: rest) = .ok (.copyL (m ++ dl) ext) := by
  simp [decodeTuya]

theorem decodeTuya_copyL_cut (m : BitVec 5) {rest : List Byte} (h : rest.length < 2) :
    decodeTuya ((7#3 ++ m) :: rest) = .error .truncated := by
  match rest, h with
  | [], _ => simp [decodeTuya]
  | [_], _ => simp [decodeTuya]

theorem decodeTuya_copyS {t : BitVec 3} (h0 : t ≠ 0#3) (h7 : t ≠ 7#3) (m : BitVec 5) (dl : Byte) (rest : List Byte) :
    decodeTuya ((t ++ m) :: dl :: rest) = .ok (.copyS t (m ++ dl)) := by
  simp [decodeTuya, h0, h7]

theorem decodeTuya_copyS_cut {t : BitVec 3} (h0 : t ≠ 0#3) (h7 : t ≠ 7#3) (m : BitVec 5) :
    decodeTuya [t ++ m] = .error .truncated := by
  simp [decodeTuya, h0, h7]

/-! ### Pulse codes, headers and serialised pulses -/

theorem decodePulse_p8 {v : Byte} (h : v ≠ 0#8) (rest : List Byte) : decodePulse (v :: rest) = .ok (.p8 v) := if_neg h

theorem decodePulse_p16 (h l : Byte) (rest : List Byte) : decodePulse (0#8 :: h :: l :: rest) = .ok (.p16 (be16 h l)) := rfl

theorem decodeBlHeader_blHeader (r l h : Byte) (rest : List Byte) :
    decodeBlHeader (blIr :: r :: l :: h :: rest) = .ok (.blHeader r (le16 l h)) := rfl

theorem decodeProntoHeader_prontoHeader (d1 d0 o1 o0 r1 r0 : Byte) {rest : List Byte} (h : rest.length % 2 = 0) :
    decodeProntoHeader (0#8 :: 0#8 :: d1 :: d0 :: o1 :: o0 :: r1 :: r0 :: rest) =
      .ok (.prontoHeader (be16 d1 d0) (be16 o1 o0) (be16 r1 r0)) := by
  have hpre : be16 0#8 0#8 = 0#16 := rfl
  have heven : ¬ (0#8 :: 0#8 :: d1 :: d0 :: o1 :: o0 :: r1 :: r0 :: rest).length % 2 = 1 := by
    simp only [List.length_cons]
    omega
  rw [decodeProntoHeader, if_pos hpre, if_neg heven]

theorem decodePulse16_pulse16 (l h : Byte) (rest : List Byte) :
    decodePulse16 (l :: h :: rest) = .ok (.pulse16 (le16 l h)) := rfl

/-! ### Base64 quanta -/

theorem charVal_alphaChar (v : BitVec 6) : charVal (alphaChar v) = some v := by
  decide +revert

theorem alphaChar_ofNat {n : Nat} (h : n < 64) :
    alphaChar (BitVec.ofNat 6 n) =
      if n < 26 then BitVec.ofNat 8 (0x41 + n)
      else if n < 52 then BitVec.ofNat 8 (0x61 + (n - 26))
      else if n < 62 then BitVec.ofNat 8 (0x30 + (n - 52))
      else if n = 62 then 0x2B#8
      else 0x2F#8 := by
  rw [alphaChar, BitVec.toNat_ofNat, Nat.mod_eq_of_lt h]

/-- By the range of the alphabet that the character lies in. -/
theorem alphaChar_of_charVal {c : Byte} {v : BitVec 6} (h : charVal c = some v) : alphaChar v = c := by
  have ofNat_eq {n : Nat} (hn : n = c.toNat) : BitVec.ofNat 8 n = c := by
    rw [hn, BitVec.ofNat_toNat, BitVec.setWidth_eq]
  unfold charVal at h
  split at h
  · cases h
    rw [alphaChar_ofNat (by omega), if_pos (by omega), ofNat_eq (by omega)]
  · split at h
    · cases h
      rw [alphaChar_ofNat (by omega), if_neg (by omega), if_pos (by omega), ofNat_eq (by omega)]
    · split at h
      · cases h
        rw [alphaChar_ofNat (by omega), if_neg (by omega), if_neg (by omega), if_pos (by omega), ofNat_eq (by omega)]
      · split at h
        · rename_i hplus
          cases h
          exact hplus.symm
        · split at h <;> cases h
          rename_i hslash
          exact hslash.symm

theorem alphaChar_ne_padChar (v : BitVec 6) : alphaChar v ≠ padChar := by
  intro h
  have hv := charVal_alphaChar v
  rw [h] at hv
  cases hv

theorem quantumChars_zero (a b c d : BitVec 6) :
    quantumChars a b c d 0 = [alphaChar a, alphaChar b, alphaChar c, alphaChar d] := rfl

theorem quantumChars_one (a b c d : BitVec 6) :
    quantumChars a b c d 1 = [alphaChar a, alphaChar b, alphaChar c, padChar] := rfl

theorem quantumChars_two (a b c d : BitVec 6) : quantumChars a b c d 2 = [alphaChar a, alphaChar b, padChar, padChar] := rfl

theorem decodeQuantum_zero (a b c d : BitVec 6) :
    decodeQuantum (quantumChars a b c d 0) = .ok (.b64Quantum a b c d 0) := by
  simp [quantumChars_zero, decodeQuantum, charVal_alphaChar, alphaChar_ne_padChar]

theorem decodeQuantum_one (a b c d : BitVec 6) :
    decodeQuantum (quantumChars a b c d 1) = .ok (.b64Quantum a b c 0 1) := by
  simp [quantumChars_one, decodeQuantum, charVal_alphaChar, alphaChar_ne_padChar]

theorem decodeQuantum_two (a b c d : BitVec 6) :
    decodeQuantum (quantumChars a b c d 2) = .ok (.b64Quantum a b 0 0 2) := by
  simp [quantumChars_two, decodeQuantum, charVal_alphaChar]

/-- The quanta that stand for an encoding: unpadded, or padded with the values that no character carries being 0. -/
theorem wf_b64Quantum_cases {a b c d : BitVec 6} {npad : Nat} (h : (Instr.b64Quantum a b c d npad).wf = true) :
    npad = 0 ∨ (npad = 1 ∧ d = 0) ∨ (npad = 2 ∧ c = 0 ∧ d = 0) := by
  simp only [Instr.wf, Bool.and_eq_true, Bool.or_eq_true, decide_eq_true_eq, beq_iff_eq] at h
  obtain ⟨⟨hle, hd⟩, hc⟩ := h
  interval_cases npad
  · exact .inl rfl
  · exact .inr (.inl ⟨rfl, hd.resolve_left (by decide)⟩)
  · exact .inr (.inr ⟨rfl, hc.resolve_left (by decide), hd.resolve_left (by decide)⟩)

/-! ### The encoding at the front of the bytes (30_encoding.md R86) -/

/-- An instruction is well formed and its encoding in a format begins the bytes. -/
def EncodesFront (fmt : Format) (bs : List Byte) (i : Instr) : Prop :=
  i.wf = true ∧ ∃ enc rest : List Byte, encode i = .bytes fmt enc ∧ bs = enc ++ rest

theorem encodesFront_lit {m : BitVec 5} {data : List Byte} (rest : List Byte) (h : data.length = m.toNat + 1) :
    EncodesFront .tuyaBlock ((0#3 ++ m) :: (data ++ rest)) (.lit data) := by
  have hm := m.isLt
  refine ⟨by simp [Instr.wf]; omega, _, rest, rfl, ?_⟩
  simp [h]

theorem encodesFront_copyS {t : BitVec 3} (h0 : t ≠ 0#3) (h7 : t ≠ 7#3) (m : BitVec 5) (dl : Byte) (rest : List Byte) :
    EncodesFront .tuyaBlock ((t ++ m) :: dl :: rest) (.copyS t (m ++ dl)) := by
  refine ⟨by simp [Instr.wf, h0, h7], _, rest, rfl, ?_⟩
  simp

theorem encodesFront_copyL (m : BitVec 5) (ext dl : Byte) (rest : List Byte) :
    EncodesFront .tuyaBlock ((7#3 ++ m) :: ext :: dl :: rest) (.copyL (m ++ dl) ext) := by
  refine ⟨rfl, _, rest, rfl, ?_⟩
  simp

theorem encodesFront_p8 {v : Byte} (h : v ≠ 0#8) (rest : List Byte) : EncodesFront .blPulse (v :: rest) (.p8 v) :=
  ⟨by simpa [Instr.wf], _, rest, rfl, rfl⟩

theorem encodesFront_p16 (h l : Byte) (rest : List Byte) :
    EncodesFront .blPulse (0#8 :: h :: l :: rest) (.p16 (be16 h l)) :=
  ⟨rfl, _, rest, rfl, by simp⟩

theorem encodesFront_blHeader (r l h : Byte) (rest : List Byte) :
    EncodesFront .blFrame (blIr :: r :: l :: h :: rest) (.blHeader r (le16 l h)) :=
  ⟨rfl, _, rest, rfl, by simp⟩

theorem encodesFront_prontoHeader (d1 d0 o1 o0 r1 r0 : Byte) (rest : List Byte) :
    EncodesFront .pronto (0#8 :: 0#8 :: d1 :: d0 :: o1 :: o0 :: r1 :: r0 :: rest)
      (.prontoHeader (be16 d1 d0) (be16 o1 o0) (be16 r1 r0)) :=
  ⟨rfl, _, rest, rfl, by simp⟩

theorem encodesFront_pulse16 (l h : Byte) (rest : List Byte) :
    EncodesFront .pulses16 (l :: h :: rest) (.pulse16 (le16 l h)) :=
  ⟨rfl, _, rest, rfl, by simp⟩

theorem encodesFront_b64Quantum {a b c d : BitVec 6} {npad : Nat} (h : (Instr.b64Quantum a b c d npad).wf = true)
    (rest : List Byte) : EncodesFront .base64 (quantumChars a b c d npad ++ rest) (.b64Quantum a b c d npad) :=
  ⟨h, _, rest, rfl, rfl⟩

/-- By the tag of the first byte: a block whose further bytes are there, for a cut one the decoder answers an error. -/
theorem decodeTuya_encodesFront {bs : List Byte} {i : Instr} (h : decodeTuya bs = .ok i) : EncodesFront .tuyaBlock bs i := by
  cases bs with
  | nil => cases h
  | cons b rest =>
    obtain ⟨t, m, rfl⟩ := exists_tag_append b
    by_cases h0 : t = 0#3
    · subst h0
      rcases Nat.lt_or_ge rest.length (m.toNat + 1) with hlt | hge
      · rw [decodeTuya_lit_cut hlt] at h
        cases h
      · have hdata : (rest.take (m.toNat + 1)).length = m.toNat + 1 := List.length_take_of_le hge
        rw [← rest.take_append_drop (m.toNat + 1)] at h ⊢
        rw [decodeTuya_lit _ hdata] at h
        cases h
        exact encodesFront_lit _ hdata
    · by_cases h7 : t = 7#3
      · subst h7
        match rest with
        | ext :: dl :: rest =>
          rw [decodeTuya_copyL] at h
          cases h
          exact encodesFront_copyL m ext dl rest
        | [_] =>
          rw [decodeTuya_copyL_cut m (by simp)] at h
          cases h
        | [] =>
          rw [decodeTuya_copyL_cut m (by simp)] at h
          cases h
      · cases rest with
        | nil =>
          rw [decodeTuya_copyS_cut h0 h7] at h
          cases h
        | cons dl rest =>
          rw [decodeTuya_copyS h0 h7] at h
          cases h
          exact encodesFront_copyS h0 h7 m dl rest

theorem decodePulse_encodesFront {bs : List Byte} {i : Instr} (h : decodePulse bs = .ok i) : EncodesFront .blPulse bs i := by
  unfold decodePulse at h
  split at h
  · cases h
  · split at h
    · rename_i hv
      subst hv
      split at h <;> cases h
      exact encodesFront_p16 _ _ _
    · cases h
      exact encodesFront_p8 ‹_› _

theorem decodeBlHeader_encodesFront {bs : List Byte} {i : Instr} (h : decodeBlHeader bs = .ok i) :
    EncodesFront .blFrame bs i := by
  unfold decodeBlHeader at h
  split at h
  · cases h
  · split at h
    · rename_i hc
      subst hc
      split at h <;> cases h
      exact encodesFront_blHeader _ _ _ _
    · cases h

theorem decodeProntoHeader_encodesFront {bs : List Byte} {i : Instr} (h : decodeProntoHeader bs = .ok i) :
    EncodesFront .pronto bs i := by
  unfold decodeProntoHeader at h
  split at h
  · split at h
    · rename_i hpre
      obtain ⟨rfl, rfl⟩ := be16_eq_zero hpre
      split at h
      · cases h
      · split at h <;> cases h
        exact encodesFront_prontoHeader _ _ _ _ _ _ _
    · cases h
  · cases h

theorem decodePulse16_encodesFront {bs : List Byte} {i : Instr} (h : decodePulse16 bs = .ok i) :
    EncodesFront .pulses16 bs i := by
  unfold decodePulse16 at h
  split at h
  · cases h
    exact encodesFront_pulse16 _ _ _
  · cases h

theorem decodeQuantum_encodesFront {bs : List Byte} {i : Instr} (h : decodeQuantum bs = .ok i) :
    EncodesFront .base64 bs i := by
  unfold decodeQuantum at h
  split at h
  · split at h
    · cases h
    · rename_i ha
      obtain rfl := alphaChar_of_charVal ha
      split at h
      · cases h
      · rename_i hb
        obtain rfl := alphaChar_of_charVal hb
        split at h
        · rename_i hc
          subst hc
          split at h
          · cases h
          · split at h <;> cases h
            rename_i hd
            subst hd
            exact encodesFront_b64Quantum (c := 0) (d := 0) (npad := 2) rfl _
        · split at h
          · cases h
          · rename_i hc
            obtain rfl := alphaChar_of_charVal hc
            split at h
            · rename_i hd
              subst hd
              split at h <;> cases h
              exact encodesFront_b64Quantum (d := 0) (npad := 1) rfl _
            · split at h <;> cases h
              rename_i hd
              obtain rfl := alphaChar_of_charVal hd
              exact encodesFront_b64Quantum (npad := 0) rfl _
  · cases h

end Sys2Proof
end

section
/-! SUPPORT. Command words: an operation code with its LEVEL, or illegal (30_encoding.md R70 to R73). -/

namespace Sys2Proof

/-- The operation of an operation code (30_encoding.md R71). -/
def operation (op : Nat) (level : BitVec 2) : Option Instr :=
  match op with
  | 1 => some (.prontoDec level)
  | 2 => some (.blEnc level)
  | 3 => some (.blDec level)
  | 4 => some (.ser16 level)
  | 5 => some (.tuyaPack level)
  | 6 => some (.tuyaExpand level)
  | 7 => some (.b64Enc level)
  | 8 => some (.b64Dec level)
  | 9 => some (.tuyaComp level)
  | 10 => some (.pronto2Bl level)
  | 11 => some (.bl2Tuya level)
  | _ => none

theorem operation_isSome_iff (op : Nat) (level : BitVec 2) : (operation op level).isSome = true ↔ 1 ≤ op ∧ op ≤ 11 := by
  unfold operation
  split
  case h_12 =>
    refine iff_of_false Bool.false_ne_true fun ⟨h1, h11⟩ => ?_
    interval_cases op <;> contradiction
  all_goals simp

/-- An operation is well formed, is not illegal, and is encoded as its code and LEVEL. -/
theorem operation_spec {op : Nat} {level : BitVec 2} {i : Instr} (h : operation op level = some i) :
    i.wf = true ∧ (∀ u, i ≠ .illegal u) ∧ encode i = .word (commandWord (BitVec.ofNat 8 op) level) := by
  unfold operation at h
  split at h <;> cases h <;> exact ⟨rfl, fun u => Instr.noConfusion, rfl⟩

/-! ### The fields of a word -/

theorem toNat_opField (w : Word) : (w.extractLsb' 0 8).toNat = w.toNat % 256 := by simp

theorem highField_eq_zero_iff (w : Word) : w.extractLsb' 10 22 = 0#22 ↔ w >>> 10 = 0 := by
  have hlt : w.toNat / 2 ^ 10 < 2 ^ 22 := by have := w.isLt; omega
  rw [BitVec.toNat_eq, BitVec.toNat_eq]
  simp [Nat.shiftRight_eq_div_pow]
  omega

theorem levelField_toNat (w : Word) : (w.extractLsb' 8 2).toNat = w.toNat / 256 % 4 := by
  simp [Nat.shiftRight_eq_div_pow]

theorem toNat_commandWord (op : Byte) (level : BitVec 2) : (commandWord op level).toNat = level.toNat * 256 + op.toNat := by
  rw [commandWord, toNat_append_eq, toNat_append_eq]
  simp

theorem commandWord_eq_ofNat {op : Nat} (h : op < 256) (level : BitVec 2) :
    commandWord (BitVec.ofNat 8 op) level = BitVec.ofNat 32 (level.toNat * 256 + op) := by
  apply BitVec.eq_of_toNat_eq
  have := level.isLt
  rw [toNat_commandWord, BitVec.toNat_ofNat, BitVec.toNat_ofNat]
  omega

theorem shiftRight_eq_zero_iff (w : Word) : w >>> 10 = 0 ↔ w.toNat < 1024 := by
  rw [BitVec.toNat_eq]
  simp [Nat.shiftRight_eq_div_pow]

theorem commandWord_of_fields {w : Word} (h : w >>> 10 = 0) :
    commandWord (BitVec.ofNat 8 (w.toNat % 256)) (w.extractLsb' 8 2) = w := by
  have := (shiftRight_eq_zero_iff w).1 h
  apply BitVec.eq_of_toNat_eq
  rw [toNat_commandWord, levelField_toNat, BitVec.toNat_ofNat]
  omega

/-! ### Decoding -/

theorem decodeCommand_eq (w : Word) :
    decodeCommand w =
      if w >>> 10 = 0 then (operation (w.toNat % 256) (w.extractLsb' 8 2)).getD (.illegal w) else .illegal w := by
  simp only [decodeCommand, highField_eq_zero_iff, toNat_opField, operation]
  generalize w.toNat % 256 = op
  split
  · split <;> simp [*]
  · rfl

theorem legalCommand_iff (w : Word) :
    legalCommand w = true ↔ w >>> 10 = 0 ∧ 1 ≤ w.toNat % 256 ∧ w.toNat % 256 ≤ 11 := by
  simp [legalCommand, and_assoc]

theorem legalCommand_eq_false_iff (w : Word) :
    legalCommand w = false ↔ w >>> 10 ≠ 0 ∨ w.toNat % 256 = 0 ∨ 12 ≤ w.toNat % 256 := by
  rw [← Bool.not_eq_true, legalCommand_iff, not_and_or]
  exact or_congr_right (by omega)

/-- A legal word decodes to the operation of its code and LEVEL. -/
theorem decodeCommand_of_legal {w : Word} (h : legalCommand w = true) :
    operation (w.toNat % 256) (w.extractLsb' 8 2) = some (decodeCommand w) := by
  obtain ⟨hhigh, hop⟩ := (legalCommand_iff w).1 h
  obtain ⟨i, hi⟩ := Option.isSome_iff_exists.1 ((operation_isSome_iff _ (w.extractLsb' 8 2)).2 hop)
  simp [decodeCommand_eq, hhigh, hi]

theorem decodeCommand_of_not_legal {w : Word} (h : legalCommand w = false) : decodeCommand w = .illegal w := by
  rw [decodeCommand_eq]
  split
  · rename_i hhigh
    have hop : ¬ (operation (w.toNat % 256) (w.extractLsb' 8 2)).isSome = true := by
      rw [operation_isSome_iff]
      exact fun hop => Bool.eq_false_iff.1 h ((legalCommand_iff w).2 ⟨hhigh, hop⟩)
    rw [Option.not_isSome_iff_eq_none.1 hop, Option.getD_none]
  · rfl

theorem decodeCommand_eq_illegal_iff (w : Word) : decodeCommand w = .illegal w ↔ legalCommand w = false := by
  refine ⟨fun h => Bool.eq_false_iff.2 fun hl => ?_, decodeCommand_of_not_legal⟩
  obtain ⟨-, hne, -⟩ := operation_spec (decodeCommand_of_legal hl)
  exact hne w h

/-- The word of an operation code and a LEVEL decodes to the operation. -/
theorem decodeCommand_commandWord {op : Nat} {level : BitVec 2} {i : Instr} (h : operation op level = some i) :
    decodeCommand (commandWord (BitVec.ofNat 8 op) level) = i := by
  have hop := (operation_isSome_iff op level).1 (h ▸ rfl)
  have hlevel := level.isLt
  have hnat : (commandWord (BitVec.ofNat 8 op) level).toNat = level.toNat * 256 + op := by
    rw [toNat_commandWord, BitVec.toNat_ofNat]
    omega
  have hhigh : commandWord (BitVec.ofNat 8 op) level >>> 10 = 0 := (shiftRight_eq_zero_iff _).2 (by omega)
  have hopField : (commandWord (BitVec.ofNat 8 op) level).toNat % 256 = op := by omega
  have hlevelField : (commandWord (BitVec.ofNat 8 op) level).extractLsb' 8 2 = level := by
    apply BitVec.eq_of_toNat_eq
    rw [levelField_toNat]
    omega
  rw [decodeCommand_eq, if_pos hhigh, hopField, hlevelField, h, Option.getD_some]

end Sys2Proof
end

section
/-! PROOFS. Decoding and encoding are inverse to each other, on command words and on stream forms (30_encoding.md). -/

namespace Sys2Proof

/-! ### From instructions to their encodings and back -/

theorem decode_encode_operation {op : Nat} {level : BitVec 2} {i : Instr} (h : operation op level = some i) :
    decode (encode i) = .ok i := by
  obtain ⟨-, -, henc⟩ := operation_spec h
  rw [henc]
  exact congrArg _ (decodeCommand_commandWord h)

theorem decode_encode_lit {data : List Byte} (h : (Instr.lit data).wf = true) :
    decode (encode (.lit data)) = .ok (.lit data) := by
  simp only [Instr.wf, Bool.and_eq_true, decide_eq_true_eq] at h
  have hfield : data.length = (BitVec.ofNat 5 (data.length - 1)).toNat + 1 := by
    rw [BitVec.toNat_ofNat]
    omega
  simpa [encode, decode, decodeForm] using decodeTuya_lit [] hfield

theorem decode_encode_copyS {f : BitVec 3} {d : BitVec 13} (h : (Instr.copyS f d).wf = true) :
    decode (encode (.copyS f d)) = .ok (.copyS f d) := by
  simp only [Instr.wf, Bool.and_eq_true, bne_iff_ne] at h
  obtain ⟨h0, h7⟩ := h
  simpa [encode, decode, decodeForm] using decodeTuya_copyS h0 h7 (d.extractLsb' 8 5) (d.extractLsb' 0 8) []

theorem decode_encode_copyL (d : BitVec 13) (ext : Byte) : decode (encode (.copyL d ext)) = .ok (.copyL d ext) := by
  simpa [encode, decode, decodeForm] using decodeTuya_copyL (d.extractLsb' 8 5) ext (d.extractLsb' 0 8) []

theorem decode_encode_b64Quantum {a b c d : BitVec 6} {npad : Nat} (h : (Instr.b64Quantum a b c d npad).wf = true) :
    decode (encode (.b64Quantum a b c d npad)) = .ok (.b64Quantum a b c d npad) := by
  rcases wf_b64Quantum_cases h with rfl | ⟨rfl, rfl⟩ | ⟨rfl, rfl, rfl⟩
  · exact decodeQuantum_zero a b c d
  · exact decodeQuantum_one a b c 0
  · exact decodeQuantum_two a b 0 0

/-- Settles O1: an operation by its code and LEVEL, a stream form by what its decoder answers on the bytes of the form. -/
theorem decodeEncode : Obligations.DecodeEncode := by
  intro i h
  cases i with
  | prontoDec level => exact decode_encode_operation (op := 1) rfl
  | blEnc level => exact decode_encode_operation (op := 2) rfl
  | blDec level => exact decode_encode_operation (op := 3) rfl
  | ser16 level => exact decode_encode_operation (op := 4) rfl
  | tuyaPack level => exact decode_encode_operation (op := 5) rfl
  | tuyaExpand level => exact decode_encode_operation (op := 6) rfl
  | b64Enc level => exact decode_encode_operation (op := 7) rfl
  | b64Dec level => exact decode_encode_operation (op := 8) rfl
  | tuyaComp level => exact decode_encode_operation (op := 9) rfl
  | pronto2Bl level => exact decode_encode_operation (op := 10) rfl
  | bl2Tuya level => exact decode_encode_operation (op := 11) rfl
  | illegal word => exact congrArg _ (decodeCommand_of_not_legal (by simpa [Instr.wf] using h))
  | lit data => exact decode_encode_lit h
  | copyS f d => exact decode_encode_copyS h
  | copyL d ext => exact decode_encode_copyL d ext
  | p8 v => exact decodePulse_p8 (bne_iff_ne.1 h) []
  | p16 v => simpa [encode, decode, decodeForm] using decodePulse_p16 (hi8 v) (lo8 v) []
  | blHeader rep length => simpa [encode, decode, decodeForm] using decodeBlHeader_blHeader rep (lo8 length) (hi8 length) []
  | prontoHeader divisor once rep =>
    simpa [encode, decode, decodeForm] using decodeProntoHeader_prontoHeader (hi8 divisor) (lo8 divisor) (hi8 once) (lo8 once)
      (hi8 rep) (lo8 rep) (rest := []) rfl
  | pulse16 p => simpa [encode, decode, decodeForm] using decodePulse16_pulse16 (lo8 p) (hi8 p) []
  | b64Quantum a b c d npad => exact decode_encode_b64Quantum h

/-! ### From words and bytes to what they decode to and back -/

/-- Settles O2: by what each decoder reads from the front of its bytes. -/
theorem decodedFormsReencode : Obligations.DecodedFormsReencode := by
  intro fmt bs i h
  cases fmt with
  | tuyaBlock => exact decodeTuya_encodesFront h
  | blPulse => exact decodePulse_encodesFront h
  | blFrame => exact decodeBlHeader_encodesFront h
  | pronto => exact decodeProntoHeader_encodesFront h
  | pulses16 => exact decodePulse16_encodesFront h
  | base64 => exact decodeQuantum_encodesFront h

/-- Settles O3: a legal word is put together again from its two fields, an illegal one is kept whole. -/
theorem commandWordsReencode : Obligations.CommandWordsReencode := by
  intro w
  cases hl : legalCommand w with
  | true =>
    obtain ⟨hhigh, -⟩ := (legalCommand_iff w).1 hl
    obtain ⟨hwf, -, henc⟩ := operation_spec (decodeCommand_of_legal hl)
    exact ⟨hwf, Machine.isCommand_decodeCommand w, henc.trans (congrArg _ (commandWord_of_fields hhigh))⟩
  | false =>
    rw [decodeCommand_of_not_legal hl]
    exact ⟨by simp [Instr.wf, hl], rfl, rfl⟩

/-! ### Words and bytes written out -/

/-- The words of the table are those of `commandWord`. -/
theorem decodeCommand_ofNat {op : Nat} {level : BitVec 2} {i : Instr} (h : operation op level = some i) :
    decodeCommand (BitVec.ofNat 32 (level.toNat * 256 + op)) = i := by
  have hop := (operation_isSome_iff op level).1 (h ▸ rfl)
  rw [← commandWord_eq_ofNat (by omega), decodeCommand_commandWord h]

/-- Settles O4: the words of each operation by its code, the rest by running the decoders. -/
theorem commandWordTable : Obligations.CommandWordTable :=
  ⟨fun _ => ⟨decodeCommand_ofNat rfl, decodeCommand_ofNat rfl, decodeCommand_ofNat rfl, decodeCommand_ofNat rfl,
      decodeCommand_ofNat rfl, decodeCommand_ofNat rfl, decodeCommand_ofNat rfl, decodeCommand_ofNat rfl,
      decodeCommand_ofNat rfl, decodeCommand_ofNat rfl, decodeCommand_ofNat rfl⟩,
    rfl, rfl, rfl, rfl, rfl, rfl, rfl, rfl, rfl⟩

/-! ### The first byte of a Tuya block -/

open Machine (distanceOf)

theorem distanceOf_append (m : BitVec 5) (dl : Byte) : distanceOf (m ++ dl) = m.toNat * 256 + dl.toNat + 1 := by
  rw [distanceOf, toNat_distance_append]

/-- Settles O6: the first byte is a tag and a field, and the three ranges are those of the tag. -/
theorem tuyaFirstByte : Obligations.TuyaFirstByte := by
  intro h rest
  obtain ⟨t, m, rfl⟩ := exists_tag_append h
  have hm := m.isLt
  have hzero := tag_eq_zero_iff t m
  have hseven := tag_eq_seven_iff t m
  have htag : (t ++ m : Byte).toNat / 32 = t.toNat := by rw [toNat_tag_append]; omega
  have hfield : (t ++ m : Byte).toNat % 32 = m.toNat := by rw [toNat_tag_append]; omega
  rw [htag, hfield]
  refine ⟨fun hlt hcut => ?_, fun hlt hlen => ?_, fun hge hnil => ?_, fun dl more hge hle hrest => ?_,
    fun hge hcut => ?_, fun ext dl more hge hrest => ?_⟩
  · obtain rfl := hzero.2 hlt
    exact decodeTuya_lit_cut (by omega)
  · obtain rfl := hzero.2 hlt
    have hdata : (rest.take ((0#3 ++ m : Byte).toNat + 1)).length = m.toNat + 1 := by
      rw [List.length_take_of_le hlen]
      omega
    simpa only [List.take_append_drop] using decodeTuya_lit (rest.drop ((0#3 ++ m : Byte).toNat + 1)) hdata
  · subst hnil
    by_cases h7 : t = 7#3
    · subst h7
      exact decodeTuya_copyL_cut m (by simp)
    · exact decodeTuya_copyS_cut (fun h0 => absurd (hzero.1 h0) (by omega)) h7 m
  · subst hrest
    have h0 : t ≠ 0#3 := fun h0 => absurd (hzero.1 h0) (by omega)
    have h7 : t ≠ 7#3 := fun h7 => absurd (hseven.1 h7) (by omega)
    exact ⟨t, m ++ dl, decodeTuya_copyS h0 h7 m dl more, rfl, distanceOf_append m dl⟩
  · obtain rfl := hseven.2 hge
    exact decodeTuya_copyL_cut m hcut
  · subst hrest
    obtain rfl := hseven.2 hge
    exact ⟨m ++ dl, decodeTuya_copyL m ext dl more, rfl, distanceOf_append m dl⟩

end Sys2Proof
end

section
/-! PROOFS. What the illegal command and an ignored LEVEL do, the frame around a payload, and a serialised pulse
(30_encoding.md R72, R73, R76, R80). -/

namespace Sys2Proof.Machine

open Sys2Proof

/-! ### The illegal command -/

theorem exec_illegal_effect (word : Word) (s : State) :
    exec (.illegal word) s =
      .next { s with err := 0x0306, pos := 0, warn := 0, status := .fault, work := Work.closed } :=
  exec_illegal word s

theorem engineTurn_illegal {s : State} {word : Word} (hb : s.status = .busy) (ho : s.work.opened = false)
    (hc : s.command = .illegal word) :
    s.engineTurn = .next { s with err := 0x0306, pos := 0, warn := 0, status := .fault, work := Work.closed } := by
  rw [engineTurn_not_opened hb ho, hc, exec_illegal_effect]

theorem regWrite_cmd {s : State} (hb : s.status ≠ .busy) (v : Word) :
    s.regWrite 2 v = { s with cmd := v, status := .busy, work := Work.closed } := if_neg hb

/-- Settles O5: the word starts an operation, and the engine's turn carries out the illegal one. -/
theorem illegalCommand : Obligations.IllegalCommand := by
  refine ⟨fun w => ?_, exec_illegal_effect, fun s w rest hb hw => ⟨?_, ?_⟩⟩
  · rw [decodeCommand_eq_illegal_iff, legalCommand_eq_false_iff]
  · exact step_eq_of_transact (regWrite_cmd (s := { s with sched := .engine :: rest }) hb w)
  · have hd : decodeCommand w = .illegal w := decodeCommand_of_not_legal ((legalCommand_eq_false_iff w).2 hw)
    exact (step_engine { s with cmd := w, status := .busy, work := Work.closed } rest).trans (engineTurn_illegal rfl rfl hd)

/-! ### LEVEL -/

/-- An operation that does not use LEVEL runs alike at any two of them. -/
theorem exec_operation_level {op : Nat} {l l' : BitVec 2} {i j : Instr} (hop : op ∈ [1, 2, 3, 4, 6, 7, 8, 10])
    (hi : operation op l = some i) (hj : operation op l' = some j) (s : State) : exec i s = exec j s := by
  simp only [List.mem_cons, List.not_mem_nil, or_false] at hop
  rcases hop with rfl | rfl | rfl | rfl | rfl | rfl | rfl | rfl
  all_goals
    cases hi
    cases hj
    rfl

/-- Settles O49: legal words with the same OP decode to the same operation, at two LEVELs. -/
theorem levelIgnored : Obligations.LevelIgnored := by
  refine ⟨fun v hv h1 h11 => ?_, fun v w s hv hw hop hmem => ?_⟩
  · obtain ⟨-, hne, -⟩ := operation_spec (decodeCommand_of_legal ((legalCommand_iff v).2 ⟨hv, h1, h11⟩))
    exact hne
  · have hrange : ∀ n ∈ [1, 2, 3, 4, 6, 7, 8, 10], 1 ≤ n ∧ n ≤ 11 := by decide
    have hlv := decodeCommand_of_legal ((legalCommand_iff v).2 ⟨hv, hrange _ hmem⟩)
    have hlw := decodeCommand_of_legal ((legalCommand_iff w).2 ⟨hw, hop ▸ hrange _ hmem⟩)
    rw [← hop] at hlw
    exact exec_operation_level hmem hlv hlw s

/-! ### A serialised pulse -/

/-- Settles O13: the turn emits the low byte and the high byte, or does not fit. -/
theorem pulse16Form : Obligations.Pulse16Form := by
  intro s p
  have hturn : pulse16Turn s.params p s.work =
      if s.work.out.length + 2 ≤ s.params.obufBytes then
        .more { s.work with out := s.work.out ++ [lo8 p, hi8 p], pos := s.work.pos + 1 }
      else .raise .capacityExceeded none s.work.warn :=
    emitting_emit s.work (s.work.pos + 1) s.params.obufBytes [lo8 p, hi8 p]
  refine ⟨fun hfit => ?_, fun hover => ⟨_, exec_pulse16 p s, ?_⟩⟩
  · rw [exec_pulse16, hturn, if_pos hfit, applyTurn_more, lo8_eq_ofNat, hi8_eq_ofNat]
  · rw [hturn, if_neg (Nat.not_le.2 hover), applyTurn_raise]
    exact takeFault_overflowedBytes s s.work.warn

/-! ### The frame around a payload -/

/-- The number of padding bytes after a payload of `n` bytes, in closed form. -/
theorem blPadding_eq (n : Nat) : blPadding n = (16 - (n + 10) % 16) % 16 := rfl

theorem blFrame_eq_refFrame (payload : List Byte) : blFrame payload = refFrame payload := rfl

/-- The frame taken apart: header, payload, trailer, padding. -/
theorem blFrame_eq (payload : List Byte) :
    blFrame payload = [blIr, 0x00#8, BitVec.ofNat 8 (payload.length % 256), BitVec.ofNat 8 (payload.length / 256)] ++
      (payload ++ (blTrailer ++ List.replicate (blPadding payload.length) 0#8)) := by
  simp [blFrame]

theorem blFrame_length (payload : List Byte) : (blFrame payload).length = payload.length + 6 + blPadding payload.length := by
  simp [blFrame, blTrailer]
  omega

/-- What stands in the frame after the payload. -/
theorem blFrame_getElem?_after (payload : List Byte) (k : Nat) :
    (blFrame payload)[4 + payload.length + k]? = (blTrailer ++ List.replicate (blPadding payload.length) 0#8)[k]? := by
  rw [blFrame_eq, List.getElem?_append_right (by simp; omega), List.getElem?_append_right (by simp; omega)]
  congr 1
  simp
  omega

/-- Settles O20: the length modulo 16 by arithmetic, the content part by part. -/
theorem framePadding : Obligations.FramePadding := by
  intro payload
  have hpad := blPadding_eq payload.length
  have hlen := blFrame_length payload
  rw [← blFrame_eq_refFrame]
  refine ⟨rfl, by omega, by omega, by omega, rfl, ?_, ?_, ?_, fun k hk hlt => ?_⟩
  · rw [blFrame_eq, List.drop_left' (by rfl), List.take_left]
  · exact blFrame_getElem?_after payload 0
  · rw [show 5 + payload.length = 4 + payload.length + 1 by omega]
    exact blFrame_getElem?_after payload 1
  · obtain ⟨j, rfl⟩ := Nat.exists_eq_add_of_le hk
    rw [show 6 + payload.length + j = 4 + payload.length + (2 + j) by omega, blFrame_getElem?_after]
    rw [List.getElem?_append_right (by simp [blTrailer])]
    rw [List.getElem?_replicate_of_lt (by simp [blTrailer]; omega)]
    rfl

end Sys2Proof.Machine
end

section
/-! SUPPORT. What the turns of PRONTO_DEC answer, case by case, and what a run of them ends in (40_pronto.md R100 to R106). -/

namespace Sys2Proof

/-! ### The errors of the header's decoder -/

theorem decodeProntoHeader_short {bs : List Byte} (h : bs.length < 2) : decodeProntoHeader bs = .error .badLength := by
  match bs, h with
  | [], _ => rfl
  | [_], _ => rfl

theorem decodeProntoHeader_badPreamble {a b : Byte} (h : a ≠ 0 ∨ b ≠ 0) (rest : List Byte) :
    decodeProntoHeader (a :: b :: rest) = .error .badPreamble := by
  refine if_neg fun hz => ?_
  obtain ⟨ha, hb⟩ := be16_eq_zero hz
  exact h.elim (· ha) (· hb)

theorem decodeProntoHeader_badLength {rest : List Byte} (h : rest.length % 2 = 1 ∨ rest.length < 6) :
    decodeProntoHeader (0 :: 0 :: rest) = .error .badLength := by
  have hpre : be16 0 0 = 0#16 := rfl
  rcases h with hodd | hcut
  · have hodd' : (0#8 :: 0#8 :: rest).length % 2 = 1 := by
      simp only [List.length_cons]
      omega
    unfold decodeProntoHeader
    dsimp only
    rw [if_pos hpre]
    exact if_pos hodd'
  · rw [decodeProntoHeader, if_pos hpre, ite_self]
    rintro d1 d0 o1 o0 r1 r0 tail rfl
    simp only [List.length_cons] at hcut
    omega

end Sys2Proof

namespace Sys2Proof.Machine

open Sys2Proof

/-! ### A Pronto code taken apart -/

section
variable {data rest : List Byte} {d o r : BitVec 16}

theorem length_of_header (h : data = formBytes (.prontoHeader d o r) ++ rest) : data.length = 8 + rest.length := by
  rw [h, List.length_append]
  rfl

theorem drop_of_header (h : data = formBytes (.prontoHeader d o r) ++ rest) : data.drop 8 = rest := by
  rw [h]
  rfl

theorem prontoDivisor_of_header (h : data = formBytes (.prontoHeader d o r) ++ rest) : prontoDivisor data = d := by
  rw [h]
  exact be16_hi8_lo8 d

theorem decodeProntoHeader_of_header (h : data = formBytes (.prontoHeader d o r) ++ rest) (heven : rest.length % 2 = 0) :
    decodeProntoHeader data = .ok (.prontoHeader d o r) := by
  have hdec := decodeProntoHeader_prontoHeader (hi8 d) (lo8 d) (hi8 o) (lo8 o) (hi8 r) (lo8 r) heven
  rw [be16_hi8_lo8, be16_hi8_lo8, be16_hi8_lo8] at hdec
  rw [h]
  exact hdec

theorem decodeProntoHeader_of_odd_header (h : data = formBytes (.prontoHeader d o r) ++ rest) (hodd : rest.length % 2 = 1) :
    decodeProntoHeader data = .error .badLength := by
  have hlong : (hi8 d :: lo8 d :: hi8 o :: lo8 o :: hi8 r :: lo8 r :: rest).length % 2 = 1 := by
    simp only [List.length_cons]
    omega
  rw [h]
  exact decodeProntoHeader_badLength (.inl hlong)

end

theorem burstWords_length : ∀ bs : List Byte, (burstWords bs).length = bs.length / 2
  | [] => rfl
  | [_] => by simp [burstWords]
  | h :: l :: rest => by
    simp only [burstWords, List.length_cons, burstWords_length rest]
    omega

theorem prontoPulse_eq_refPulse (word divisor : BitVec 16) : prontoPulse word divisor = refPulse divisor word := rfl

/-! ### One turn -/

section
variable {p : Params} {data : List Byte} {w : Work}

theorem prontoTurn_of_header {d o r : BitVec 16} (h0 : w.pos = 0)
    (hd : decodeProntoHeader data = .ok (.prontoHeader d o r)) :
    prontoTurn p data w = prontoHeaderTurn data.length d o r w := by
  simp [prontoTurn, fetchPronto, h0, hd]

theorem prontoTurn_of_badPreamble (h0 : w.pos = 0) (hd : decodeProntoHeader data = .error .badPreamble) :
    prontoTurn p data w = .raise .invalidPreamble (some 0) w.warn := by
  simp [prontoTurn, fetchPronto, h0, hd]

theorem prontoTurn_of_badLength (h0 : w.pos = 0) (hd : decodeProntoHeader data = .error .badLength) :
    prontoTurn p data w = .raise .lengthMismatch (some data.length) w.warn := by
  simp [prontoTurn, fetchPronto, h0, hd]

theorem prontoTurn_of_burst {h l : Byte} {rest : List Byte} (h0 : w.pos ≠ 0) (hd : data.drop w.pos = h :: l :: rest) :
    prontoTurn p data w =
      if w.pulses.length < p.pbufEntries then
        .more { w with pulses := w.pulses ++ [refPulse (prontoDivisor data) (be16 h l)], pos := w.pos + 2 }
      else .raise .capacityExceeded none w.warn := by
  simp only [prontoTurn, fetchPronto, h0, hd, if_false, prontoBurstTurn, prontoPulse_eq_refPulse, pushing_push]

theorem prontoTurn_of_end (h0 : w.pos ≠ 0) (hd : data.drop w.pos = []) : prontoTurn p data w = .done w := by
  simp [prontoTurn, fetchPronto, h0, hd]

end

theorem prontoHeaderTurn_of_mismatch {n : Nat} {o r : BitVec 16} (h : n ≠ 8 + 4 * (o.toNat + r.toNat))
    (d : BitVec 16) (w : Work) : prontoHeaderTurn n d o r w = .raise .lengthMismatch (some n) w.warn :=
  if_pos (by omega)

theorem prontoHeaderTurn_of_match {n : Nat} {o r : BitVec 16} (h : n = 8 + 4 * (o.toNat + r.toNat))
    (d : BitVec 16) (w : Work) :
    prontoHeaderTurn n d o r w =
      if d = 0#16 then .raise .zeroCarrier (some 2) w.warn else .more { w with pos := 8 } :=
  if_neg (by omega)

/-! ### A run of turns -/

/-- The turns from a burst word on: every word is pushed and the run completes behind the last one, or PBUF has no room for them all. -/
theorem runTurns_bursts (p : Params) (data : List Byte) :
    ∀ (bursts : List Byte) (w : Work) (k : Nat), w.pos ≠ 0 → data.drop w.pos = bursts → bursts.length % 2 = 0 →
      w.pulses.length ≤ p.pbufEntries → (burstWords bursts).length < k →
      runTurns (prontoTurn p data) k w =
        if w.pulses.length + (burstWords bursts).length ≤ p.pbufEntries then
          .done { w with
            pulses := w.pulses ++ (burstWords bursts).map (refPulse (prontoDivisor data))
            pos := w.pos + bursts.length }
        else .raise .capacityExceeded none w.warn
  | _, _, 0, _, _, _, _, hk => absurd hk (Nat.not_lt_zero _)
  | [], w, k + 1, h0, hd, _, hroom, _ => by
    rw [runTurns_of_done k (prontoTurn_of_end h0 hd)]
    simp [burstWords, hroom]
  | [_], _, _ + 1, _, _, heven, _, _ => by simp at heven
  | h :: l :: rest, w, k + 1, h0, hd, heven, hroom, hk => by
    have hturn := prontoTurn_of_burst (p := p) h0 hd
    have hsize : w.pulses.length + (burstWords (h :: l :: rest)).length =
        w.pulses.length + 1 + (burstWords rest).length := by
      simp only [burstWords, List.length_cons]
      omega
    have hpos : w.pos + (h :: l :: rest).length = w.pos + 2 + rest.length := by
      simp only [List.length_cons]
      omega
    simp only [burstWords, List.length_cons] at hk heven
    rw [hsize, hpos]
    by_cases hlt : w.pulses.length < p.pbufEntries
    · rw [if_pos hlt] at hturn
      have hnext : data.drop (w.pos + 2) = rest := by rw [← List.drop_drop, hd]; rfl
      rw [runTurns_of_more k hturn,
        runTurns_bursts p data rest _ k (Nat.succ_ne_zero _) hnext (by omega) (by simpa using hlt) (by omega)]
      simp [burstWords]
    · rw [if_neg hlt] at hturn
      rw [runTurns_of_raise k hturn, if_neg (by omega)]

/-- A code that is a header with a divisor other than 0 and as many burst words as it declares: the train of its words, or PBUF has no
room for it. -/
theorem runTurns_prontoTurn_of_wellFormed (p : Params) {data rest : List Byte} {d o r : BitVec 16}
    (hdata : data = formBytes (.prontoHeader d o r) ++ rest) (hlen : rest.length = 4 * (o.toNat + r.toNat))
    (hd : d ≠ 0#16) :
    runTurns (prontoTurn p data) (turnBound data.length) Work.start =
      if 2 * (o.toNat + r.toNat) ≤ p.pbufEntries then
        .done { Work.start with pulses := (burstWords rest).map (refPulse d), pos := data.length }
      else .raise .capacityExceeded none Warn.none := by
  have hn := length_of_header hdata
  have hwords : (burstWords rest).length = 2 * (o.toNat + r.toNat) := by rw [burstWords_length]; omega
  have hheader : prontoTurn p data Work.start = .more { Work.start with pos := 8 } := by
    rw [prontoTurn_of_header rfl (decodeProntoHeader_of_header hdata (by omega)),
      prontoHeaderTurn_of_match (by omega), if_neg hd]
  have hbursts := runTurns_bursts p data rest { Work.start with pos := 8 } (data.length + 7) (by decide)
    (drop_of_header hdata) (by omega) (Nat.zero_le _) (by omega)
  calc runTurns (prontoTurn p data) (turnBound data.length) Work.start
    _ = runTurns (prontoTurn p data) (data.length + 7) { Work.start with pos := 8 } := runTurns_of_more _ hheader
    _ = _ := by rw [hbursts]; simp [hwords, hn, prontoDivisor_of_header hdata]

/-- A run whose first turn raises a fault ends in it. -/
theorem runTurns_turnBound_of_raise {f : Work → Turn} {w : Work} {c : ErrCode} {q : Option Nat} {ws : Warn} (n : Nat)
    (h : f w = .raise c q ws) : runTurns f (turnBound n) w = .raise c q ws := runTurns_of_raise (n + 7) h

end Sys2Proof.Machine
end

section
/-! PROOFS. PRONTO_DEC: the train of a well-formed code, the rounding of a pulse, and the faults in their order
(40_pronto.md R100 to R106). -/

namespace Sys2Proof.Machine

open Sys2Proof

theorem ofNat_inputBytes_length (s : State) : BitVec.ofNat 32 s.inputBytes.length = s.ilen := by simp

theorem exec_prontoDec_of_le (level : BitVec 2) {s : State} (h : s.ilen.toNat ≤ s.params.ibufBytes) :
    exec (.prontoDec level) s =
      .next (s.applyTurn toPbuf
        (runTurns (prontoTurn s.params s.inputBytes) (turnBound s.inputBytes.length) Work.start)) := by
  rw [exec_prontoDec, runBytes_of_le h, inputBytes_length]

theorem exec_prontoDec_of_raise (level : BitVec 2) {s : State} {c : ErrCode} {k : Nat}
    (h : s.ilen.toNat ≤ s.params.ibufBytes)
    (hturn : prontoTurn s.params s.inputBytes Work.start = .raise c (some k) Warn.none) :
    exec (.prontoDec level) s = .next (faultedPulses s c.word (BitVec.ofNat 32 k) 0) := by
  rw [exec_prontoDec_of_le level h, runTurns_turnBound_of_raise _ hturn]
  rfl

theorem exec_prontoDec_of_lengthMismatch (level : BitVec 2) {s : State} (h : s.ilen.toNat ≤ s.params.ibufBytes)
    (hturn : prontoTurn s.params s.inputBytes Work.start =
      .raise .lengthMismatch (some s.inputBytes.length) Warn.none) :
    exec (.prontoDec level) s = .next (faultedPulses s 0x0102 s.ilen 0) := by
  rw [exec_prontoDec_of_raise level h hturn, ofNat_inputBytes_length]
  rfl

/-- Settles O15: the run of `runTurns_prontoTurn_of_wellFormed`, where the words fit. -/
theorem prontoDecode : Obligations.ProntoDecode := by
  intro s level d o r rest hcap hinput hlen hd hroom
  have hrun := runTurns_prontoTurn_of_wellFormed s.params hinput hlen hd
  rw [if_pos hroom] at hrun
  rw [exec_prontoDec_of_le level hcap, hrun, applyTurn_done, complete_toPbuf, ofNat_inputBytes_length]
  rfl

/-! ### The rounding of a pulse -/

theorem mul_toNat_le (v u : BitVec 16) : v.toNat * u.toNat ≤ 65535 * 65535 :=
  Nat.mul_le_mul (Nat.le_of_lt_succ v.isLt) (Nat.le_of_lt_succ u.isLt)

/-- The pulse as a number: the rounded product is below `2^32`. -/
theorem refPulse_toNat (d v : BitVec 16) :
    (refPulse d v).toNat = (v.toNat * d.toNat * 120623 + 250000) / 500000 := by
  have hprod := mul_toNat_le v d
  rw [refPulse, BitVec.toNat_ofNat, Nat.mod_eq_of_lt (by omega)]

/-- Settles O16: the quotient of `refPulse_toNat` against its dividend. -/
theorem prontoPulseRounding : Obligations.ProntoPulseRounding := by
  intro d v
  have hprod := mul_toNat_le v d
  rw [refPulse_toNat]
  exact ⟨prontoPulse_eq_refPulse v d, by omega, by omega, by omega⟩

/-! ### The faults -/

/-- A header in front of another number of bytes than it declares: the decoder refuses an odd one, the header's turn any other. -/
theorem prontoTurn_of_wrongLength (p : Params) {data rest : List Byte} {d o r : BitVec 16}
    (hdata : data = formBytes (.prontoHeader d o r) ++ rest) (h : rest.length ≠ 4 * (o.toNat + r.toNat)) :
    prontoTurn p data Work.start = .raise .lengthMismatch (some data.length) Warn.none := by
  have hn := length_of_header hdata
  rcases Nat.mod_two_eq_zero_or_one rest.length with heven | hodd
  · rw [prontoTurn_of_header rfl (decodeProntoHeader_of_header hdata heven)]
    exact prontoHeaderTurn_of_mismatch (by omega) d Work.start
  · exact prontoTurn_of_badLength rfl (decodeProntoHeader_of_odd_header hdata hodd)

theorem prontoTurn_of_zeroDivisor (p : Params) {data rest : List Byte} {o r : BitVec 16}
    (hdata : data = formBytes (.prontoHeader 0 o r) ++ rest) (h : rest.length = 4 * (o.toNat + r.toNat)) :
    prontoTurn p data Work.start = .raise .zeroCarrier (some 2) Warn.none := by
  have hn := length_of_header hdata
  rw [prontoTurn_of_header rfl (decodeProntoHeader_of_header hdata (by omega)), prontoHeaderTurn_of_match (by omega)]
  rfl

/-- Settles O17: each fault but the last is that of the first turn; the last is the run's, where the words do not fit. -/
theorem prontoFaults : Obligations.ProntoFaults := by
  intro s level hcap
  refine ⟨fun hshort => ?_, fun a b rest hinput hpre => ?_, fun rest hinput hlen => ?_,
    fun d o r rest hinput => ⟨fun hlen => ?_, fun hlen hd => ?_, fun hlen hd hroom => ?_⟩⟩
  · have hdec := decodeProntoHeader_short (bs := s.inputBytes) (by simpa using hshort)
    exact exec_prontoDec_of_lengthMismatch level hcap (prontoTurn_of_badLength rfl hdec)
  · have hdec : decodeProntoHeader s.inputBytes = _ := hinput ▸ decodeProntoHeader_badPreamble hpre rest
    exact exec_prontoDec_of_raise level hcap (prontoTurn_of_badPreamble rfl hdec)
  · have hdec : decodeProntoHeader s.inputBytes = .error .badLength :=
      hinput ▸ decodeProntoHeader_badLength hlen
    exact exec_prontoDec_of_lengthMismatch level hcap (prontoTurn_of_badLength rfl hdec)
  · exact exec_prontoDec_of_lengthMismatch level hcap (prontoTurn_of_wrongLength s.params hinput hlen)
  · subst hd
    exact exec_prontoDec_of_raise level hcap (prontoTurn_of_zeroDivisor s.params hinput hlen)
  · have hrun := runTurns_prontoTurn_of_wellFormed s.params hinput hlen hd
    rw [if_neg (Nat.not_le.2 hroom)] at hrun
    refine ⟨_, exec_prontoDec_of_le level hcap, ?_⟩
    rw [hrun, applyTurn_raise]
    exact takeFault_overflowedPulses s Warn.none

end Sys2Proof.Machine
end

section
/-! PROOFS. The two Broadlink scalings: their closed forms, their thresholds and the drift of a decoded tick (41_broadlink.md R111, R112,
R119, R121; 70_reset_and_hazards.md R255). -/

namespace Sys2Proof.Machine

open Sys2Proof

theorem tick_eq_refTick (p : Word) : tick p = refTick p := rfl

theorem rescale_eq_refMicros (t : Nat) : rescale t = refMicros t := rfl

theorem blPayload_eq_refPayload (ps : List Word) : blPayload ps = refPayload ps := rfl

theorem lt_refMicros_iff (t : Nat) : 65535 < refMicros t ↔ 2152 ≤ t := by
  unfold refMicros
  omega

/-- The largest tick is 1995772 microseconds (41_broadlink.md R121). -/
theorem refMicros_le {t : Nat} (h : t < 65536) : refMicros t ≤ 1995772 := by
  unfold refMicros
  omega

theorem refTick_ofNat {n : Nat} (h : n < 2 ^ 32) : refTick (BitVec.ofNat 32 n) = n * 269 / 8192 := by
  rw [refTick, BitVec.toNat_ofNat, Nat.mod_eq_of_lt h]

/-- Scaling a decoded tick down again gives the tick or the one below (70_reset_and_hazards.md R255). -/
theorem refTick_refMicros {t : Nat} (h : t < 65536) :
    refTick (BitVec.ofNat 32 (refMicros t)) = t ∨ refTick (BitVec.ofNat 32 (refMicros t)) + 1 = t := by
  have hle := refMicros_le h
  rw [refTick_ofNat (by omega)]
  unfold refMicros
  omega

/-- A pulse is less than `8192/269 + 1/2` microseconds from what its tick stands for (41_broadlink.md R126). -/
theorem refMicros_refTick_near (p : Word) :
    538 * p.toNat < 538 * refMicros (refTick p) + 16653 ∧ 538 * refMicros (refTick p) < 538 * p.toNat + 16653 := by
  unfold refMicros refTick
  omega

/-- Settles O25: each threshold by arithmetic on the closed forms. -/
theorem tickThresholds : Obligations.TickThresholds := by
  refine ⟨fun p => ?_, fun t ht => ⟨rfl, lt_refMicros_iff t, refMicros_le ht, refTick_refMicros ht⟩⟩
  rw [tick_eq_refTick]
  unfold refTick
  omega

end Sys2Proof.Machine
end

section
/-! PROOFS. SER16: what its turns answer, what a run of them over the pulses at the front of a train ends in, and its faults
(41_broadlink.md R125). -/

namespace Sys2Proof.Machine

open Sys2Proof

theorem refSerial_cons (v : Word) (ps : List Word) :
    refSerial (v :: ps) = [BitVec.ofNat 8 (v.toNat % 256), BitVec.ofNat 8 (v.toNat / 256)] ++ refSerial ps := rfl

/-! ### One turn -/

section
variable {p : Params} {pulses rest : List Word} {v : Word} {w : Work}

theorem serTurn_of_end (h : pulses.drop w.pos = []) : serTurn p pulses w = .done w := by
  simp [serTurn, fetchSer, h]

theorem serTurn_of_gt (h : pulses.drop w.pos = v :: rest) (hv : 65535 < v.toNat) :
    serTurn p pulses w = .raise .valueRange (some w.pos) w.warn := by
  simp [serTurn, fetchSer, h, pulse16Max, hv]

theorem serTurn_of_le (h : pulses.drop w.pos = v :: rest) (hv : v.toNat ≤ 65535) :
    serTurn p pulses w =
      if w.out.length + 2 ≤ p.obufBytes then .more { w with out := w.out ++ refSerial [v], pos := w.pos + 1 }
      else .raise .capacityExceeded none w.warn := by
  have hv16 : (v.setWidth 16).toNat = v.toNat := by
    rw [BitVec.toNat_setWidth]
    omega
  have hfetch : fetchSer pulses w = .form (.pulse16 (v.setWidth 16)) := by
    simp [fetchSer, h, pulse16Max, Nat.not_lt.2 hv]
  have hturn : serTurn p pulses w = pulse16Turn p (v.setWidth 16) w := by rw [serTurn, hfetch]
  rw [hturn, pulse16Turn, emitting_emit, lo8_eq_ofNat, hi8_eq_ofNat, hv16]
  rfl

end

/-! ### A run of turns -/

/-- The turns on the next pulses, all up to 65535: each is written and the run goes on behind them, or OBUF has no room for them all. -/
theorem runTurns_serTurn (p : Params) (pulses rest : List Word) (k : Nat) :
    ∀ (front : List Word) (w : Work), pulses.drop w.pos = front ++ rest → (∀ v ∈ front, v.toNat ≤ 65535) →
      w.out.length ≤ p.obufBytes →
      runTurns (serTurn p pulses) (front.length + k) w =
        if w.out.length + 2 * front.length ≤ p.obufBytes then
          runTurns (serTurn p pulses) k { w with out := w.out ++ refSerial front, pos := w.pos + front.length }
        else .raise .capacityExceeded none w.warn
  | [], w, _, _, hroom => by simp [refSerial, hroom]
  | v :: front, w, hd, hle, _ => by
    have hturn := serTurn_of_le (p := p) hd (hle v (by simp))
    have hcount : (v :: front).length + k = (front.length + k) + 1 := by simp only [List.length_cons]; omega
    have hsize : w.out.length + 2 * (v :: front).length = w.out.length + 2 + 2 * front.length := by
      simp only [List.length_cons]
      omega
    rw [hcount, hsize]
    by_cases hfit : w.out.length + 2 ≤ p.obufBytes
    · rw [if_pos hfit] at hturn
      have hnext : pulses.drop (w.pos + 1) = front ++ rest := by rw [← List.drop_drop, hd]; rfl
      have hlen : (w.out ++ refSerial [v]).length = w.out.length + 2 := by simp [refSerial]
      rw [runTurns_of_more _ hturn,
        runTurns_serTurn p pulses rest k front _ hnext (fun u hu => hle u (by simp [hu])) (hlen ▸ hfit)]
      simp [refSerial, Nat.add_assoc, Nat.add_comm 1]
    · rw [if_neg hfit] at hturn
      rw [runTurns_of_raise _ hturn, if_neg (by omega)]

/-- A train with pulses up to 65535 at its front, from the start: turns are left for what follows them. -/
theorem runTurns_serTurn_start (p : Params) {pulses front rest : List Word} (hp : pulses = front ++ rest)
    (hle : ∀ v ∈ front, v.toNat ≤ 65535) :
    ∃ k, runTurns (serTurn p pulses) (turnBound pulses.length) Work.start =
      if 2 * front.length ≤ p.obufBytes then
        runTurns (serTurn p pulses) (k + 1) { Work.start with out := refSerial front, pos := front.length }
      else .raise .capacityExceeded none Warn.none := by
  have hbound : turnBound pulses.length = front.length + (rest.length + 7 + 1) := by
    rw [hp, turnBound, List.length_append, Nat.add_assoc]
  refine ⟨rest.length + 7, ?_⟩
  rw [hbound, runTurns_serTurn p pulses rest _ front Work.start (by simpa using hp) hle (Nat.zero_le _)]
  simp

/-! ### The operation -/

theorem ofNat_inputPulses_length (s : State) : BitVec.ofNat 32 s.inputPulses.length = s.plen := by simp

theorem exec_ser16_of_le (level : BitVec 2) {s : State} (h : s.plen.toNat ≤ s.params.pbufEntries) :
    exec (.ser16 level) s =
      .next (s.applyTurn toObuf
        (runTurns (serTurn s.params s.inputPulses) (turnBound s.inputPulses.length) Work.start)) := by
  rw [exec_ser16, runPulses_of_le h, inputPulses_length]

/-- Settles O26: the whole train is its own front, and the turn behind it completes. -/
theorem serialise : Obligations.Serialise := by
  intro s level hcap hle hroom
  obtain ⟨k, hrun⟩ := runTurns_serTurn_start s.params (List.append_nil _).symm hle
  rw [inputPulses_length, if_pos hroom] at hrun
  have hend := serTurn_of_end (p := s.params) (pulses := s.inputPulses)
    (w := { Work.start with out := refSerial s.inputPulses, pos := s.plen.toNat }) (by simp)
  rw [exec_ser16_of_le level hcap, inputPulses_length, hrun, runTurns_of_done k hend, applyTurn_done, complete_toObuf,
    BitVec.ofNat_toNat, BitVec.setWidth_eq]
  rfl

/-- Settles O27: the turn behind the front faults, or the front itself does not fit. -/
theorem serialiseRange : Obligations.SerialiseRange := by
  intro s level before after hcap hle
  refine ⟨fun v hp hv hroom => ?_, fun hp hover => ?_⟩
  · obtain ⟨k, hrun⟩ := runTurns_serTurn_start s.params hp hle
    have hturn := serTurn_of_gt (p := s.params) (pulses := s.inputPulses) (rest := after)
      (w := { Work.start with out := refSerial before, pos := before.length }) (by rw [hp, List.drop_left]) hv
    rw [exec_ser16_of_le level hcap, hrun, if_pos hroom, runTurns_of_raise k hturn]
    rfl
  · obtain ⟨k, hrun⟩ := runTurns_serTurn_start s.params hp hle
    refine ⟨_, exec_ser16_of_le level hcap, ?_⟩
    rw [hrun, if_neg (Nat.not_le.2 hover), applyTurn_raise]
    exact takeFault_overflowedBytes s Warn.none

end Sys2Proof.Machine
end

section
/-! PROOFS. BL_ENC: what its pass over the ticks answers, what its one turn answers, and its faults (41_broadlink.md R110 to R115). -/

namespace Sys2Proof.Machine

open Sys2Proof

/-! ### The pass over the ticks -/

/-- The warnings gathered over some pulses: ZERO_TICK where a tick is 0 (41_broadlink.md R113). -/
def Warn.ofTicks (ws : Warn) (ps : List Word) : Warn := { ws with zeroTick := ws.zeroTick || ps.any (fun p => refTick p == 0) }

theorem ofTicks_cons (ws : Warn) (v : Word) (ps : List Word) :
    ws.ofTicks (v :: ps) = (if tick v = 0 then { ws with zeroTick := true } else ws).ofTicks ps := by
  rw [tick_eq_refTick]
  by_cases hv : refTick v = 0
  · simp [Warn.ofTicks, hv]
  · simp [Warn.ofTicks, hv, beq_false_of_ne hv]

theorem none_ofTicks_word (ps : List Word) :
    (Warn.none.ofTicks ps).word = if ps.any (fun p => refTick p == 0) then 2 else 0 := by
  simp [Warn.ofTicks, Warn.none, Warn.word]

/-- The pass goes over ticks in range and gathers their warnings (41_broadlink.md R112, R113). -/
theorem checkTicks_append {before : List Word} (hle : ∀ p ∈ before, refTick p ≤ 65535) (rest : List Word) (i : Nat) (ws : Warn) :
    checkTicks i ws (before ++ rest) = checkTicks (i + before.length) (ws.ofTicks before) rest := by
  induction before generalizing i ws with
  | nil => simp [Warn.ofTicks]
  | cons v before ih =>
    have hv : ¬ 65535 < tick v := Nat.not_lt.2 (hle v (by simp))
    rw [List.cons_append, checkTicks, if_neg hv, ih (fun p hp => hle p (by simp [hp])), ← ofTicks_cons, List.length_cons,
      Nat.add_assoc, Nat.add_comm 1]

theorem checkTicks_of_le {ps : List Word} (hle : ∀ p ∈ ps, refTick p ≤ 65535) (i : Nat) (ws : Warn) :
    checkTicks i ws ps = .ok (ws.ofTicks ps) := by
  have happ := checkTicks_append hle [] i ws
  rwa [List.append_nil] at happ

theorem checkTicks_of_gt {before : List Word} {v : Word} (hle : ∀ p ∈ before, refTick p ≤ 65535) (hv : 65535 < refTick v)
    (after : List Word) (i : Nat) (ws : Warn) :
    checkTicks i ws (before ++ v :: after) = .error (i + before.length, ws.ofTicks before) := by
  rw [checkTicks_append hle]
  exact if_pos hv

/-! ### Its turn -/

/-- The turn on a train that PBUF holds and whose first tick out of range stands behind `before`. -/
theorem blEncTurn_of_tick_gt {p : Params} {ps before after : List Word} {v : Word} (hcap : ps.length ≤ p.pbufEntries)
    (hp : ps = before ++ v :: after) (hle : ∀ p ∈ before, refTick p ≤ 65535) (hv : 65535 < refTick v) (w : Work) :
    blEncTurn p ps w = .raise .valueRange (some before.length) (w.warn.ofTicks before) := by
  rw [blEncTurn, if_neg (Nat.not_lt.2 hcap), hp, checkTicks_of_gt hle hv, Nat.zero_add]

/-- The turn on a train that PBUF holds and whose ticks are all in range. -/
theorem blEncTurn_of_ticks_le {p : Params} {ps : List Word} (hcap : ps.length ≤ p.pbufEntries)
    (hle : ∀ p ∈ ps, refTick p ≤ 65535) (w : Work) :
    blEncTurn p ps w =
      if 65535 < (refPayload ps).length then .raise .valueRange (some ps.length) (w.warn.ofTicks ps)
      else if w.out.length + (refFrame (refPayload ps)).length ≤ p.obufBytes then
        .done { w with out := w.out ++ refFrame (refPayload ps), pos := ps.length, warn := w.warn.ofTicks ps }
      else .raise .capacityExceeded none (w.warn.ofTicks ps) := by
  rw [blEncTurn, if_neg (Nat.not_lt.2 hcap), checkTicks_of_le hle, blPayload_eq_refPayload, blFrame_eq_refFrame]
  cases hemit : emit p.obufBytes (refFrame (refPayload ps)) w.out with
  | error c =>
    obtain ⟨hover, rfl⟩ := (emit_eq_error_iff _ _ _ _).1 hemit
    rw [if_neg (Nat.not_le.2 hover)]
  | ok out =>
    obtain ⟨hroom, rfl⟩ := (emit_eq_ok_iff _ _ _ _).1 hemit
    rw [if_pos hroom]

/-! ### The operation -/

theorem runTurns_turnBound_of_done {f : Work → Turn} {w w' : Work} (n : Nat) (h : f w = .done w') :
    runTurns f (turnBound n) w = .done w' := runTurns_of_done (n + 7) h

theorem exec_blEnc_of_le (level : BitVec 2) {s : State} (h : s.plen.toNat ≤ s.params.pbufEntries) :
    exec (.blEnc level) s =
      .next (s.applyTurn toObuf (runTurns (blEncTurn s.params s.inputPulses) (turnBound s.plen.toNat) Work.start)) := by
  rw [exec_blEnc, runPulses_of_le h]

theorem exec_blEnc_of_raise (level : BitVec 2) {s : State} {c : ErrCode} {q : Option Nat} {ws : Warn}
    (h : s.plen.toNat ≤ s.params.pbufEntries) (hturn : blEncTurn s.params s.inputPulses Work.start = .raise c q ws) :
    exec (.blEnc level) s = .next (s.takeFault toObuf c q ws) := by
  rw [exec_blEnc_of_le level h, runTurns_turnBound_of_raise _ hturn, applyTurn_raise]

/-- Settles O18: the one turn completes with the frame. -/
theorem blEncode : Obligations.BlEncode := by
  intro s level hcap hle hpay hroom
  have hturn := blEncTurn_of_ticks_le (by simpa using hcap) hle Work.start
  rw [if_neg (Nat.not_lt.2 hpay), if_pos (by simpa using hroom)] at hturn
  rw [exec_blEnc_of_le level hcap, runTurns_turnBound_of_done _ hturn, applyTurn_done, complete_toObuf,
    ofNat_inputPulses_length, ← none_ofTicks_word]
  rfl

/-- Settles O19: the one turn faults at the first tick out of range, at the payload or at the frame. -/
theorem blEncodeRange : Obligations.BlEncodeRange := by
  intro s level hcap
  have hcap' : s.inputPulses.length ≤ s.params.pbufEntries := by simpa using hcap
  refine ⟨fun before after v hp hle hv => ?_, fun hle hpay => ?_, fun hle hpay hover => ?_⟩
  · rw [exec_blEnc_of_raise level hcap (blEncTurn_of_tick_gt hcap' hp hle hv Work.start), takeFault_toObuf,
      ← none_ofTicks_word]
    rfl
  · have hturn := blEncTurn_of_ticks_le hcap' hle Work.start
    rw [if_pos hpay] at hturn
    rw [exec_blEnc_of_raise level hcap hturn, takeFault_toObuf, ofNat_inputPulses_length, ← none_ofTicks_word]
    rfl
  · have hturn := blEncTurn_of_ticks_le hcap' hle Work.start
    rw [if_neg (Nat.not_lt.2 hpay), if_neg (by simpa using hover)] at hturn
    refine ⟨_, exec_blEnc_of_raise level hcap hturn, ?_⟩
    rw [← none_ofTicks_word]
    exact takeFault_overflowedBytes s _

end Sys2Proof.Machine
end

section
/-! SUPPORT. What the turns of BL_DEC answer, case by case, and what a run of them over the codes at the front of a payload ends in
(41_broadlink.md R116 to R122). -/

namespace Sys2Proof

theorem decodeBlHeader_unsupported {b : Byte} (h : b ≠ 0x26) (rest : List Byte) :
    decodeBlHeader (b :: rest) = .error .unsupportedType := if_neg h

theorem decodeBlHeader_cut {rest : List Byte} (h : rest.length < 3) :
    decodeBlHeader (0x26 :: rest) = .error .truncated := by
  match rest, h with
  | [], _ => rfl
  | [_], _ => rfl
  | [_, _], _ => rfl

theorem decodePulse_cut {rest : List Byte} (h : rest.length < 2) : decodePulse (0#8 :: rest) = .error .truncated := by
  match rest, h with
  | [], _ => rfl
  | [_], _ => rfl

end Sys2Proof

namespace Sys2Proof.Machine

open Sys2Proof

/-! ### The warning for a byte left over -/

/-- The warnings after an early stop with some bytes left over (41_broadlink.md R122). -/
def Warn.ofLeftover (ws : Warn) (leftover : List Byte) : Warn :=
  if leftover.any (fun b => b != 0#8) then { ws with trailingNonzero := true } else ws

theorem ofLeftover_word_of_any {leftover : List Byte} (h : leftover.any (fun b => b != 0#8) = true) (ws : Warn) :
    (ws.ofLeftover leftover).word = ws.word ||| 1 := by
  rw [Warn.ofLeftover, if_pos h]
  obtain ⟨_ | _, _ | _⟩ := ws <;> rfl

theorem ofLeftover_of_not_any {leftover : List Byte} (h : leftover.any (fun b => b != 0#8) = false) (ws : Warn) :
    ws.ofLeftover leftover = ws := by
  rw [Warn.ofLeftover, h]
  rfl

theorem none_ofLeftover_word (leftover : List Byte) :
    (Warn.none.ofLeftover leftover).word = if leftover.any (fun b => b != 0) then 1 else 0 := by
  rw [Warn.ofLeftover, apply_ite Warn.word]
  rfl

/-! ### Codes and their bytes -/

/-- A code that BL_DEC reads and pushes: its pulse is at most 65535 microseconds. -/
abbrev PushedCode (c : Instr) : Prop := isPulseCode c = true ∧ codeMicros c ≤ 65535

theorem formsBytes_cons (c : Instr) (codes : List Instr) : formsBytes (c :: codes) = formBytes c ++ formsBytes codes := rfl

/-- A code of a payload is at its front whatever follows it. -/
theorem decodePulse_formBytes {c : Instr} (h : isPulseCode c = true) (rest : List Byte) :
    decodePulse (formBytes c ++ rest) = .ok c := by
  cases c with
  | p8 v => exact decodePulse_p8 (bne_iff_ne.1 h) rest
  | p16 v =>
    have hdec := decodePulse_p16 (hi8 v) (lo8 v) rest
    rwa [be16_hi8_lo8] at hdec
  | _ => cases h

theorem formBytes_length_pos {c : Instr} (h : isPulseCode c = true) : 0 < (formBytes c).length := by
  cases c with
  | p8 v => exact Nat.one_pos
  | p16 v => exact Nat.succ_pos 2
  | _ => cases h

theorem length_le_formsBytes {codes : List Instr} (h : ∀ c ∈ codes, isPulseCode c = true) :
    codes.length ≤ (formsBytes codes).length := by
  induction codes with
  | nil => exact Nat.le_refl 0
  | cons c codes ih =>
    have hc := formBytes_length_pos (h c (by simp))
    have hcodes := ih fun d hd => h d (by simp [hd])
    rw [formsBytes_cons, List.length_append, List.length_cons]
    omega

/-- What is left of the payload at a cursor in front of some bytes. -/
theorem between_of_drop {pos stop : Nat} {data enc rest : List Byte} (hd : data.drop pos = enc ++ rest)
    (hfit : pos + enc.length ≤ stop) : between pos stop data = enc ++ rest.take (stop - pos - enc.length) := by
  rw [between, List.drop_take, hd, List.take_append, List.take_of_length_le (by omega)]

/-! ### A packet taken apart -/

theorem length_of_blHeader {data rest : List Byte} {rep : Byte} {length : BitVec 16}
    (h : data = formBytes (.blHeader rep length) ++ rest) : data.length = 4 + rest.length := by
  rw [h, List.length_append]
  rfl

theorem drop_of_blHeader {data rest : List Byte} {rep : Byte} {length : BitVec 16}
    (h : data = formBytes (.blHeader rep length) ++ rest) : data.drop 4 = rest := by
  rw [h]
  rfl

/-! ### One turn -/

theorem blCodeTurn_eq (p : Params) (leftover : List Byte) (size v : Nat) (w : Work) :
    blCodeTurn p leftover size v w =
      if 65535 < refMicros v then .done { w with pos := w.pos + size, warn := w.warn.ofLeftover leftover }
      else if w.pulses.length < p.pbufEntries then
        .more { w with pulses := w.pulses ++ [BitVec.ofNat 32 (refMicros v)], pos := w.pos + size }
      else .raise .capacityExceeded none w.warn := by
  rw [blCodeTurn, pushing_push]
  rfl

theorem blHeaderTurn_of_short {length : BitVec 16} (h : length.toNat < 3) (n : Nat) (w : Work) :
    blHeaderTurn n length w = .raise .truncatedPacket (some 2) w.warn := if_pos h

theorem blHeaderTurn_of_beyond {n : Nat} {length : BitVec 16} (h : 3 ≤ length.toNat) (hn : n < 4 + length.toNat) (w : Work) :
    blHeaderTurn n length w = .raise .truncatedPacket (some n) w.warn :=
  (if_neg (Nat.not_lt.2 h)).trans (if_pos hn)

theorem blHeaderTurn_of_within {n : Nat} {length : BitVec 16} (h : 3 ≤ length.toNat) (hn : 4 + length.toNat ≤ n) (w : Work) :
    blHeaderTurn n length w = .more { w with pos := 4, payloadEnd := 4 + length.toNat } :=
  (if_neg (Nat.not_lt.2 h)).trans (if_neg (Nat.not_lt.2 hn))

section
variable {p : Params} {data rest : List Byte} {w : Work}

theorem blDecTurn_of_unsupported (h0 : w.pos = 0) (hd : decodeBlHeader data = .error .unsupportedType) :
    blDecTurn p data w = .raise .unsupportedPacketType (some 0) w.warn := by
  simp [blDecTurn, fetchBl, h0, hd]

theorem blDecTurn_of_cutHeader (h0 : w.pos = 0) (hd : decodeBlHeader data = .error .truncated) :
    blDecTurn p data w = .raise .truncatedPacket (some data.length) w.warn := by
  simp [blDecTurn, fetchBl, h0, hd]

theorem blDecTurn_of_header {rep : Byte} {length : BitVec 16} (h0 : w.pos = 0)
    (hdata : data = formBytes (.blHeader rep length) ++ rest) :
    blDecTurn p data w = blHeaderTurn data.length length w := by
  have hd := decodeBlHeader_blHeader rep (lo8 length) (hi8 length) rest
  rw [le16_lo8_hi8] at hd
  have hdec : decodeBlHeader data = .ok (.blHeader rep length) := hdata ▸ hd
  simp [blDecTurn, fetchBl, h0, hdec]

theorem blDecTurn_of_end (h0 : w.pos ≠ 0) (hend : w.payloadEnd ≤ w.pos) : blDecTurn p data w = .done w := by
  simp [blDecTurn, fetchBl, h0, hend]

/-- A code that lies within the payload, with the bytes after it (41_broadlink.md R119, R121, R122). -/
theorem blDecTurn_of_code {c : Instr} (hc : isPulseCode c = true) (h0 : w.pos ≠ 0)
    (hd : data.drop w.pos = formBytes c ++ rest) (hfit : w.pos + (formBytes c).length ≤ w.payloadEnd) :
    blDecTurn p data w =
      if 65535 < codeMicros c then
        .done { w with pos := w.pos + (formBytes c).length, warn := w.warn.ofLeftover rest }
      else if w.pulses.length < p.pbufEntries then
        .more { w with
          pulses := w.pulses ++ [BitVec.ofNat 32 (codeMicros c)]
          pos := w.pos + (formBytes c).length }
      else .raise .capacityExceeded none w.warn := by
  have hpos := formBytes_length_pos hc
  have hfetch : fetchBl data w = .form c := by
    rw [fetchBl, if_neg h0, if_neg (by omega), between_of_drop hd hfit, decodePulse_formBytes hc]
  have hrest : data.drop (w.pos + (formBytes c).length) = rest := by rw [← List.drop_drop, hd, List.drop_left]
  cases c with
  | p8 v =>
    rw [blDecTurn, hfetch, ← hrest]
    exact blCodeTurn_eq p _ 1 v.toNat w
  | p16 v =>
    rw [blDecTurn, hfetch, ← hrest]
    exact blCodeTurn_eq p _ 3 v.toNat w
  | _ => cases hc

/-- The marker of a P16 whose bytes run past the payload (41_broadlink.md R120). -/
theorem blDecTurn_of_cutCode (h0 : w.pos ≠ 0) (hd : data.drop w.pos = 0 :: rest) (hlt : w.pos < w.payloadEnd)
    (hcut : w.payloadEnd < w.pos + 3) :
    blDecTurn p data w = .raise .truncatedPacket (some w.pos) w.warn := by
  have hbetween : between w.pos w.payloadEnd data = 0#8 :: rest.take (w.payloadEnd - w.pos - 1) :=
    between_of_drop (enc := [0#8]) hd hlt
  have hdec : decodePulse (between w.pos w.payloadEnd data) = .error .truncated := by
    rw [hbetween]
    exact decodePulse_cut (by rw [List.length_take]; omega)
  simp [blDecTurn, fetchBl, h0, Nat.not_le.2 hlt, hdec]

end

/-! ### A run of turns -/

/-- The turns on the next codes, all within the payload and up to 65535 microseconds: each is pushed and the run goes on behind them, or
PBUF has no room for them all. -/
theorem runTurns_codes (p : Params) (data rest : List Byte) (k : Nat) :
    ∀ (codes : List Instr) (w : Work), w.pos ≠ 0 → data.drop w.pos = formsBytes codes ++ rest →
      w.pos + (formsBytes codes).length ≤ w.payloadEnd → (∀ c ∈ codes, PushedCode c) →
      w.pulses.length ≤ p.pbufEntries →
      runTurns (blDecTurn p data) (codes.length + k) w =
        if w.pulses.length + codes.length ≤ p.pbufEntries then
          runTurns (blDecTurn p data) k { w with
            pulses := w.pulses ++ codes.map fun c => BitVec.ofNat 32 (codeMicros c)
            pos := w.pos + (formsBytes codes).length }
        else .raise .capacityExceeded none w.warn
  | [], w, _, _, _, _, hroom => by simp [formsBytes, hroom]
  | c :: codes, w, h0, hd, hfit, hcodes, _ => by
    obtain ⟨hc, hmicros⟩ := hcodes c (by simp)
    rw [formsBytes_cons, List.append_assoc] at hd
    rw [formsBytes_cons, List.length_append] at hfit
    have hturn := blDecTurn_of_code (p := p) hc h0 hd (by omega)
    have hcount : (c :: codes).length + k = (codes.length + k) + 1 := by simp only [List.length_cons]; omega
    have hsize : w.pulses.length + (c :: codes).length = w.pulses.length + 1 + codes.length := by
      simp only [List.length_cons]
      omega
    rw [if_neg (Nat.not_lt.2 hmicros)] at hturn
    rw [hcount, hsize]
    by_cases hlt : w.pulses.length < p.pbufEntries
    · rw [if_pos hlt] at hturn
      have hnext : data.drop (w.pos + (formBytes c).length) = formsBytes codes ++ rest := by
        rw [← List.drop_drop, hd, List.drop_left]
      have hpos := formBytes_length_pos hc
      rw [runTurns_of_more _ hturn, runTurns_codes p data rest k codes _ (by simp only; omega) hnext
        (by simp only; omega) (fun d hd => hcodes d (by simp [hd])) (by simpa using hlt)]
      simp [formsBytes_cons, Nat.add_assoc]
    · rw [if_neg hlt] at hturn
      rw [runTurns_of_raise _ hturn, if_neg (by omega)]

/-- The working state of BL_DEC behind some codes at the front of a payload that ends at `stop`. -/
def Work.afterCodes (codes : List Instr) (stop : Nat) : Work :=
  { Work.start with
    pos := 4 + (formsBytes codes).length
    payloadEnd := stop
    pulses := codes.map fun c => BitVec.ofNat 32 (codeMicros c) }

@[simp] theorem afterCodes_pos (codes : List Instr) (stop : Nat) :
    (Work.afterCodes codes stop).pos = 4 + (formsBytes codes).length := rfl
@[simp] theorem afterCodes_payloadEnd (codes : List Instr) (stop : Nat) : (Work.afterCodes codes stop).payloadEnd = stop := rfl

theorem afterCodes_pos_ne_zero (codes : List Instr) (stop : Nat) : (Work.afterCodes codes stop).pos ≠ 0 := by simp

theorem drop_afterCodes {data rest : List Byte} {rep : Byte} {length : BitVec 16} {codes : List Instr} (stop : Nat)
    (hdata : data = formBytes (.blHeader rep length) ++ (formsBytes codes ++ rest)) :
    data.drop (Work.afterCodes codes stop).pos = rest := by
  rw [afterCodes_pos, ← List.drop_drop, drop_of_blHeader hdata, List.drop_left]

/-- A packet whose payload begins with some codes, from the start: turns are left for what follows them. -/
theorem runTurns_blDecTurn_start (p : Params) {data rest : List Byte} {rep : Byte} {length : BitVec 16} {codes : List Instr}
    (hdata : data = formBytes (.blHeader rep length) ++ (formsBytes codes ++ rest)) (hmin : 3 ≤ length.toNat)
    (hwithin : 4 + length.toNat ≤ data.length) (hfit : (formsBytes codes).length ≤ length.toNat)
    (hcodes : ∀ c ∈ codes, PushedCode c) :
    ∃ k, runTurns (blDecTurn p data) (turnBound data.length) Work.start =
      if codes.length ≤ p.pbufEntries then
        runTurns (blDecTurn p data) (k + 1) (Work.afterCodes codes (4 + length.toNat))
      else .raise .capacityExceeded none Warn.none := by
  have hheader := blDecTurn_of_header (p := p) (w := Work.start) rfl hdata
  rw [blHeaderTurn_of_within hmin hwithin] at hheader
  have hcount := length_le_formsBytes fun c hc => (hcodes c hc).1
  have hbound : data.length + 7 = codes.length + (data.length - codes.length + 6 + 1) := by omega
  refine ⟨data.length - codes.length + 6, ?_⟩
  rw [turnBound, runTurns_of_more (data.length + 7) hheader, hbound,
    runTurns_codes p data rest _ codes _ (by simp) (drop_of_blHeader hdata) (by simpa using hfit) hcodes (Nat.zero_le _)]
  simp [Work.afterCodes]

end Sys2Proof.Machine
end

section
/-! PROOFS. BL_DEC: the train of a packet, the early stop, the faults in their order, and the round trip with BL_ENC
(41_broadlink.md R116 to R126). -/

namespace Sys2Proof.Machine

open Sys2Proof

theorem exec_blDec_of_le (level : BitVec 2) {s : State} (h : s.ilen.toNat ≤ s.params.ibufBytes) :
    exec (.blDec level) s =
      .next (s.applyTurn toPbuf
        (runTurns (blDecTurn s.params s.inputBytes) (turnBound s.inputBytes.length) Work.start)) := by
  rw [exec_blDec, runBytes_of_le h, inputBytes_length]

theorem exec_blDec_of_raise (level : BitVec 2) {s : State} {c : ErrCode} {k : Nat} (h : s.ilen.toNat ≤ s.params.ibufBytes)
    (hturn : blDecTurn s.params s.inputBytes Work.start = .raise c (some k) Warn.none) :
    exec (.blDec level) s = .next (faultedPulses s c.word (BitVec.ofNat 32 k) 0) := by
  rw [exec_blDec_of_le level h, runTurns_turnBound_of_raise _ hturn]
  rfl

/-! ### Completing -/

/-- Settles O21: behind the codes the cursor is at the end of the payload. -/
theorem blDecode : Obligations.BlDecode := by
  intro s level rep length codes tail hcap hinput hlen hmin hcodes hroom
  rw [List.append_assoc] at hinput
  have hn := length_of_blHeader hinput
  rw [List.length_append] at hn
  obtain ⟨k, hrun⟩ := runTurns_blDecTurn_start s.params hinput hmin (by omega) (by omega) hcodes
  have hend : blDecTurn s.params s.inputBytes (Work.afterCodes codes (4 + length.toNat)) = .done _ :=
    blDecTurn_of_end (afterCodes_pos_ne_zero _ _) (by simp [hlen])
  rw [exec_blDec_of_le level hcap, hrun, if_pos hroom, runTurns_of_done k hend, applyTurn_done, complete_toPbuf, ← hlen]
  rfl

/-- A P8 stays below 65536 microseconds (41_broadlink.md R121). -/
theorem codeMicros_p8_le (v : Byte) : codeMicros (.p8 v) ≤ 65535 := by
  have hv := v.isLt
  simp only [codeMicros]
  omega

/-- Settles O22: the turn behind the codes pushed is the one that stops. -/
theorem blDecodeEarlyStop : Obligations.BlDecodeEarlyStop := by
  refine ⟨fun v => lt_refMicros_iff v.toNat, codeMicros_p8_le,
    fun s level rep length codes v after hcap hinput hfit hwithin hcodes hroom hv => ?_⟩
  rw [List.append_assoc, List.append_assoc] at hinput
  have hsize : (formBytes (.p16 v)).length = 3 := rfl
  have hn := length_of_blHeader hinput
  rw [List.length_append, List.length_append, hsize] at hn
  obtain ⟨k, hrun⟩ := runTurns_blDecTurn_start s.params hinput (by omega) (by omega) (by omega) hcodes
  have hstop := blDecTurn_of_code (p := s.params) (c := .p16 v) (w := Work.afterCodes codes (4 + length.toNat)) rfl
    (afterCodes_pos_ne_zero _ _) (drop_afterCodes _ hinput) (by rw [hsize, afterCodes_pos, afterCodes_payloadEnd]; omega)
  have hgt : 65535 < codeMicros (.p16 v) := (lt_refMicros_iff v.toNat).2 hv
  rw [if_pos hgt] at hstop
  rw [exec_blDec_of_le level hcap, hrun, if_pos hroom, runTurns_of_done k hstop, applyTurn_done, complete_toPbuf,
    ← none_ofLeftover_word]
  rfl

/-! ### The faults -/

/-- Settles O23: the faults of the header are those of the first turn; the others stand behind the codes pushed, or PBUF does not hold
these. -/
theorem blDecodeFaults : Obligations.BlDecodeFaults := by
  intro s level hcap
  refine ⟨fun hempty => ?_, fun b rest hinput hb => ?_, fun rest hinput hlen => ?_, fun rep length rest hinput =>
    ⟨fun hshort => ?_, fun hmin hbeyond => ?_, fun hmin hwithin codes after hcodes => ⟨?_, ?_⟩⟩⟩
  · have hnil : s.inputBytes = [] := List.eq_nil_of_length_eq_zero (by simp [hempty])
    have hdec : decodeBlHeader s.inputBytes = .error .truncated := hnil ▸ rfl
    rw [exec_blDec_of_raise level hcap (blDecTurn_of_cutHeader rfl hdec), hnil]
    rfl
  · have hdec : decodeBlHeader s.inputBytes = _ := hinput ▸ decodeBlHeader_unsupported hb rest
    exact exec_blDec_of_raise level hcap (blDecTurn_of_unsupported rfl hdec)
  · have hdec : decodeBlHeader s.inputBytes = _ := hinput ▸ decodeBlHeader_cut hlen
    rw [exec_blDec_of_raise level hcap (blDecTurn_of_cutHeader rfl hdec), ofNat_inputBytes_length]
    rfl
  · have hturn := blDecTurn_of_header (p := s.params) (w := Work.start) rfl hinput
    rw [blHeaderTurn_of_short hshort] at hturn
    exact exec_blDec_of_raise level hcap hturn
  · have hn := length_of_blHeader hinput
    have hturn := blDecTurn_of_header (p := s.params) (w := Work.start) rfl hinput
    rw [blHeaderTurn_of_beyond hmin (by omega)] at hturn
    rw [exec_blDec_of_raise level hcap hturn, ofNat_inputBytes_length]
    rfl
  · rintro rfl hroom hlt hcut
    have hn := length_of_blHeader hinput
    obtain ⟨k, hrun⟩ := runTurns_blDecTurn_start s.params hinput hmin (by omega) (by omega) hcodes
    have hturn := blDecTurn_of_cutCode (p := s.params) (w := Work.afterCodes codes (4 + length.toNat))
      (afterCodes_pos_ne_zero _ _) (drop_afterCodes _ hinput) (by simpa using hlt)
      (by rw [afterCodes_pos, afterCodes_payloadEnd]; omega)
    rw [exec_blDec_of_le level hcap, hrun, if_pos hroom, runTurns_of_raise k hturn]
    rfl
  · rintro rfl hover hfit
    have hn := length_of_blHeader hinput
    obtain ⟨k, hrun⟩ := runTurns_blDecTurn_start s.params hinput hmin (by omega) hfit hcodes
    refine ⟨_, exec_blDec_of_le level hcap, ?_⟩
    rw [hrun, if_neg (by omega), applyTurn_raise]
    exact takeFault_overflowedPulses s Warn.none

/-! ### The round trip -/

/-- The code BL_ENC writes for a tick, as an instruction (41_broadlink.md R111). -/
def codeOfTick (t : Nat) : Instr := if t < 256 then .p8 (BitVec.ofNat 8 t) else .p16 (BitVec.ofNat 16 t)

theorem formBytes_codeOfTick {t : Nat} (h : t < 65536) : formBytes (codeOfTick t) = refCode t := by
  unfold codeOfTick refCode
  split
  · rfl
  · have hbytes : formBytes (.p16 (BitVec.ofNat 16 t)) = [0#8, hi8 (BitVec.ofNat 16 t), lo8 (BitVec.ofNat 16 t)] := rfl
    rw [hbytes, hi8_eq_ofNat, lo8_eq_ofNat, BitVec.toNat_ofNat, Nat.mod_eq_of_lt h]

/-- A tick other than 0 has a code that can be read (30_encoding.md R77). -/
theorem isPulseCode_codeOfTick {t : Nat} (h : t ≠ 0) : isPulseCode (codeOfTick t) = true := by
  unfold codeOfTick
  split
  · rename_i hlt
    refine bne_iff_ne.2 fun hz => h ?_
    have hnat := congrArg BitVec.toNat hz
    rw [BitVec.toNat_ofNat, Nat.mod_eq_of_lt hlt] at hnat
    exact hnat
  · rfl

theorem codeMicros_codeOfTick {t : Nat} (h : t < 65536) : codeMicros (codeOfTick t) = refMicros t := by
  unfold codeOfTick
  split
  · rename_i hlt
    show refMicros (BitVec.ofNat 8 t).toNat = _
    rw [BitVec.toNat_ofNat, Nat.mod_eq_of_lt hlt]
  · show refMicros (BitVec.ofNat 16 t).toNat = _
    rw [BitVec.toNat_ofNat, Nat.mod_eq_of_lt h]

/-- The codes of a train. -/
def trainCodes (train : List Word) : List Instr := train.map fun p => codeOfTick (refTick p)

/-- The payload of a train is the bytes of its codes. -/
theorem formsBytes_trainCodes {train : List Word} (h : ∀ p ∈ train, refTick p ≤ 65535) :
    formsBytes (trainCodes train) = refPayload train := by
  rw [formsBytes, trainCodes, List.flatMap_map, refPayload, List.flatMap_def, List.flatMap_def]
  exact congrArg _ (List.map_congr_left fun p hp => formBytes_codeOfTick (Nat.lt_succ_of_le (h p hp)))

/-- The frame is a header with the length of the payload, the payload, and a tail (30_encoding.md R76). -/
theorem refFrame_eq_header_append (payload : List Byte) (h : payload.length ≤ 65535) :
    ∃ tail : List Byte,
      refFrame payload = formBytes (.blHeader 0 (BitVec.ofNat 16 payload.length)) ++ payload ++ tail := by
  have hbytes : formBytes (.blHeader 0 (BitVec.ofNat 16 payload.length)) =
      [0x26#8, 0x00#8, BitVec.ofNat 8 (payload.length % 256), BitVec.ofNat 8 (payload.length / 256)] := by
    have hform : formBytes (.blHeader 0 (BitVec.ofNat 16 payload.length)) =
        [0x26#8, 0x00#8, lo8 (BitVec.ofNat 16 payload.length), hi8 (BitVec.ofNat 16 payload.length)] := rfl
    rw [hform, hi8_eq_ofNat, lo8_eq_ofNat, BitVec.toNat_ofNat, Nat.mod_eq_of_lt (Nat.lt_succ_of_le h)]
  exact ⟨_, by rw [hbytes, refFrame, List.append_assoc _ [0x0d#8, 0x05#8]]⟩

/-- Pulses from 31 to 65535 have ticks from 1 to 2151. -/
theorem refTick_of_mem_range {p : Word} (h : 31 ≤ p.toNat ∧ p.toNat ≤ 65535) : 1 ≤ refTick p ∧ refTick p ≤ 2151 := by
  unfold refTick
  omega

/-- Settles O24: BL_DEC of the codes of the train, each of which is near its pulse. -/
theorem broadlinkRoundTrip : Obligations.BroadlinkRoundTrip := by
  intro s level train hrange hmin hmax hroom hcap hinput
  have hticks : ∀ p ∈ train, 1 ≤ refTick p ∧ refTick p ≤ 2151 := fun p hp => refTick_of_mem_range (hrange p hp)
  have hbytes : formsBytes (trainCodes train) = refPayload train :=
    formsBytes_trainCodes fun p hp => (hticks p hp).2.trans (by decide)
  have hmicros : ∀ p ∈ train, codeMicros (codeOfTick (refTick p)) = refMicros (refTick p) :=
    fun p hp => codeMicros_codeOfTick (Nat.lt_of_le_of_lt (hticks p hp).2 (by decide))
  have hcodes : ∀ c ∈ trainCodes train, PushedCode c := by
    intro c hc
    obtain ⟨p, hp, rfl⟩ := List.mem_map.1 hc
    obtain ⟨hge, hle⟩ := hticks p hp
    refine ⟨isPulseCode_codeOfTick (by omega), ?_⟩
    rw [hmicros p hp, ← Nat.not_lt, lt_refMicros_iff]
    omega
  obtain ⟨tail, hframe⟩ := refFrame_eq_header_append (refPayload train) hmax
  have hlen : (BitVec.ofNat 16 (refPayload train).length).toNat = (refPayload train).length := by
    rw [BitVec.toNat_ofNat, Nat.mod_eq_of_lt (Nat.lt_succ_of_le hmax)]
  have hexec := blDecode s level 0 (BitVec.ofNat 16 (refPayload train).length) (trainCodes train) tail hcap
    (by rw [hinput, hframe, hbytes]) (by rw [hbytes, hlen]) (by rw [hlen]; exact hmin) hcodes (by simpa [trainCodes] using hroom)
  rw [hlen] at hexec
  refine ⟨_, hexec, by simp [trainCodes], fun k p q hp hq => ?_⟩
  have hmem := List.mem_of_getElem? hp
  have hmicros_lt := refMicros_le (Nat.lt_of_le_of_lt (hticks p hmem).2 (by decide))
  have hq : q = BitVec.ofNat 32 (refMicros (refTick p)) := by
    simpa [trainCodes, hp, hmicros p hmem, eq_comm] using hq
  rw [hq, BitVec.toNat_ofNat, Nat.mod_eq_of_lt (by omega)]
  exact refMicros_refTick_near p

end Sys2Proof.Machine
end

section
/-! PROOFS. One turn of the forms BL_HEADER, P8, P16 and PRONTO_HEADER in any state (41_broadlink.md R118 to R122; 40_pronto.md R102,
R103; log 10). -/

namespace Sys2Proof.Machine

open Sys2Proof

/-! ### Pulse codes -/

/-- A byte left over is not 0 where the input holds one that is not 0 (41_broadlink.md R122). -/
theorem any_drop_inputBytes_iff (s : State) (p : Nat) :
    (s.inputBytes.drop p).any (fun b => b != 0#8) = true ↔ ∃ k, p ≤ k ∧ k < s.ilen.toNat ∧ s.ibuf.read k ≠ 0 := by
  have hget : ∀ k, k < s.ilen.toNat → s.inputBytes[k]? = some (s.ibuf.read k) := fun k hk =>
    (slice_getElem? s.ibuf 0 s.ilen.toNat k hk).trans (by rw [Nat.zero_add])
  simp only [List.any_eq_true, List.mem_iff_getElem?, List.getElem?_drop, bne_iff_ne]
  constructor
  · rintro ⟨b, ⟨j, hj⟩, hb⟩
    have hlt : p + j < s.ilen.toNat := by simpa using (List.getElem?_eq_some_iff.1 hj).1
    rw [hget _ hlt] at hj
    cases hj
    exact ⟨p + j, Nat.le_add_right p j, hlt, hb⟩
  · rintro ⟨k, hk, hlt, hb⟩
    exact ⟨_, ⟨k - p, by rw [Nat.add_sub_cancel' hk]; exact hget k hlt⟩, hb⟩

theorem blCodeTurn_of_lt {p : Params} {v : Nat} {w : Work} (hv : v < 2152) (leftover : List Byte) (size : Nat) :
    blCodeTurn p leftover size v w =
      if w.pulses.length < p.pbufEntries then
        .more { w with pulses := w.pulses ++ [BitVec.ofNat 32 (refMicros v)], pos := w.pos + size }
      else .raise .capacityExceeded none w.warn := by
  rw [blCodeTurn_eq, if_neg (by rw [lt_refMicros_iff]; omega)]

theorem blCodeTurn_of_ge {v : Nat} (hv : 2152 ≤ v) (p : Params) (leftover : List Byte) (size : Nat) (w : Work) :
    blCodeTurn p leftover size v w =
      .done { w with pos := w.pos + size, warn := w.warn.ofLeftover leftover } := by
  rw [blCodeTurn_eq, if_pos ((lt_refMicros_iff v).2 hv)]

/-- Settles O11: the turn of a code below tick 2152 pushes or does not fit, that of one from 2152 on completes. -/
theorem pulseCodeForms : Obligations.PulseCodeForms := by
  intro s
  have hp8 : ∀ v : Byte, v.toNat < 2152 := fun v => v.isLt.trans (by decide)
  refine ⟨fun v hroom => ?_, fun v hv hroom => ?_, fun v hv hzero => ?_, fun v k hv hk hlt hne => ?_,
    fun hfull => ⟨fun v => ⟨_, exec_p8 v s, ?_⟩, fun v hv => ⟨_, exec_p16 v s, ?_⟩⟩⟩
  · rw [exec_p8, blCodeTurn_of_lt (hp8 v), if_pos hroom, applyTurn_more]
  · rw [exec_p16, blCodeTurn_of_lt hv, if_pos hroom, applyTurn_more]
  · have hany : (s.inputBytes.drop (s.work.pos + 3)).any (fun b => b != 0#8) = false := by
      rw [← Bool.not_eq_true, any_drop_inputBytes_iff]
      rintro ⟨k, hk, hlt, hne⟩
      exact hne (hzero k hk hlt)
    rw [exec_p16, blCodeTurn_of_ge hv, applyTurn_done, ofLeftover_of_not_any hany, complete_toPbuf]
  · have hany := (any_drop_inputBytes_iff s (s.work.pos + 3)).2 ⟨k, hk, hlt, hne⟩
    rw [exec_p16, blCodeTurn_of_ge hv, applyTurn_done, complete_toPbuf, ofLeftover_word_of_any hany]
  · rw [blCodeTurn_of_lt (hp8 v), if_neg (Nat.not_lt.2 hfull), applyTurn_raise]
    exact takeFault_overflowedPulses s _
  · rw [blCodeTurn_of_lt hv, if_neg (Nat.not_lt.2 hfull), applyTurn_raise]
    exact takeFault_overflowedPulses s _

/-! ### Headers -/

/-- Settles O12: each header's turn, check by check. -/
theorem headerForms : Obligations.HeaderForms := by
  intro s
  refine ⟨fun rep length => ⟨fun hmin hwithin => ?_, fun hshort => ?_, fun hmin hbeyond => ?_⟩,
    fun divisor once rep => ⟨fun heven hcount hd => ?_, fun hmismatch => ?_, fun heven hcount hd => ?_⟩⟩
  · rw [exec_blHeader, inputBytes_length, blHeaderTurn_of_within hmin hwithin, applyTurn_more]
  · rw [exec_blHeader, blHeaderTurn_of_short hshort]
    rfl
  · rw [exec_blHeader, blHeaderTurn_of_beyond hmin (by simpa using hbeyond), applyTurn_raise, takeFault_toPbuf,
      ofNat_inputBytes_length]
    rfl
  · rw [exec_prontoHeader, inputBytes_length, prontoHeaderTurn_of_match (by omega),
      if_neg (show ¬ divisor = 0#16 from hd), applyTurn_more]
  · rw [exec_prontoHeader, prontoHeaderTurn_of_mismatch (by rw [inputBytes_length]; omega), applyTurn_raise, takeFault_toPbuf,
      ofNat_inputBytes_length]
    rfl
  · subst hd
    rw [exec_prontoHeader, inputBytes_length, prontoHeaderTurn_of_match (by omega)]
    rfl

end Sys2Proof.Machine
end

section
/-! PROOFS. What the emission of Tuya blocks writes, and what the copy of a distance block gives (42_tuya_format.md R131 to R133, R136). -/

namespace Sys2Proof.Machine

open Sys2Proof

/-! ### The copy of a distance block -/

theorem copyBytes_getElem?_of_lt (d n : Nat) (out : List Byte) {k : Nat} (hk : k < out.length) :
    (copyBytes d n out)[k]? = out[k]? := by
  induction n generalizing out with
  | zero => rfl
  | succ n ih =>
    rw [copyBytes, ih _ (by rw [List.length_append]; omega), List.getElem?_append_left hk]

/-- Each byte copied is the byte `d` positions before it, where the copy has itself written that byte too. -/
theorem copyBytes_getElem?_add {d : Nat} (n : Nat) {out : List Byte} (hd : 0 < d) (hle : d ≤ out.length) {k : Nat} (hk : k < n) :
    (copyBytes d n out)[out.length + k]? = (copyBytes d n out)[out.length + k - d]? := by
  induction n generalizing out k with
  | zero => omega
  | succ n ih =>
    have hlen : (out ++ [out.getD (out.length - d) 0#8]).length = out.length + 1 := by simp
    rw [copyBytes]
    cases k with
    | zero =>
      have hlt : out.length - d < out.length := by omega
      rw [copyBytes_getElem?_of_lt _ _ _ (by omega), copyBytes_getElem?_of_lt _ _ _ (by omega), Nat.add_zero,
        List.getElem?_concat_length, List.getElem?_append_left hlt, List.getD_eq_getElem _ _ hlt,
        List.getElem?_eq_getElem hlt]
    | succ k =>
      have := ih (out := out ++ [out.getD (out.length - d) 0#8]) (by omega) (k := k) (by omega)
      rwa [hlen, Nat.add_right_comm, Nat.add_assoc] at this

/-! ### Distance blocks -/

/-- Up to length 8 a distance block is the two bytes of COPYS. -/
theorem distanceBytes_of_le {length distance : Nat} (hmin : 3 ≤ length) (hle : length ≤ 8) (hd : distance ≤ 8192) :
    distanceBytes length distance =
      [BitVec.ofNat 3 (length - 2) ++ BitVec.ofNat 5 ((distance - 1) / 256), BitVec.ofNat 8 ((distance - 1) % 256)] := by
  have hfirst : BitVec.ofNat 8 ((length - 2) * 32 + (distance - 1) / 256) =
      BitVec.ofNat 3 (length - 2) ++ BitVec.ofNat 5 ((distance - 1) / 256) := by
    apply BitVec.eq_of_toNat_eq
    rw [toNat_tag_append]
    simp only [BitVec.toNat_ofNat]
    omega
  rw [distanceBytes, if_neg (by omega), hfirst]

/-- From length 9 on it is the three bytes of COPYL. -/
theorem distanceBytes_of_ge {length distance : Nat} (hge : 9 ≤ length) (hd : distance ≤ 8192) :
    distanceBytes length distance =
      [7#3 ++ BitVec.ofNat 5 ((distance - 1) / 256), BitVec.ofNat 8 (length - 9), BitVec.ofNat 8 ((distance - 1) % 256)] := by
  have hfirst : BitVec.ofNat 8 (0xE0 + (distance - 1) / 256) = 7#3 ++ BitVec.ofNat 5 ((distance - 1) / 256) := by
    apply BitVec.eq_of_toNat_eq
    rw [toNat_tag_append]
    simp only [BitVec.toNat_ofNat]
    omega
  rw [distanceBytes, if_pos (by omega), hfirst, show length - 2 - 7 = length - 9 by omega]

/-- The distance is read back from its high five and low eight bits. -/
theorem distanceOf_split {distance : Nat} (hmin : 1 ≤ distance) (hmax : distance ≤ 8192) :
    distanceOf (BitVec.ofNat 5 ((distance - 1) / 256) ++ BitVec.ofNat 8 ((distance - 1) % 256)) = distance := by
  rw [distanceOf_append]
  simp only [BitVec.toNat_ofNat]
  omega

theorem emitDistanceBlock_of_within (cap : Nat) {length distance : Nat} (out : List Byte) (hl : 3 ≤ length ∧ length ≤ 264)
    (hd : 1 ≤ distance ∧ distance ≤ 8192) :
    emitDistanceBlock cap length distance out = emit cap (distanceBytes length distance) out := by
  rw [emitDistanceBlock, if_neg (by simp only [lenMin, lenMax]; omega), if_neg (by simp only [window]; omega)]

theorem emitDistanceBlock_of_outside (cap : Nat) {length distance : Nat} (out : List Byte)
    (h : length < 3 ∨ 264 < length ∨ distance < 1 ∨ 8192 < distance) :
    emitDistanceBlock cap length distance out = .error .encodingInvariantViolation := by
  by_cases hl : length < 3 ∨ 264 < length
  · exact if_pos hl
  · rw [emitDistanceBlock, if_neg (show ¬ (length < lenMin ∨ lenMax < length) from hl), if_pos (by simp only [window]; omega)]

/-! ### Literal runs -/

theorem emitLiteralBlock_of_within (cap : Nat) {bs : List Byte} (out : List Byte) (h : 1 ≤ bs.length ∧ bs.length ≤ 32) :
    emitLiteralBlock cap bs out = emit cap (BitVec.ofNat 8 (bs.length - 1) :: bs) out := by
  rw [emitLiteralBlock, if_neg (by simp only [litMax]; omega)]

/-- The chunks of a run are emitted one after the other, or they do not fit together. -/
theorem emitChunks_eq (cap k : Nat) (bs : List Byte) {out : List Byte} (hout : out.length ≤ cap) :
    emitChunks cap k bs out =
      if out.length + (refLiterals k bs).length ≤ cap then .ok (out ++ refLiterals k bs) else .error .capacityExceeded := by
  induction k generalizing bs out with
  | zero => simp [emitChunks, refLiterals, hout]
  | succ k ih =>
    cases bs with
    | nil => simp [emitChunks, refLiterals, hout]
    | cons b bs =>
      have hblock := emitLiteralBlock_of_within cap (bs := (b :: bs).take 32) out (by simp)
      rw [emitChunks, refLiterals, show litMax = 32 from rfl, hblock]
      generalize (b :: bs).take 32 = chunk
      generalize (b :: bs).drop 32 = rest
      by_cases hfit : out.length + (chunk.length + 1) ≤ cap
      · rw [(emit_eq_ok_iff cap (BitVec.ofNat 8 (chunk.length - 1) :: chunk) out _).2 ⟨hfit, rfl⟩]
        dsimp only
        rw [ih rest (by simpa using hfit), List.append_assoc, List.length_append, Nat.add_assoc, ← List.length_append]
      · rw [(emit_eq_error_iff cap (BitVec.ofNat 8 (chunk.length - 1) :: chunk) out _).2 ⟨Nat.not_le.1 hfit, rfl⟩]
        exact (if_neg (by simp only [List.cons_append, List.length_cons, List.length_append]; omega)).symm

theorem refLiterals_length {k : Nat} {bs : List Byte} (h : bs.length ≤ k) :
    (refLiterals k bs).length = bs.length + (bs.length + 31) / 32 := by
  induction k generalizing bs with
  | zero =>
    obtain rfl := List.length_eq_zero_iff.1 (Nat.le_zero.1 h)
    rfl
  | succ k ih =>
    cases bs with
    | nil => rfl
    | cons b bs =>
      have hrest : ((b :: bs).drop 32).length = (b :: bs).length - 32 := List.length_drop
      have hchunk : ((b :: bs).take 32).length = min 32 (b :: bs).length := List.length_take
      have hpos : 0 < (b :: bs).length := Nat.succ_pos _
      rw [refLiterals, List.length_append, List.length_cons, ih (by omega)]
      omega

/-- Settles O7: the block is COPYS or COPYL with the length in its own field and the distance in 13 bits. -/
theorem distanceBlocks : Obligations.DistanceBlocks := by
  intro cap length distance out rest
  refine ⟨fun hlmin hlmax hdmin hdmax => ⟨emitDistanceBlock_of_within cap out ⟨hlmin, hlmax⟩ ⟨hdmin, hdmax⟩,
    fun hle => ?_, fun hge => ?_⟩, emitDistanceBlock_of_outside cap out⟩
  · have hf : (BitVec.ofNat 3 (length - 2)).toNat = length - 2 := by rw [BitVec.toNat_ofNat]; omega
    have h0 : BitVec.ofNat 3 (length - 2) ≠ 0#3 := by
      rw [BitVec.toNat_ne, hf, BitVec.toNat_ofNat]
      omega
    have h7 : BitVec.ofNat 3 (length - 2) ≠ 7#3 := by
      rw [BitVec.toNat_ne, hf, BitVec.toNat_ofNat]
      omega
    rw [distanceBytes_of_le hlmin hle hdmax]
    exact ⟨rfl, _, _, decodeTuya_copyS h0 h7 _ _ rest, by rw [shortLength, hf]; omega, distanceOf_split hdmin hdmax⟩
  · have hext : (BitVec.ofNat 8 (length - 9)).toNat = length - 9 := by rw [BitVec.toNat_ofNat]; omega
    rw [distanceBytes_of_ge hge hdmax]
    exact ⟨rfl, _, _, decodeTuya_copyL _ _ _ rest, by rw [longLength, hext]; omega, distanceOf_split hdmin hdmax⟩

/-- Settles O8: the run's chunks and their length, where they fit and where they do not. -/
theorem literalRun : Obligations.LiteralRun := by
  intro cap bs out
  refine ⟨refLiterals_length (Nat.le_refl _), fun hfit => ?_, fun hout hover => ?_⟩
  · rw [emitLiteralRun, emitChunks_eq cap _ bs (by omega), if_pos hfit]
  · rw [emitLiteralRun, emitChunks_eq cap _ bs hout, if_neg (Nat.not_le.2 hover)]

end Sys2Proof.Machine
end

section
/-! PROOFS. One turn of the forms LIT, COPYS and COPYL in any state (42_tuya_format.md R136, R140 to R142; log 10). -/

namespace Sys2Proof.Machine

open Sys2Proof

section
variable {p : Params} {length distance : Nat} {w : Work}

theorem copyTurn_of_far (size : Nat) (h : w.out.length < distance) :
    copyTurn p size length distance w = .raise .streamInvalid (some w.pos) w.warn := if_pos h

theorem copyTurn_of_within (size : Nat) (h : distance ≤ w.out.length) :
    copyTurn p size length distance w =
      if w.out.length + length ≤ p.obufBytes then
        .more { w with out := copyBytes distance length w.out, pos := w.pos + size }
      else .raise .capacityExceeded none w.warn := by
  rw [copyTurn, if_neg (Nat.not_lt.2 h), ← ite_not]
  simp only [Nat.not_lt]

end

theorem applyTurn_overflowedBytes (s : State) :
    overflowedBytes s (s.applyTurn toObuf (.raise .capacityExceeded none s.work.warn)) s.work.warn.word :=
  takeFault_overflowedBytes s s.work.warn

/-- Settles O9: the turn of a literal block is an emission. -/
theorem litForm : Obligations.LitForm := by
  intro s data
  have hturn : litTurn s.params data s.work = _ := emitting_emit s.work (s.work.pos + 1 + data.length) s.params.obufBytes data
  refine ⟨fun hfit => ?_, fun hover => ⟨_, exec_lit data s, ?_⟩⟩
  · rw [exec_lit, hturn, if_pos hfit, applyTurn_more]
  · rw [hturn, if_neg (Nat.not_le.2 hover)]
    exact applyTurn_overflowedBytes s

/-- Settles O10: both forms take `copyTurn`, and the copy is that of `copyBytes`. -/
theorem copyForms : Obligations.CopyForms := by
  intro s i size length distance hform
  obtain ⟨hexec, hpos⟩ : exec i s = .next (s.applyTurn toObuf (copyTurn s.params size length distance s.work)) ∧ 0 < distance := by
    rcases hform with ⟨f, d, rfl, rfl, rfl, rfl⟩ | ⟨d, ext, rfl, rfl, rfl, rfl⟩
    · exact ⟨exec_copyS f d s, Nat.succ_pos _⟩
    · exact ⟨exec_copyL d ext s, Nat.succ_pos _⟩
  refine ⟨fun hwithin hfit => ⟨copyBytes distance length s.work.out, ?_, copyBytes_length _ _ _,
      fun k => copyBytes_getElem?_of_lt _ _ _, fun k => copyBytes_getElem?_add _ hpos hwithin⟩,
    fun hwithin hover => ⟨_, hexec, ?_⟩, fun hfar => ?_⟩
  · rw [hexec, copyTurn_of_within size hwithin, if_pos hfit, applyTurn_more]
  · rw [copyTurn_of_within size hwithin, if_neg (Nat.not_le.2 hover)]
    exact applyTurn_overflowedBytes s
  · rw [hexec, copyTurn_of_far size hfar]
    rfl

end Sys2Proof.Machine
end

section
/-! SUPPORT. The meaning of a Tuya stream, block by block as its decoder reads it (42_tuya_format.md R136). -/

namespace Sys2Proof.Machine

open Sys2Proof

/-! ### The meaning of one block -/

/-- The meaning of a distance block behind an output already produced: none where it refers beyond the output
(42_tuya_format.md R136, R141). -/
def copyMeaning (distance length : Nat) (out : List Byte) : Option (List Byte) :=
  if out.length < distance then none else some (copyBytes distance length out)

/-- The meaning of a block behind an output already produced, none for what is no block (42_tuya_format.md R136). -/
def blockMeaning : Instr → List Byte → Option (List Byte)
  | .lit data, out => some (out ++ data)
  | .copyS f d, out => copyMeaning (distanceOf d) (shortLength f) out
  | .copyL d ext, out => copyMeaning (distanceOf d) (longLength ext) out
  | _, _ => none

theorem copyMeaning_of_far {distance : Nat} (length : Nat) {out : List Byte} (h : out.length < distance) :
    copyMeaning distance length out = none := if_pos h

theorem copyMeaning_of_within {distance : Nat} (length : Nat) {out : List Byte} (h : distance ≤ out.length) :
    copyMeaning distance length out = some (copyBytes distance length out) := if_neg (Nat.not_lt.2 h)

theorem copyMeaning_eq_none_iff {distance length : Nat} {out : List Byte} :
    copyMeaning distance length out = none ↔ out.length < distance := by
  simp [copyMeaning]

theorem copyMeaning_eq_some_iff {distance length : Nat} {out r : List Byte} :
    copyMeaning distance length out = some r ↔ distance ≤ out.length ∧ r = copyBytes distance length out := by
  simp [copyMeaning, eq_comm]

theorem length_le_of_copyMeaning {distance length : Nat} {out r : List Byte} (h : copyMeaning distance length out = some r) :
    out.length ≤ r.length := by
  obtain ⟨-, rfl⟩ := copyMeaning_eq_some_iff.1 h
  rw [copyBytes_length]
  exact Nat.le_add_right _ _

/-! ### The bytes of one block -/

theorem formBytes_lit {m : BitVec 5} {data : List Byte} (h : data.length = m.toNat + 1) :
    formBytes (.lit data) = (0#3 ++ m) :: data := by
  simp [formBytes, encode, h]

theorem formBytes_copyS (t : BitVec 3) (m : BitVec 5) (dl : Byte) : formBytes (.copyS t (m ++ dl)) = [t ++ m, dl] := by
  simp [formBytes, encode]

theorem formBytes_copyL (m : BitVec 5) (ext dl : Byte) : formBytes (.copyL (m ++ dl) ext) = [7#3 ++ m, ext, dl] := by
  simp [formBytes, encode]

theorem toNat_tag_append_div (t : BitVec 3) (m : BitVec 5) : (t ++ m : Byte).toNat / 32 = t.toNat := by
  rw [toNat_tag_append]
  omega

theorem toNat_tag_append_mod (t : BitVec 3) (m : BitVec 5) : (t ++ m : Byte).toNat % 32 = m.toNat := by
  rw [toNat_tag_append]
  omega

/-! ### The first block of a stream -/

section
variable {k : Nat} {out : List Byte} {t : BitVec 3} {m : BitVec 5}

theorem refMeaningFrom_nil (k : Nat) (out : List Byte) : refMeaningFrom k [] out = some out := by
  cases k <;> rfl

theorem refMeaningFrom_lit {data : List Byte} (rest : List Byte) (h : data.length = m.toNat + 1) :
    refMeaningFrom (k + 1) ((0#3 ++ m) :: (data ++ rest)) out =
      (blockMeaning (.lit data) out).bind (refMeaningFrom k rest) := by
  simp [refMeaningFrom, toNat_tag_append_div, toNat_tag_append_mod, ← h, blockMeaning]

theorem refMeaningFrom_lit_cut {rest : List Byte} (h : rest.length < m.toNat + 1) :
    refMeaningFrom (k + 1) ((0#3 ++ m) :: rest) out = none := by
  simp [refMeaningFrom, toNat_tag_append_div, toNat_tag_append_mod, h]

theorem refMeaningFrom_copyL (ext dl : Byte) (rest : List Byte) :
    refMeaningFrom (k + 1) ((7#3 ++ m) :: ext :: dl :: rest) out =
      (blockMeaning (.copyL (m ++ dl) ext) out).bind (refMeaningFrom k rest) := by
  simp only [refMeaningFrom, toNat_tag_append_div, toNat_tag_append_mod, blockMeaning, copyMeaning, distanceOf_append, longLength]
  rw [if_neg (by decide), if_pos (show (7#3).toNat = 7 from rfl)]
  split <;> rfl

theorem refMeaningFrom_copyL_cut {rest : List Byte} (h : rest.length < 2) :
    refMeaningFrom (k + 1) ((7#3 ++ m) :: rest) out = none := by
  simp only [refMeaningFrom, toNat_tag_append_div]
  match rest, h with
  | [], _ => rfl
  | [_], _ => rfl

theorem refMeaningFrom_copyS (h0 : t ≠ 0#3) (h7 : t ≠ 7#3) (dl : Byte) (rest : List Byte) :
    refMeaningFrom (k + 1) ((t ++ m) :: dl :: rest) out =
      (blockMeaning (.copyS t (m ++ dl)) out).bind (refMeaningFrom k rest) := by
  have h0 : t.toNat ≠ 0 := BitVec.toNat_ne.1 h0
  have h7 : t.toNat ≠ 7 := BitVec.toNat_ne.1 h7
  simp only [refMeaningFrom, toNat_tag_append_div, toNat_tag_append_mod, blockMeaning, copyMeaning, distanceOf_append, shortLength]
  rw [if_neg h0, if_neg h7]
  split <;> rfl

theorem refMeaningFrom_copyS_cut (h0 : t ≠ 0#3) (h7 : t ≠ 7#3) : refMeaningFrom (k + 1) [t ++ m] out = none := by
  have h0 : t.toNat ≠ 0 := BitVec.toNat_ne.1 h0
  have h7 : t.toNat ≠ 7 := BitVec.toNat_ne.1 h7
  simp only [refMeaningFrom, toNat_tag_append_div]
  rw [if_neg h0, if_neg h7]

/-- A stream with a meaning begins with a block that has one and that the decoder reads whatever follows it; what does follow it has its
meaning behind that of the block. -/
theorem refMeaningFrom_cons_eq_some {b : Byte} {bs r : List Byte} (h : refMeaningFrom (k + 1) (b :: bs) out = some r) :
    ∃ (i : Instr) (rest mid : List Byte), b :: bs = formBytes i ++ rest ∧ (∀ more, decodeTuya (formBytes i ++ more) = .ok i) ∧
      blockMeaning i out = some mid ∧ refMeaningFrom k rest mid = some r := by
  obtain ⟨t, m, rfl⟩ := exists_tag_append b
  by_cases h0 : t = 0#3
  · subst h0
    rcases Nat.lt_or_ge bs.length (m.toNat + 1) with hlt | hge
    · rw [refMeaningFrom_lit_cut hlt] at h
      cases h
    · have hdata : (bs.take (m.toNat + 1)).length = m.toNat + 1 := List.length_take_of_le hge
      rw [← bs.take_append_drop (m.toNat + 1)] at h ⊢
      rw [refMeaningFrom_lit _ hdata] at h
      obtain ⟨mid, hmid, hrest⟩ := Option.bind_eq_some_iff.1 h
      refine ⟨.lit (bs.take (m.toNat + 1)), _, mid, ?_, fun more => ?_, hmid, hrest⟩
      · rw [formBytes_lit hdata, List.cons_append]
      · rw [formBytes_lit hdata]
        exact decodeTuya_lit more hdata
  · by_cases h7 : t = 7#3
    · subst h7
      match bs with
      | ext :: dl :: rest =>
        rw [refMeaningFrom_copyL] at h
        obtain ⟨mid, hmid, hrest⟩ := Option.bind_eq_some_iff.1 h
        refine ⟨.copyL (m ++ dl) ext, rest, mid, ?_, fun more => ?_, hmid, hrest⟩
        · rw [formBytes_copyL]
          rfl
        · rw [formBytes_copyL]
          exact decodeTuya_copyL m ext dl more
      | [_] =>
        rw [refMeaningFrom_copyL_cut (by simp)] at h
        cases h
      | [] =>
        rw [refMeaningFrom_copyL_cut (by simp)] at h
        cases h
    · cases bs with
      | nil =>
        rw [refMeaningFrom_copyS_cut h0 h7] at h
        cases h
      | cons dl rest =>
        rw [refMeaningFrom_copyS h0 h7] at h
        obtain ⟨mid, hmid, hrest⟩ := Option.bind_eq_some_iff.1 h
        refine ⟨.copyS t (m ++ dl), rest, mid, ?_, fun more => ?_, hmid, hrest⟩
        · rw [formBytes_copyS]
          rfl
        · rw [formBytes_copyS]
          exact decodeTuya_copyS h0 h7 m dl more

end

theorem length_le_of_blockMeaning {i : Instr} {out r : List Byte} (h : blockMeaning i out = some r) : out.length ≤ r.length := by
  unfold blockMeaning at h
  split at h
  · cases h
    simp
  · exact length_le_of_copyMeaning h
  · exact length_le_of_copyMeaning h
  · cases h

theorem length_le_of_refMeaningFrom :
    ∀ (k : Nat) (bs out : List Byte) {r : List Byte}, refMeaningFrom k bs out = some r → out.length ≤ r.length
  | k, [], out, r, h => by
    rw [refMeaningFrom_nil] at h
    cases h
    exact Nat.le_refl _
  | k + 1, b :: bs, out, r, h => by
    obtain ⟨i, rest, mid, -, -, hmid, hrest⟩ := refMeaningFrom_cons_eq_some h
    exact (length_le_of_blockMeaning hmid).trans (length_le_of_refMeaningFrom k rest mid hrest)

end Sys2Proof.Machine
end

section
/-! PROOFS. TUYA_EXPAND: what its turns answer, what a run of them over the blocks at the front of a stream ends in, its result and its
faults (42_tuya_format.md R140 to R143). -/

namespace Sys2Proof.Machine

open Sys2Proof

/-! ### One turn -/

section
variable {p : Params} {data bs : List Byte} {i : Instr} {w : Work}

theorem expandTurn_of_end (h : data.drop w.pos = []) : expandTurn p data w = .done w := by
  simp [expandTurn, fetchTuya, h]

theorem expandTurn_of_cut (h : data.drop w.pos = bs) (hne : bs ≠ []) (hd : decodeTuya bs = .error .truncated) :
    expandTurn p data w = .raise .streamInvalid (some w.pos) w.warn := by
  cases bs with
  | nil => exact absurd rfl hne
  | cons b bs => simp [expandTurn, fetchTuya, h, hd]

theorem fetchTuya_of_decodeTuya (h : data.drop w.pos = bs) (hd : decodeTuya bs = .ok i) : fetchTuya data w = .form i := by
  refine fetchTuya_block (fun hnil => ?_) (h ▸ hd)
  rw [← h, hnil] at hd
  cases hd

theorem copyTurn_of_copyMeaning {size length distance : Nat} {r : List Byte} (h : copyMeaning distance length w.out = some r) :
    copyTurn p size length distance w =
      if r.length ≤ p.obufBytes then .more { w with out := r, pos := w.pos + size } else .raise .capacityExceeded none w.warn := by
  obtain ⟨hwithin, rfl⟩ := copyMeaning_eq_some_iff.1 h
  rw [copyTurn_of_within size hwithin, copyBytes_length]

/-- A block that has no meaning behind the output refers beyond it. -/
theorem expandTurn_of_far (h : data.drop w.pos = bs) (hd : decodeTuya bs = .ok i) (hm : blockMeaning i w.out = none) :
    expandTurn p data w = .raise .streamInvalid (some w.pos) w.warn := by
  have hfetch := fetchTuya_of_decodeTuya h hd
  rcases decodeTuya_form hd with ⟨bytes, rfl⟩ | ⟨f, d, rfl⟩ | ⟨d, ext, rfl⟩
  · cases hm
  · rw [expandTurn, hfetch]
    exact copyTurn_of_far 2 (copyMeaning_eq_none_iff.1 hm)
  · rw [expandTurn, hfetch]
    exact copyTurn_of_far 3 (copyMeaning_eq_none_iff.1 hm)

theorem expandTurn_of_block {r : List Byte} (h : data.drop w.pos = bs) (hd : decodeTuya bs = .ok i)
    (hm : blockMeaning i w.out = some r) :
    expandTurn p data w =
      if r.length ≤ p.obufBytes then .more { w with out := r, pos := w.pos + (formBytes i).length }
      else .raise .capacityExceeded none w.warn := by
  have hfetch := fetchTuya_of_decodeTuya h hd
  rcases decodeTuya_form hd with ⟨bytes, rfl⟩ | ⟨f, d, rfl⟩ | ⟨d, ext, rfl⟩
  · cases hm
    rw [expandTurn, hfetch, List.length_append, formBytes, encode, List.length_cons, Nat.add_comm bytes.length, ← Nat.add_assoc]
    exact emitting_emit w (w.pos + 1 + bytes.length) p.obufBytes bytes
  · rw [expandTurn, hfetch]
    exact copyTurn_of_copyMeaning hm
  · rw [expandTurn, hfetch]
    exact copyTurn_of_copyMeaning hm

end

/-! ### A run of turns -/

/-- The turns on the next blocks, which have a meaning that fits OBUF, give it and stop behind them, one turn at most for each byte. -/
theorem runTurns_blocks (p : Params) (data rest : List Byte) :
    ∀ (k : Nat) (blocks out : List Byte) (w : Work), data.drop w.pos = blocks ++ rest →
      refMeaningFrom k blocks w.out = some out → out.length ≤ p.obufBytes →
      ∃ n, n ≤ blocks.length ∧
        runTurns (expandTurn p data) n w = .more { w with out := out, pos := w.pos + blocks.length }
  | k, [], out, w, _, hm, _ => by
    rw [refMeaningFrom_nil] at hm
    cases hm
    exact ⟨0, Nat.le_refl 0, rfl⟩
  | k + 1, b :: bs, out, w, hd, hm, hroom => by
    obtain ⟨i, tail, mid, hsplit, hdec, hmid, htail⟩ := refMeaningFrom_cons_eq_some hm
    rw [hsplit, List.append_assoc] at hd
    have hmidroom : mid.length ≤ p.obufBytes := (length_le_of_refMeaningFrom k tail mid htail).trans hroom
    have hturn := expandTurn_of_block (p := p) hd (hdec _) hmid
    rw [if_pos hmidroom] at hturn
    have hnext : data.drop (w.pos + (formBytes i).length) = tail ++ rest := by
      rw [← List.drop_drop, hd, List.drop_left]
    have hpos : 0 < (formBytes i).length := by
      refine List.length_pos_iff.2 fun hnil => ?_
      have hdecnil := hdec []
      rw [hnil] at hdecnil
      cases hdecnil
    obtain ⟨n, hn, hrun⟩ := runTurns_blocks p data rest k tail out
      { w with out := mid, pos := w.pos + (formBytes i).length } hnext htail hroom
    rw [hsplit, List.length_append]
    exact ⟨n + 1, by omega, by rw [runTurns_of_more n hturn, hrun, Nat.add_assoc]⟩

theorem runTurns_of_ends {f : Work → Turn} {w : Work} {t : Turn} (k : Nat) (h : f w = t) (ht : ∀ v, t ≠ .more v) :
    runTurns f (k + 1) w = t := by
  cases t with
  | more v => exact absurd rfl (ht v)
  | done v => exact runTurns_of_done k h
  | raise c q ws => exact runTurns_of_raise k h

/-- The working state of TUYA_EXPAND behind so many bytes of blocks, with their meaning. -/
def Work.afterBlocks (out : List Byte) (pos : Nat) : Work := { Work.start with out := out, pos := pos }

@[simp] theorem afterBlocks_out (out : List Byte) (pos : Nat) : (Work.afterBlocks out pos).out = out := rfl
@[simp] theorem afterBlocks_pos (out : List Byte) (pos : Nat) : (Work.afterBlocks out pos).pos = pos := rfl

/-! ### The operation on a stream that begins with blocks whose meaning fits OBUF -/

section
variable (level : BitVec 2) {s : State} {blocks rest out : List Byte} (hcap : s.ilen.toNat ≤ s.params.ibufBytes)
  (hinput : s.inputBytes = blocks ++ rest) (hmeaning : refMeaning blocks = some out) (hroom : out.length ≤ s.params.obufBytes)
include hinput

theorem drop_afterBlocks : s.inputBytes.drop (Work.afterBlocks out blocks.length).pos = rest := by
  rw [afterBlocks_pos, hinput, List.drop_left]

include hcap hmeaning hroom

/-- The operation ends as the turn behind the blocks does. -/
theorem exec_tuyaExpand_of_ends {t : Turn} (hturn : expandTurn s.params s.inputBytes (Work.afterBlocks out blocks.length) = t)
    (hend : ∀ v, t ≠ .more v) : exec (.tuyaExpand level) s = .next (s.applyTurn toObuf t) := by
  obtain ⟨n, hn, hrun⟩ := runTurns_blocks s.params s.inputBytes rest _ blocks out Work.start hinput hmeaning hroom
  have hbehind : runTurns (expandTurn s.params s.inputBytes) n Work.start = .more (Work.afterBlocks out blocks.length) :=
    hrun.trans (congrArg (fun q => Turn.more (Work.afterBlocks out q)) (Nat.zero_add blocks.length))
  have hlen : s.ilen.toNat = blocks.length + rest.length := by rw [← inputBytes_length, hinput, List.length_append]
  have hbound : turnBound s.ilen.toNat = n + (s.ilen.toNat - n + 7 + 1) := by rw [turnBound]; omega
  rw [exec_tuyaExpand, runBytes_of_le hcap, hbound, runTurns_add n _ _ _ hbehind, runTurns_of_ends _ hturn hend]

theorem exec_tuyaExpand_of_streamInvalid
    (hturn : expandTurn s.params s.inputBytes (Work.afterBlocks out blocks.length) =
      .raise .streamInvalid (some blocks.length) Warn.none) :
    exec (.tuyaExpand level) s = .next (faultedBytes s 0x030A (BitVec.ofNat 32 blocks.length) 0) :=
  exec_tuyaExpand_of_ends level hcap hinput hmeaning hroom hturn nofun

theorem exec_tuyaExpand_of_far {i : Instr} (hd : decodeTuya rest = .ok i) (hfar : blockMeaning i out = none) :
    exec (.tuyaExpand level) s = .next (faultedBytes s 0x030A (BitVec.ofNat 32 blocks.length) 0) :=
  exec_tuyaExpand_of_streamInvalid level hcap hinput hmeaning hroom (expandTurn_of_far (drop_afterBlocks hinput) hd hfar)

theorem exec_tuyaExpand_of_overflow {i : Instr} {r : List Byte} (hd : decodeTuya rest = .ok i) (hi : blockMeaning i out = some r)
    (hover : s.params.obufBytes < r.length) :
    ∃ t, exec (.tuyaExpand level) s = .next t ∧ overflowedBytes s t 0 := by
  have hturn := expandTurn_of_block (p := s.params) (w := Work.afterBlocks out blocks.length) (drop_afterBlocks hinput) hd hi
  rw [if_neg (Nat.not_le.2 hover)] at hturn
  exact ⟨_, exec_tuyaExpand_of_ends level hcap hinput hmeaning hroom hturn nofun, takeFault_overflowedBytes s Warn.none⟩

end

/-- Settles O28: the whole stream is its own front, and the turn behind it completes. -/
theorem expand : Obligations.Expand := by
  intro s level out hcap hmeaning hroom
  have hinput : s.inputBytes = s.inputBytes ++ [] := (List.append_nil _).symm
  rw [exec_tuyaExpand_of_ends level hcap hinput hmeaning hroom (expandTurn_of_end (drop_afterBlocks hinput)) nofun, applyTurn_done,
    complete_toObuf, afterBlocks_pos, ofNat_inputBytes_length]
  rfl

/-- Settles O29: the turn behind the blocks is that of a cut block, of one that refers too far, or of one that does not fit. -/
theorem expandInvalid : Obligations.ExpandInvalid := by
  intro s level blocks rest out hcap hinput hmeaning hroom
  refine ⟨fun hne hcut => ?_, fun f d hd => ⟨fun hfar => ?_, fun hwithin hover => ?_⟩,
    fun d ext hd => ⟨fun hfar => ?_, fun hwithin hover => ?_⟩, fun data hd hover => ?_⟩
  · exact exec_tuyaExpand_of_streamInvalid level hcap hinput hmeaning hroom
      (expandTurn_of_cut (drop_afterBlocks hinput) hne hcut)
  · exact exec_tuyaExpand_of_far level hcap hinput hmeaning hroom hd (copyMeaning_of_far _ hfar)
  · exact exec_tuyaExpand_of_overflow level hcap hinput hmeaning hroom hd (copyMeaning_of_within _ hwithin)
      (by rwa [copyBytes_length])
  · exact exec_tuyaExpand_of_far level hcap hinput hmeaning hroom hd (copyMeaning_of_far _ hfar)
  · exact exec_tuyaExpand_of_overflow level hcap hinput hmeaning hroom hd (copyMeaning_of_within _ hwithin)
      (by rwa [copyBytes_length])
  · exact exec_tuyaExpand_of_overflow level hcap hinput hmeaning hroom hd rfl (by rwa [List.length_append])

end Sys2Proof.Machine
end

section
/-! SUPPORT. The suffix order is the library's lexical order of lists, and what the suffixes of one text inherit from it
(00_scope.md R14). -/

namespace Sys2Proof.Machine

open Sys2Proof

/-! ### The order of byte sequences -/

theorem lexLt_iff_lt (as bs : List Byte) : lexLt as bs = true ↔ as < bs := by
  fun_induction lexLt as bs with
  | case1 => simp
  | case2 b bs => simp
  | case3 a as => simp
  | case4 as b bs ih => simp [ih]
  | case5 a as b bs hab => simp [List.cons_lt_cons_iff, hab, BitVec.lt_def]

/-- The first byte that differs decides; where none does, the shorter sequence is smaller. -/
theorem list_lt_iff_firstDifference (as bs : List Byte) :
    as < bs ↔ (∃ (k : Nat) (x y : Byte), as[k]? = some x ∧ bs[k]? = some y ∧ x.toNat < y.toNat ∧ ∀ j, j < k → as[j]? = bs[j]?) ∨
      (as.length < bs.length ∧ ∀ j, j < as.length → as[j]? = bs[j]?) := by
  rw [List.lt_iff_exists, or_comm]
  refine or_congr ⟨?_, ?_⟩ ?_
  · rintro ⟨k, ha, hb, hagree, hlt⟩
    refine ⟨k, as[k], bs[k], List.getElem?_eq_getElem ha, List.getElem?_eq_getElem hb, hlt, fun j hj => ?_⟩
    rw [List.getElem?_eq_getElem (hj.trans ha), List.getElem?_eq_getElem (hj.trans hb), hagree j hj]
  · rintro ⟨k, x, y, hx, hy, hlt, hagree⟩
    obtain ⟨ha, rfl⟩ := List.getElem?_eq_some_iff.1 hx
    obtain ⟨hb, rfl⟩ := List.getElem?_eq_some_iff.1 hy
    refine ⟨k, ha, hb, fun j hj => ?_, hlt⟩
    simpa [List.getElem?_eq_getElem (hj.trans ha), List.getElem?_eq_getElem (hj.trans hb)] using hagree j hj
  · rw [and_comm]
    refine and_congr_right fun hlen => ⟨fun htake j hj => ?_, fun hagree => List.ext_getElem? fun j => ?_⟩
    · rw [htake, List.getElem?_take_of_lt hj]
    · rcases Nat.lt_or_ge j as.length with hj | hj
      · rw [List.getElem?_take_of_lt hj, hagree j hj]
      · rw [List.getElem?_eq_none hj, List.getElem?_eq_none (by rw [List.length_take]; omega)]

/-- A sequence between two that begin with the same byte begins with it too. -/
theorem cons_lt_cons_between {a b : Byte} {as bs cs : List Byte} (hab : a :: as < b :: bs) (hbc : b :: bs < a :: cs) :
    b = a ∧ as < bs ∧ bs < cs := by
  rcases List.cons_lt_cons_iff.1 hab with hlt | ⟨rfl, htail⟩
  · rcases List.cons_lt_cons_iff.1 hbc with hgt | ⟨rfl, -⟩
    · exact absurd (BitVec.lt_trans hlt hgt) (BitVec.lt_irrefl _)
    · exact absurd hlt (BitVec.lt_irrefl _)
  · exact ⟨rfl, htail, ((List.cons_lt_cons_iff.1 hbc).resolve_left (BitVec.lt_irrefl _)).2⟩

/-- A sequence between two others has at least as much in common with each of them as they have with each other. -/
theorem commonLength_le_of_between (k : Nat) {as bs cs : List Byte} (h : as < bs ∧ bs < cs ∨ cs < bs ∧ bs < as) :
    commonLength k cs as ≤ commonLength k cs bs := by
  fun_induction commonLength k cs as generalizing bs with
  | case4 k cs a as ih =>
    cases bs with
    | nil => exact h.elim (fun hup => absurd hup.1 (List.not_lt_nil _)) (fun hdown => absurd hdown.1 (List.not_lt_nil _))
    | cons b bs =>
      obtain ⟨rfl, hinner⟩ : b = a ∧ (as < bs ∧ bs < cs ∨ cs < bs ∧ bs < as) := by
        rcases h with ⟨hab, hbc⟩ | ⟨hcb, hba⟩
        · exact (cons_lt_cons_between hab hbc).imp_right .inl
        · exact (cons_lt_cons_between hcb hba).imp_right .inr
      simpa [commonLength] using ih hinner
  | _ => exact Nat.zero_le _

/-! ### The order of the suffixes of one text -/

section
variable {data : List Byte} {a b c : Nat}

theorem suffixLt_iff_lt : suffixLt data a b = true ↔ data.drop a < data.drop b := lexLt_iff_lt _ _

theorem suffixLt_irrefl (a : Nat) : ¬ suffixLt data a a = true := fun h => List.lt_irrefl _ (suffixLt_iff_lt.1 h)

theorem suffixLt_trans (hab : suffixLt data a b = true) (hbc : suffixLt data b c = true) : suffixLt data a c = true :=
  suffixLt_iff_lt.2 (List.lt_trans (suffixLt_iff_lt.1 hab) (suffixLt_iff_lt.1 hbc))

theorem not_suffixLt_of_suffixLt (hab : suffixLt data a b = true) : ¬ suffixLt data b a = true :=
  fun hba => suffixLt_irrefl a (suffixLt_trans hab hba)

/-- Suffixes at different positions are never equal, so one of the two is smaller. -/
theorem suffixLt_or_gt (ha : a < data.length) (hne : a ≠ b) : suffixLt data a b = true ∨ suffixLt data b a = true := by
  by_contra hnone
  obtain ⟨hab, hba⟩ := not_or.1 hnone
  have heq : data.drop a = data.drop b :=
    List.le_antisymm (List.not_lt.1 (mt suffixLt_iff_lt.2 hba)) (List.not_lt.1 (mt suffixLt_iff_lt.2 hab))
  have hlen := congrArg List.length heq
  rw [List.length_drop, List.length_drop] at hlen
  omega

end

end Sys2Proof.Machine
end

section
/-! PROOFS. The suffix array holds the window of its last position in suffix order (43_tuya_levels.md R156 to R158). -/

namespace Sys2Proof.Machine

open Sys2Proof

/-! ### The maintenance loop -/

/-- The suffix array at the start of an operation (43_tuya_levels.md R157). -/
def Sfx.empty : Sfx := { entries := [], next := 0 }

@[simp] theorem insertNext_next (data : List Byte) (x : Sfx) : (x.insertNext data).next = x.next + 1 := rfl

@[simp] theorem advance_next (data : List Byte) (k : Nat) (x : Sfx) : (x.advance data k).next = x.next + k := by
  induction k generalizing x with
  | zero => rfl
  | succ k ih => rw [Sfx.advance, ih, insertNext_next]; omega

theorem advance_add (data : List Byte) (j k : Nat) (x : Sfx) :
    x.advance data (j + k) = (x.advance data j).advance data k := by
  induction j generalizing x with
  | zero => rw [Nat.zero_add]; rfl
  | succ j ih => rw [Nat.succ_add]; exact ih _

theorem advance_succ (data : List Byte) (k : Nat) (x : Sfx) :
    x.advance data (k + 1) = (x.advance data k).insertNext data := advance_add data k 1 x

/-- The array brought up in stages is the array brought up at once. -/
theorem bringUp_advance (data : List Byte) {k pos : Nat} (h : k ≤ pos + 1) :
    Sfx.bringUp data pos (Sfx.empty.advance data k) = Sfx.empty.advance data (pos + 1) := by
  rw [Sfx.bringUp, advance_next, ← advance_add]
  exact congrArg (fun j => Sfx.empty.advance data j) (by simp only [Sfx.empty]; omega)

theorem bringUp_empty (data : List Byte) (pos : Nat) :
    Sfx.bringUp data pos { entries := [], next := 0 } = Sfx.empty.advance data (pos + 1) :=
  bringUp_advance data (Nat.zero_le _)

/-! ### What the array holds -/

/-- What R156 says of the array whose next position is `x.next`: the positions at most 8193 before it, in suffix order. -/
structure Sfx.HoldsWindow (data : List Byte) (x : Sfx) : Prop where
  mem_iff : ∀ p, p ∈ x.entries ↔ p < x.next ∧ x.next ≤ p + 8193
  sorted : x.entries.Pairwise fun a b => suffixLt data a b = true

theorem nodup_of_pairwise_suffixLt {data : List Byte} {es : List Nat}
    (h : es.Pairwise fun a b => suffixLt data a b = true) : es.Nodup :=
  List.nodup_iff_pairwise_ne.2 (h.imp fun hab => by rintro rfl; exact suffixLt_irrefl _ hab)

/-- Where a test holds of every entry before one of which it holds, it holds of the entries counted and of no other. -/
theorem countP_splits {α : Type} {test : α → Bool} {es : List α} (h : es.Pairwise fun a b => test b = true → test a = true) :
    (∀ e ∈ es.take (es.countP test), test e = true) ∧ ∀ e ∈ es.drop (es.countP test), ¬ test e = true := by
  induction es with
  | nil => simp
  | cons e es ih =>
    obtain ⟨hhead, htail⟩ := List.pairwise_cons.1 h
    by_cases he : test e = true
    · rw [List.countP_cons_of_pos he, List.take_succ_cons, List.drop_succ_cons]
      exact ⟨List.forall_mem_cons.2 ⟨he, (ih htail).1⟩, (ih htail).2⟩
    · have hnone : ∀ a ∈ es, ¬ test a = true := fun a ha hta => he (hhead a ha hta)
      rw [List.countP_cons_of_neg he, List.countP_eq_zero.2 hnone]
      exact ⟨by simp, List.forall_mem_cons.2 ⟨he, hnone⟩⟩

/-- Inserting behind the entries with a smaller suffix keeps suffix order. -/
theorem pairwise_insert {data : List Byte} {es : List Nat} {v : Nat} (hv : v < data.length) (hfresh : v ∉ es)
    (h : es.Pairwise fun a b => suffixLt data a b = true) :
    let j := es.countP fun e => suffixLt data e v
    (es.take j ++ v :: es.drop j).Pairwise fun a b => suffixLt data a b = true := by
  obtain ⟨hbefore, hbehind⟩ := countP_splits (test := fun e => suffixLt data e v) (h.imp fun hab hbv => suffixLt_trans hab hbv)
  have hgreater : ∀ b ∈ es.drop (es.countP fun e => suffixLt data e v), suffixLt data v b = true := fun b hb =>
    (suffixLt_or_gt hv fun heq => hfresh (heq ▸ List.mem_of_mem_drop hb)).resolve_right (hbehind b hb)
  refine List.pairwise_append.2 ⟨h.sublist (List.take_sublist _ _),
    List.pairwise_cons.2 ⟨hgreater, h.sublist (List.drop_sublist _ _)⟩, fun a ha b hb => ?_⟩
  rcases List.mem_cons.1 hb with rfl | hb
  · exact hbefore a ha
  · exact suffixLt_trans (hbefore a ha) (hgreater b hb)

theorem mem_insert_iff {es : List Nat} {j v p : Nat} : p ∈ es.take j ++ v :: es.drop j ↔ p = v ∨ p ∈ es := by
  rw [List.mem_append, List.mem_cons, or_left_comm, ← List.mem_append, List.take_append_drop]

/-- The entries left when the position that falls out of the window is removed (43_tuya_levels.md R157). -/
def Sfx.evicted (x : Sfx) : List Nat :=
  if window + 1 ≤ x.next then x.entries.erase (x.next - (window + 1)) else x.entries

theorem insertNext_entries (data : List Byte) (x : Sfx) :
    (x.insertNext data).entries =
      x.evicted.take (x.evicted.countP fun e => suffixLt data e x.next) ++
        x.next :: x.evicted.drop (x.evicted.countP fun e => suffixLt data e x.next) := rfl

section
variable {data : List Byte} {x : Sfx}

theorem Sfx.HoldsWindow.mem_evicted_iff (h : x.HoldsWindow data) (p : Nat) :
    p ∈ x.evicted ↔ p < x.next ∧ x.next ≤ p + 8192 := by
  unfold Sfx.evicted
  split
  · rw [(nodup_of_pairwise_suffixLt h.sorted).mem_erase_iff, h.mem_iff]
    simp only [window] at *
    omega
  · rw [h.mem_iff]
    simp only [window] at *
    omega

theorem Sfx.HoldsWindow.evicted_sorted (h : x.HoldsWindow data) :
    x.evicted.Pairwise fun a b => suffixLt data a b = true := by
  unfold Sfx.evicted
  split
  · exact h.sorted.sublist List.erase_sublist
  · exact h.sorted

theorem Sfx.HoldsWindow.insertNext (h : x.HoldsWindow data) (hlt : x.next < data.length) :
    (x.insertNext data).HoldsWindow data where
  mem_iff p := by
    rw [insertNext_next, insertNext_entries, mem_insert_iff, h.mem_evicted_iff]
    omega
  sorted := by
    have hfresh : x.next ∉ x.evicted := fun hmem => Nat.lt_irrefl _ ((h.mem_evicted_iff _).1 hmem).1
    exact pairwise_insert hlt hfresh h.evicted_sorted

theorem Sfx.HoldsWindow.length_eq (h : x.HoldsWindow data) : x.entries.length = min x.next 8193 := by
  have hperm : x.entries.Perm (List.range' (x.next - 8193) (min x.next 8193)) := by
    refine (List.perm_ext_iff_of_nodup (nodup_of_pairwise_suffixLt h.sorted) List.nodup_range').2 fun p => ?_
    rw [h.mem_iff, List.mem_range'_1]
    omega
  simpa using hperm.length_eq

end

/-- The array after any number of turns holds its window. -/
theorem holdsWindow_advance {data : List Byte} {k : Nat} (h : k ≤ data.length) :
    (Sfx.empty.advance data k).HoldsWindow data := by
  induction k with
  | zero => exact ⟨by simp [Sfx.advance, Sfx.empty], List.Pairwise.nil⟩
  | succ k ih =>
    rw [advance_succ]
    exact (ih (by omega)).insertNext (by rw [advance_next]; simp only [Sfx.empty]; omega)

/-- Settles O34: the suffix order is the lexical order of the suffixes, and every turn of the maintenance loop keeps the window. -/
theorem suffixArray : Obligations.SuffixArray := by
  refine ⟨fun data a b ha hb => ?_, fun data pos hpos => ?_⟩
  · rw [suffixLt_iff_lt, list_lt_iff_firstDifference]
    simp only [List.getElem?_drop, List.length_drop]
    refine or_congr_right (and_congr (by omega) (forall_congr' fun j => imp_congr_left ?_))
    omega
  · have hwindow := holdsWindow_advance (data := data) (k := pos + 1) hpos
    have hnext : (Sfx.empty.advance data (pos + 1)).next = pos + 1 := by simp [Sfx.empty]
    simp only [bringUp_empty]
    refine ⟨hnext, ?_, fun p => ?_, hwindow.sorted, fun q hq => bringUp_advance data (by omega)⟩
    · rw [hwindow.length_eq, hnext]
      omega
    · rw [hwindow.mem_iff, hnext]
      omega

end Sys2Proof.Machine
end

section
/-! PROOFS. The neighbours of a position in the suffix array, and that `BestMatch` answers the better of them, which no position of
the window beats in length (43_tuya_levels.md R159, R160). -/

namespace Sys2Proof.Machine

open Sys2Proof

/-! ### Around the current position -/

/-- The suffix array brought up to `pos`, parted at `pos`. -/
structure Sfx.Parts (data : List Byte) (pos : Nat) (before after : List Nat) : Prop where
  entries_eq : (Sfx.empty.advance data (pos + 1)).entries = before ++ pos :: after
  window_iff : ∀ q, q < pos ∧ pos ≤ q + 8192 ↔ q ∈ before ∨ q ∈ after
  sorted : (before ++ pos :: after).Pairwise fun a b => suffixLt data a b = true

theorem exists_parts {data : List Byte} {pos : Nat} (h : pos < data.length) : ∃ before after, Sfx.Parts data pos before after := by
  have hwindow := holdsWindow_advance (data := data) (k := pos + 1) h
  have hmem : ∀ q, q ∈ (Sfx.empty.advance data (pos + 1)).entries ↔ q ≤ pos ∧ pos ≤ q + 8192 := fun q => by
    rw [hwindow.mem_iff]
    simp [Sfx.empty]
  obtain ⟨before, after, hsplit⟩ := List.append_of_mem ((hmem pos).2 ⟨Nat.le_refl _, Nat.le_add_right _ _⟩)
  have hsorted := hsplit ▸ hwindow.sorted
  refine ⟨before, after, hsplit, fun q => ?_, hsorted⟩
  have hnodup := nodup_of_pairwise_suffixLt hsorted
  rw [List.nodup_append, List.nodup_cons] at hnodup
  obtain ⟨-, ⟨hafter, -⟩, hcross⟩ := hnodup
  have hbefore : pos ∉ before := fun hb => hcross pos hb pos List.mem_cons_self rfl
  have hq := hmem q
  rw [hsplit, List.mem_append, List.mem_cons] at hq
  constructor
  · intro hwin
    rcases hq.2 ⟨hwin.1.le, hwin.2⟩ with hb | rfl | ha
    · exact .inl hb
    · exact absurd hwin.1 (Nat.lt_irrefl _)
    · exact .inr ha
  · intro hside
    have hne : q ≠ pos := by
      rintro rfl
      exact hside.elim hbefore hafter
    have hle := hq.1 (hside.imp_right .inr)
    omega

section
variable {data : List Byte} {pos : Nat} {before after : List Nat} (h : Sfx.Parts data pos before after)
include h

theorem Sfx.Parts.before_lt {b : Nat} (hb : b ∈ before) : suffixLt data b pos = true :=
  (List.pairwise_append.1 h.sorted).2.2 b hb pos List.mem_cons_self

theorem Sfx.Parts.lt_after {a : Nat} (ha : a ∈ after) : suffixLt data pos a = true :=
  (List.pairwise_cons.1 (List.pairwise_append.1 h.sorted).2.1).1 a ha

/-- The entry behind `pos` is next to it on the greater side. -/
theorem Sfx.Parts.head_le {p a : Nat} (hp : after.head? = some p) (ha : a ∈ after) : a = p ∨ suffixLt data p a = true := by
  obtain ⟨rest, rfl⟩ := List.head?_eq_some_iff.1 hp
  have htail := (List.pairwise_cons.1 (List.pairwise_append.1 h.sorted).2.1).2
  exact (List.mem_cons.1 ha).imp_right ((List.pairwise_cons.1 htail).1 a)

/-- The entry before `pos` is next to it on the smaller side. -/
theorem Sfx.Parts.le_last {p b : Nat} (hp : before.getLast? = some p) (hb : b ∈ before) : b = p ∨ suffixLt data b p = true := by
  obtain ⟨rest, rfl⟩ := List.getLast?_eq_some_iff.1 hp
  have hinit := (List.pairwise_append.1 (List.pairwise_append.1 h.sorted).1).2.2
  rcases List.mem_append.1 hb with hb | hb
  · exact .inr (hinit b hb p List.mem_cons_self)
  · exact .inl (List.mem_singleton.1 hb)

theorem Sfx.Parts.exists_head {a : Nat} (ha : a ∈ after) :
    ∃ q, after.head? = some q ∧ q ∈ after ∧ (a = q ∨ suffixLt data q a = true) := by
  obtain ⟨q, hq⟩ := Option.ne_none_iff_exists'.1 (mt List.head?_eq_none_iff.1 (List.ne_nil_of_mem ha))
  exact ⟨q, hq, List.mem_of_head? hq, h.head_le hq ha⟩

theorem Sfx.Parts.exists_last {b : Nat} (hb : b ∈ before) :
    ∃ q, before.getLast? = some q ∧ q ∈ before ∧ (b = q ∨ suffixLt data b q = true) := by
  obtain ⟨q, hq⟩ := Option.ne_none_iff_exists'.1 (mt List.getLast?_eq_none_iff.1 (List.ne_nil_of_mem hb))
  exact ⟨q, hq, List.mem_of_getLast? hq, h.le_last hq hb⟩

theorem Sfx.Parts.neighbour_of_head {p : Nat} (hp : after.head? = some p) : neighbour data pos p := by
  have hpa := List.mem_of_head? hp
  obtain ⟨hlt, hwin⟩ := (h.window_iff p).2 (.inr hpa)
  refine ⟨hlt, hwin, fun q hq hqwin => ⟨fun ⟨hpq, hqpos⟩ => ?_, fun ⟨hposq, hqp⟩ => ?_⟩⟩
  · exact not_suffixLt_of_suffixLt (h.lt_after hpa) (suffixLt_trans hpq hqpos)
  · rcases (h.window_iff q).1 ⟨hq, hqwin⟩ with hqb | hqa
    · exact not_suffixLt_of_suffixLt hposq (h.before_lt hqb)
    · rcases h.head_le hp hqa with rfl | hpq
      · exact suffixLt_irrefl _ hqp
      · exact not_suffixLt_of_suffixLt hpq hqp

theorem Sfx.Parts.neighbour_of_last {p : Nat} (hp : before.getLast? = some p) : neighbour data pos p := by
  have hpb := List.mem_of_getLast? hp
  obtain ⟨hlt, hwin⟩ := (h.window_iff p).2 (.inl hpb)
  refine ⟨hlt, hwin, fun q hq hqwin => ⟨fun ⟨hpq, hqpos⟩ => ?_, fun ⟨hposq, hqp⟩ => ?_⟩⟩
  · rcases (h.window_iff q).1 ⟨hq, hqwin⟩ with hqb | hqa
    · rcases h.le_last hp hqb with rfl | hqp
      · exact suffixLt_irrefl _ hpq
      · exact not_suffixLt_of_suffixLt hpq hqp
    · exact not_suffixLt_of_suffixLt hqpos (h.lt_after hqa)
  · exact not_suffixLt_of_suffixLt (h.before_lt hpb) (suffixLt_trans hposq hqp)

/-- The neighbours are the entries next to `pos`. -/
theorem Sfx.Parts.neighbour_iff (p : Nat) : neighbour data pos p ↔ after.head? = some p ∨ before.getLast? = some p := by
  refine ⟨fun ⟨hlt, hwin, hnone⟩ => ?_, fun hp => hp.elim h.neighbour_of_head h.neighbour_of_last⟩
  rcases (h.window_iff p).1 ⟨hlt, hwin⟩ with hb | ha
  · obtain ⟨q, hq, hqb, rfl | hpq⟩ := h.exists_last hb
    · exact .inr hq
    · obtain ⟨hqlt, hqwin⟩ := (h.window_iff q).2 (.inl hqb)
      exact absurd ⟨hpq, h.before_lt hqb⟩ (hnone q hqlt hqwin).1
  · obtain ⟨q, hq, hqa, rfl | hqp⟩ := h.exists_head ha
    · exact .inl hq
    · obtain ⟨hqlt, hqwin⟩ := (h.window_iff q).2 (.inr hqa)
      exact absurd ⟨h.lt_after hqa, hqp⟩ (hnone q hqlt hqwin).2

/-- `BestMatch` compares the entry behind `pos`, then the one before it (43_tuya_levels.md R159). -/
theorem Sfx.Parts.bestFrom_eq :
    bestFrom data pos = betterMatch data pos (betterMatch data pos none after.head?) before.getLast? := by
  have hfresh : pos ∉ before := fun hb => suffixLt_irrefl pos (h.before_lt hb)
  have hidx : (before ++ pos :: after).idxOf pos = before.length := by
    rw [List.idxOf_append_of_notMem hfresh, List.idxOf_cons_self, Nat.add_zero]
  have habove : (before ++ pos :: after)[before.length + 1]? = after.head? := by
    rw [List.getElem?_append_right (by omega), Nat.add_sub_cancel_left, List.getElem?_cons_succ, List.head?_eq_getElem?]
  have hbelow : (if before.length = 0 then none else (before ++ pos :: after)[before.length - 1]?) = before.getLast? := by
    split
    · rename_i hnil
      rw [List.length_eq_zero_iff.1 hnil]
      rfl
    · rw [List.getElem?_append_left (by omega), List.getLast?_eq_getElem?]
  rw [bestFrom, bringUp_empty, bestMatch, h.entries_eq, hidx, habove, hbelow]

end

/-! ### The better of two candidates -/

/-- The length and distance of a candidate (43_tuya_levels.md R159). -/
def candidate (data : List Byte) (pos p : Nat) : Nat × Nat := (matchLen data pos p, pos - p)

/-- A match is longer than another, or as long and no farther. -/
def NoWorse (m other : Nat × Nat) : Prop := other.1 < m.1 ∨ (other.1 = m.1 ∧ m.2 ≤ other.2)

theorem NoWorse.refl (m : Nat × Nat) : NoWorse m m := .inr ⟨rfl, Nat.le_refl _⟩

theorem NoWorse.antisymm {m m' : Nat × Nat} (h : NoWorse m m') (h' : NoWorse m' m) : m = m' := by
  unfold NoWorse at h h'
  exact Prod.ext (by omega) (by omega)

theorem betterMatch_none (data : List Byte) (pos : Nat) (cand : Option Nat) :
    betterMatch data pos none cand = cand.map (candidate data pos) := by
  cases cand <;> rfl

/-- Against a best match so far, a candidate gives whichever of the two is no worse. -/
theorem betterMatch_some (data : List Byte) (pos p : Nat) (m : Nat × Nat) :
    (betterMatch data pos (some m) (some p) = some m ∧ NoWorse m (candidate data pos p)) ∨
    (betterMatch data pos (some m) (some p) = some (candidate data pos p) ∧ NoWorse (candidate data pos p) m) := by
  unfold betterMatch NoWorse candidate
  dsimp only
  split
  · exact .inr ⟨rfl, by omega⟩
  · exact .inl ⟨rfl, by omega⟩

/-- Of at most two candidates, the answer is one that is no worse than either. -/
theorem betterMatch_of_candidate (data : List Byte) (pos : Nat) {above below : Option Nat} {p : Nat}
    (hp : above = some p ∨ below = some p) :
    ∃ q, (above = some q ∨ below = some q) ∧
      betterMatch data pos (betterMatch data pos none above) below = some (candidate data pos q) ∧
      ∀ q', above = some q' ∨ below = some q' → NoWorse (candidate data pos q) (candidate data pos q') := by
  rw [betterMatch_none]
  cases above with
  | none =>
    obtain rfl := hp.resolve_left (by simp)
    exact ⟨p, hp, rfl, fun q' hq' => by simp at hq'; exact hq' ▸ NoWorse.refl _⟩
  | some a =>
    cases below with
    | none => exact ⟨a, .inl rfl, rfl, fun q' hq' => by simp at hq'; exact hq' ▸ NoWorse.refl _⟩
    | some b =>
      rcases betterMatch_some data pos b (candidate data pos a) with ⟨heq, hle⟩ | ⟨heq, hle⟩
      · refine ⟨a, .inl rfl, heq, fun q' hq' => ?_⟩
        rcases hq' with hq' | hq' <;> cases hq'
        · exact NoWorse.refl _
        · exact hle
      · refine ⟨b, .inr rfl, heq, fun q' hq' => ?_⟩
        rcases hq' with hq' | hq' <;> cases hq'
        · exact hle
        · exact NoWorse.refl _

/-! ### `BestMatch` -/

section
variable {data : List Byte} {pos : Nat} (hpos : pos < data.length)
include hpos

theorem bestFrom_of_neighbour {p : Nat} (hp : neighbour data pos p) :
    ∃ q, neighbour data pos q ∧ bestFrom data pos = some (candidate data pos q) ∧
      ∀ q', neighbour data pos q' → NoWorse (candidate data pos q) (candidate data pos q') := by
  obtain ⟨before, after, hparts⟩ := exists_parts hpos
  simp only [hparts.neighbour_iff, hparts.bestFrom_eq] at hp ⊢
  exact betterMatch_of_candidate data pos hp

theorem bestFrom_of_no_neighbour (hnone : ∀ p, ¬ neighbour data pos p) : bestFrom data pos = none := by
  obtain ⟨before, after, hparts⟩ := exists_parts hpos
  simp only [hparts.neighbour_iff, not_or] at hnone
  rw [hparts.bestFrom_eq, Option.eq_none_iff_forall_ne_some.2 fun p => (hnone p).1,
    Option.eq_none_iff_forall_ne_some.2 fun p => (hnone p).2]
  rfl

/-- What `BestMatch` answers is a neighbour that is no worse than any. -/
theorem bestFrom_eq_some {m : Nat × Nat} (h : bestFrom data pos = some m) :
    ∃ q, neighbour data pos q ∧ m = candidate data pos q ∧
      ∀ q', neighbour data pos q' → NoWorse m (candidate data pos q') := by
  by_cases hex : ∃ p, neighbour data pos p
  · obtain ⟨p, hp⟩ := hex
    obtain ⟨q, hq, heq, hbest⟩ := bestFrom_of_neighbour hpos hp
    obtain rfl := Option.some.inj (h.symm.trans heq)
    exact ⟨q, hq, rfl, hbest⟩
  · rw [bestFrom_of_no_neighbour hpos (not_exists.1 hex)] at h
    cases h

/-- A neighbour has as long a match as any position of the window (43_tuya_levels.md R160). -/
theorem exists_neighbour_longest {p : Nat} (hlt : p < pos) (hwin : pos ≤ p + 8192) :
    ∃ q, neighbour data pos q ∧ matchLen data pos p ≤ matchLen data pos q := by
  obtain ⟨before, after, hparts⟩ := exists_parts hpos
  simp only [hparts.neighbour_iff]
  rcases (hparts.window_iff p).1 ⟨hlt, hwin⟩ with hb | ha
  · obtain ⟨q, hq, hqb, rfl | hpq⟩ := hparts.exists_last hb
    · exact ⟨p, .inr hq, Nat.le_refl _⟩
    · exact ⟨q, .inr hq, commonLength_le_of_between _ (.inl ⟨suffixLt_iff_lt.1 hpq, suffixLt_iff_lt.1 (hparts.before_lt hqb)⟩)⟩
  · obtain ⟨q, hq, hqa, rfl | hqp⟩ := hparts.exists_head ha
    · exact ⟨p, .inl hq, Nat.le_refl _⟩
    · exact ⟨q, .inl hq, commonLength_le_of_between _ (.inr ⟨suffixLt_iff_lt.1 (hparts.lt_after hqa), suffixLt_iff_lt.1 hqp⟩)⟩

/-- No position of the window has a longer match than `BestMatch` answers. -/
theorem bestFrom_longest {p : Nat} (hlt : p < pos) (hwin : pos ≤ p + 8192) :
    ∃ m, bestFrom data pos = some m ∧ matchLen data pos p ≤ m.1 := by
  obtain ⟨q, hq, hle⟩ := exists_neighbour_longest hpos hlt hwin
  obtain ⟨r, -, heq, hbest⟩ := bestFrom_of_neighbour hpos hq
  have hqr : matchLen data pos q ≤ matchLen data pos r := by
    have := hbest q hq
    simp only [NoWorse, candidate] at this
    omega
  exact ⟨_, heq, hle.trans hqr⟩

end

theorem bestFrom_eq_some_iff {data : List Byte} {pos l d : Nat} (hpos : pos < data.length) :
    bestFrom data pos = some (l, d) ↔
      1 ≤ d ∧ d ≤ pos ∧ neighbour data pos (pos - d) ∧ l = matchLen data pos (pos - d) ∧
      ∀ p, neighbour data pos p → matchLen data pos p < l ∨ (matchLen data pos p = l ∧ d ≤ pos - p) := by
  constructor
  · intro h
    obtain ⟨q, hq, heq, hbest⟩ := bestFrom_eq_some hpos h
    obtain ⟨rfl, rfl⟩ := Prod.ext_iff.1 heq
    obtain ⟨hlt, -, -⟩ := id hq
    have hback : pos - (pos - q) = q := by omega
    refine ⟨by simp only [candidate]; omega, by simp only [candidate]; omega, ?_, ?_, hbest⟩
    · rwa [candidate, hback]
    · rw [candidate, hback]
  · rintro ⟨hd1, hdpos, hd, rfl, hbest⟩
    obtain ⟨q, hq, heq, hbestq⟩ := bestFrom_of_neighbour hpos hd
    have hself : candidate data pos (pos - d) = (matchLen data pos (pos - d), d) :=
      Prod.ext rfl (by simp only [candidate]; omega)
    rw [heq, ← hself]
    refine congrArg some (NoWorse.antisymm (hbestq _ hd) ?_)
    rw [hself]
    exact hbest q hq

/-- Settles O35: one of the two neighbours has a match as long as any of the window. -/
theorem bestMatchLongest : Obligations.BestMatchLongest := by
  intro data pos hmin hpos
  obtain ⟨⟨l, d⟩, heq, -⟩ := bestFrom_longest hpos (p := pos - 1) (by omega) (by omega)
  obtain ⟨hd1, hdpos, ⟨-, hwin, -⟩, hl, -⟩ := (bestFrom_eq_some_iff hpos).1 heq
  refine ⟨l, d, heq, hd1, by omega, hdpos, hl, fun p hlt hp => ?_⟩
  obtain ⟨m, hm, hle⟩ := bestFrom_longest hpos hlt hp
  obtain rfl := Option.some.inj (hm.symm.trans heq)
  exact hle

end Sys2Proof.Machine
end

section
/-! PROOFS. `FirstMatch` is the nearest distance that gives a match of 3 or more (43_tuya_levels.md R152). -/

namespace Sys2Proof.Machine

open Sys2Proof

theorem firstMatchFrom_of_hit {data : List Byte} {pos d : Nat} (h : 3 ≤ matchLen data pos (pos - d)) (k : Nat) :
    firstMatchFrom data pos (k + 1) d = some (matchLen data pos (pos - d), d) := if_pos h

theorem firstMatchFrom_of_miss {data : List Byte} {pos d : Nat} (h : ¬ 3 ≤ matchLen data pos (pos - d)) (k : Nat) :
    firstMatchFrom data pos (k + 1) d = firstMatchFrom data pos k (d + 1) := if_neg h

/-- The scan from distance `d₀` on answers the first distance of its range with a match of 3 or more. -/
theorem firstMatchFrom_eq_some_iff (data : List Byte) (pos : Nat) {k d₀ l d : Nat} :
    firstMatchFrom data pos k d₀ = some (l, d) ↔
      d₀ ≤ d ∧ d < d₀ + k ∧ l = matchLen data pos (pos - d) ∧ 3 ≤ l ∧
      ∀ d', d₀ ≤ d' → d' < d → matchLen data pos (pos - d') < 3 := by
  induction k generalizing d₀ with
  | zero =>
    simp only [firstMatchFrom, reduceCtorEq, false_iff]
    omega
  | succ k ih =>
    by_cases hhit : 3 ≤ matchLen data pos (pos - d₀)
    · rw [firstMatchFrom_of_hit hhit, Option.some.injEq, Prod.mk.injEq]
      constructor
      · rintro ⟨rfl, rfl⟩
        exact ⟨Nat.le_refl _, by omega, rfl, hhit, fun d' hle hlt => absurd hlt (Nat.not_lt.2 hle)⟩
      · rintro ⟨hle, -, rfl, -, hnearer⟩
        obtain rfl : d = d₀ := hle.eq_or_lt.elim Eq.symm fun hlt => absurd (hnearer d₀ (Nat.le_refl _) hlt) (Nat.not_lt.2 hhit)
        exact ⟨rfl, rfl⟩
    · rw [firstMatchFrom_of_miss hhit, ih]
      constructor
      · rintro ⟨hle, hlt, hl, hmin, hnearer⟩
        refine ⟨by omega, by omega, hl, hmin, fun d' hle' hlt' => ?_⟩
        rcases hle'.eq_or_lt with rfl | hgt
        · exact Nat.not_le.1 hhit
        · exact hnearer d' hgt hlt'
      · rintro ⟨hle, hlt, rfl, hmin, hnearer⟩
        have hne : d ≠ d₀ := by
          rintro rfl
          exact hhit hmin
        exact ⟨by omega, by omega, rfl, hmin, fun d' hle' => hnearer d' (by omega)⟩

theorem firstMatchFrom_eq_none_iff (data : List Byte) (pos : Nat) {k d₀ : Nat} :
    firstMatchFrom data pos k d₀ = none ↔ ∀ d, d₀ ≤ d → d < d₀ + k → matchLen data pos (pos - d) < 3 := by
  induction k generalizing d₀ with
  | zero =>
    refine iff_of_true rfl fun d hle hlt => ?_
    omega
  | succ k ih =>
    by_cases hhit : 3 ≤ matchLen data pos (pos - d₀)
    · rw [firstMatchFrom_of_hit hhit]
      exact iff_of_false (by simp) fun hall => Nat.not_lt.2 hhit (hall d₀ (Nat.le_refl _) (by omega))
    · rw [firstMatchFrom_of_miss hhit, ih]
      refine ⟨fun hall d hle hlt => ?_, fun hall d hle hlt => hall d (by omega) (by omega)⟩
      rcases hle.eq_or_lt with rfl | hgt
      · exact Nat.not_le.1 hhit
      · exact hall d hgt (by omega)

theorem firstMatch_eq_some_iff (data : List Byte) (pos l d : Nat) :
    firstMatch data pos = some (l, d) ↔
      1 ≤ d ∧ d ≤ min pos 8192 ∧ l = matchLen data pos (pos - d) ∧ 3 ≤ l ∧
      ∀ d', 1 ≤ d' → d' < d → matchLen data pos (pos - d') < 3 := by
  rw [firstMatch, firstMatchFrom_eq_some_iff, window, Nat.add_comm 1, Nat.lt_succ_iff]

end Sys2Proof.Machine

namespace Sys2Proof.Laws

open Sys2Proof.Machine

/-- Settles O33: the scan goes over the distances in order. (In this namespace because the model's function has the name in the
other.) -/
theorem firstMatch : Obligations.FirstMatch := by
  refine fun data pos => ⟨firstMatch_eq_some_iff data pos, ?_⟩
  rw [Machine.firstMatch, firstMatchFrom_eq_none_iff, window, Nat.add_comm 1]
  simp only [Nat.lt_succ_iff]

end Sys2Proof.Laws
end

section
/-! SUPPORT. Every emission of TUYA_PACK is one `emit` of bytes in closed form, and what a run that ends in one leaves
(42_tuya_format.md R130 to R133; 43_tuya_levels.md R172). -/

namespace Sys2Proof.Machine

open Sys2Proof

/-! ### One emission after another -/

theorem emit_of_le {cap : Nat} {bs out : List Byte} (h : out.length + bs.length ≤ cap) : emit cap bs out = .ok (out ++ bs) :=
  (emit_eq_ok_iff cap bs out _).2 ⟨h, rfl⟩

theorem emit_of_gt {cap : Nat} {bs out : List Byte} (h : cap < out.length + bs.length) :
    emit cap bs out = .error .capacityExceeded :=
  (emit_eq_error_iff cap bs out _).2 ⟨h, rfl⟩

theorem emit_append (cap : Nat) (as bs out : List Byte) :
    emit cap (as ++ bs) out = emit cap bs (out ++ as) := by
  simp only [emit, List.length_append, List.append_assoc, Nat.add_assoc]

theorem emit_append_of_gt {cap : Nat} {as out : List Byte} (h : cap < out.length + as.length) (bs : List Byte) :
    emit cap (as ++ bs) out = .error .capacityExceeded :=
  emit_of_gt (by rw [List.length_append]; omega)

theorem emitLiteralRun_eq_emit {cap : Nat} (bs : List Byte) {out : List Byte} (hout : out.length ≤ cap) :
    emitLiteralRun cap bs out = emit cap (refLiterals bs.length bs) out := by
  rw [emitLiteralRun, emitChunks_eq cap _ bs hout]
  split
  · rw [emit_of_le ‹_›]
  · rw [emit_of_gt (Nat.not_le.1 ‹_›)]

theorem distanceBytes_eq_refDistance {length : Nat} (h : 3 ≤ length) (distance : Nat) :
    distanceBytes length distance = refDistance length distance := by
  simp only [distanceBytes, refDistance]
  split
  · rw [if_neg (by omega), show length - 2 - 7 = length - 9 by omega]
  · rw [if_pos (by omega)]

theorem emitDistanceBlock_eq_emit (cap : Nat) {length distance : Nat} (out : List Byte) (hl : 3 ≤ length ∧ length ≤ 264)
    (hd : 1 ≤ distance ∧ distance ≤ 8192) :
    emitDistanceBlock cap length distance out = emit cap (refDistance length distance) out := by
  rw [emitDistanceBlock_of_within cap out hl hd, distanceBytes_eq_refDistance hl.1]

theorem emitMatch_eq_emit {cap : Nat} (run : List Byte) {length distance : Nat} {out : List Byte} (hout : out.length ≤ cap)
    (hl : 3 ≤ length ∧ length ≤ 264) (hd : 1 ≤ distance ∧ distance ≤ 8192) :
    emitMatch cap run length distance out = emit cap (refLiterals run.length run ++ refDistance length distance) out := by
  rw [emitMatch, emitLiteralRun_eq_emit run hout]
  rcases Nat.lt_or_ge cap (out.length + (refLiterals run.length run).length) with hgt | hle
  · rw [emit_append_of_gt hgt, emit_of_gt hgt]
  · rw [emit_append, emit_of_le hle]
    exact emitDistanceBlock_eq_emit cap _ hl hd

/-! ### The last turn and the whole operation -/

/-- The run ends with so many input bytes read and the stream written, or in CapacityExceeded where the stream does not fit
(43_tuya_levels.md R172). -/
def Turn.Writes (cap n : Nat) (stream : List Byte) (t : Turn) : Prop :=
  (stream.length ≤ cap → ∃ w, t = .done w ∧ w.out = stream ∧ w.pos = n ∧ w.warn = Warn.none) ∧
  (cap < stream.length → t = .raise .capacityExceeded none Warn.none)

theorem Turn.Writes.ne_more {cap n : Nat} {stream : List Byte} {t : Turn} (h : t.Writes cap n stream) (w : Work) :
    t ≠ .more w := by
  rcases Nat.lt_or_ge cap stream.length with hgt | hle
  · rw [h.2 hgt]
    exact Turn.noConfusion
  · obtain ⟨v, hv, -⟩ := h.1 hle
    rw [hv]
    exact Turn.noConfusion

/-- A run whose next turn writes the stream ends there. -/
theorem runTurns_writes {cap n : Nat} {stream : List Byte} {f : Work → Turn} {w : Work} (k : Nat)
    (h : (f w).Writes cap n stream) : (runTurns f (k + 1) w).Writes cap n stream := by
  rwa [runTurns_of_ends k rfl h.ne_more]

/-- The last turn of every level of TUYA_PACK, from what it has emitted. -/
def Work.finishing (w : Work) (n : Nat) (r : Except ErrCode (List Byte)) : Turn :=
  match r with
  | .error c => .raise c none w.warn
  | .ok out => .done { w with out := out, pos := n }

theorem finishing_writes {w : Work} (hwarn : w.warn = Warn.none) (cap n : Nat) (bs : List Byte) :
    (w.finishing n (emit cap bs w.out)).Writes cap n (w.out ++ bs) := by
  unfold Turn.Writes
  rw [List.length_append]
  refine ⟨fun hle => ?_, fun hgt => ?_⟩
  · rw [emit_of_le hle]
    exact ⟨_, rfl, rfl, rfl, hwarn⟩
  · rw [emit_of_gt hgt, ← hwarn]
    rfl

theorem literalTurn_eq_finishing (p : Params) (data : List Byte) (w : Work) :
    literalTurn p data w = w.finishing data.length (emitLiteralRun p.obufBytes data w.out) := rfl

theorem packTurn_zero (p : Params) : packTurn p 0#2 = literalTurn p := rfl

theorem packTurn_three (p : Params) : packTurn p 3#2 = optimalTurn p := rfl

theorem packTurn_greedy (p : Params) {level : BitVec 2} (h : level = 1#2 ∨ level = 2#2) :
    packTurn p level = greedyTurn p level := by
  rcases h with rfl | rfl <;> rfl

/-- What a run of TUYA_PACK writes is the result of the operation. -/
theorem exec_tuyaPack_of_writes {s : State} {level : BitVec 2} {stream : List Byte} (hcap : s.ilen.toNat ≤ s.params.ibufBytes)
    (h : (runTurns (packTurn s.params level s.inputBytes) (turnBound s.inputBytes.length) Work.start).Writes
      s.params.obufBytes s.inputBytes.length stream) :
    (stream.length ≤ s.params.obufBytes → exec (.tuyaPack level) s = .next (doneWithBytes s stream s.ilen 0)) ∧
    (s.params.obufBytes < stream.length → ∃ t, exec (.tuyaPack level) s = .next t ∧ overflowedBytes s t 0) := by
  rw [exec_tuyaPack, runBytes_of_le hcap, ← inputBytes_length]
  refine ⟨fun hfit => ?_, fun hover => ⟨_, rfl, ?_⟩⟩
  · obtain ⟨w, hrun, rfl, hpos, hwarn⟩ := h.1 hfit
    rw [hrun, applyTurn_done, complete_toObuf, hpos, hwarn, ofNat_inputBytes_length]
    rfl
  · rw [h.2 hover, applyTurn_raise]
    exact takeFault_overflowedBytes s Warn.none

theorem literalRun_writes (p : Params) (data : List Byte) :
    (runTurns (packTurn p 0#2 data) (turnBound data.length) Work.start).Writes p.obufBytes data.length
      (refLiterals data.length data) := by
  rw [packTurn_zero]
  refine runTurns_writes _ ?_
  rw [literalTurn_eq_finishing, start_out, emitLiteralRun_eq_emit data (Nat.zero_le _)]
  exact finishing_writes (w := Work.start) rfl _ _ _

/-- Settles O31: level 0 is one literal run. -/
theorem packLiterals : Obligations.PackLiterals := by
  intro s hcap
  have hlen : (refLiterals s.ilen.toNat s.inputBytes).length = packBound s.ilen.toNat := by
    rw [refLiterals_length (by simp), inputBytes_length, packBound]
  have hexec := exec_tuyaPack_of_writes hcap (literalRun_writes s.params s.inputBytes)
  rw [inputBytes_length, hlen] at hexec
  exact ⟨hlen, hexec⟩

end Sys2Proof.Machine
end

section
/-! SUPPORT. Parses: the adjacent literal pieces and matches that every level covers the input with, and the meaning and the length
of a parse's stream (43_tuya_levels.md R171, R172; 42_tuya_format.md R134). -/

namespace Sys2Proof.Machine

open Sys2Proof

/-! ### Slices of the input -/

theorem between_self (a : Nat) (data : List Byte) : between a a data = [] :=
  List.drop_eq_nil_of_le (List.length_take_le a data)

theorem between_append {a b c : Nat} (hab : a ≤ b) (hbc : b ≤ c) (data : List Byte) :
    between a b data ++ between b c data = between a c data := by
  simp only [between, List.drop_take]
  rw [show c - a = (b - a) + (c - b) by omega, List.take_add, List.drop_drop, Nat.add_sub_cancel' hab]

theorem between_zero (b : Nat) (data : List Byte) : between 0 b data = data.take b := List.drop_zero

theorem take_append_between {a b : Nat} (hab : a ≤ b) (data : List Byte) : data.take a ++ between a b data = data.take b := by
  rw [← between_zero, ← between_zero, between_append (Nat.zero_le a) hab]

theorem length_between {a b : Nat} {data : List Byte} (hb : b ≤ data.length) : (between a b data).length = b - a := by
  rw [between, List.length_drop, List.length_take_of_le hb]

/-! ### Pieces and parses -/

/-- A piece of a parse: 1 to 32 literal bytes of the input, or a match of 3 or more bytes in the window (43_tuya_levels.md R170,
R171). -/
def PathEdge.IsPiece (data : List Byte) (e : PathEdge) : Prop :=
  (e.dist = 0 ∧ 1 ≤ e.len ∧ e.len ≤ 32 ∧ e.start + e.len ≤ data.length) ∨
  (1 ≤ e.dist ∧ e.dist ≤ 8192 ∧ e.dist ≤ e.start ∧ 3 ≤ e.len ∧ e.len ≤ matchLen data e.start (e.start - e.dist))

/-- Adjacent pieces that cover the input from a position on (43_tuya_levels.md R171). -/
def Parses (data : List Byte) : Nat → List PathEdge → Prop
  | p, [] => p = data.length
  | p, e :: es => e.start = p ∧ e.IsPiece data ∧ Parses data (p + e.len) es

theorem matchLen_le (data : List Byte) (pos start : Nat) :
    matchLen data pos start ≤ 264 ∧ matchLen data pos start ≤ data.length - pos :=
  ⟨commonLength_le _ _ _, (commonLength_le_length _ _ _).trans_eq List.length_drop⟩

/-- Below its length a match repeats the bytes it refers to (00_scope.md R15). -/
theorem getElem?_eq_of_lt_matchLen {data : List Byte} {pos start k : Nat} (h : k < matchLen data pos start) :
    data[pos + k]? = data[start + k]? := by
  simpa using getElem?_eq_of_lt_commonLength _ _ _ h

section
variable {data : List Byte} {e : PathEdge} (h : e.IsPiece data)
include h

theorem PathEdge.IsPiece.one_le_len : 1 ≤ e.len := by
  rcases h with ⟨-, hmin, -, -⟩ | ⟨-, -, -, hmin, -⟩ <;> omega

theorem PathEdge.IsPiece.end_le : e.start + e.len ≤ data.length := by
  rcases h with ⟨-, -, -, hend⟩ | ⟨-, -, -, hmin, hlen⟩
  · exact hend
  · have := matchLen_le data e.start (e.start - e.dist)
    omega

theorem PathEdge.IsPiece.len_le_of_literal (h0 : e.dist = 0) : e.len ≤ 32 := by
  rcases h with ⟨-, -, hmax, -⟩ | ⟨hdist, -⟩
  · exact hmax
  · omega

theorem PathEdge.IsPiece.within (hne : e.dist ≠ 0) : (3 ≤ e.len ∧ e.len ≤ 264) ∧ 1 ≤ e.dist ∧ e.dist ≤ 8192 := by
  rcases h with ⟨h0, -⟩ | ⟨hmin, hmax, -, hlmin, hlen⟩
  · exact absurd h0 hne
  · exact ⟨⟨hlmin, hlen.trans (matchLen_le _ _ _).1⟩, hmin, hmax⟩

theorem PathEdge.IsPiece.match_spec (hne : e.dist ≠ 0) : e.dist ≤ e.start ∧ e.len ≤ matchLen data e.start (e.start - e.dist) := by
  rcases h with ⟨h0, -⟩ | ⟨-, -, hstart, -, hlen⟩
  · exact absurd h0 hne
  · exact ⟨hstart, hlen⟩

end

/-! ### The stream of a path -/

theorem pathStream_nil (data run : List Byte) : pathStream data run [] = refLiterals run.length run := rfl

theorem pathStream_literal (data run : List Byte) {e : PathEdge} (h : e.dist = 0) (es : List PathEdge) :
    pathStream data run (e :: es) = pathStream data (run ++ between e.start (e.start + e.len) data) es := if_pos h

theorem pathStream_match (data run : List Byte) {e : PathEdge} (h : e.dist ≠ 0) (es : List PathEdge) :
    pathStream data run (e :: es) = refLiterals run.length run ++ refDistance e.len e.dist ++ pathStream data [] es := if_neg h

/-- The literal bytes of a piece join those pending before it. -/
theorem pathStream_extend {data : List Byte} {s p : Nat} (hs : s ≤ p) {e : PathEdge} (hstart : e.start = p) (h : e.dist = 0)
    (es : List PathEdge) : pathStream data (between s p data) (e :: es) = pathStream data (between s (p + e.len) data) es := by
  rw [pathStream_literal _ _ h, hstart, between_append hs (Nat.le_add_right _ _)]

/-- A match leaves no literal byte pending. -/
theorem pathStream_flush {data run : List Byte} {e : PathEdge} (h : e.dist ≠ 0) (p : Nat) (es : List PathEdge) :
    pathStream data run (e :: es) =
      refLiterals run.length run ++ refDistance e.len e.dist ++ pathStream data (between p p data) es := by
  rw [pathStream_match _ _ h, between_self]

theorem refDistance_length (length distance : Nat) : (refDistance length distance).length = if length < 9 then 2 else 3 := by
  unfold refDistance
  split <;> rfl

/-! ### The length of a parse's stream -/

section
variable {data : List Byte}

/-- At most `n + ceil(n/32)` bytes: a match is shorter than its bytes by as much as the split of a literal run costs
(43_tuya_levels.md R172). -/
theorem Parses.length_le_packBound {s p : Nat} {es : List PathEdge} (h : Parses data p es) (hs : s ≤ p) :
    (pathStream data (between s p data) es).length ≤ packBound (data.length - s) := by
  induction es generalizing s p with
  | nil =>
    obtain rfl := h
    rw [pathStream_nil, refLiterals_length (Nat.le_refl _), length_between (Nat.le_refl _)]
    rfl
  | cons e es ih =>
    obtain ⟨hstart, hpiece, hrest⟩ := h
    by_cases h0 : e.dist = 0
    · rw [pathStream_extend hs hstart h0]
      exact ih hrest (by omega)
    · have htail := ih hrest (Nat.le_refl (p + e.len))
      have hend := hpiece.end_le
      obtain ⟨⟨hmin, -⟩, -⟩ := hpiece.within h0
      rw [pathStream_flush h0 (p + e.len), List.length_append, List.length_append, refLiterals_length (Nat.le_refl _),
        refDistance_length, length_between (by omega)]
      unfold packBound at htail ⊢
      split <;> omega

/-- A stream is no longer than its parse is dear: merging literal pieces saves bytes (43_tuya_levels.md R168). -/
theorem Parses.length_le_pathCost {s p : Nat} {es : List PathEdge} (h : Parses data p es) (hs : s ≤ p) :
    (pathStream data (between s p data) es).length ≤ packBound (p - s) + pathCost es := by
  induction es generalizing s p with
  | nil =>
    rw [pathStream_nil, refLiterals_length (Nat.le_refl _), length_between h.le]
    exact Nat.le_add_right _ _
  | cons e es ih =>
    obtain ⟨hstart, hpiece, hrest⟩ := h
    have hcost : pathCost (e :: es) = edgeCost e + pathCost es := rfl
    rw [hcost, edgeCost]
    by_cases h0 : e.dist = 0
    · have htail := ih (s := s) hrest (by omega)
      have hlen := hpiece.len_le_of_literal h0
      rw [pathStream_extend hs hstart h0, if_pos h0]
      unfold packBound at htail ⊢
      omega
    · have htail := ih hrest (Nat.le_refl (p + e.len))
      have hend := hpiece.end_le
      rw [pathStream_flush h0 (p + e.len), List.length_append, List.length_append, refLiterals_length (Nat.le_refl _),
        refDistance_length, length_between (by omega), if_neg h0]
      unfold packBound at htail ⊢
      omega

end

/-! ### The meaning of a parse's stream -/

/-- A stream behind an output already produced has a meaning, however many blocks are allowed beyond those it can have
(42_tuya_format.md R136). -/
def Means (stream out r : List Byte) : Prop := ∀ k, stream.length ≤ k → refMeaningFrom k stream out = some r

theorem Means.nil (out : List Byte) : Means [] out out := fun k _ => refMeaningFrom_nil k out

/-- A literal block adds its bytes. -/
theorem Means.literalBlock {chunk stream out r : List Byte} (hmin : 1 ≤ chunk.length) (hmax : chunk.length ≤ 32)
    (h : Means stream (out ++ chunk) r) : Means (BitVec.ofNat 8 (chunk.length - 1) :: (chunk ++ stream)) out r := by
  intro k hk
  have hfield : (BitVec.ofNat 5 (chunk.length - 1)).toNat = chunk.length - 1 := by rw [BitVec.toNat_ofNat]; omega
  have hfirst : BitVec.ofNat 8 (chunk.length - 1) = 0#3 ++ BitVec.ofNat 5 (chunk.length - 1) := by
    apply BitVec.eq_of_toNat_eq
    rw [toNat_tag_append, hfield, BitVec.toNat_ofNat, BitVec.toNat_ofNat]
    omega
  rw [List.length_cons, List.length_append] at hk
  obtain ⟨k, rfl⟩ := Nat.exists_eq_succ_of_ne_zero (show k ≠ 0 by omega)
  rw [hfirst, refMeaningFrom_lit stream (by omega)]
  exact h k (by omega)

/-- A literal run adds its bytes, block by block. -/
theorem Means.literals {stream r : List Byte} (k : Nat) {run out : List Byte} (hk : run.length ≤ k)
    (h : Means stream (out ++ run) r) : Means (refLiterals k run ++ stream) out r := by
  induction k generalizing run out with
  | zero =>
    obtain rfl := List.length_eq_zero_iff.1 (Nat.le_zero.1 hk)
    rwa [List.append_nil] at h
  | succ k ih =>
    cases run with
    | nil => rwa [List.append_nil] at h
    | cons b bs =>
      rw [refLiterals, List.cons_append, List.cons_append, List.append_assoc]
      refine Means.literalBlock (by simp) (by simp) (ih ?_ ?_)
      · rw [List.length_drop]
        omega
      · rwa [List.append_assoc, List.take_append_drop]

/-- A distance block adds the bytes it copies. -/
theorem Means.distance {length distance : Nat} {stream out r : List Byte} (hl : 3 ≤ length ∧ length ≤ 264)
    (hd : 1 ≤ distance ∧ distance ≤ 8192) (hout : distance ≤ out.length) (h : Means stream (copyBytes distance length out) r) :
    Means (refDistance length distance ++ stream) out r := by
  intro k hk
  rw [List.length_append, refDistance_length] at hk
  obtain ⟨k, rfl⟩ := Nat.exists_eq_succ_of_ne_zero (show k ≠ 0 by split at hk <;> omega)
  rw [← distanceBytes_eq_refDistance hl.1]
  rcases Nat.lt_or_ge length 9 with hlt | hge
  · have hf : (BitVec.ofNat 3 (length - 2)).toNat = length - 2 := by rw [BitVec.toNat_ofNat]; omega
    have h0 : BitVec.ofNat 3 (length - 2) ≠ 0#3 := by
      rw [BitVec.toNat_ne, hf, BitVec.toNat_ofNat]
      omega
    have h7 : BitVec.ofNat 3 (length - 2) ≠ 7#3 := by
      rw [BitVec.toNat_ne, hf, BitVec.toNat_ofNat]
      omega
    have hlength : shortLength (BitVec.ofNat 3 (length - 2)) = length := by rw [shortLength, hf]; omega
    rw [distanceBytes_of_le hl.1 (by omega) hd.2, List.cons_append, List.singleton_append, refMeaningFrom_copyS h0 h7, blockMeaning,
      distanceOf_split hd.1 hd.2, hlength, copyMeaning_of_within _ hout]
    rw [if_pos hlt] at hk
    exact h k (by omega)
  · have hlength : longLength (BitVec.ofNat 8 (length - 9)) = length := by
      rw [longLength, BitVec.toNat_ofNat]
      omega
    rw [distanceBytes_of_ge hge hd.2, List.cons_append, List.cons_append, List.singleton_append, refMeaningFrom_copyL, blockMeaning,
      distanceOf_split hd.1 hd.2, hlength, copyMeaning_of_within _ hout]
    rw [if_neg (Nat.not_lt.2 hge)] at hk
    exact h k (by omega)

/-- The copy of a match yields the next bytes of the input, overlap included (43_tuya_levels.md R171). -/
theorem copyBytes_take {data : List Byte} {distance p l : Nat} (hd : 1 ≤ distance) (hp : distance ≤ p) (hend : p + l ≤ data.length)
    (h : ∀ k, k < l → data[p + k]? = data[p - distance + k]?) : copyBytes distance l (data.take p) = data.take (p + l) := by
  induction l generalizing p with
  | zero => rfl
  | succ l ih =>
    have hsrc : (data.take p).getD ((data.take p).length - distance) 0#8 = data[p] := by
      have hhead := h 0 (Nat.succ_pos l)
      rw [Nat.add_zero, Nat.add_zero, List.getElem?_eq_getElem (by omega)] at hhead
      rw [List.length_take_of_le (by omega), List.getD_eq_getElem?_getD, List.getElem?_take_of_lt (by omega), ← hhead]
      rfl
    have hnext : ∀ k, k < l → data[p + 1 + k]? = data[p + 1 - distance + k]? := fun k hk => by
      have := h (k + 1) (Nat.succ_lt_succ hk)
      rwa [show p + (k + 1) = p + 1 + k by omega, show p - distance + (k + 1) = p + 1 - distance + k by omega] at this
    rw [copyBytes, hsrc, List.take_concat_get' data p (by omega), ih (by omega) (by omega) hnext, Nat.add_assoc, Nat.add_comm 1]

theorem Parses.means {data : List Byte} {s p : Nat} {es : List PathEdge} (h : Parses data p es) (hs : s ≤ p) :
    Means (pathStream data (between s p data) es) (data.take s) data := by
  induction es generalizing s p with
  | nil =>
    obtain rfl := h
    rw [pathStream_nil, ← List.append_nil (refLiterals _ _)]
    refine Means.literals _ (Nat.le_refl _) ?_
    rw [take_append_between hs, List.take_length]
    exact Means.nil data
  | cons e es ih =>
    obtain ⟨rfl, hpiece, hrest⟩ := h
    by_cases h0 : e.dist = 0
    · rw [pathStream_extend hs rfl h0]
      exact ih hrest (by omega)
    · obtain ⟨hstart, hlen⟩ := hpiece.match_spec h0
      obtain ⟨hl, hd⟩ := hpiece.within h0
      have hcopy : ∀ k, k < e.len → data[e.start + k]? = data[e.start - e.dist + k]? := fun k hk =>
        getElem?_eq_of_lt_matchLen (hk.trans_le hlen)
      rw [pathStream_flush h0 (e.start + e.len), List.append_assoc]
      refine Means.literals _ (Nat.le_refl _) ?_
      rw [take_append_between hs]
      refine Means.distance hl hd ?_ ?_
      · rw [List.length_take_of_le ((Nat.le_add_right _ _).trans hpiece.end_le)]
        exact hstart
      · rw [copyBytes_take hd.1 hstart hpiece.end_le hcopy]
        exact ih hrest (Nat.le_refl _)

/-- The stream of a parse of the whole input means the input. -/
theorem Parses.refMeaning_eq {data : List Byte} {es : List PathEdge} (h : Parses data 0 es) :
    refMeaning (pathStream data [] es) = some data := by
  have hmeans := h.means (Nat.le_refl 0)
  rw [between_self, List.take_zero] at hmeans
  exact hmeans _ (Nat.le_refl _)

end Sys2Proof.Machine
end

section
/-! SUPPORT. The graph of level 3: its edges and paths, and that every parse's stream is as long as some path of the graph is dear
(43_tuya_levels.md R165, R169). -/

namespace Sys2Proof.Machine

open Sys2Proof

/-! ### Edges and paths -/

/-- An edge of the graph: 1 to 32 literal bytes, or a match of 3 bytes up to the best match, at its distance (43_tuya_levels.md
R165). -/
def PathEdge.IsEdge (data : List Byte) (e : PathEdge) : Prop :=
  e.start < data.length ∧
    ((e.dist = 0 ∧ 1 ≤ e.len ∧ e.len ≤ min 32 (data.length - e.start)) ∨
     (1 ≤ e.dist ∧ e.dist = (refBest data e.start).2 ∧ 3 ≤ e.len ∧ e.len ≤ (refBest data e.start).1))

section
variable {data : List Byte}

theorem graphPath_nil (goal p : Nat) : graphPath data goal p [] = true ↔ p = goal := decide_eq_true_iff

theorem graphPath_cons (goal p : Nat) (e : PathEdge) (es : List PathEdge) :
    graphPath data goal p (e :: es) = true ↔ e.start = p ∧ e.IsEdge data ∧ graphPath data goal (p + e.len) es = true := by
  simp only [graphPath, Bool.and_eq_true, Bool.or_eq_true, decide_eq_true_eq, PathEdge.IsEdge, and_assoc]
  refine and_congr_right fun hstart => ?_
  rw [hstart]

theorem graphPath_append (goal p : Nat) (before after : List PathEdge) :
    graphPath data goal p (before ++ after) = true ↔
      ∃ q, graphPath data q p before = true ∧ graphPath data goal q after = true := by
  induction before generalizing p with
  | nil => simp [graphPath_nil]
  | cons e es ih =>
    simp only [List.cons_append, graphPath_cons, ih]
    refine ⟨fun ⟨hs, he, q, hq⟩ => ⟨q, ⟨hs, he, hq.1⟩, hq.2⟩, fun ⟨q, ⟨hs, he, hq⟩, ha⟩ => ⟨hs, he, q, hq, ha⟩⟩

theorem graphPath_concat (goal p : Nat) (es : List PathEdge) (e : PathEdge) :
    graphPath data goal p (es ++ [e]) = true ↔ graphPath data e.start p es = true ∧ e.IsEdge data ∧ e.start + e.len = goal := by
  simp only [graphPath_append, graphPath_cons, graphPath_nil]
  refine ⟨?_, fun ⟨hes, he, hgoal⟩ => ⟨e.start, hes, rfl, he, hgoal⟩⟩
  rintro ⟨q, hes, rfl, he, hgoal⟩
  exact ⟨hes, he, hgoal⟩

theorem pathCost_cons (e : PathEdge) (es : List PathEdge) : pathCost (e :: es) = edgeCost e + pathCost es := rfl

theorem pathCost_append (as bs : List PathEdge) : pathCost (as ++ bs) = pathCost as + pathCost bs := by
  rw [pathCost, List.map_append, List.sum_append, pathCost, pathCost]

/-! ### The best match as an edge -/

/-- A best match of some length is a match in the window. -/
theorem refBest_spec {pos : Nat} (hpos : pos < data.length) (h : 1 ≤ (refBest data pos).1) :
    1 ≤ (refBest data pos).2 ∧ (refBest data pos).2 ≤ 8192 ∧ (refBest data pos).2 ≤ pos ∧
    (refBest data pos).1 = matchLen data pos (pos - (refBest data pos).2) := by
  unfold refBest at *
  cases hbest : bestFrom data pos with
  | none =>
    rw [hbest] at h
    exact absurd h (by decide)
  | some m =>
    obtain ⟨hmin, hle, ⟨-, hwin, -⟩, hlen, -⟩ := (bestFrom_eq_some_iff hpos).1 hbest
    exact ⟨hmin, by simp only [Option.getD_some]; omega, hle, hlen⟩

/-- The best match is as long as any match in the window. -/
theorem matchLen_le_refBest {pos d : Nat} (hpos : pos < data.length) (hmin : 1 ≤ d) (hmax : d ≤ 8192) (hle : d ≤ pos) :
    matchLen data pos (pos - d) ≤ (refBest data pos).1 := by
  obtain ⟨m, hm, hlen⟩ := bestFrom_longest hpos (p := pos - d) (by omega) (by omega)
  rwa [refBest, hm]

theorem PathEdge.IsEdge.isPiece {e : PathEdge} (h : e.IsEdge data) : e.IsPiece data := by
  obtain ⟨hlt, ⟨h0, hmin, hmax⟩ | ⟨hdist, heq, hmin, hmax⟩⟩ := h
  · exact .inl ⟨h0, hmin, by omega, by omega⟩
  · obtain ⟨-, hwin, hle, hlen⟩ := refBest_spec hlt (by omega)
    rw [← heq] at hwin hle hlen
    exact .inr ⟨hdist, hwin, hle, hmin, hlen ▸ hmax⟩

/-- A path of the graph to the end of the input is a parse. -/
theorem parses_of_graphPath {p : Nat} {es : List PathEdge} (h : graphPath data data.length p es = true) : Parses data p es := by
  induction es generalizing p with
  | nil => exact (graphPath_nil _ _).1 h
  | cons e es ih =>
    obtain ⟨hstart, hedge, hrest⟩ := (graphPath_cons _ _ _ _).1 h
    exact ⟨hstart, hedge.isPiece, ih hrest⟩

/-! ### A path for every parse -/

/-- Literal edges lead from a position to any later one, as dear as the run of literals between them (43_tuya_levels.md R165,
R169). -/
theorem exists_literal_path {s p : Nat} (hsp : s ≤ p) (hp : p ≤ data.length) :
    ∃ es, graphPath data p s es = true ∧ pathCost es = packBound (p - s) := by
  rcases Nat.lt_or_ge s p with hlt | hge
  · obtain ⟨es, hpath, hcost⟩ := exists_literal_path (s := s + min 32 (p - s)) (p := p) (by omega) hp
    refine ⟨⟨s, min 32 (p - s), 0⟩ :: es, (graphPath_cons _ _ _ _).2 ⟨rfl, ⟨by simp only; omega, .inl ⟨rfl, ?_, ?_⟩⟩, hpath⟩, ?_⟩
    · simp only
      omega
    · simp only
      omega
    · rw [pathCost_cons, hcost, edgeCost, if_pos rfl]
      simp only [packBound]
      omega
  · obtain rfl := Nat.le_antisymm hsp hge
    exact ⟨[], (graphPath_nil _ _).2 rfl, by rw [Nat.sub_self]; rfl⟩
termination_by p - s

/-- The match edge as long as a match, at the best match's distance, costs what the match's block has bytes (43_tuya_levels.md
R169). -/
theorem exists_match_edge {e : PathEdge} (h : e.IsPiece data) (hne : e.dist ≠ 0) :
    ∃ f : PathEdge, f.start = e.start ∧ f.len = e.len ∧ f.IsEdge data ∧ edgeCost f = (refDistance e.len e.dist).length := by
  have hend := h.end_le
  obtain ⟨⟨hlmin, -⟩, hdmin, hdmax⟩ := h.within hne
  obtain ⟨hstart, hlen⟩ := h.match_spec hne
  have hle := hlen.trans (matchLen_le_refBest (by omega) hdmin hdmax hstart)
  obtain ⟨hbest, -⟩ := refBest_spec (data := data) (pos := e.start) (by omega) (by omega)
  refine ⟨⟨e.start, e.len, (refBest data e.start).2⟩, rfl, rfl, ⟨by simp only; omega, .inr ⟨hbest, rfl, hlmin, hle⟩⟩, ?_⟩
  rw [edgeCost, if_neg (Nat.ne_of_gt hbest), refDistance_length]

/-- The stream of a parse is as long as a path of the graph is dear. -/
theorem Parses.exists_graphPath {s p : Nat} {es : List PathEdge} (h : Parses data p es) (hs : s ≤ p) :
    ∃ path, graphPath data data.length s path = true ∧ pathCost path = (pathStream data (between s p data) es).length := by
  induction es generalizing s p with
  | nil =>
    obtain ⟨path, hpath, hcost⟩ := exists_literal_path (data := data) hs h.le
    obtain rfl := h
    refine ⟨path, hpath, ?_⟩
    rw [hcost, pathStream_nil, refLiterals_length (Nat.le_refl _), length_between (Nat.le_refl _), packBound]
  | cons e es ih =>
    obtain ⟨rfl, hpiece, hrest⟩ := h
    by_cases h0 : e.dist = 0
    · rw [pathStream_extend hs rfl h0]
      exact ih hrest (by omega)
    · have hend := hpiece.end_le
      obtain ⟨lits, hlits, hlitcost⟩ := exists_literal_path (data := data) hs (by omega)
      obtain ⟨f, hfstart, hflen, hedge, hfcost⟩ := exists_match_edge hpiece h0
      obtain ⟨path, hpath, hcost⟩ := ih hrest (Nat.le_refl _)
      refine ⟨lits ++ f :: path, ?_, ?_⟩
      · exact (graphPath_append _ _ _ _).2 ⟨e.start, hlits, (graphPath_cons _ _ _ _).2 ⟨hfstart, hedge, hflen ▸ hpath⟩⟩
      · rw [pathCost_append, pathCost_cons, hlitcost, hfcost, hcost, pathStream_flush h0 (e.start + e.len), List.length_append,
          List.length_append, refLiterals_length (Nat.le_refl _), length_between (by omega), packBound]
        omega

/-- The stream of a cheapest path is as long as the path is dear, and no longer than that of any parse (43_tuya_levels.md R168,
R169). -/
theorem length_pathStream_of_cheapest {path : List PathEdge} (hpath : graphPath data data.length 0 path = true)
    (hcheapest : ∀ other, graphPath data data.length 0 other = true → pathCost path ≤ pathCost other) :
    (pathStream data [] path).length = pathCost path ∧
    ∀ es, Parses data 0 es → pathCost path ≤ (pathStream data [] es).length := by
  have hle : ∀ es, Parses data 0 es → pathCost path ≤ (pathStream data [] es).length := fun es hes => by
    obtain ⟨other, hother, hcost⟩ := hes.exists_graphPath (Nat.le_refl 0)
    rw [between_self] at hcost
    exact hcost ▸ hcheapest other hother
  have hparse := parses_of_graphPath hpath
  have hge := hparse.length_le_pathCost (Nat.le_refl 0)
  rw [between_self, Nat.sub_self, show packBound 0 = 0 from rfl, Nat.zero_add] at hge
  exact ⟨Nat.le_antisymm hge (hle path hparse), hle⟩

end

end Sys2Proof.Machine
end

section
/-! PROOFS. Levels 1 and 2: the turns of the greedy parse write the stream of its path (43_tuya_levels.md R153, R161). -/

namespace Sys2Proof.Machine

open Sys2Proof

/-! ### The search for a match -/

/-- What the greedy parse needs of its search: a match long enough to be taken lies in the window and has its full length
(43_tuya_levels.md R170). -/
def FindsMatches (data : List Byte) (find : Nat → Option (Nat × Nat)) : Prop :=
  ∀ pos l d, pos < data.length → find pos = some (l, d) → 3 ≤ l →
    1 ≤ d ∧ d ≤ 8192 ∧ d ≤ pos ∧ l = matchLen data pos (pos - d)

theorem findsMatches_none (data : List Byte) : FindsMatches data fun _ => none :=
  fun _ _ _ _ h => nomatch h

theorem findsMatches_firstMatch (data : List Byte) : FindsMatches data (firstMatch data) := by
  intro pos l d _ h _
  obtain ⟨hmin, hmax, hlen, -, -⟩ := (firstMatch_eq_some_iff data pos l d).1 h
  exact ⟨hmin, by omega, by omega, hlen⟩

theorem findsMatches_bestFrom (data : List Byte) : FindsMatches data (bestFrom data) := by
  intro pos l d hpos h _
  obtain ⟨hmin, hle, ⟨-, hwin, -⟩, hlen, -⟩ := (bestFrom_eq_some_iff hpos).1 h
  exact ⟨hmin, by omega, hle, hlen⟩

/-- The search of a greedy level (43_tuya_levels.md R152, R161). -/
def SearchOf (data : List Byte) (level : BitVec 2) (find : Nat → Option (Nat × Nat)) : Prop :=
  (level = 1 ∧ find = firstMatch data) ∨ (level = 2 ∧ find = bestFrom data)

/-- A suffix array that no turn has brought beyond a position (43_tuya_levels.md R157). -/
def Sfx.UpTo (data : List Byte) (pos : Nat) (x : Sfx) : Prop := ∃ k, k ≤ pos ∧ x = Sfx.empty.advance data k

section
variable {data : List Byte} {level : BitVec 2} {find : Nat → Option (Nat × Nat)} (h : SearchOf data level find)
include h

theorem SearchOf.findsMatches : FindsMatches data find := by
  rcases h with ⟨-, rfl⟩ | ⟨-, rfl⟩
  · exact findsMatches_firstMatch data
  · exact findsMatches_bestFrom data

theorem SearchOf.level_eq : level = 1#2 ∨ level = 2#2 := h.imp And.left And.left

/-- The turn's search answers as the level's function does, whichever stages the array was brought up in. -/
theorem SearchOf.findMatch_fst {pos : Nat} {x : Sfx} (hx : x.UpTo data pos) : (findMatch level data pos x).1 = find pos := by
  obtain ⟨k, hk, rfl⟩ := hx
  rcases h with ⟨rfl, rfl⟩ | ⟨rfl, rfl⟩
  · rfl
  · rw [bestFrom, bringUp_empty, ← bringUp_advance data (show k ≤ pos + 1 by omega)]
    rfl

theorem SearchOf.findMatch_snd {pos : Nat} {x : Sfx} (hx : x.UpTo data pos) :
    (findMatch level data pos x).2.UpTo data (pos + 1) := by
  obtain ⟨k, hk, rfl⟩ := hx
  rcases h with ⟨rfl, -⟩ | ⟨rfl, -⟩
  · exact ⟨k, by omega, rfl⟩
  · exact ⟨pos + 1, Nat.le_refl _, bringUp_advance data (by omega)⟩

end

theorem Sfx.UpTo.mono {data : List Byte} {pos pos' : Nat} {x : Sfx} (h : x.UpTo data pos) (hle : pos ≤ pos') :
    x.UpTo data pos' := by
  obtain ⟨k, hk, rfl⟩ := h
  exact ⟨k, hk.trans hle, rfl⟩

/-! ### The greedy path -/

section
variable {find : Nat → Option (Nat × Nat)} {n pos : Nat}

theorem greedyPath_end (hpos : n ≤ pos) (m : Nat) : greedyPath find n m pos = [] := by
  cases m with
  | zero => rfl
  | succ m => exact if_pos hpos

theorem greedyPath_match (hpos : pos < n) {l d : Nat} (hfind : find pos = some (l, d)) (hl : 3 ≤ l) (m : Nat) :
    greedyPath find n (m + 1) pos = { start := pos, len := l, dist := d } :: greedyPath find n m (pos + l) := by
  simp [greedyPath, Nat.not_le.2 hpos, hfind, hl]

theorem greedyPath_literal (hpos : pos < n) (hfind : ∀ l d, find pos = some (l, d) → ¬ 3 ≤ l) (m : Nat) :
    greedyPath find n (m + 1) pos = { start := pos, len := 1, dist := 0 } :: greedyPath find n m (pos + 1) := by
  rw [greedyPath, if_neg (Nat.not_le.2 hpos)]
  cases hf : find pos with
  | none => rfl
  | some c => exact if_neg (hfind c.1 c.2 hf)

/-- The search gives a match to take or none. -/
theorem exists_match_or_literal (find : Nat → Option (Nat × Nat)) (pos : Nat) :
    (∃ l d, find pos = some (l, d) ∧ 3 ≤ l) ∨ ∀ l d, find pos = some (l, d) → ¬ 3 ≤ l := by
  by_contra hnone
  simp only [not_or, not_exists, not_and, not_forall, not_not] at hnone
  obtain ⟨hno, l, d, hfind, hl⟩ := hnone
  exact hno l d hfind hl

end

theorem greedyPath_parses {data : List Byte} {find : Nat → Option (Nat × Nat)} (hfind : FindsMatches data find) {m pos : Nat}
    (hm : data.length - pos ≤ m) (hpos : pos ≤ data.length) : Parses data pos (greedyPath find data.length m pos) := by
  induction m generalizing pos with
  | zero =>
    rw [greedyPath_end (by omega)]
    exact Nat.le_antisymm hpos (by omega)
  | succ m ih =>
    rcases Nat.lt_or_ge pos data.length with hlt | hge
    · rcases exists_match_or_literal find pos with ⟨l, d, hf, hl⟩ | hlit
      · obtain ⟨hmin, hmax, hle, rfl⟩ := hfind pos l d hlt hf hl
        have hend := (matchLen_le data pos (pos - d)).2
        rw [greedyPath_match hlt hf hl]
        exact ⟨rfl, .inr ⟨hmin, hmax, hle, hl, Nat.le_refl _⟩, ih (by simp only; omega) (by simp only; omega)⟩
      · rw [greedyPath_literal hlt hlit]
        exact ⟨rfl, .inl ⟨rfl, Nat.le_refl 1, show 1 ≤ 32 by omega, hlt⟩, ih (by simp only; omega) hlt⟩
    · rw [greedyPath_end hge]
      exact Nat.le_antisymm hpos hge

/-! ### One turn -/

section
variable {p : Params} {level : BitVec 2} {data : List Byte} {w : Work}

theorem greedyTurn_of_end (h : data.length ≤ w.pos) :
    greedyTurn p level data w = w.finishing data.length (emitLiteralRun p.obufBytes (between w.runStart w.pos data) w.out) :=
  if_pos h

theorem greedyTurn_of_literal (h : w.pos < data.length)
    (hlit : ∀ l d, (findMatch level data w.pos w.sfx).1 = some (l, d) → ¬ 3 ≤ l) :
    greedyTurn p level data w = .more { w with pos := w.pos + 1, sfx := (findMatch level data w.pos w.sfx).2 } := by
  rw [greedyTurn, if_neg (Nat.not_le.2 h)]
  dsimp only
  split
  · rfl
  · rename_i l d hf
    exact if_neg (hlit l d hf)

theorem greedyTurn_of_match (h : w.pos < data.length) {l d : Nat} (hf : (findMatch level data w.pos w.sfx).1 = some (l, d))
    (hl : 3 ≤ l) {out : List Byte} (hemit : emitMatch p.obufBytes (between w.runStart w.pos data) l d w.out = .ok out) :
    greedyTurn p level data w =
      .more { w with out := out, pos := w.pos + l, runStart := w.pos + l, sfx := (findMatch level data w.pos w.sfx).2 } := by
  simp [greedyTurn, Nat.not_le.2 h, hf, hemit, lenMin, hl]

theorem greedyTurn_of_overflow (h : w.pos < data.length) {l d : Nat} (hf : (findMatch level data w.pos w.sfx).1 = some (l, d))
    (hl : 3 ≤ l) {c : ErrCode} (hemit : emitMatch p.obufBytes (between w.runStart w.pos data) l d w.out = .error c) :
    greedyTurn p level data w = .raise c none w.warn := by
  simp [greedyTurn, Nat.not_le.2 h, hf, hemit, lenMin, hl]

end

/-! ### A run of turns -/

/-- A working state of the greedy parse between two turns. -/
structure Work.Greedy (p : Params) (data : List Byte) (w : Work) : Prop where
  warn_eq : w.warn = Warn.none
  run_le : w.runStart ≤ w.pos
  pos_le : w.pos ≤ data.length
  sfx_upTo : w.sfx.UpTo data w.pos
  room : w.out.length ≤ p.obufBytes

theorem start_greedy (p : Params) (data : List Byte) : Work.start.Greedy p data :=
  ⟨rfl, Nat.le_refl _, Nat.zero_le _, ⟨0, Nat.le_refl _, rfl⟩, Nat.zero_le _⟩

theorem raise_writes {cap : Nat} {stream : List Byte} (h : cap < stream.length) (n : Nat) :
    (Turn.raise .capacityExceeded none Warn.none).Writes cap n stream :=
  ⟨fun hle => absurd h (Nat.not_lt.2 hle), fun _ => rfl⟩

section
variable {p : Params} {level : BitVec 2} {data : List Byte} {find : Nat → Option (Nat × Nat)}

theorem greedyRun_writes_of_end {w : Work} (hw : w.Greedy p data) (hend : data.length ≤ w.pos) (m j : Nat) :
    (runTurns (greedyTurn p level data) (j + 1) w).Writes p.obufBytes data.length
      (w.out ++ pathStream data (between w.runStart w.pos data) (greedyPath find data.length m w.pos)) := by
  rw [greedyPath_end hend, pathStream_nil]
  refine runTurns_writes _ ?_
  rw [greedyTurn_of_end hend, emitLiteralRun_eq_emit _ hw.room]
  exact finishing_writes hw.warn_eq _ _ _

/-- From any state between two turns, the run writes the stream of the greedy path from there, the pending literal bytes first. -/
theorem greedyRun_writes_from (hsearch : SearchOf data level find) (j : Nat) {m : Nat} {w : Work} (hw : w.Greedy p data)
    (hm : data.length - w.pos ≤ m) :
    (runTurns (greedyTurn p level data) (m + j + 1) w).Writes p.obufBytes data.length
      (w.out ++ pathStream data (between w.runStart w.pos data) (greedyPath find data.length m w.pos)) := by
  induction m generalizing w with
  | zero => exact greedyRun_writes_of_end hw (by omega) 0 _
  | succ m ih =>
    rcases Nat.lt_or_ge w.pos data.length with hlt | hge
    · have hfst := hsearch.findMatch_fst hw.sfx_upTo
      have hsnd := hsearch.findMatch_snd hw.sfx_upTo
      rw [Nat.add_right_comm m 1 j]
      rcases exists_match_or_literal find w.pos with ⟨l, d, hf, hl⟩ | hlit
      · obtain ⟨hmin, hmax, -, hlen⟩ := hsearch.findsMatches w.pos l d hlt hf hl
        obtain ⟨hl264, hlend⟩ := hlen ▸ matchLen_le data w.pos (w.pos - d)
        have hemit := emitMatch_eq_emit (between w.runStart w.pos data) hw.room ⟨hl, hl264⟩ ⟨hmin, hmax⟩
        have hstream := pathStream_flush (data := data) (run := between w.runStart w.pos data) (e := ⟨w.pos, l, d⟩)
          (Nat.ne_of_gt hmin) (w.pos + l) (greedyPath find data.length m (w.pos + l))
        dsimp only at hstream
        rw [greedyPath_match hlt hf hl, hstream]
        generalize refLiterals (between w.runStart w.pos data).length (between w.runStart w.pos data) ++ refDistance l d = block
          at hemit
        rcases Nat.lt_or_ge p.obufBytes (w.out.length + block.length) with hover | hfit
        · rw [emit_of_gt hover] at hemit
          rw [runTurns_of_raise _ (greedyTurn_of_overflow hlt (hfst.trans hf) hl hemit), hw.warn_eq]
          exact raise_writes (by rw [List.length_append, List.length_append]; omega) _
        · rw [emit_of_le hfit] at hemit
          rw [runTurns_of_more _ (greedyTurn_of_match hlt (hfst.trans hf) hl hemit), ← List.append_assoc]
          exact ih (w := { w with
            out := w.out ++ block, pos := w.pos + l, runStart := w.pos + l, sfx := (findMatch level data w.pos w.sfx).2 })
            ⟨hw.warn_eq, Nat.le_refl _, show w.pos + l ≤ data.length by omega, hsnd.mono (show w.pos + 1 ≤ w.pos + l by omega),
              by rwa [List.length_append]⟩ (show data.length - (w.pos + l) ≤ m by omega)
      · rw [greedyPath_literal hlt hlit, pathStream_extend hw.run_le rfl rfl,
          runTurns_of_more _ (greedyTurn_of_literal hlt (hfst ▸ hlit))]
        exact ih (w := { w with pos := w.pos + 1, sfx := (findMatch level data w.pos w.sfx).2 })
          ⟨hw.warn_eq, hw.run_le.trans (Nat.le_succ _), hlt, hsnd, hw.room⟩ (by simp only; omega)
    · exact greedyRun_writes_of_end hw hge _ _

/-- A greedy level writes the stream of the greedy path with its search. -/
theorem greedyRun_writes (p : Params) (hsearch : SearchOf data level find) :
    (runTurns (packTurn p level data) (turnBound data.length) Work.start).Writes p.obufBytes data.length
      (pathStream data [] (greedyPath find data.length data.length 0)) := by
  have hrun := greedyRun_writes_from hsearch 7 (start_greedy p data) (m := data.length) (by simp)
  simp only [start_runStart, start_pos, start_out, between_self, List.nil_append] at hrun
  rw [packTurn_greedy p hsearch.level_eq]
  exact hrun

end

/-- Settles O60: the run of the greedy levels, and `BestMatch` as the better of the neighbours. -/
theorem greedyParse : Obligations.GreedyParse := by
  refine ⟨fun s level find stream hcap hsearch hstream => ?_, fun data pos l d hpos => bestFrom_eq_some_iff hpos⟩
  subst hstream
  exact exec_tuyaPack_of_writes hcap (greedyRun_writes s.params hsearch)

end Sys2Proof.Machine
end

section
/-! SUPPORT. The forward pass of level 3 as a list of edges relaxed one after the other, and what the table holds after them
(43_tuya_levels.md R166). -/

namespace Sys2Proof.Machine

open Sys2Proof

/-! ### The edges in the order of the pass -/

/-- The edges out of a position in the order in which they are relaxed (43_tuya_levels.md R165, R166). -/
def edgesOut (data : List Byte) (pos : Nat) : List PathEdge :=
  (List.range' 3 ((refBest data pos).1 + 1 - 3)).map (fun l => { start := pos, len := l, dist := (refBest data pos).2 }) ++
  (List.range' 1 (min 32 (data.length - pos))).map (fun l => { start := pos, len := l, dist := 0 })

/-- The edges out of the positions before one, in the order of the pass. -/
def edgesBefore (data : List Byte) : Nat → List PathEdge
  | 0 => []
  | k + 1 => edgesBefore data k ++ edgesOut data k

/-- The order of relaxation, as far as the table depends on it. -/
def RelaxedInOrder (e f : PathEdge) : Prop :=
  e.start ≤ f.start ∧ (e.start + e.len = f.start + f.len → relaxedBefore e f)

section
variable {data : List Byte} {pos : Nat}

theorem mem_edgesOut_iff (hpos : pos < data.length) (e : PathEdge) : e ∈ edgesOut data pos ↔ e.start = pos ∧ e.IsEdge data := by
  obtain ⟨start, len, dist⟩ := e
  simp only [edgesOut, List.mem_append, List.mem_map, List.mem_range'_1, PathEdge.mk.injEq, PathEdge.IsEdge]
  constructor
  · rintro (⟨l, hl, rfl, rfl, rfl⟩ | ⟨l, hl, rfl, rfl, rfl⟩)
    · exact ⟨rfl, hpos, .inr ⟨(refBest_spec hpos (by omega)).1, rfl, by omega, by omega⟩⟩
    · exact ⟨rfl, hpos, .inl ⟨rfl, by omega, by omega⟩⟩
  · rintro ⟨rfl, -, ⟨rfl, hmin, hmax⟩ | ⟨-, rfl, hmin, hmax⟩⟩
    · exact .inr ⟨len, by omega, rfl, rfl, rfl⟩
    · exact .inl ⟨len, by omega, rfl, rfl, rfl⟩

theorem mem_edgesBefore_iff {k : Nat} (hk : k ≤ data.length) (e : PathEdge) :
    e ∈ edgesBefore data k ↔ e.start < k ∧ e.IsEdge data := by
  induction k with
  | zero => simp [edgesBefore]
  | succ k ih =>
    rw [edgesBefore, List.mem_append, ih (by omega), mem_edgesOut_iff hk, ← or_and_right]
    refine and_congr_left fun _ => ?_
    omega

/-- Edges of one kind out of one position have different ends. -/
theorem edges_of_kind_inOrder (pos dist first count : Nat) :
    ((List.range' first count).map fun l => ({ start := pos, len := l, dist := dist } : PathEdge)).Pairwise RelaxedInOrder :=
  List.pairwise_map.2 <| (List.pairwise_lt_range' 1 Nat.one_pos).imp fun hlt =>
    ⟨Nat.le_refl _, fun heq => absurd (Nat.add_left_cancel heq) (Nat.ne_of_lt hlt)⟩

/-- At one position a match edge comes before a literal one. -/
theorem edgesOut_inOrder (hpos : pos < data.length) : (edgesOut data pos).Pairwise RelaxedInOrder := by
  refine List.pairwise_append.2 ⟨edges_of_kind_inOrder _ _ _ _, edges_of_kind_inOrder _ _ _ _, fun e he f hf => ?_⟩
  obtain ⟨l, hl, rfl⟩ := List.mem_map.1 he
  obtain ⟨l', -, rfl⟩ := List.mem_map.1 hf
  rw [List.mem_range'_1] at hl
  exact ⟨Nat.le_refl _, fun _ => .inr ⟨rfl, .inr ⟨Nat.ne_of_gt (refBest_spec hpos (by omega)).1, rfl⟩⟩⟩

theorem edgesBefore_inOrder {k : Nat} (hk : k ≤ data.length) : (edgesBefore data k).Pairwise RelaxedInOrder := by
  induction k with
  | zero => exact List.Pairwise.nil
  | succ k ih =>
    refine List.pairwise_append.2 ⟨ih (by omega), edgesOut_inOrder hk, fun e he f hf => ?_⟩
    have hlt := ((mem_edgesBefore_iff (by omega) e).1 he).1
    have heq := ((mem_edgesOut_iff hk f).1 hf).1
    exact ⟨by omega, fun _ => .inl (by omega)⟩

end

/-! ### Relaxing one edge -/

/-- The record of a node (43_tuya_levels.md R166). -/
def HasRec (pred : List (Option PredRec)) (t : Nat) (r : PredRec) : Prop := pred[t]? = some (some r)

/-- The edge by which a record reaches its node (43_tuya_levels.md R167). -/
def PredRec.edge (r : PredRec) (t : Nat) : PathEdge := { start := t - r.len, len := r.len, dist := r.dist }

/-- The record of an edge's end that the edge reaches at a cost. -/
def PathEdge.reaching (e : PathEdge) (cost : Nat) : PredRec := { cost := cost, len := e.len, dist := e.dist }

@[simp] theorem reaching_cost (e : PathEdge) (cost : Nat) : (e.reaching cost).cost = cost := rfl
@[simp] theorem reaching_len (e : PathEdge) (cost : Nat) : (e.reaching cost).len = e.len := rfl
@[simp] theorem edge_reaching (e : PathEdge) (cost : Nat) : (e.reaching cost).edge (e.start + e.len) = e := by
  rw [PredRec.edge, PathEdge.reaching, Nat.add_sub_cancel]

/-- `relax` of an edge of the graph (43_tuya_levels.md R166). -/
def relaxEdge (pred : List (Option PredRec)) (e : PathEdge) : List (Option PredRec) := relax e.start e.len (edgeCost e) e.dist pred

theorem HasRec.unique {pred : List (Option PredRec)} {t : Nat} {r r' : PredRec} (h : HasRec pred t r) (h' : HasRec pred t r') :
    r = r' := Option.some.inj (Option.some.inj (h.symm.trans h'))

theorem hasRec_set_same {pred : List (Option PredRec)} {t : Nat} (ht : t < pred.length) (r : PredRec) :
    HasRec (pred.set t (some r)) t r := List.getElem?_set_self ht

theorem hasRec_set_other {pred : List (Option PredRec)} {t q : Nat} (hne : q ≠ t) (r r' : PredRec) :
    HasRec (pred.set t (some r)) q r' ↔ HasRec pred q r' := by
  rw [HasRec, HasRec, List.getElem?_set_ne hne.symm]

/-- Relaxing an edge out of a reached node keeps the record of its end, when that is no dearer, or replaces it. -/
theorem relaxEdge_cases {pred : List (Option PredRec)} {e : PathEdge} {here : PredRec} (hhere : HasRec pred e.start here) :
    (∃ there, HasRec pred (e.start + e.len) there ∧ there.cost ≤ here.cost + edgeCost e ∧ relaxEdge pred e = pred) ∨
    ((∀ there, HasRec pred (e.start + e.len) there → here.cost + edgeCost e < there.cost) ∧
      relaxEdge pred e = pred.set (e.start + e.len) (some (e.reaching (here.cost + edgeCost e)))) := by
  unfold HasRec at *
  rw [relaxEdge, relax, hhere]
  dsimp only
  split
  · rename_i there hthere
    rw [hthere]
    split
    · rename_i hlt
      refine .inr ⟨fun r hr => ?_, rfl⟩
      cases hr
      exact hlt
    · rename_i hge
      exact .inl ⟨there, rfl, Nat.not_lt.1 hge, rfl⟩
  · rename_i hnone
    exact .inr ⟨fun r hr => absurd hr (hnone r), rfl⟩

/-! ### The table after some edges -/

/-- What the table holds after a list of edges: every record is of one of them, and none of them is a cheaper way to its end, nor as
cheap a one relaxed before (43_tuya_levels.md R166). -/
structure Solved (n : Nat) (es : List PathEdge) (pred : List (Option PredRec)) : Prop where
  length_eq : pred.length = n + 1
  origin : HasRec pred 0 { cost := 0, len := 0, dist := 0 }
  recorded : ∀ t r, 0 < t → HasRec pred t r →
    r.len ≤ t ∧ r.edge t ∈ es ∧ ∃ r₀, HasRec pred (t - r.len) r₀ ∧ r.cost = r₀.cost + edgeCost (r.edge t)
  relaxed : ∀ f ∈ es, ∃ r₀ r, HasRec pred f.start r₀ ∧ HasRec pred (f.start + f.len) r ∧ r.cost ≤ r₀.cost + edgeCost f ∧
    (r.cost = r₀.cost + edgeCost f → relaxedBefore (r.edge (f.start + f.len)) f)

theorem solved_initPred (n : Nat) : Solved n [] (initPred n) where
  length_eq := by simp [initPred]
  origin := rfl
  recorded t r ht hr := by
    obtain ⟨t, rfl⟩ := Nat.exists_eq_succ_of_ne_zero (Nat.ne_of_gt ht)
    rw [HasRec, initPred, List.getElem?_cons_succ, List.getElem?_replicate] at hr
    split at hr <;> cases hr
  relaxed _ hf := nomatch hf

section
variable {n : Nat} {es : List PathEdge} {pred : List (Option PredRec)}

/-- A node is reached when it is the origin or the end of a relaxed edge. -/
theorem Solved.exists_rec (h : Solved n es pred) {t : Nat} (ht : t = 0 ∨ ∃ f ∈ es, f.start + f.len = t) : ∃ r, HasRec pred t r := by
  rcases ht with rfl | ⟨f, hf, rfl⟩
  · exact ⟨_, h.origin⟩
  · obtain ⟨-, r, -, hr, -⟩ := h.relaxed f hf
    exact ⟨r, hr⟩

theorem PredRec.edge_end {r : PredRec} {t : Nat} (h : r.len ≤ t) : (r.edge t).start + (r.edge t).len = t := Nat.sub_add_cancel h

section
variable {e : PathEdge} {here : PredRec}

/-- An edge that is no improvement leaves a table that has it relaxed. -/
theorem Solved.concat_of_le (h : Solved n es pred) (hlen : 1 ≤ e.len) (horder : ∀ f ∈ es, RelaxedInOrder f e)
    (hhere : HasRec pred e.start here) {there : PredRec} (hthere : HasRec pred (e.start + e.len) there)
    (hle : there.cost ≤ here.cost + edgeCost e) : Solved n (es ++ [e]) pred where
  length_eq := h.length_eq
  origin := h.origin
  recorded t r ht hr := by
    obtain ⟨hrt, hmem, hsource⟩ := h.recorded t r ht hr
    exact ⟨hrt, List.mem_append_left _ hmem, hsource⟩
  relaxed f hf := by
    rcases List.mem_append.1 hf with hf | hf
    · exact h.relaxed f hf
    · obtain rfl := List.mem_singleton.1 hf
      obtain ⟨hrt, hmem, -⟩ := h.recorded _ there (by omega) hthere
      exact ⟨here, there, hhere, hthere, hle, fun _ => (horder _ hmem).2 (PredRec.edge_end hrt)⟩

/-- An edge that is an improvement is the record of its end. -/
theorem Solved.concat_of_lt (h : Solved n es pred) (hlen : 1 ≤ e.len) (hend : e.start + e.len ≤ n)
    (horder : ∀ f ∈ es, RelaxedInOrder f e) (hhere : HasRec pred e.start here)
    (hlt : ∀ there, HasRec pred (e.start + e.len) there → here.cost + edgeCost e < there.cost) :
    Solved n (es ++ [e]) (pred.set (e.start + e.len) (some (e.reaching (here.cost + edgeCost e)))) := by
  have hnew := hasRec_set_same (pred := pred) (t := e.start + e.len) (by rw [h.length_eq]; omega)
    (e.reaching (here.cost + edgeCost e))
  have hkept : ∀ {q}, q ≤ e.start → ∀ {r}, HasRec pred q r →
      HasRec (pred.set (e.start + e.len) (some (e.reaching (here.cost + edgeCost e)))) q r :=
    fun hq _ hr => (hasRec_set_other (by omega) _ _).2 hr
  refine ⟨by rw [List.length_set, h.length_eq], hkept (Nat.zero_le _) h.origin, fun t r ht hr => ?_, fun f hf => ?_⟩
  · by_cases hte : t = e.start + e.len
    · subst hte
      obtain rfl := hr.unique hnew
      rw [edge_reaching, reaching_len, Nat.add_sub_cancel]
      exact ⟨Nat.le_add_left _ _, List.mem_append_right _ (List.mem_singleton_self e), here, hkept (Nat.le_refl _) hhere, rfl⟩
    · obtain ⟨hrt, hmem, r₀, hr₀, hcost⟩ := h.recorded t r ht ((hasRec_set_other hte _ _).1 hr)
      exact ⟨hrt, List.mem_append_left _ hmem, r₀, hkept (horder _ hmem).1 hr₀, hcost⟩
  · rcases List.mem_append.1 hf with hf | hf
    · obtain ⟨r₀, r, hr₀, hr, hle, htie⟩ := h.relaxed f hf
      by_cases hfe : f.start + f.len = e.start + e.len
      · rw [hfe] at hr ⊢
        have hcheaper := hlt r hr
        refine ⟨r₀, _, hkept (horder f hf).1 hr₀, hnew, ?_, fun heq => ?_⟩
        · rw [reaching_cost]
          omega
        · rw [reaching_cost] at heq
          omega
      · exact ⟨r₀, r, hkept (horder f hf).1 hr₀, (hasRec_set_other hfe _ _).2 hr, hle, htie⟩
    · obtain rfl := List.mem_singleton.1 hf
      refine ⟨here, _, hkept (Nat.le_refl _) hhere, hnew, Nat.le_refl _, fun _ => ?_⟩
      rw [edge_reaching]
      exact .inr ⟨rfl, .inl rfl⟩

end

/-- Relaxing an edge out of a node that is reached leaves a table that has it relaxed. -/
theorem Solved.relaxEdge (h : Solved n es pred) {e : PathEdge} (hlen : 1 ≤ e.len) (hend : e.start + e.len ≤ n)
    (hsource : e.start = 0 ∨ ∃ f ∈ es, f.start + f.len = e.start) (horder : ∀ f ∈ es, RelaxedInOrder f e) :
    Solved n (es ++ [e]) (relaxEdge pred e) := by
  obtain ⟨here, hhere⟩ := h.exists_rec hsource
  rcases relaxEdge_cases hhere with ⟨there, hthere, hle, heq⟩ | ⟨hlt, heq⟩
  · rw [heq]
    exact h.concat_of_le hlen horder hhere hthere hle
  · rw [heq]
    exact h.concat_of_lt hlen hend horder hhere hlt

/-- Relaxing edges one after the other, in order. -/
theorem Solved.relaxEdges (h : Solved n es pred) {rest : List PathEdge}
    (hrest : ∀ e ∈ rest, 1 ≤ e.len ∧ e.start + e.len ≤ n ∧ (e.start = 0 ∨ ∃ f ∈ es, f.start + f.len = e.start))
    (horder : (es ++ rest).Pairwise RelaxedInOrder) : Solved n (es ++ rest) (rest.foldl Machine.relaxEdge pred) := by
  induction rest generalizing es pred with
  | nil => rwa [List.append_nil]
  | cons e rest ih =>
    obtain ⟨hlen, hend, hsource⟩ := hrest e List.mem_cons_self
    have hbefore : ∀ f ∈ es, RelaxedInOrder f e := fun f hf =>
      (List.pairwise_append.1 horder).2.2 f hf e List.mem_cons_self
    rw [List.append_cons] at horder ⊢
    refine ih (h.relaxEdge hlen hend hsource hbefore) (fun g hg => ?_) horder
    obtain ⟨hglen, hgend, hgsource⟩ := hrest g (List.mem_cons_of_mem e hg)
    exact ⟨hglen, hgend, hgsource.imp_right fun ⟨f, hf, heq⟩ => ⟨f, List.mem_append_left _ hf, heq⟩⟩

end

/-! ### The forward pass -/

/-- The table after the positions before one (43_tuya_levels.md R166). -/
def predBefore (data : List Byte) : Nat → List (Option PredRec)
  | 0 => initPred data.length
  | k + 1 => relaxAll data.length k (refBest data k).1 (refBest data k).2 (predBefore data k)

section
variable {data : List Byte}

/-- The pass at a position relaxes the edges out of it. -/
theorem relaxAll_eq_foldl {pos : Nat} (hpos : pos < data.length) (pred : List (Option PredRec)) :
    relaxAll data.length pos (refBest data pos).1 (refBest data pos).2 pred = (edgesOut data pos).foldl relaxEdge pred := by
  rw [edgesOut, List.foldl_append, List.foldl_map, List.foldl_map, relaxAll]
  have hmatch : ∀ acc, ∀ l ∈ List.range' 3 ((refBest data pos).1 + 1 - 3),
      relax pos l (matchCost l) (refBest data pos).2 acc = relaxEdge acc ⟨pos, l, (refBest data pos).2⟩ := fun acc l hl => by
    rw [List.mem_range'_1] at hl
    rw [relaxEdge, edgeCost, if_neg (Nat.ne_of_gt (refBest_spec hpos (by omega)).1), matchCost]
  exact congrArg (List.foldl (fun acc l => relax pos l (1 + l) 0 acc) · _) (List.foldl_ext _ _ pred hmatch)

/-- The literal edge of one byte out of a position is an edge of the graph. -/
theorem isEdge_of_byte {pos : Nat} (hpos : pos < data.length) : PathEdge.IsEdge data ⟨pos, 1, 0⟩ :=
  ⟨hpos, .inl ⟨rfl, Nat.le_refl 1, by simp only; omega⟩⟩

/-- Every position is the origin or the end of an edge out of an earlier one. -/
theorem reached_of_le {k : Nat} (hk : k ≤ data.length) : k = 0 ∨ ∃ f ∈ edgesBefore data k, f.start + f.len = k := by
  cases k with
  | zero => exact .inl rfl
  | succ k => exact .inr ⟨⟨k, 1, 0⟩, (mem_edgesBefore_iff hk _).2 ⟨Nat.lt_succ_self k, isEdge_of_byte hk⟩, rfl⟩

theorem solved_predBefore {k : Nat} (hk : k ≤ data.length) : Solved data.length (edgesBefore data k) (predBefore data k) := by
  induction k with
  | zero => exact solved_initPred data.length
  | succ k ih =>
    rw [predBefore, relaxAll_eq_foldl hk]
    refine (ih (by omega)).relaxEdges (fun e he => ?_) (edgesBefore_inOrder hk)
    obtain ⟨rfl, hedge⟩ := (mem_edgesOut_iff hk e).1 he
    exact ⟨hedge.isPiece.one_le_len, hedge.isPiece.end_le, reached_of_le (Nat.le_of_lt hk)⟩

end

end Sys2Proof.Machine
end

section
/-! PROOFS. Level 3: the walk back through the table is a cheapest path, the one the tie-break selects, and the turns write its
stream (43_tuya_levels.md R167 to R169). -/

namespace Sys2Proof.Machine

open Sys2Proof

/-! ### The walk back -/

/-- A path from the origin that follows the records of the table back from a node (43_tuya_levels.md R167). -/
inductive Traced (pred : List (Option PredRec)) : Nat → List PathEdge → Prop
  | origin : Traced pred 0 []
  | step {t : Nat} {r : PredRec} {es : List PathEdge} (ht : 0 < t) (hr : HasRec pred t r) (hes : Traced pred (t - r.len) es) :
      Traced pred t (es ++ [r.edge t])

theorem traced_concat {pred : List (Option PredRec)} {t : Nat} {es : List PathEdge} {e : PathEdge} (h : Traced pred t (es ++ [e])) :
    ∃ r, 0 < t ∧ HasRec pred t r ∧ e = r.edge t ∧ Traced pred (t - r.len) es := by
  generalize hpath : es ++ [e] = path at h
  cases h with
  | origin => simp at hpath
  | step ht hr hes =>
    obtain ⟨rfl, hlast⟩ := List.append_inj' hpath rfl
    exact ⟨_, ht, hr, List.singleton_inj.1 hlast, hes⟩

section
variable {pred : List (Option PredRec)} {k t : Nat} (acc : List PathEdge)

theorem walkBack_origin : walkBack pred k 0 acc = acc := by
  cases k <;> rfl

theorem walkBack_of_hasRec (ht : 0 < t) {r : PredRec} (hr : HasRec pred t r) :
    walkBack pred (k + 1) t acc = walkBack pred k (t - r.len) (r.edge t :: acc) := by
  unfold HasRec at hr
  rw [walkBack, if_neg (Nat.ne_of_gt ht), hr]
  rfl

end

section
variable {data : List Byte} {pred : List (Option PredRec)} (h : Solved data.length (edgesBefore data data.length) pred)
include h

theorem Solved.exists_rec_of_le {t : Nat} (ht : t ≤ data.length) : ∃ r, HasRec pred t r := by
  refine h.exists_rec ((reached_of_le ht).imp_right fun ⟨f, hf, heq⟩ => ⟨f, ?_, heq⟩)
  obtain ⟨hlt, hedge⟩ := (mem_edgesBefore_iff ht f).1 hf
  exact (mem_edgesBefore_iff (Nat.le_refl _) f).2 ⟨hedge.1, hedge⟩

/-- The record of a node is an edge of the graph into it, out of a node with a record. -/
theorem Solved.rec_isEdge {t : Nat} {r : PredRec} (ht : 0 < t) (hr : HasRec pred t r) :
    r.len ≤ t ∧ (r.edge t).IsEdge data ∧ ∃ r₀, HasRec pred (t - r.len) r₀ ∧ r.cost = r₀.cost + edgeCost (r.edge t) := by
  obtain ⟨hle, hmem, hsource⟩ := h.recorded t r ht hr
  exact ⟨hle, ((mem_edgesBefore_iff (Nat.le_refl _) _).1 hmem).2, hsource⟩

theorem Solved.walkBack_traced {k t : Nat} (htk : t ≤ k) (ht : t ≤ data.length) (acc : List PathEdge) :
    ∃ es, walkBack pred k t acc = es ++ acc ∧ Traced pred t es := by
  induction k generalizing t acc with
  | zero =>
    obtain rfl := Nat.le_zero.1 htk
    exact ⟨[], rfl, .origin⟩
  | succ k ih =>
    rcases Nat.eq_zero_or_pos t with rfl | hpos
    · exact ⟨[], walkBack_origin acc, .origin⟩
    · obtain ⟨r, hr⟩ := h.exists_rec_of_le ht
      obtain ⟨-, hedge, -⟩ := h.rec_isEdge hpos hr
      have hlen : 1 ≤ r.len := hedge.isPiece.one_le_len
      obtain ⟨es, hes, htraced⟩ := ih (t := t - r.len) (by omega) (by omega) (r.edge t :: acc)
      exact ⟨es ++ [r.edge t], by rw [walkBack_of_hasRec acc hpos hr, hes, List.append_cons], .step hpos hr htraced⟩

/-- A traced path is a path of the graph, as dear as the record of its end says. -/
theorem Solved.graphPath_of_traced {t : Nat} {es : List PathEdge} (htraced : Traced pred t es) :
    graphPath data t 0 es = true ∧ ∃ r, HasRec pred t r ∧ pathCost es = r.cost := by
  induction htraced with
  | origin => exact ⟨(graphPath_nil _ _).2 rfl, _, h.origin, rfl⟩
  | @step t r es ht hr hes ih =>
    obtain ⟨hpath, r', hr', hcost⟩ := ih
    obtain ⟨hle, hedge, r₀, hr₀, heq⟩ := h.rec_isEdge ht hr
    obtain rfl := hr'.unique hr₀
    refine ⟨(graphPath_concat _ _ _ _).2 ⟨hpath, hedge, PredRec.edge_end hle⟩, r, hr, ?_⟩
    rw [pathCost_append, hcost, heq]
    rfl

/-- The part of a traced path up to an edge is traced, and the edge is the record of its end. -/
theorem Solved.traced_upTo {t : Nat} {before after : List PathEdge} {e : PathEdge}
    (htraced : Traced pred t (before ++ e :: after)) :
    Traced pred (e.start + e.len) (before ++ [e]) ∧ ∃ r, HasRec pred (e.start + e.len) r ∧ e = r.edge (e.start + e.len) := by
  induction after using List.reverseRecOn generalizing t with
  | nil =>
    obtain ⟨r, ht, hr, he, -⟩ := traced_concat htraced
    have hend : e.start + e.len = t := by
      rw [he]
      exact PredRec.edge_end (h.rec_isEdge ht hr).1
    rw [hend]
    exact ⟨htraced, r, hr, he⟩
  | append_singleton after f ih =>
    rw [← List.cons_append, ← List.append_assoc] at htraced
    obtain ⟨r, -, -, -, hrest⟩ := traced_concat htraced
    exact ih hrest

/-- The last edge of a path to a node is no cheaper way there than the node's record, and where it is as cheap the record's edge was
relaxed before it. -/
theorem Solved.edge_le {f : PathEdge} (hf : f.IsEdge data) :
    ∃ r₀ r, HasRec pred f.start r₀ ∧ HasRec pred (f.start + f.len) r ∧ r.cost ≤ r₀.cost + edgeCost f ∧
      (r.cost = r₀.cost + edgeCost f → relaxedBefore (r.edge (f.start + f.len)) f) :=
  h.relaxed f ((mem_edgesBefore_iff (Nat.le_refl _) f).2 ⟨hf.1, hf⟩)

/-- No path to a node is cheaper than its record (43_tuya_levels.md R169). -/
theorem Solved.cost_le {t : Nat} {es : List PathEdge} {r : PredRec} (hpath : graphPath data t 0 es = true) (hr : HasRec pred t r) :
    r.cost ≤ pathCost es := by
  induction es using List.reverseRecOn generalizing t r with
  | nil =>
    obtain rfl := (graphPath_nil _ _).1 hpath
    rw [hr.unique h.origin]
    exact Nat.le_refl 0
  | append_singleton es f ih =>
    obtain ⟨hes, hf, rfl⟩ := (graphPath_concat _ _ _ _).1 hpath
    obtain ⟨r₀, r', hr₀, hr', hle, -⟩ := h.edge_le hf
    obtain rfl := hr.unique hr'
    have hbefore := ih hes hr₀
    rw [pathCost_append, show pathCost [f] = edgeCost f from rfl]
    omega

/-- The tie-break: of the ways to a node of a traced path that are as cheap, the path takes the one whose last edge was relaxed
first (43_tuya_levels.md R166). -/
theorem Solved.traced_tie {t : Nat} {before after : List PathEdge} {e : PathEdge} (htraced : Traced pred t (before ++ e :: after))
    {others : List PathEdge} {f : PathEdge} (hpath : graphPath data (e.start + e.len) 0 (others ++ [f]) = true) :
    pathCost (before ++ [e]) ≤ pathCost (others ++ [f]) ∧
    (pathCost (before ++ [e]) = pathCost (others ++ [f]) → relaxedBefore e f) := by
  obtain ⟨hupTo, r, hr, hedge⟩ := h.traced_upTo htraced
  obtain ⟨-, r', hr', hcost⟩ := h.graphPath_of_traced hupTo
  obtain rfl := hr.unique hr'
  obtain ⟨hothers, hf, hend⟩ := (graphPath_concat _ _ _ _).1 hpath
  obtain ⟨r₀, r', hr₀, hr', hle, htie⟩ := h.edge_le hf
  obtain rfl := (hend ▸ hr').unique hr
  rw [hend, ← hedge] at htie
  have hbefore := h.cost_le hothers hr₀
  rw [hcost, pathCost_append, show pathCost [f] = edgeCost f from rfl]
  exact ⟨by omega, fun heq => htie (by omega)⟩

end

/-! ### The path of level 3 -/

/-- The path of level 3 (43_tuya_levels.md R167). -/
def optimalPath (data : List Byte) : List PathEdge := walkBack (predBefore data data.length) data.length data.length []

theorem optimalPath_traced (data : List Byte) : Traced (predBefore data data.length) data.length (optimalPath data) := by
  obtain ⟨es, hes, htraced⟩ := (solved_predBefore (Nat.le_refl _)).walkBack_traced (Nat.le_refl data.length) (Nat.le_refl _) []
  rwa [optimalPath, hes, List.append_nil]

theorem optimalPath_graphPath (data : List Byte) : graphPath data data.length 0 (optimalPath data) = true :=
  ((solved_predBefore (Nat.le_refl _)).graphPath_of_traced (optimalPath_traced data)).1

theorem optimalPath_cheapest (data : List Byte) {other : List PathEdge} (h : graphPath data data.length 0 other = true) :
    pathCost (optimalPath data) ≤ pathCost other := by
  have hsolved := solved_predBefore (data := data) (Nat.le_refl _)
  obtain ⟨-, r, hr, hcost⟩ := hsolved.graphPath_of_traced (optimalPath_traced data)
  rw [hcost]
  exact hsolved.cost_le h hr

/-- The stream of level 3 is no longer than that of any parse (43_tuya_levels.md R169). -/
theorem length_optimal_le {data : List Byte} {es : List PathEdge} (h : Parses data 0 es) :
    (pathStream data [] (optimalPath data)).length ≤ (pathStream data [] es).length := by
  obtain ⟨heq, hle⟩ := length_pathStream_of_cheapest (optimalPath_graphPath data) fun _ => optimalPath_cheapest data
  exact heq ▸ hle es h

/-! ### Emission of a path -/

/-- The bytes of the pending run of `emitPath` (43_tuya_levels.md R168). -/
def pendingBytes (data : List Byte) : Option (Nat × Nat) → List Byte
  | none => []
  | some (s, e) => between s e data

theorem flushRun_eq_emit {cap : Nat} (data : List Byte) (run : Option (Nat × Nat)) {out : List Byte} (hout : out.length ≤ cap) :
    flushRun cap data run out = emit cap (refLiterals (pendingBytes data run).length (pendingBytes data run)) out := by
  cases run with
  | none => exact (emit_of_le (bs := []) hout).symm ▸ congrArg Except.ok (List.append_nil out).symm
  | some se => exact emitLiteralRun_eq_emit (between se.1 se.2 data) hout

/-- A literal edge joins the pending run. -/
theorem emitPath_literal (cap : Nat) (data : List Byte) {e : PathEdge} (h : e.dist = 0) (es : List PathEdge)
    {run : Option (Nat × Nat)} (hrun : ∀ s q, run = some (s, q) → s ≤ q ∧ q = e.start) (out : List Byte) :
    ∃ s, s ≤ e.start ∧ pendingBytes data run ++ between e.start (e.start + e.len) data = between s (e.start + e.len) data ∧
      emitPath cap data (e :: es) run out = emitPath cap data es (some (s, e.start + e.len)) out := by
  cases run with
  | none => exact ⟨e.start, Nat.le_refl _, rfl, by rw [emitPath, if_pos h]⟩
  | some sq =>
    obtain ⟨hle, heq⟩ := hrun sq.1 sq.2 rfl
    rw [heq] at hle
    refine ⟨sq.1, hle, ?_, by rw [emitPath, if_pos h]⟩
    rw [pendingBytes, heq, between_append hle (Nat.le_add_right _ _)]

section
variable {cap : Nat} {data out out' : List Byte} {e : PathEdge} (h : e.dist ≠ 0) (es : List PathEdge) {run : Option (Nat × Nat)}
  {c : ErrCode}
include h

theorem emitPath_of_flush_error (hflush : flushRun cap data run out = .error c) :
    emitPath cap data (e :: es) run out = .error c := by
  simp [emitPath, h, hflush]

theorem emitPath_of_block_error (hflush : flushRun cap data run out = .ok out')
    (hblock : emitDistanceBlock cap e.len e.dist out' = .error c) : emitPath cap data (e :: es) run out = .error c := by
  simp [emitPath, h, hflush, hblock]

theorem emitPath_of_block {out'' : List Byte} (hflush : flushRun cap data run out = .ok out')
    (hblock : emitDistanceBlock cap e.len e.dist out' = .ok out'') :
    emitPath cap data (e :: es) run out = emitPath cap data es none out'' := by
  simp [emitPath, h, hflush, hblock]

end

/-- The emission of a parse is that of its stream (43_tuya_levels.md R168). -/
theorem emitPath_eq_emit {cap : Nat} {data : List Byte} {es : List PathEdge} {p : Nat} (hes : Parses data p es)
    {run : Option (Nat × Nat)} (hrun : ∀ s q, run = some (s, q) → s ≤ q ∧ q = p) {out : List Byte} (hout : out.length ≤ cap) :
    emitPath cap data es run out = emit cap (pathStream data (pendingBytes data run) es) out := by
  induction es generalizing p run out with
  | nil => exact flushRun_eq_emit data run hout
  | cons e es ih =>
    obtain ⟨rfl, hpiece, hrest⟩ := hes
    by_cases h0 : e.dist = 0
    · obtain ⟨s, hs, hbytes, hemit⟩ := emitPath_literal cap data h0 es hrun out
      rw [hemit, pathStream_literal _ _ h0, hbytes]
      refine ih hrest (fun s' q heq => ?_) hout
      cases heq
      exact ⟨hs.trans (Nat.le_add_right _ _), rfl⟩
    · obtain ⟨hl, hd⟩ := hpiece.within h0
      have hflush := flushRun_eq_emit data run hout
      rw [pathStream_match _ _ h0, List.append_assoc]
      generalize refLiterals (pendingBytes data run).length (pendingBytes data run) = lits at hflush ⊢
      have hblock := emitDistanceBlock_eq_emit cap (out ++ lits) hl hd
      rcases Nat.lt_or_ge cap (out.length + lits.length) with hover | hfit
      · rw [emit_append_of_gt hover]
        exact emitPath_of_flush_error h0 es (hflush.trans (emit_of_gt hover))
      · replace hflush := hflush.trans (emit_of_le hfit)
        rw [emit_append]
        rcases Nat.lt_or_ge cap ((out ++ lits).length + (refDistance e.len e.dist).length) with hover | hfit
        · rw [emit_append_of_gt hover]
          exact emitPath_of_block_error h0 es hflush (hblock.trans (emit_of_gt hover))
        · rw [emit_append, emitPath_of_block h0 es hflush (hblock.trans (emit_of_le hfit))]
          exact ih hrest (run := none) (fun _ _ heq => nomatch heq) (by rwa [List.length_append])

/-! ### The turns -/

section
variable {p : Params} {data : List Byte} {w : Work}

theorem optimalTurn_of_end (h : data.length ≤ w.pos) :
    optimalTurn p data w =
      w.finishing data.length (emitPath p.obufBytes data (walkBack w.pred data.length data.length []) none w.out) := if_pos h

theorem optimalTurn_of_lt (h : w.pos < data.length) :
    optimalTurn p data w =
      .more { w with
        pos := w.pos + 1
        sfx := w.sfx.bringUp data w.pos
        pred := relaxAll data.length w.pos ((bestMatch data w.pos (w.sfx.bringUp data w.pos)).getD (0, 0)).1
          ((bestMatch data w.pos (w.sfx.bringUp data w.pos)).getD (0, 0)).2
          (if w.pos = 0 then initPred data.length else w.pred) } := if_neg (Nat.not_le.2 h)

end

/-- The working state of level 3 after the pass at so many positions. -/
def Work.afterPass (data : List Byte) : Nat → Work
  | 0 => Work.start
  | k + 1 => { Work.start with pos := k + 1, sfx := Sfx.empty.advance data (k + 1), pred := predBefore data (k + 1) }

@[simp] theorem afterPass_pos (data : List Byte) (k : Nat) : (Work.afterPass data k).pos = k := by
  cases k <;> rfl

@[simp] theorem afterPass_sfx (data : List Byte) (k : Nat) : (Work.afterPass data k).sfx = Sfx.empty.advance data k := by
  cases k <;> rfl

@[simp] theorem afterPass_out (data : List Byte) (k : Nat) : (Work.afterPass data k).out = [] := by
  cases k <;> rfl

@[simp] theorem afterPass_warn (data : List Byte) (k : Nat) : (Work.afterPass data k).warn = Warn.none := by
  cases k <;> rfl

/-- The pass begins with the initial table and goes on with the one before it. -/
theorem afterPass_pred (data : List Byte) (k : Nat) :
    (if (Work.afterPass data k).pos = 0 then initPred data.length else (Work.afterPass data k).pred) = predBefore data k := by
  cases k <;> rfl

theorem optimalTurn_afterPass (p : Params) {data : List Byte} {k : Nat} (h : k < data.length) :
    optimalTurn p data (Work.afterPass data k) = .more (Work.afterPass data (k + 1)) := by
  have hsfx : (Sfx.empty.advance data k).bringUp data k = Sfx.empty.advance data (k + 1) := bringUp_advance data (Nat.le_succ k)
  have hbest : (bestMatch data k (Sfx.empty.advance data (k + 1))).getD (0, 0) = refBest data k := by
    rw [refBest, bestFrom, bringUp_empty]
  rw [optimalTurn_of_lt (by rwa [afterPass_pos]), afterPass_pred, afterPass_pos, afterPass_sfx, hsfx, hbest]
  cases k <;> rfl

theorem runTurns_afterPass (p : Params) {data : List Byte} {k : Nat} (h : k ≤ data.length) :
    runTurns (optimalTurn p data) k Work.start = .more (Work.afterPass data k) := by
  induction k with
  | zero => rfl
  | succ k ih =>
    rw [runTurns_add k 1 _ _ (ih (by omega)), runTurns_of_more 0 (optimalTurn_afterPass p h), runTurns_zero]

theorem walkBack_afterPass (data : List Byte) :
    walkBack (Work.afterPass data data.length).pred data.length data.length [] = optimalPath data := by
  unfold optimalPath
  cases data.length with
  | zero => rfl
  | succ n => rfl

/-- Level 3 writes the stream of its path. -/
theorem optimalRun_writes (p : Params) (data : List Byte) :
    (runTurns (packTurn p 3#2 data) (turnBound data.length) Work.start).Writes p.obufBytes data.length
      (pathStream data [] (optimalPath data)) := by
  have hparse := parses_of_graphPath (optimalPath_graphPath data)
  rw [packTurn_three, turnBound, runTurns_add _ _ _ _ (runTurns_afterPass p (Nat.le_refl _))]
  refine runTurns_writes 7 ?_
  rw [optimalTurn_of_end (by rw [afterPass_pos]), walkBack_afterPass,
    emitPath_eq_emit hparse (run := none) (fun _ _ heq => nomatch heq) (by rw [afterPass_out]; exact Nat.zero_le _)]
  have hlast := finishing_writes (afterPass_warn data data.length) p.obufBytes data.length (pathStream data [] (optimalPath data))
  rw [afterPass_out, List.nil_append] at hlast
  rwa [afterPass_out]

/-- Settles O36: the walk back through the solved table, and the run that emits it. -/
theorem shortestPath : Obligations.ShortestPath := by
  intro s hcap
  have hpath := optimalPath_graphPath s.inputBytes
  have hcheapest := fun other => optimalPath_cheapest s.inputBytes (other := other)
  have hbound := (parses_of_graphPath hpath).length_le_packBound (Nat.le_refl 0)
  rw [between_self, Nat.sub_zero, inputBytes_length] at hbound
  refine ⟨_, optimalPath s.inputBytes, hpath, hcheapest, fun before after e others f hsplit hother => ?_, rfl,
    (length_pathStream_of_cheapest hpath hcheapest).1, hbound, exec_tuyaPack_of_writes hcap (optimalRun_writes _ _)⟩
  exact (solved_predBefore (Nat.le_refl _)).traced_tie (hsplit ▸ optimalPath_traced s.inputBytes) hother

end Sys2Proof.Machine
end

section
/-! PROOFS. TUYA_PACK at every level: one parse of the input whose stream is written. From it the round trip and the compactness of
level 3 follow (43_tuya_levels.md R169, R171, R172). -/

namespace Sys2Proof.Machine

open Sys2Proof

/-- The parse that takes no match gathers the whole input into one run (43_tuya_levels.md R151). -/
theorem pathStream_greedyPath_none {data : List Byte} {m s p : Nat} (hs : s ≤ p) (hp : p ≤ data.length) (hm : data.length - p ≤ m) :
    pathStream data (between s p data) (greedyPath (fun _ => none) data.length m p) =
      refLiterals (data.length - s) (between s data.length data) := by
  induction m generalizing p with
  | zero =>
    obtain rfl : p = data.length := by omega
    rw [greedyPath_end (Nat.le_refl _), pathStream_nil, length_between (Nat.le_refl _)]
  | succ m ih =>
    rcases hp.lt_or_eq with hlt | rfl
    · rw [greedyPath_literal (find := fun _ => none) hlt (fun _ _ h => nomatch h), pathStream_extend hs rfl rfl]
      exact ih (hs.trans (Nat.le_succ p)) hlt (show data.length - (p + 1) ≤ m by omega)
    · rw [greedyPath_end (Nat.le_refl _), pathStream_nil, length_between (Nat.le_refl _)]

/-- At each level a run of TUYA_PACK writes the stream of a parse of the input, or it does not fit. -/
theorem packRun_writes (p : Params) (level : BitVec 2) (data : List Byte) :
    ∃ path, Parses data 0 path ∧
      (runTurns (packTurn p level data) (turnBound data.length) Work.start).Writes p.obufBytes data.length
        (pathStream data [] path) := by
  have hgreedy : ∀ {find}, FindsMatches data find → Parses data 0 (greedyPath find data.length data.length 0) := fun hfind =>
    greedyPath_parses hfind (Nat.sub_le _ _) (Nat.zero_le _)
  have hlevels : ∀ l : BitVec 2, l = 0#2 ∨ l = 1#2 ∨ l = 2#2 ∨ l = 3#2 := by decide
  rcases hlevels level with rfl | rfl | rfl | rfl
  · refine ⟨_, hgreedy (findsMatches_none data), ?_⟩
    have hstream := pathStream_greedyPath_none (Nat.le_refl 0) (Nat.zero_le data.length) (Nat.sub_le _ _)
    rw [between_self, between_zero, List.take_length, Nat.sub_zero] at hstream
    rw [hstream]
    exact literalRun_writes p data
  · exact ⟨_, hgreedy (findsMatches_firstMatch data), greedyRun_writes p (.inl ⟨rfl, rfl⟩)⟩
  · exact ⟨_, hgreedy (findsMatches_bestFrom data), greedyRun_writes p (.inr ⟨rfl, rfl⟩)⟩
  · exact ⟨_, parses_of_graphPath (optimalPath_graphPath data), optimalRun_writes p data⟩

/-- Settles O30: the stream of a parse means the input and is short enough to fit. -/
theorem packRoundTrip : Obligations.PackRoundTrip := by
  intro s level hcap hroom
  obtain ⟨path, hparse, hwrites⟩ := packRun_writes s.params level s.inputBytes
  have hbound := hparse.length_le_packBound (Nat.le_refl 0)
  rw [between_self, Nat.sub_zero, inputBytes_length] at hbound
  exact ⟨_, (exec_tuyaPack_of_writes hcap hwrites).1 (hbound.trans hroom), hparse.refMeaning_eq, hbound⟩

/-- Where TUYA_PACK completes, the input and its stream fit their buffers. -/
theorem exec_tuyaPack_done {s t : State} {level : BitVec 2} (h : exec (.tuyaPack level) s = .next t) (hdone : t.status = .done) :
    s.ilen.toNat ≤ s.params.ibufBytes ∧ ∃ path, Parses s.inputBytes 0 path ∧
      (pathStream s.inputBytes [] path).length ≤ s.params.obufBytes ∧
      t.olen = BitVec.ofNat 32 (pathStream s.inputBytes [] path).length := by
  rcases Nat.lt_or_ge s.params.ibufBytes s.ilen.toNat with hgt | hcap
  · rw [exec_tuyaPack, runBytes_of_gt hgt] at h
    cases h
    cases hdone
  · obtain ⟨path, hparse, hwrites⟩ := packRun_writes s.params level s.inputBytes
    obtain ⟨hfits, hoverflows⟩ := exec_tuyaPack_of_writes hcap hwrites
    rcases Nat.lt_or_ge s.params.obufBytes (pathStream s.inputBytes [] path).length with hover | hfit
    · obtain ⟨t', ht', hstate⟩ := hoverflows hover
      obtain rfl : t' = t := Host.Outcome.next.inj (ht'.symm.trans h)
      rw [hstate] at hdone
      cases hdone
    · obtain rfl := Host.Outcome.next.inj (h.symm.trans (hfits hfit))
      exact ⟨hcap, path, hparse, hfit, rfl⟩

/-- Settles O37: level 3's stream is no longer than that of the other level's parse, so it fits too. -/
theorem monotoneCompactness : Obligations.MonotoneCompactness := by
  intro s t t₃ level hparams ht hdone ht₃
  obtain ⟨hcap, path, hparse, hfit, holen⟩ := exec_tuyaPack_done ht hdone
  have hroom : s.params.obufBytes < 2 ^ 32 := by
    simp only [Config.paramsOk, Bool.and_eq_true, decide_eq_true_eq] at hparams
    omega
  have hle := length_optimal_le hparse
  have hexec := (exec_tuyaPack_of_writes hcap (optimalRun_writes s.params s.inputBytes)).1 (hle.trans hfit)
  obtain rfl := Host.Outcome.next.inj (ht₃.symm.trans hexec)
  refine ⟨rfl, ?_⟩
  rw [holen, doneWithBytes, BitVec.toNat_ofNat, BitVec.toNat_ofNat, Nat.mod_eq_of_lt (by omega), Nat.mod_eq_of_lt (by omega)]
  exact hle

end Sys2Proof.Machine
end

section
/-! PROOFS. No turn of any operation raises EncodingInvariantViolation (43_tuya_levels.md R170; 60_exceptions.md R215). -/

namespace Sys2Proof.Machine

open Sys2Proof

/-! ### Turns that raise another fault, if any -/

/-- The turn does not raise EncodingInvariantViolation. -/
def Turn.Regular : Turn → Prop
  | .raise c _ _ => c ≠ .encodingInvariantViolation
  | _ => True

/-- An operation none of whose turns raises EncodingInvariantViolation. -/
def RegularTurns (f : Work → Turn) : Prop := ∀ w, (f w).Regular

theorem more_regular (w : Work) : (Turn.more w).Regular := trivial

theorem done_regular (w : Work) : (Turn.done w).Regular := trivial

theorem emitting_regular (w : Work) (q cap : Nat) (bs : List Byte) : (w.emitting q (emit cap bs w.out)).Regular := by
  rw [emitting_emit]
  split
  · trivial
  · exact nofun

theorem pushing_regular (w : Work) (q cap : Nat) (v : Word) : (w.pushing q (push cap v w.pulses)).Regular := by
  rw [pushing_push]
  split
  · trivial
  · exact nofun

theorem Turn.Writes.regular {cap n : Nat} {stream : List Byte} {t : Turn} (h : t.Writes cap n stream) : t.Regular := by
  rcases Nat.lt_or_ge cap stream.length with hgt | hle
  · rw [h.2 hgt]
    exact nofun
  · obtain ⟨w, hw, -⟩ := h.1 hle
    rw [hw]
    trivial

theorem runTurns_regular {f : Work → Turn} (hf : RegularTurns f) (k : Nat) (w : Work) : (runTurns f k w).Regular := by
  rcases runTurns_cases (P := fun _ => True) (fun _ _ _ _ => trivial) k w trivial with ⟨v, -, hv⟩ | ⟨v, -, hv⟩
  · rw [hv]
    trivial
  · rw [← hv]
    exact hf v

/-! ### The turns of the operations -/

theorem prontoTurn_regular (p : Params) (data : List Byte) : RegularTurns (prontoTurn p data) := by
  intro w
  unfold prontoTurn
  split
  · unfold prontoHeaderTurn
    split
    · exact nofun
    · split
      · exact nofun
      · trivial
  · exact nofun
  · rename_i t hf
    unfold fetchPronto at hf
    split at hf
    · split at hf <;> cases hf <;> exact nofun
    · split at hf <;> cases hf
      · exact pushing_regular _ _ _ _
      · trivial

theorem blEncTurn_regular (p : Params) (pulses : List Word) : RegularTurns (blEncTurn p pulses) := by
  intro w
  unfold blEncTurn
  split
  · exact nofun
  · split
    · exact nofun
    · split
      · exact nofun
      · split
        · rename_i c hemit
          obtain ⟨-, rfl⟩ := (emit_eq_error_iff _ _ _ _).1 hemit
          exact nofun
        · trivial

theorem blCodeTurn_regular (p : Params) (leftover : List Byte) (size v : Nat) (w : Work) :
    (blCodeTurn p leftover size v w).Regular := by
  unfold blCodeTurn
  split
  · trivial
  · exact pushing_regular _ _ _ _

theorem blDecTurn_regular (p : Params) (data : List Byte) : RegularTurns (blDecTurn p data) := by
  intro w
  unfold blDecTurn
  split
  · unfold blHeaderTurn
    split
    · exact nofun
    · split
      · exact nofun
      · trivial
  · exact blCodeTurn_regular _ _ _ _ _
  · exact blCodeTurn_regular _ _ _ _ _
  · exact nofun
  · rename_i t hf
    unfold fetchBl at hf
    split at hf
    · split at hf <;> cases hf <;> exact nofun
    · split at hf
      · cases hf
        trivial
      · split at hf <;> cases hf
        exact nofun

theorem serTurn_regular (p : Params) (pulses : List Word) : RegularTurns (serTurn p pulses) := by
  intro w
  unfold serTurn
  split
  · exact emitting_regular _ _ _ _
  · exact nofun
  · rename_i t hf
    unfold fetchSer at hf
    split at hf
    · cases hf
      trivial
    · split at hf <;> cases hf
      exact nofun

theorem copyTurn_regular (p : Params) (size length distance : Nat) (w : Work) : (copyTurn p size length distance w).Regular := by
  unfold copyTurn
  split
  · exact nofun
  · split
    · exact nofun
    · trivial

theorem expandTurn_regular (p : Params) (data : List Byte) : RegularTurns (expandTurn p data) := by
  intro w
  unfold expandTurn
  split
  · exact emitting_regular _ _ _ _
  · exact copyTurn_regular _ _ _ _ _
  · exact copyTurn_regular _ _ _ _ _
  · exact nofun
  · rename_i t hf
    unfold fetchTuya at hf
    split at hf
    · cases hf
      trivial
    · split at hf <;> cases hf
      exact nofun

theorem b64EncTurn_regular (p : Params) (data : List Byte) : RegularTurns (b64EncTurn p data) := by
  intro w
  unfold b64EncTurn
  split
  · trivial
  all_goals exact emitting_regular _ _ _ _

theorem quantumTurn_regular (p : Params) (a b c d : BitVec 6) (npad : Nat) (w : Work) : (quantumTurn p a b c d npad w).Regular := by
  unfold quantumTurn
  dsimp only
  split
  · exact nofun
  · split
    · exact nofun
    · exact emitting_regular _ _ _ _

theorem b64DecTurn_regular (p : Params) (data : List Byte) : RegularTurns (b64DecTurn p data) := by
  intro w
  unfold b64DecTurn
  split
  · exact quantumTurn_regular _ _ _ _ _ _ _
  · exact nofun
  · rename_i t hf
    unfold fetchB64 at hf
    split at hf
    · cases hf
      exact nofun
    · split at hf
      · cases hf
        trivial
      · split at hf <;> cases hf <;> exact nofun

/-! ### Runs and stages -/

theorem packRun_regular (p : Params) (level : BitVec 2) (data : List Byte) :
    (runTurns (packTurn p level data) (turnBound data.length) Work.start).Regular := by
  obtain ⟨path, -, hwrites⟩ := packRun_writes p level data
  exact hwrites.regular

section
variable {p : Params} {w : Work} {k : Work → Turn} (hk : ∀ r, (k r).Regular)
include hk

theorem byteStage_regular {turn : List Byte → Work → Turn} {data : List Byte} (hturns : Advances data.length (turn data))
    (hrun : (runTurns (turn data) (turnBound data.length) Work.start).Regular) : (byteStage p turn data w k).Regular := by
  rcases byteStage_cases p turn data w k with ⟨-, heq⟩ | ⟨-, ⟨r, -, heq⟩ | ⟨c, q, ws, hraise, heq⟩ | ⟨r, hmore⟩⟩
  · rw [heq]
    exact nofun
  · rw [heq]
    exact hk r
  · rw [hraise] at hrun
    rw [heq]
    exact hrun
  · exact absurd hmore (runTurns_ends_of_advances hturns _ _)

theorem pulseStage_regular {turn : List Word → Work → Turn} {pulses : List Word} (hturns : Advances pulses.length (turn pulses))
    (hrun : RegularTurns (turn pulses)) : (pulseStage p turn pulses w k).Regular := by
  rcases pulseStage_cases p turn pulses w k with ⟨-, heq⟩ | ⟨-, ⟨r, -, heq⟩ | ⟨c, q, ws, hraise, heq⟩ | ⟨r, hmore⟩⟩
  · rw [heq]
    exact nofun
  · rw [heq]
    exact hk r
  · have hregular := runTurns_regular hrun (turnBound pulses.length) Work.start
    rw [hraise] at hregular
    rw [heq]
    exact hregular
  · exact absurd hmore (runTurns_ends_of_advances hturns _ _)

end

theorem blEncTurn_advances (p : Params) (pulses : List Word) : Advances pulses.length (blEncTurn p pulses) :=
  fun w w' h => absurd h (blEncTurn_never_more p pulses w w')

theorem tuyaCompTurn_regular (p : Params) (level : BitVec 2) (data : List Byte) : RegularTurns (tuyaCompTurn p level data) := by
  intro w
  unfold tuyaCompTurn
  split
  · exact byteStage_regular (fun _ => more_regular _) (packTurn_advances p level data) (packRun_regular p level data)
  · exact byteStage_regular (fun _ => done_regular _) (b64EncTurn_advances p _) (runTurns_regular (b64EncTurn_regular p _) _ _)

theorem pronto2BlTurn_regular (p : Params) (data : List Byte) : RegularTurns (pronto2BlTurn p data) := by
  intro w
  unfold pronto2BlTurn
  split
  · exact byteStage_regular (fun _ => more_regular _) (prontoTurn_advances p data)
      (runTurns_regular (prontoTurn_regular p data) _ _)
  · exact pulseStage_regular (fun _ => done_regular _) (blEncTurn_advances p _) (blEncTurn_regular p _)

theorem bl2TuyaTurn_regular (p : Params) (level : BitVec 2) (data : List Byte) : RegularTurns (bl2TuyaTurn p level data) := by
  intro w
  unfold bl2TuyaTurn
  split
  · exact byteStage_regular (fun _ => more_regular _) (blDecTurn_advances p data) (runTurns_regular (blDecTurn_regular p data) _ _)
  · split
    · exact pulseStage_regular (fun _ => more_regular _) (serTurn_advances p _) (serTurn_regular p _)
    · split
      · exact byteStage_regular (fun _ => more_regular _) (packTurn_advances p level _) (packRun_regular p level _)
      · exact byteStage_regular (fun _ => done_regular _) (b64EncTurn_advances p _) (runTurns_regular (b64EncTurn_regular p _) _ _)

/-! ### Whole operations -/

theorem guardedRun_regular {cap n : Nat} {f : Work → Turn} (h : (runTurns f (turnBound n) Work.start).Regular) :
    (guardedRun cap n f).Regular := by
  unfold guardedRun
  split
  · exact nofun
  · exact h

theorem commandTurn_regular (p : Params) (data : List Byte) (pulses : List Word) {i : Instr} (hi : isCommand i = true) :
    (commandTurn p data pulses i).Regular := by
  have hrun : ∀ {cap n : Nat} {f : Work → Turn}, RegularTurns f → (guardedRun cap n f).Regular := fun hf =>
    guardedRun_regular (runTurns_regular hf _ _)
  cases i with
  | prontoDec level => exact hrun (prontoTurn_regular p data)
  | blEnc level => exact hrun (blEncTurn_regular p pulses)
  | blDec level => exact hrun (blDecTurn_regular p data)
  | ser16 level => exact hrun (serTurn_regular p pulses)
  | tuyaPack level => exact guardedRun_regular (packRun_regular p level data)
  | tuyaExpand level => exact hrun (expandTurn_regular p data)
  | b64Enc level => exact hrun (b64EncTurn_regular p data)
  | b64Dec level => exact hrun (b64DecTurn_regular p data)
  | tuyaComp level => exact hrun (tuyaCompTurn_regular p level data)
  | pronto2Bl level => exact hrun (pronto2BlTurn_regular p data)
  | bl2Tuya level => exact hrun (bl2TuyaTurn_regular p level data)
  | illegal word => exact nofun
  | _ => cases hi

/-- ERR shows code 5 only where EncodingInvariantViolation was raised (60_exceptions.md R210). -/
theorem errCode_word_ne {c : ErrCode} (h : c ≠ .encodingInvariantViolation) : c.word ≠ 0x0205 := by
  cases c with
  | encodingInvariantViolation => exact absurd rfl h
  | _ => decide

/-- Settles O38: the turn that a command ends in is regular. -/
theorem emissionInvariant : Obligations.EmissionInvariant := by
  intro s t i hi ht
  have hregular := commandTurn_regular s.params s.inputBytes s.inputPulses hi
  have hends := commandTurn_ne_more s.params s.inputBytes s.inputPulses i
  rw [exec_command s hi] at ht
  obtain rfl := Host.Outcome.next.inj ht
  cases hturn : commandTurn s.params s.inputBytes s.inputPulses i with
  | more w => exact absurd hturn (hends w)
  | done w =>
    rw [applyTurn_done, complete_err]
    decide
  | raise c q ws =>
    rw [hturn] at hregular
    rw [applyTurn_raise, takeFault_err]
    exact errCode_word_ne hregular

end Sys2Proof.Machine
end

section
/-! SUPPORT. The base64 alphabet as a table, and the 24-bit group between three bytes and four sextets
(44_base64.md R181, R182, R185). -/

namespace Sys2Proof.Machine

open Sys2Proof

/-! ### The alphabet -/

theorem alphaChar_eq_refChar (v : BitVec 6) : alphaChar v = refChar v.toNat := by
  decide +revert

theorem alphaChar_ofNat_eq_refChar {n : Nat} (h : n < 64) : alphaChar (BitVec.ofNat 6 n) = refChar n := by
  rw [alphaChar_eq_refChar, BitVec.toNat_ofNat, Nat.mod_eq_of_lt h]

theorem mem_refAlphabet_iff (c : Byte) : c ∈ refAlphabet ↔ ∃ v, alphaChar v = c := by
  constructor
  · intro hc
    obtain ⟨k, hk, rfl⟩ := List.mem_iff_getElem.1 hc
    exact ⟨BitVec.ofNat 6 k, (alphaChar_ofNat_eq_refChar hk).trans (List.getElem_eq_getD 0#8).symm⟩
  · rintro ⟨v, rfl⟩
    have hlt : v.toNat < refAlphabet.length := v.isLt
    rw [alphaChar_eq_refChar, refChar, ← List.getElem_eq_getD (h := hlt)]
    exact List.getElem_mem hlt

theorem alphaChar_mem_refAlphabet (v : BitVec 6) : alphaChar v ∈ refAlphabet := (mem_refAlphabet_iff _).2 ⟨v, rfl⟩

theorem padChar_not_mem_refAlphabet : padChar ∉ refAlphabet := by decide

theorem charVal_of_not_mem {c : Byte} (h : c ∉ refAlphabet) : charVal c = none :=
  Option.eq_none_iff_forall_ne_some.2 fun v hv => h ((mem_refAlphabet_iff c).2 ⟨v, alphaChar_of_charVal hv⟩)

theorem idxOf_alphaChar (v : BitVec 6) : refAlphabet.idxOf (alphaChar v) = v.toNat := by
  decide +revert

/-! ### The fields of a group -/

theorem toNat_groupOf (b0 b1 b2 : Byte) : (groupOf b0 b1 b2).toNat = b0.toNat * 65536 + b1.toNat * 256 + b2.toNat := by
  rw [groupOf, toNat_append_eq, toNat_append_eq]
  omega

theorem toNat_groupOfSextets (a b c d : BitVec 6) :
    (groupOfSextets a b c d).toNat = a.toNat * 262144 + b.toNat * 4096 + c.toNat * 64 + d.toNat := by
  rw [groupOfSextets, toNat_append_eq, toNat_append_eq, toNat_append_eq]
  omega

/-- A field of a group is the quotient of the group's number. -/
theorem field_eq_ofNat {g : BitVec 24} {low size n : Nat} (h : g.toNat / 2 ^ low % 2 ^ size = n % 2 ^ size) :
    g.extractLsb' low size = BitVec.ofNat size n := by
  apply BitVec.eq_of_toNat_eq
  rw [BitVec.extractLsb'_toNat, Nat.shiftRight_eq_div_pow, BitVec.toNat_ofNat, h]

section
variable (b0 b1 b2 : Byte)

@[simp] theorem groupOf_byte0 : (groupOf b0 b1 b2).extractLsb' 16 8 = b0 := by
  rw [field_eq_ofNat (n := b0.toNat) (by rw [toNat_groupOf]; omega), BitVec.ofNat_toNat, BitVec.setWidth_eq]

@[simp] theorem groupOf_byte1 : (groupOf b0 b1 b2).extractLsb' 8 8 = b1 := by
  rw [field_eq_ofNat (n := b1.toNat) (by rw [toNat_groupOf]; omega), BitVec.ofNat_toNat, BitVec.setWidth_eq]

@[simp] theorem groupOf_byte2 : (groupOf b0 b1 b2).extractLsb' 0 8 = b2 := BitVec.extractLsb'_append_eq_right

theorem groupOf_low_eq_zero_iff : (groupOf b0 b1 b2).extractLsb' 0 16 = 0#16 ↔ b1 = 0#8 ∧ b2 = 0#8 := by
  have hlow : (groupOf b0 b1 b2).toNat / 2 ^ 0 % 2 ^ 16 = (b1.toNat * 256 + b2.toNat) % 2 ^ 16 := by
    rw [toNat_groupOf]
    omega
  rw [field_eq_ofNat hlow]
  simp only [BitVec.toNat_eq, BitVec.toNat_ofNat]
  omega

/-- The text of a group, its characters by number (44_base64.md R182). -/
theorem groupChars_groupOf (npad : Nat) :
    groupChars (groupOf b0 b1 b2) npad =
      [refChar (b0.toNat / 4), refChar (b0.toNat % 4 * 16 + b1.toNat / 16),
        if npad ≤ 1 then refChar (b1.toNat % 16 * 4 + b2.toNat / 64) else padChar,
        if npad = 0 then refChar (b2.toNat % 64) else padChar] := by
  have hgroup := toNat_groupOf b0 b1 b2
  rw [groupChars, quantumChars, field_eq_ofNat (n := b0.toNat / 4) (by omega),
    field_eq_ofNat (n := b0.toNat % 4 * 16 + b1.toNat / 16) (by omega),
    field_eq_ofNat (n := b1.toNat % 16 * 4 + b2.toNat / 64) (by omega), field_eq_ofNat (n := b2.toNat % 64) (by omega),
    alphaChar_ofNat_eq_refChar (by omega), alphaChar_ofNat_eq_refChar (by omega), alphaChar_ofNat_eq_refChar (by omega),
    alphaChar_ofNat_eq_refChar (by omega)]

end

/-! ### Three bytes and four sextets -/

theorem groupOfSextets_eq_groupOf (a b c d : BitVec 6) :
    groupOfSextets a b c d =
      groupOf (BitVec.ofNat 8 (a.toNat * 4 + b.toNat / 16)) (BitVec.ofNat 8 (b.toNat % 16 * 16 + c.toNat / 4))
        (BitVec.ofNat 8 (c.toNat % 4 * 64 + d.toNat)) := by
  apply BitVec.eq_of_toNat_eq
  rw [toNat_groupOfSextets, toNat_groupOf, BitVec.toNat_ofNat, BitVec.toNat_ofNat, BitVec.toNat_ofNat]
  omega

/-- Four sextets are the group of some three bytes. -/
theorem exists_groupOf (a b c d : BitVec 6) : ∃ b0 b1 b2, groupOfSextets a b c d = groupOf b0 b1 b2 :=
  ⟨_, _, _, groupOfSextets_eq_groupOf a b c d⟩

theorem groupChars_groupOfSextets (a b c d : BitVec 6) (npad : Nat) :
    groupChars (groupOfSextets a b c d) npad = quantumChars a b c d npad := by
  have hgroup := toNat_groupOfSextets a b c d
  rw [groupChars, field_eq_ofNat (n := a.toNat) (by omega), field_eq_ofNat (n := b.toNat) (by omega),
    field_eq_ofNat (n := c.toNat) (by omega), field_eq_ofNat (n := d.toNat) (by omega)]
  simp only [BitVec.ofNat_toNat, BitVec.setWidth_eq]

/-- Every group is one of four sextets. -/
theorem exists_groupOfSextets (g : BitVec 24) : ∃ a b c d, groupOfSextets a b c d = g := by
  refine ⟨g.extractLsb' 18 6, g.extractLsb' 12 6, g.extractLsb' 6 6, g.extractLsb' 0 6, BitVec.eq_of_toNat_eq ?_⟩
  simp only [toNat_groupOfSextets, BitVec.extractLsb'_toNat, Nat.shiftRight_eq_div_pow]
  omega

theorem groupOf_eq_of_sextets {a b c d : BitVec 6} {b0 b1 b2 : Byte} (h : groupOfSextets a b c d = groupOf b0 b1 b2) :
    (b2 = 0 → d = 0) ∧ (b1 = 0 → b2 = 0 → c = 0) := by
  have hgroup := congrArg BitVec.toNat h
  rw [toNat_groupOfSextets, toNat_groupOf] at hgroup
  simp only [BitVec.toNat_eq, BitVec.ofNat_eq_ofNat, BitVec.toNat_ofNat]
  omega

end Sys2Proof.Machine
end

section
/-! PROOFS. One turn of the form B64_QUANTUM in any state (44_base64.md R182, R185, R186; log 10). -/

namespace Sys2Proof.Machine

open Sys2Proof

/-! ### The turn of a quantum -/

section
variable {p : Params} {a b c d : BitVec 6} {b0 b1 b2 : Byte} {w : Work}

theorem quantumTurn_zero (h : groupOfSextets a b c d = groupOf b0 b1 b2) :
    quantumTurn p a b c d 0 w = w.emitting (w.pos + 4) (emit p.obufBytes [b0, b1, b2] w.out) := by
  simp [quantumTurn, h]

theorem quantumTurn_one (h : groupOfSextets a b c d = groupOf b0 b1 0) :
    quantumTurn p a b c d 1 w = w.emitting (w.pos + 4) (emit p.obufBytes [b0, b1] w.out) := by
  simp [quantumTurn, h]

theorem quantumTurn_two (h : groupOfSextets a b c d = groupOf b0 0 0) :
    quantumTurn p a b c d 2 w = w.emitting (w.pos + 4) (emit p.obufBytes [b0] w.out) := by
  simp [quantumTurn, h, groupOf_low_eq_zero_iff]

theorem quantumTurn_one_unused (h : groupOfSextets a b c d = groupOf b0 b1 b2) (hunused : b2 ≠ 0#8) :
    quantumTurn p a b c d 1 w = .raise .base64Invalid (some (w.pos + 2)) w.warn := by
  simp [quantumTurn, h, hunused]

theorem quantumTurn_two_unused (h : groupOfSextets a b c d = groupOf b0 b1 b2) (hunused : b1 ≠ 0#8 ∨ b2 ≠ 0#8) :
    quantumTurn p a b c d 2 w = .raise .base64Invalid (some (w.pos + 1)) w.warn := by
  have hlow : (groupOf b0 b1 b2).extractLsb' 0 16 ≠ 0#16 := by
    rwa [Ne, groupOf_low_eq_zero_iff, not_and_or]
  simp [quantumTurn, h, hlow]

end

/-! ### The form -/

section
variable {s : State} {a b c d : BitVec 6} {npad : Nat} {bs : List Byte}
  (hturn : quantumTurn s.params a b c d npad s.work = s.work.emitting (s.work.pos + 4) (emit s.params.obufBytes bs s.work.out))
include hturn

theorem exec_b64Quantum_of_fits (hfit : s.work.out.length + bs.length ≤ s.params.obufBytes) :
    exec (.b64Quantum a b c d npad) s =
      .next { s with work := { s.work with out := s.work.out ++ bs, pos := s.work.pos + 4 } } := by
  rw [exec_b64Quantum, hturn, emitting_emit, if_pos hfit, applyTurn_more]

theorem exec_b64Quantum_of_overflow (hover : s.params.obufBytes < s.work.out.length + bs.length) :
    ∃ t, exec (.b64Quantum a b c d npad) s = .next t ∧ overflowedBytes s t s.work.warn.word := by
  refine ⟨_, exec_b64Quantum a b c d npad s, ?_⟩
  rw [hturn, emitting_emit, if_neg (Nat.not_le.2 hover)]
  exact applyTurn_overflowedBytes s

end

theorem exec_b64Quantum_of_raise {s : State} {a b c d : BitVec 6} {npad k : Nat}
    (hturn : quantumTurn s.params a b c d npad s.work = .raise .base64Invalid (some k) s.work.warn) :
    exec (.b64Quantum a b c d npad) s = .next (faultedBytes s 0x030B (BitVec.ofNat 32 k) s.work.warn.word) := by
  rw [exec_b64Quantum, hturn]
  rfl

/-- Settles O14: the four sextets are the group of the three bytes, and the turn is that of its padding. -/
theorem quantumForm : Obligations.QuantumForm := by
  intro s a b c d b0 b1 b2
  have hgroup : groupOfSextets a b c d = groupOf b0 b1 b2 := groupOfSextets_eq_groupOf a b c d
  have hone (h2 : b2 = 0) := quantumTurn_one (p := s.params) (w := s.work) (h2 ▸ hgroup)
  have htwo (h1 : b1 = 0) (h2 : b2 = 0) := quantumTurn_two (p := s.params) (w := s.work) (h1 ▸ h2 ▸ hgroup)
  exact ⟨exec_b64Quantum_of_fits (quantumTurn_zero hgroup), fun h2 => exec_b64Quantum_of_fits (hone h2),
    fun h1 h2 => exec_b64Quantum_of_fits (htwo h1 h2),
    fun h2 => exec_b64Quantum_of_raise (quantumTurn_one_unused hgroup h2),
    fun h12 => exec_b64Quantum_of_raise (quantumTurn_two_unused hgroup h12),
    exec_b64Quantum_of_overflow (quantumTurn_zero hgroup), fun h2 => exec_b64Quantum_of_overflow (hone h2),
    fun h1 h2 => exec_b64Quantum_of_overflow (htwo h1 h2)⟩

end Sys2Proof.Machine
end

section
/-! SUPPORT. The base64 text group by group, and what a run of turns that takes one group at a time ends in, for B64_ENC and B64_DEC
alike (44_base64.md R182, R183, R185). -/

namespace Sys2Proof.Machine

open Sys2Proof

/-! ### Groups of bytes -/

/-- The next group of a text and the bytes behind it: three bytes, or the last one or two (44_base64.md R182). -/
inductive IsGroup : List Byte → List Byte → Prop
  | one (b0 : Byte) : IsGroup [b0] []
  | two (b0 b1 : Byte) : IsGroup [b0, b1] []
  | three (b0 b1 b2 : Byte) (rest : List Byte) : IsGroup [b0, b1, b2] rest

/-- Induction over bytes, a group at a time. -/
theorem groups_induction {P : List Byte → Prop} (nil : P [])
    (group : ∀ chunk rest, IsGroup chunk rest → P rest → P (chunk ++ rest)) : ∀ data, P data
  | [] => nil
  | [b0] => group _ _ (.one b0) nil
  | [b0, b1] => group _ _ (.two b0 b1) nil
  | b0 :: b1 :: b2 :: rest => group _ _ (.three b0 b1 b2 rest) (groups_induction nil group rest)

/-- A function on bytes that acts on each group by itself. -/
structure Groupwise (f : List Byte → List Byte) : Prop where
  nil : f [] = []
  append : ∀ chunk rest, IsGroup chunk rest → f (chunk ++ rest) = f chunk ++ f rest

theorem groupwise_id : Groupwise id := ⟨rfl, fun _ _ _ => rfl⟩

/-- Bytes in whole groups, or nothing behind them (44_base64.md R182). -/
def Splits (data tail : List Byte) : Prop := tail = [] ∨ data.length % 3 = 0

section
variable {chunk rest tail : List Byte} (h : IsGroup chunk rest)
include h

/-- What the text of a group is followed by, where the text of the bytes is followed by a tail. -/
theorem IsGroup.behind {f : List Byte → List Byte} (hf : Groupwise f) (htail : Splits (chunk ++ rest) tail) :
    IsGroup chunk (f rest ++ tail) ∧ Splits rest tail := by
  cases h with
  | one b0 =>
    obtain rfl : tail = [] := htail.resolve_right (by simp)
    rw [hf.nil]
    exact ⟨.one b0, .inl rfl⟩
  | two b0 b1 =>
    obtain rfl : tail = [] := htail.resolve_right (by simp)
    rw [hf.nil]
    exact ⟨.two b0 b1, .inl rfl⟩
  | three b0 b1 b2 rest =>
    refine ⟨.three b0 b1 b2 _, htail.imp_right fun hlen => ?_⟩
    simp only [List.length_append, List.length_cons, List.length_nil] at hlen
    omega

theorem IsGroup.count : ((chunk ++ rest).length + 2) / 3 = (rest.length + 2) / 3 + 1 := by
  cases h with
  | one b0 => simp
  | two b0 b1 => simp
  | three b0 b1 b2 rest =>
    simp only [List.length_append, List.length_cons, List.length_nil]
    omega

end

theorem Groupwise.append_of_splits {f : List Byte → List Byte} (hf : Groupwise f) {data tail : List Byte} (h : Splits data tail) :
    f (data ++ tail) = f data ++ f tail := by
  induction data using groups_induction with
  | nil => simp [hf.nil]
  | group chunk rest hgroup ih =>
    obtain ⟨hnext, hrest⟩ := hgroup.behind groupwise_id h
    rw [id_eq] at hnext
    rw [List.append_assoc, hf.append chunk _ hnext, ih hrest, hf.append chunk rest hgroup, List.append_assoc]

/-! ### The text -/

theorem assembleB64_three (b0 b1 b2 : Byte) : assembleB64 [b0, b1, b2] = groupChars (groupOf b0 b1 b2) 0 :=
  List.append_nil _

theorem groupwise_assembleB64 : Groupwise assembleB64 := by
  refine ⟨rfl, fun chunk rest h => ?_⟩
  cases h with
  | one b0 => exact (List.append_nil _).symm
  | two b0 b1 => exact (List.append_nil _).symm
  | three b0 b1 b2 rest => simp [assembleB64]

theorem IsGroup.length_assembleB64 {chunk rest : List Byte} (h : IsGroup chunk rest) : (assembleB64 chunk).length = 4 := by
  cases h <;> rfl

theorem assembleB64_length (data : List Byte) : (assembleB64 data).length = 4 * ((data.length + 2) / 3) := by
  induction data using groups_induction with
  | nil => rfl
  | group chunk rest h ih =>
    rw [groupwise_assembleB64.append chunk rest h, List.length_append, h.length_assembleB64, ih, h.count]
    omega

theorem assembleB64_eq_refText : ∀ data, assembleB64 data = refText data
  | [] => rfl
  | [b0] => by
    rw [assembleB64, groupChars_groupOf]
    rfl
  | [b0, b1] => by
    rw [assembleB64, groupChars_groupOf]
    rfl
  | b0 :: b1 :: b2 :: rest => by
    rw [assembleB64, groupChars_groupOf, assembleB64_eq_refText rest]
    rfl

/-! ### Runs that take a group at a turn -/

/-- From each cursor at a group's source the turn emits the group's result and moves behind the source. -/
def TakesGroups (cap : Nat) (input : List Byte) (source result : List Byte → List Byte) (f : Work → Turn) : Prop :=
  ∀ chunk more w, IsGroup chunk more → input.drop w.pos = source chunk ++ more →
    f w = w.emitting (w.pos + (source chunk).length) (emit cap (result chunk) w.out)

section
variable {cap : Nat} {input tail : List Byte} {source result : List Byte → List Byte} {f : Work → Turn}
  (hsource : Groupwise source) (hresult : Groupwise result) (hf : TakesGroups cap input source result f)
include hsource hresult hf

/-- The turns on the groups of some bytes, one for each: their result is written and the run goes on behind them, or OBUF has no room
for it all. -/
theorem runTurns_groups (k : Nat) (data : List Byte) :
    ∀ w : Work, input.drop w.pos = source data ++ tail → Splits data tail → w.out.length ≤ cap →
      runTurns f ((data.length + 2) / 3 + k) w =
        if w.out.length + (result data).length ≤ cap then
          runTurns f k { w with out := w.out ++ result data, pos := w.pos + (source data).length }
        else .raise .capacityExceeded none w.warn := by
  induction data using groups_induction with
  | nil =>
    intro w _ _ hroom
    simp [hsource.nil, hresult.nil, hroom]
  | group chunk rest h ih =>
    intro w hd htail _
    rw [hsource.append chunk rest h, List.append_assoc] at hd
    obtain ⟨hgroup, hrest⟩ := h.behind hsource htail
    have hturn := hf chunk _ w hgroup hd
    have hcount : ((chunk ++ rest).length + 2) / 3 + k = ((rest.length + 2) / 3 + k) + 1 := by rw [h.count]; omega
    rw [emitting_emit] at hturn
    rw [hcount, hsource.append chunk rest h, hresult.append chunk rest h, List.length_append, List.length_append]
    by_cases hfit : w.out.length + (result chunk).length ≤ cap
    · rw [if_pos hfit] at hturn
      have hnext : input.drop (w.pos + (source chunk).length) = source rest ++ tail := by
        rw [← List.drop_drop, hd, List.drop_left]
      rw [runTurns_of_more _ hturn, ih _ hnext hrest (by rwa [List.length_append])]
      simp only [List.length_append, List.append_assoc, Nat.add_assoc]
    · rw [if_neg hfit] at hturn
      rw [runTurns_of_raise _ hturn, if_neg (by omega)]

/-- From the start, turns are left for what follows the groups. -/
theorem runTurns_groups_start {data : List Byte} (hinput : input = source data ++ tail) (htail : Splits data tail)
    (hlen : (data.length + 2) / 3 ≤ (source data).length) :
    ∃ k, runTurns f (turnBound input.length) Work.start =
      if (result data).length ≤ cap then runTurns f (k + 1) (Work.afterBlocks (result data) (source data).length)
      else .raise .capacityExceeded none Warn.none := by
  have hbound : turnBound input.length =
      (data.length + 2) / 3 + (input.length - (data.length + 2) / 3 + 7 + 1) := by
    rw [turnBound, hinput, List.length_append]
    omega
  refine ⟨input.length - (data.length + 2) / 3 + 7, ?_⟩
  rw [hbound, runTurns_groups hsource hresult hf _ data Work.start (by simpa using hinput) htail (Nat.zero_le _)]
  simp [Work.afterBlocks]

end

end Sys2Proof.Machine
end

section
/-! PROOFS. B64_ENC: the alphabet, the text, and the operation as a run over the groups of its input (44_base64.md R181 to R183). -/

namespace Sys2Proof.Machine

open Sys2Proof

theorem b64EncTurn_of_end (p : Params) {input : List Byte} {w : Work} (h : input.drop w.pos = []) :
    b64EncTurn p input w = .done w := by
  rw [b64EncTurn, h]

theorem b64EncTurn_takesGroups (p : Params) (input : List Byte) :
    TakesGroups p.obufBytes input id assembleB64 (b64EncTurn p input) := by
  intro chunk more w h hd
  rw [id_eq] at hd
  cases h with
  | one b0 => rw [b64EncTurn, hd]; rfl
  | two b0 b1 => rw [b64EncTurn, hd]; rfl
  | three b0 b1 b2 => rw [b64EncTurn, hd]; rfl

theorem runTurns_b64EncTurn (p : Params) (input : List Byte) :
    runTurns (b64EncTurn p input) (turnBound input.length) Work.start =
      if (assembleB64 input).length ≤ p.obufBytes then .done (Work.afterBlocks (assembleB64 input) input.length)
      else .raise .capacityExceeded none Warn.none := by
  obtain ⟨k, hrun⟩ := runTurns_groups_start groupwise_id groupwise_assembleB64 (b64EncTurn_takesGroups p input)
    (List.append_nil input).symm (.inl rfl) (by rw [id_eq]; omega)
  rw [hrun, runTurns_of_done k (b64EncTurn_of_end p (by simp))]
  rfl

/-- Settles O39: the run over the groups of the whole input completes, or the text does not fit. -/
theorem base64Encode : Obligations.Base64Encode := by
  refine ⟨fun v => ⟨alphaChar_eq_refChar v, ?_⟩, fun c => charVal_of_not_mem, assembleB64_eq_refText, fun s level hcap => ?_⟩
  · rw [← alphaChar_eq_refChar, charVal_alphaChar]
  · have hlen : (refText s.inputBytes).length = 4 * ((s.ilen.toNat + 2) / 3) := by
      rw [← assembleB64_eq_refText, assembleB64_length, inputBytes_length]
    have hrun := runTurns_b64EncTurn s.params s.inputBytes
    rw [assembleB64_eq_refText, hlen] at hrun
    rw [exec_b64Enc, runBytes_of_le hcap, ← inputBytes_length, hrun, inputBytes_length]
    refine ⟨hlen, fun hfit => ?_, fun hover => ⟨_, rfl, ?_⟩⟩
    · rw [if_pos hfit, applyTurn_done, complete_toObuf, afterBlocks_pos, BitVec.ofNat_toNat, BitVec.setWidth_eq]
      rfl
    · rw [if_neg (Nat.not_le.2 hover)]
      exact takeFault_overflowedBytes s Warn.none

end Sys2Proof.Machine
end

section
/-! SUPPORT. What the decoder of a quantum and the turns of B64_DEC answer, case by case (44_base64.md R185, R186). -/

namespace Sys2Proof

open Machine

/-! ### The decoder of a quantum -/

section
variable {c0 c1 c2 c3 : Byte} {more : List Byte}

theorem decodeQuantum_bad0 (h0 : c0 ∉ refAlphabet) : decodeQuantum (c0 :: c1 :: c2 :: c3 :: more) = .error (.badCharacter 0) := by
  simp [decodeQuantum, charVal_of_not_mem h0]

theorem decodeQuantum_bad1 (h0 : c0 ∈ refAlphabet) (h1 : c1 ∉ refAlphabet) :
    decodeQuantum (c0 :: c1 :: c2 :: c3 :: more) = .error (.badCharacter 1) := by
  obtain ⟨a, rfl⟩ := (mem_refAlphabet_iff c0).1 h0
  simp [decodeQuantum, charVal_alphaChar, charVal_of_not_mem h1]

theorem decodeQuantum_bad2 (h0 : c0 ∈ refAlphabet) (h1 : c1 ∈ refAlphabet) (h2 : c2 ∉ refAlphabet)
    (hpad : c2 ≠ padChar ∨ more ≠ []) : decodeQuantum (c0 :: c1 :: c2 :: c3 :: more) = .error (.badCharacter 2) := by
  obtain ⟨a, rfl⟩ := (mem_refAlphabet_iff c0).1 h0
  obtain ⟨b, rfl⟩ := (mem_refAlphabet_iff c1).1 h1
  by_cases hc2 : c2 = padChar
  · simp [decodeQuantum, charVal_alphaChar, hc2, hpad.resolve_left (not_not_intro hc2)]
  · simp [decodeQuantum, charVal_alphaChar, hc2, charVal_of_not_mem h2]

theorem decodeQuantum_bad3_of_pad (h0 : c0 ∈ refAlphabet) (h1 : c1 ∈ refAlphabet) (h3 : c3 ≠ padChar) :
    decodeQuantum [c0, c1, padChar, c3] = .error (.badCharacter 3) := by
  obtain ⟨a, rfl⟩ := (mem_refAlphabet_iff c0).1 h0
  obtain ⟨b, rfl⟩ := (mem_refAlphabet_iff c1).1 h1
  simp [decodeQuantum, charVal_alphaChar, h3]

theorem decodeQuantum_bad3 (h0 : c0 ∈ refAlphabet) (h1 : c1 ∈ refAlphabet) (h2 : c2 ∈ refAlphabet) (h3 : c3 ∉ refAlphabet)
    (hpad : c3 ≠ padChar ∨ more ≠ []) : decodeQuantum (c0 :: c1 :: c2 :: c3 :: more) = .error (.badCharacter 3) := by
  obtain ⟨a, rfl⟩ := (mem_refAlphabet_iff c0).1 h0
  obtain ⟨b, rfl⟩ := (mem_refAlphabet_iff c1).1 h1
  obtain ⟨c, rfl⟩ := (mem_refAlphabet_iff c2).1 h2
  by_cases hc3 : c3 = padChar
  · simp [decodeQuantum, charVal_alphaChar, alphaChar_ne_padChar, hc3, hpad.resolve_left (not_not_intro hc3)]
  · simp [decodeQuantum, charVal_alphaChar, alphaChar_ne_padChar, hc3, charVal_of_not_mem h3]

end

theorem decodeQuantum_zero_append (a b c d : BitVec 6) (more : List Byte) :
    decodeQuantum (quantumChars a b c d 0 ++ more) = .ok (.b64Quantum a b c d 0) := by
  simp [quantumChars_zero, decodeQuantum, charVal_alphaChar, alphaChar_ne_padChar]

/-- A padded quantum ends its text. -/
theorem decodeQuantum_padded_more {a b c d : BitVec 6} {npad : Nat} {more : List Byte} {i : Instr} (hnpad : npad = 1 ∨ npad = 2)
    (h : decodeQuantum (quantumChars a b c d npad ++ more) = .ok i) : more = [] := by
  have hmem := alphaChar_mem_refAlphabet
  by_contra hmore
  rcases hnpad with rfl | rfl
  · cases (decodeQuantum_bad3 (hmem a) (hmem b) (hmem c) padChar_not_mem_refAlphabet (.inr hmore)).symm.trans h
  · cases (decodeQuantum_bad2 (hmem a) (hmem b) padChar_not_mem_refAlphabet (.inr hmore)).symm.trans h

/-- The text that a quantum is read from: an unpadded one at its front, or a padded one that is all of it. -/
theorem decodeQuantum_eq_ok {bs : List Byte} {a b c d : BitVec 6} {npad : Nat}
    (h : decodeQuantum bs = .ok (.b64Quantum a b c d npad)) :
    (npad = 0 ∧ ∃ more, bs = quantumChars a b c d 0 ++ more) ∨ (npad = 1 ∧ bs = quantumChars a b c d 1) ∨
      (npad = 2 ∧ bs = quantumChars a b c d 2) := by
  obtain ⟨hwf, enc, more, henc, rfl⟩ := decodeQuantum_encodesFront h
  obtain rfl : quantumChars a b c d npad = enc := by injection henc
  rcases wf_b64Quantum_cases hwf with rfl | ⟨rfl, -⟩ | ⟨rfl, -⟩
  · exact .inl ⟨rfl, more, rfl⟩
  · obtain rfl := decodeQuantum_padded_more (.inl rfl) h
    exact .inr (.inl ⟨rfl, List.append_nil _⟩)
  · obtain rfl := decodeQuantum_padded_more (.inr rfl) h
    exact .inr (.inr ⟨rfl, List.append_nil _⟩)

end Sys2Proof

namespace Sys2Proof.Machine

open Sys2Proof

/-! ### One turn -/

section
variable {p : Params} {input bs : List Byte} {w : Work}

/-- A quantum is the text of a group, or its unused bits are not 0 and its turn faults (44_base64.md R185). -/
theorem isGroup_or_unused {a b c d : BitVec 6} {npad : Nat} (hd : decodeQuantum bs = .ok (.b64Quantum a b c d npad)) :
    (∃ chunk more, IsGroup chunk more ∧ bs = assembleB64 chunk ++ more) ∨
      ∃ k, quantumTurn p a b c d npad w = .raise .base64Invalid (some k) w.warn := by
  obtain ⟨b0, b1, b2, hgroup⟩ := exists_groupOf a b c d
  have htext (npad : Nat) : groupChars (groupOf b0 b1 b2) npad = quantumChars a b c d npad := by
    rw [← hgroup, groupChars_groupOfSextets]
  rcases decodeQuantum_eq_ok hd with ⟨rfl, more, rfl⟩ | ⟨rfl, rfl⟩ | ⟨rfl, rfl⟩
  · exact .inl ⟨_, more, .three b0 b1 b2 more, by rw [assembleB64_three, htext]⟩
  · by_cases h2 : b2 = 0
    · subst h2
      exact .inl ⟨_, [], .two b0 b1, by rw [assembleB64, htext, List.append_nil]⟩
    · exact .inr ⟨_, quantumTurn_one_unused hgroup h2⟩
  · by_cases h12 : b1 = 0 ∧ b2 = 0
    · obtain ⟨rfl, rfl⟩ := h12
      exact .inl ⟨_, [], .one b0, by rw [assembleB64, htext, List.append_nil]⟩
    · exact .inr ⟨_, quantumTurn_two_unused hgroup (not_and_or.1 h12)⟩

theorem b64DecTurn_of_length (h : input.length % 4 ≠ 0) :
    b64DecTurn p input w = .raise .base64Invalid (some input.length) w.warn := by
  simp [b64DecTurn, fetchB64, h]

section
variable (h4 : input.length % 4 = 0)
include h4

theorem b64DecTurn_of_end (h : input.drop w.pos = []) : b64DecTurn p input w = .done w := by
  simp [b64DecTurn, fetchB64, h4, h]

theorem b64DecTurn_of_quantum {a b c d : BitVec 6} {npad : Nat} (h : input.drop w.pos = bs)
    (hd : decodeQuantum bs = .ok (.b64Quantum a b c d npad)) : b64DecTurn p input w = quantumTurn p a b c d npad w := by
  have hne : input.drop w.pos ≠ [] := by
    intro hnil
    rw [← h, hnil] at hd
    cases hd
  have hfetch := fetchB64_quantum h4 hne (h.symm ▸ hd)
  rw [b64DecTurn, hfetch]

theorem b64DecTurn_of_badCharacter {j : Nat} (h : input.drop w.pos = bs) (hd : decodeQuantum bs = .error (.badCharacter j)) :
    b64DecTurn p input w = .raise .base64Invalid (some (w.pos + j)) w.warn := by
  cases bs with
  | nil => cases hd
  | cons c0 cs => simp [b64DecTurn, fetchB64, h4, h, hd]

theorem b64DecTurn_takesGroups (p : Params) : TakesGroups p.obufBytes input assembleB64 id (b64DecTurn p input) := by
  intro chunk more w h hd
  rw [h.length_assembleB64, id_eq]
  cases h with
  | one b0 =>
    obtain ⟨a, b, c, d, hgroup⟩ := exists_groupOfSextets (groupOf b0 0 0)
    obtain ⟨hd0, hc0⟩ := groupOf_eq_of_sextets hgroup
    obtain rfl := hd0 rfl
    obtain rfl := hc0 rfl rfl
    rw [assembleB64, ← hgroup, groupChars_groupOfSextets, List.append_nil] at hd
    rw [b64DecTurn_of_quantum h4 hd (decodeQuantum_two a b 0 0), quantumTurn_two hgroup]
  | two b0 b1 =>
    obtain ⟨a, b, c, d, hgroup⟩ := exists_groupOfSextets (groupOf b0 b1 0)
    obtain rfl := (groupOf_eq_of_sextets hgroup).1 rfl
    rw [assembleB64, ← hgroup, groupChars_groupOfSextets, List.append_nil] at hd
    rw [b64DecTurn_of_quantum h4 hd (decodeQuantum_one a b c 0), quantumTurn_one hgroup]
  | three b0 b1 b2 =>
    obtain ⟨a, b, c, d, hgroup⟩ := exists_groupOfSextets (groupOf b0 b1 b2)
    rw [assembleB64_three, ← hgroup, groupChars_groupOfSextets] at hd
    rw [b64DecTurn_of_quantum h4 hd (decodeQuantum_zero_append a b c d more), quantumTurn_zero hgroup]

/-- What a turn answers: it completes at the end, it stands at the text of a group, or it faults (44_base64.md R185). -/
theorem b64DecTurn_cases (p : Params) (w : Work) :
    (input.drop w.pos = [] ∧ b64DecTurn p input w = .done w) ∨
    (∃ chunk more, IsGroup chunk more ∧ input.drop w.pos = assembleB64 chunk ++ more) ∨
    ∃ k, b64DecTurn p input w = .raise .base64Invalid (some k) w.warn := by
  cases hdrop : input.drop w.pos with
  | nil => exact .inl ⟨rfl, b64DecTurn_of_end h4 hdrop⟩
  | cons c0 cs =>
    right
    cases hd : decodeQuantum (c0 :: cs) with
    | ok i =>
      obtain ⟨a, b, c, d, npad, rfl⟩ := decodeQuantum_form hd
      rw [b64DecTurn_of_quantum h4 hdrop hd]
      exact isGroup_or_unused hd
    | error e =>
      right
      cases e with
      | badCharacter j => exact ⟨_, b64DecTurn_of_badCharacter h4 hdrop hd⟩
      | _ => exact ⟨input.length, by simp [b64DecTurn, fetchB64, h4, hdrop, hd]⟩

end

end

end Sys2Proof.Machine
end

section
/-! PROOFS. B64_DEC: on the text of some bytes, on texts that are none, and that it completes on no other text (44_base64.md R184 to
R186). -/

namespace Sys2Proof.Machine

open Sys2Proof

/-! ### The operation on an input that begins with the text of some bytes -/

section
variable (level : BitVec 2) {s : State} {data tail : List Byte} (hcap : s.ilen.toNat ≤ s.params.ibufBytes)
  (h4 : s.ilen.toNat % 4 = 0) (hinput : s.inputBytes = assembleB64 data ++ tail) (htail : Splits data tail)
include hcap h4 hinput htail

theorem exec_b64Dec_eq :
    ∃ k, exec (.b64Dec level) s = .next (s.applyTurn toObuf
      (if data.length ≤ s.params.obufBytes then
        runTurns (b64DecTurn s.params s.inputBytes) (k + 1) (Work.afterBlocks data (assembleB64 data).length)
      else .raise .capacityExceeded none Warn.none)) := by
  obtain ⟨k, hrun⟩ := runTurns_groups_start groupwise_assembleB64 groupwise_id
    (b64DecTurn_takesGroups ((inputBytes_length s).symm ▸ h4) s.params) hinput htail (by rw [assembleB64_length]; omega)
  exact ⟨k, by rw [exec_b64Dec, runBytes_of_le hcap, ← inputBytes_length, hrun, id_eq]⟩

/-- The operation ends as the turn behind the text does. -/
theorem exec_b64Dec_of_ends (hroom : data.length ≤ s.params.obufBytes) {t : Turn}
    (hturn : b64DecTurn s.params s.inputBytes (Work.afterBlocks data (assembleB64 data).length) = t) (hend : ∀ v, t ≠ .more v) :
    exec (.b64Dec level) s = .next (s.applyTurn toObuf t) := by
  obtain ⟨k, hexec⟩ := exec_b64Dec_eq level hcap h4 hinput htail
  rw [hexec, if_pos hroom, runTurns_of_ends k hturn hend]

theorem exec_b64Dec_of_overflow (hover : s.params.obufBytes < data.length) :
    ∃ t, exec (.b64Dec level) s = .next t ∧ overflowedBytes s t 0 := by
  obtain ⟨k, hexec⟩ := exec_b64Dec_eq level hcap h4 hinput htail
  rw [if_neg (Nat.not_le.2 hover)] at hexec
  exact ⟨_, hexec, takeFault_overflowedBytes s Warn.none⟩

/-- The operation faults where the turn behind the text does. -/
theorem exec_b64Dec_of_raise (hroom : data.length ≤ s.params.obufBytes) {k : Nat}
    (hturn : b64DecTurn s.params s.inputBytes (Work.afterBlocks data (assembleB64 data).length) =
      .raise .base64Invalid (some k) Warn.none) :
    exec (.b64Dec level) s = .next (faultedBytes s 0x030B (BitVec.ofNat 32 k) 0) :=
  exec_b64Dec_of_ends level hcap h4 hinput htail hroom hturn nofun

theorem exec_b64Dec_of_badCharacter (hroom : data.length ≤ s.params.obufBytes) {j : Nat}
    (hd : decodeQuantum tail = .error (.badCharacter j)) :
    exec (.b64Dec level) s = .next (faultedBytes s 0x030B (BitVec.ofNat 32 ((assembleB64 data).length + j)) 0) :=
  exec_b64Dec_of_raise level hcap h4 hinput htail hroom
    (b64DecTurn_of_badCharacter ((inputBytes_length s).symm ▸ h4) (by rw [hinput, afterBlocks_pos, List.drop_left]) hd)

theorem exec_b64Dec_of_unused (hroom : data.length ≤ s.params.obufBytes) {a b c d : BitVec 6} {npad k : Nat}
    (hd : decodeQuantum tail = .ok (.b64Quantum a b c d npad))
    (hturn : quantumTurn s.params a b c d npad (Work.afterBlocks data (assembleB64 data).length) =
      .raise .base64Invalid (some k) Warn.none) :
    exec (.b64Dec level) s = .next (faultedBytes s 0x030B (BitVec.ofNat 32 k) 0) :=
  exec_b64Dec_of_raise level hcap h4 hinput htail hroom
    ((b64DecTurn_of_quantum ((inputBytes_length s).symm ▸ h4) (by rw [hinput, afterBlocks_pos, List.drop_left]) hd).trans hturn)

end

/-! ### The texts it completes on -/

theorem IsGroup.splits_append {chunk more data : List Byte} (h : IsGroup chunk more) (hdata : data.length % 3 = 0) :
    Splits (data ++ chunk) more := by
  cases h with
  | one b0 => exact .inl rfl
  | two b0 b1 => exact .inl rfl
  | three b0 b1 b2 =>
    right
    simp only [List.length_append, List.length_cons, List.length_nil]
    omega

theorem IsGroup.assembleB64_append_ne_nil {chunk more : List Byte} (h : IsGroup chunk more) : assembleB64 chunk ++ more ≠ [] := by
  intro hnil
  have hlen := congrArg List.length hnil
  rw [List.length_append, h.length_assembleB64, List.length_nil] at hlen
  omega

/-- The working state of B64_DEC behind the text of some bytes, which it holds. -/
def Decoded (input : List Byte) (w : Work) : Prop :=
  ∃ data rest, input = assembleB64 data ++ rest ∧ Splits data rest ∧ w = Work.afterBlocks data (assembleB64 data).length

section
variable {p : Params} {input : List Byte} {w w' : Work} (h4 : input.length % 4 = 0)
include h4

/-- By what the turn can answer: only at the text of a group does it go on. -/
theorem Decoded.step (hw : Decoded input w) (h : b64DecTurn p input w = .more w') : Decoded input w' := by
  obtain ⟨data, rest, hinput, hsplit, rfl⟩ := hw
  rcases b64DecTurn_cases h4 p (Work.afterBlocks data (assembleB64 data).length) with
    ⟨-, hdone⟩ | ⟨chunk, more, hgroup, hdrop⟩ | ⟨k, hraise⟩
  · cases hdone.symm.trans h
  · have hturn := (b64DecTurn_takesGroups h4 p chunk more _ hgroup hdrop).symm.trans h
    rw [afterBlocks_pos, hinput, List.drop_left] at hdrop
    rw [hdrop] at hinput hsplit
    have hdata := hsplit.resolve_left hgroup.assembleB64_append_ne_nil
    have htext : assembleB64 (data ++ chunk) = assembleB64 data ++ assembleB64 chunk :=
      groupwise_assembleB64.append_of_splits (.inr hdata)
    refine ⟨data ++ chunk, more, by rw [hinput, htext, List.append_assoc], hgroup.splits_append hdata, ?_⟩
    rw [emitting_emit] at hturn
    split at hturn
    · rw [← Turn.more.inj hturn, htext, List.length_append]
      rfl
    · cases hturn
  · cases hraise.symm.trans h

theorem Decoded.of_done (hw : Decoded input w) (h : b64DecTurn p input w = .done w') :
    ∃ data, input = assembleB64 data ∧ w' = Work.afterBlocks data input.length := by
  obtain ⟨data, rest, hinput, -, rfl⟩ := hw
  rcases b64DecTurn_cases h4 p (Work.afterBlocks data (assembleB64 data).length) with
    ⟨hdrop, hdone⟩ | ⟨chunk, more, hgroup, hdrop⟩ | ⟨k, hraise⟩
  · rw [afterBlocks_pos, hinput, List.drop_left] at hdrop
    rw [hdrop, List.append_nil] at hinput
    exact ⟨data, hinput, hinput ▸ Turn.done.inj (h.symm.trans hdone)⟩
  · have hturn := (b64DecTurn_takesGroups h4 p chunk more _ hgroup hdrop).symm.trans h
    rw [emitting_emit] at hturn
    split at hturn <;> cases hturn
  · cases hraise.symm.trans h

theorem exists_data_of_runTurns_done {k : Nat} (h : runTurns (b64DecTurn p input) k Work.start = .done w') :
    ∃ data, input = assembleB64 data ∧ w' = Work.afterBlocks data input.length := by
  have hstart : Decoded input Work.start := ⟨[], input, rfl, .inr rfl, rfl⟩
  rcases runTurns_cases (fun w v => Decoded.step h4) k Work.start hstart with ⟨v, -, hmore⟩ | ⟨v, hv, hlast⟩
  · cases hmore.symm.trans h
  · exact hv.of_done h4 (hlast.trans h)

end

/-- A completed run ended in a turn that completed it. -/
theorem exec_b64Dec_done {s t : State} {level : BitVec 2} (h : exec (.b64Dec level) s = .next t) (hdone : t.status = .done) :
    s.inputBytes.length % 4 = 0 ∧ ∃ w,
      runTurns (b64DecTurn s.params s.inputBytes) (turnBound s.inputBytes.length) Work.start = .done w ∧
      t = s.complete toObuf w := by
  rcases Nat.lt_or_ge s.params.ibufBytes s.ilen.toNat with hgt | hcap
  · rw [exec_b64Dec, runBytes_of_gt hgt] at h
    cases h
    cases hdone
  · rw [exec_b64Dec, runBytes_of_le hcap, ← inputBytes_length] at h
    obtain rfl := Host.Outcome.next.inj h
    cases hrun : runTurns (b64DecTurn s.params s.inputBytes) (turnBound s.inputBytes.length) Work.start with
    | more w => exact absurd hrun (runTurns_ends_of_advances (b64DecTurn_advances _ _) _ w)
    | done w =>
      refine ⟨Decidable.of_not_not fun h4 => ?_, w, rfl, rfl⟩
      cases (runTurns_turnBound_of_raise _ (b64DecTurn_of_length h4)).symm.trans hrun
    | raise c q ws =>
      rw [hrun] at hdone
      cases hdone

/-- Settles O40: the turn behind the text of the whole input completes, and a run completes behind such a text only. -/
theorem base64Inverse : Obligations.Base64Inverse := by
  refine ⟨fun s level data hcap hinput hroom => ?_, fun s t level ht hdone => ?_⟩
  · have hlen : s.inputBytes.length = 4 * ((data.length + 2) / 3) := by rw [hinput, assembleB64_length]
    have h4 : s.inputBytes.length % 4 = 0 := by omega
    have hend := b64DecTurn_of_end (p := s.params) (w := Work.afterBlocks data (assembleB64 data).length) h4 (by simp [hinput])
    rw [exec_b64Dec_of_ends level hcap (inputBytes_length s ▸ h4) (hinput.trans (List.append_nil _).symm) (.inl rfl) hroom hend
      nofun, applyTurn_done, complete_toObuf, afterBlocks_pos, ← hinput, ofNat_inputBytes_length]
    rfl
  · obtain ⟨h4, w, hrun, rfl⟩ := exec_b64Dec_done ht hdone
    obtain ⟨data, hinput, rfl⟩ := exists_data_of_runTurns_done h4 hrun
    refine ⟨data, hinput, ?_⟩
    rw [complete_toObuf, afterBlocks_pos, ofNat_inputBytes_length]
    rfl

/-! ### The faults -/

theorem ofNat_byte_ne_zero {n : Nat} (h : n % 256 ≠ 0) : BitVec.ofNat 8 n ≠ 0#8 := by
  simpa [BitVec.toNat_eq] using h

/-- The low two bits of the last data character before one `=` belong to no byte (44_base64.md R185). -/
theorem quantumTurn_one_of_low_bits {p : Params} {a b c : BitVec 6} {w : Work} (h : c.toNat % 4 ≠ 0) :
    quantumTurn p a b c 0 1 w = .raise .base64Invalid (some (w.pos + 2)) w.warn :=
  quantumTurn_one_unused (groupOfSextets_eq_groupOf a b c 0) (ofNat_byte_ne_zero (by simp; omega))

/-- The low four bits of the last data character before two `=` belong to no byte (44_base64.md R185). -/
theorem quantumTurn_two_of_low_bits {p : Params} {a b : BitVec 6} {w : Work} (h : b.toNat % 16 ≠ 0) :
    quantumTurn p a b 0 0 2 w = .raise .base64Invalid (some (w.pos + 1)) w.warn :=
  quantumTurn_two_unused (groupOfSextets_eq_groupOf a b 0 0) (.inl (ofNat_byte_ne_zero (by simp; omega)))

/-- Settles O41: the length's fault comes from the first turn, the others from the turn behind the whole quanta. -/
theorem base64Faults : Obligations.Base64Faults := by
  intro s level hcap
  refine ⟨fun hlen => ?_, fun data c0 c1 c2 c3 more h4 hinput hdata hroom => ?_, fun data more h4 hinput hsplit hover => ?_⟩
  · have hturn := b64DecTurn_of_length (p := s.params) (w := Work.start) ((inputBytes_length s).symm ▸ hlen)
    rw [exec_b64Dec, runBytes_of_le hcap, runTurns_turnBound_of_raise _ hturn, applyTurn_raise, takeFault_toObuf,
      ofNat_inputBytes_length]
    rfl
  · rw [← assembleB64_eq_refText] at hinput ⊢
    have hbad {j : Nat} := exec_b64Dec_of_badCharacter level hcap h4 hinput (.inr hdata) hroom (j := j)
    refine ⟨fun h0 => hbad (decodeQuantum_bad0 h0), fun h0 h1 => hbad (decodeQuantum_bad1 h0 h1),
      fun h0 h1 h2 hpad => hbad (decodeQuantum_bad2 h0 h1 h2 hpad), fun h0 h1 h2 hmore h3 => ?_,
      fun h0 h1 h2 h3 hpad => hbad (decodeQuantum_bad3 h0 h1 h2 h3 hpad), fun h0 h1 h2 h3 hmore hlow => ?_,
      fun h0 h1 h2 h3 hmore hlow => ?_⟩
    · subst h2 hmore
      exact hbad (decodeQuantum_bad3_of_pad h0 h1 h3)
    · obtain ⟨a, rfl⟩ := (mem_refAlphabet_iff c0).1 h0
      obtain ⟨b, rfl⟩ := (mem_refAlphabet_iff c1).1 h1
      obtain ⟨c, rfl⟩ := (mem_refAlphabet_iff c2).1 h2
      subst h3 hmore
      rw [idxOf_alphaChar] at hlow
      exact exec_b64Dec_of_unused level hcap h4 hinput (.inr hdata) hroom (decodeQuantum_one a b c 0)
        (quantumTurn_one_of_low_bits hlow)
    · obtain ⟨a, rfl⟩ := (mem_refAlphabet_iff c0).1 h0
      obtain ⟨b, rfl⟩ := (mem_refAlphabet_iff c1).1 h1
      subst h2 h3 hmore
      rw [idxOf_alphaChar] at hlow
      exact exec_b64Dec_of_unused level hcap h4 hinput (.inr hdata) hroom (decodeQuantum_two a b 0 0)
        (quantumTurn_two_of_low_bits hlow)
  · rw [← assembleB64_eq_refText] at hinput
    exact exec_b64Dec_of_overflow level hcap h4 hinput hsplit hover

end Sys2Proof.Machine
end

section
/-! SUPPORT. A stage of a composite operation is a stand-alone operation carried out whole, from whose end the composite goes on
(45_chains.md R196, R197). -/

namespace Sys2Proof.Machine

open Sys2Proof

/-! ### Warnings of two stages -/

@[simp] theorem none_join (ws : Warn) : Warn.none.join ws = ws := by simp [Warn.join, Warn.none]

@[simp] theorem join_none (ws : Warn) : ws.join Warn.none = ws := by simp [Warn.join, Warn.none]

/-! ### What a composite operation makes of the end of a stage -/

/-- A result goes on to the rest of the composite; a fault ends it, with the warnings gathered before (45_chains.md R197). -/
def Turn.stage (t : Turn) (ws : Warn) (k : Work → Turn) : Turn :=
  match t with
  | .done r => k r
  | .raise c q ws' => .raise c q (ws.join ws')
  | .more _ => .raise .encodingInvariantViolation none ws

@[simp] theorem stage_done (r : Work) (ws : Warn) (k : Work → Turn) : (Turn.done r).stage ws k = k r := rfl

@[simp] theorem stage_raise (c : ErrCode) (q : Option Nat) (ws ws' : Warn) (k : Work → Turn) :
    (Turn.raise c q ws').stage ws k = .raise c q (ws.join ws') := rfl

theorem byteStage_eq_stage (p : Params) (turn : List Byte → Work → Turn) (data : List Byte) (w : Work) (k : Work → Turn) :
    byteStage p turn data w k = (guardedRun p.ibufBytes data.length (turn data)).stage w.warn k := by
  unfold byteStage guardedRun
  split
  · rw [stage_raise, join_none]
  · split <;> simp [*, Turn.stage]

theorem pulseStage_eq_stage (p : Params) (turn : List Word → Work → Turn) (pulses : List Word) (w : Work) (k : Work → Turn) :
    pulseStage p turn pulses w k = (guardedRun p.pbufEntries pulses.length (turn pulses)).stage w.warn k := by
  unfold pulseStage guardedRun
  split
  · rw [stage_raise, join_none]
  · split <;> simp [*, Turn.stage]

/-! ### Runs of stages -/

theorem runTurns_stage_more {f : Work → Turn} {w : Work} {t : Turn} {ws : Warn} {g : Work → Work} (n : Nat)
    (h : f w = t.stage ws fun r => .more (g r)) : runTurns f (n + 1) w = t.stage ws fun r => runTurns f n (g r) := by
  cases t with
  | more v => exact runTurns_of_raise n h
  | done v => exact runTurns_of_more n h
  | raise c q ws' => exact runTurns_of_raise n h

theorem runTurns_stage_done {f : Work → Turn} {w : Work} {t : Turn} {ws : Warn} {g : Work → Work} (n : Nat)
    (h : f w = t.stage ws fun r => .done (g r)) : runTurns f (n + 1) w = t.stage ws fun r => .done (g r) := by
  cases t with
  | more v => exact runTurns_of_raise n h
  | done v => exact runTurns_of_done n h
  | raise c q ws' => exact runTurns_of_raise n h

/-- The input check of a composite operation is that of its first stage (45_chains.md R196, R202). -/
theorem guardedRun_stage {cap n : Nat} {f first : Work → Turn} {g : Work → Work}
    (h : f Work.start = (guardedRun cap n first).stage Warn.none fun r => .more (g r)) :
    guardedRun cap n f = (guardedRun cap n first).stage Warn.none fun r => runTurns f (n + 7) (g r) := by
  rcases Nat.lt_or_ge cap n with hgt | hle
  · rw [guardedRun_of_gt f hgt, guardedRun_of_gt first hgt]
    rfl
  · rw [guardedRun_of_le f hle]
    exact runTurns_stage_more (n + 7) h

/-! ### The turns of the composite operations -/

section
variable {p : Params} {data : List Byte} (pulses : List Word) {level : BitVec 2} {w : Work}

theorem tuyaCompTurn_pack (h : w.stage = 0) :
    tuyaCompTurn p level data w =
      (commandTurn p data pulses (.tuyaPack level)).stage w.warn fun r => .more { w with stage := 1, scratch := r.out } := by
  rw [tuyaCompTurn, if_pos h, byteStage_eq_stage]
  rfl

theorem tuyaCompTurn_text (h : w.stage ≠ 0) :
    tuyaCompTurn p level data w =
      (commandTurn p w.scratch pulses (.b64Enc level)).stage w.warn fun r => .done { w with out := r.out, pos := data.length } := by
  rw [tuyaCompTurn, if_neg h, byteStage_eq_stage]
  rfl

theorem pronto2BlTurn_decode (h : w.stage = 0) :
    pronto2BlTurn p data w =
      (commandTurn p data pulses (.prontoDec level)).stage w.warn fun r =>
        .more { w with stage := 1, pulses := r.pulses, warn := w.warn.join r.warn } := by
  rw [pronto2BlTurn, if_pos h, byteStage_eq_stage]
  rfl

theorem pronto2BlTurn_encode (h : w.stage ≠ 0) :
    pronto2BlTurn p data w =
      (commandTurn p data w.pulses (.blEnc level)).stage w.warn fun r =>
        .done { w with out := r.out, pos := data.length, warn := w.warn.join r.warn } := by
  rw [pronto2BlTurn, if_neg h, pulseStage_eq_stage]
  rfl

theorem bl2TuyaTurn_decode (h : w.stage = 0) :
    bl2TuyaTurn p level data w =
      (commandTurn p data pulses (.blDec level)).stage w.warn fun r =>
        .more { w with stage := 1, pulses := r.pulses, pos := r.pos, warn := w.warn.join r.warn } := by
  rw [bl2TuyaTurn, if_pos h, byteStage_eq_stage]
  rfl

theorem bl2TuyaTurn_serialise (h : w.stage = 1) :
    bl2TuyaTurn p level data w =
      (commandTurn p data w.pulses (.ser16 level)).stage w.warn fun r => .more { w with stage := 2, scratch := r.out } := by
  rw [bl2TuyaTurn, if_neg (by omega), if_pos h, pulseStage_eq_stage]
  rfl

theorem bl2TuyaTurn_pack (h : w.stage = 2) :
    bl2TuyaTurn p level data w =
      (commandTurn p w.scratch pulses (.tuyaPack level)).stage w.warn fun r =>
        .more { w with stage := 3, scratch := r.out } := by
  rw [bl2TuyaTurn, if_neg (by omega), if_neg (by omega), if_pos h, byteStage_eq_stage]
  rfl

theorem bl2TuyaTurn_text (h : w.stage = 3) :
    bl2TuyaTurn p level data w =
      (commandTurn p w.scratch pulses (.b64Enc level)).stage w.warn fun r => .done { w with out := r.out } := by
  rw [bl2TuyaTurn, if_neg (by omega), if_neg (by omega), if_neg (by omega), byteStage_eq_stage]
  rfl

end

/-! ### The composite operations -/

section
variable (p : Params) (data : List Byte) (pulses : List Word) (level : BitVec 2)

/-- TUYA_PACK, then B64_ENC of its stream (45_chains.md R190). -/
theorem commandTurn_tuyaComp :
    commandTurn p data pulses (.tuyaComp level) =
      (commandTurn p data pulses (.tuyaPack level)).stage Warn.none fun r =>
        (commandTurn p r.out pulses (.b64Enc level)).stage Warn.none fun r' =>
          .done { Work.start with stage := 1, scratch := r.out, out := r'.out, pos := data.length } := by
  refine (guardedRun_stage (tuyaCompTurn_pack pulses rfl)).trans (congrArg (Turn.stage _ _) (funext fun r => ?_))
  exact runTurns_stage_done _ (tuyaCompTurn_text pulses (by simp))

/-- PRONTO_DEC, then BL_ENC of its train (45_chains.md R192). -/
theorem commandTurn_pronto2Bl :
    commandTurn p data pulses (.pronto2Bl level) =
      (commandTurn p data pulses (.prontoDec level)).stage Warn.none fun r =>
        (commandTurn p data r.pulses (.blEnc level)).stage r.warn fun r' =>
          .done { Work.start with
            stage := 1, pulses := r.pulses, out := r'.out, pos := data.length, warn := r.warn.join r'.warn } := by
  have hdecode := pronto2BlTurn_decode (p := p) (data := data) pulses (level := level) (w := Work.start) rfl
  simp only [start_warn, none_join] at hdecode
  refine (guardedRun_stage hdecode).trans (congrArg (Turn.stage _ _) (funext fun r => ?_))
  exact runTurns_stage_done _ (pronto2BlTurn_encode (by simp))

/-- BL_DEC, SER16 of its train, TUYA_PACK of the bytes, B64_ENC of the stream; POS and WARN are those of BL_DEC (45_chains.md R194). -/
theorem commandTurn_bl2Tuya :
    commandTurn p data pulses (.bl2Tuya level) =
      (commandTurn p data pulses (.blDec level)).stage Warn.none fun r =>
        (commandTurn p data r.pulses (.ser16 level)).stage r.warn fun r1 =>
          (commandTurn p r1.out pulses (.tuyaPack level)).stage r.warn fun r2 =>
            (commandTurn p r2.out pulses (.b64Enc level)).stage r.warn fun r3 =>
              .done { Work.start with
                stage := 3, pulses := r.pulses, pos := r.pos, warn := r.warn, scratch := r2.out, out := r3.out } := by
  have hdecode := bl2TuyaTurn_decode (p := p) (data := data) pulses (level := level) (w := Work.start) rfl
  simp only [start_warn, none_join] at hdecode
  refine (guardedRun_stage hdecode).trans (congrArg (Turn.stage _ _) (funext fun r => ?_))
  refine (runTurns_stage_more _ (bl2TuyaTurn_serialise rfl)).trans (congrArg (Turn.stage _ _) (funext fun r1 => ?_))
  refine (runTurns_stage_more _ (bl2TuyaTurn_pack pulses rfl)).trans (congrArg (Turn.stage _ _) (funext fun r2 => ?_))
  exact runTurns_stage_done _ (bl2TuyaTurn_text pulses rfl)

end

end Sys2Proof.Machine
end

section
/-! SUPPORT. From the state that a command leaves back to the turn its operation ended in, and the ends of the operations that the
composite ones are made of (45_chains.md R190 to R197). -/

namespace Sys2Proof.Machine

open Sys2Proof

/-! ### The turn behind a state -/

theorem cellsFrom_injective {w : Nat} {vs us : List (BitVec w)} (h : cellsFrom 0 vs = cellsFrom 0 us) : vs = us := by
  apply List.ext_getElem?
  intro k
  have hk := congrArg (fun cs => cellAt cs k) h
  simpa only [cellAt_cellsFrom _ 0 k (Nat.zero_le k), Nat.sub_zero] using hk

/-- A state with a byte result is left by a completion with that result: a turn that goes on names no draw. -/
theorem done_of_applyTurn_doneWithBytes {s : State} {T : Turn} {out : List Byte} {pos warn : Word}
    (h : s.applyTurn toObuf T = doneWithBytes s out pos warn) : ∃ r, T = .done r ∧ r.out = out := by
  cases T with
  | more v => exact absurd (congrArg State.draws h) (Nat.ne_of_lt (Nat.lt_succ_self s.draws))
  | done r =>
    rw [applyTurn_done, complete_toObuf] at h
    exact ⟨r, rfl, cellsFrom_injective (congrArg (fun t => t.obuf.cells) h)⟩
  | raise c q ws => exact absurd (congrArg State.status h) nofun

/-- A state with a train is left by a completion with that train, position and warnings. -/
theorem done_of_applyTurn_doneWithPulses {s : State} {T : Turn} {ps : List Word} {pos warn : Word}
    (h : s.applyTurn toPbuf T = doneWithPulses s ps pos warn) :
    ∃ r, T = .done r ∧ r.pulses = ps ∧ BitVec.ofNat 32 r.pos = pos ∧ r.warn.word = warn := by
  cases T with
  | more v => exact absurd (congrArg State.draws h) (Nat.ne_of_lt (Nat.lt_succ_self s.draws))
  | done r =>
    rw [applyTurn_done, complete_toPbuf] at h
    exact ⟨r, rfl, cellsFrom_injective (congrArg (fun t => t.pbuf.cells) h), congrArg State.pos h, congrArg State.warn h⟩
  | raise c q ws => exact absurd (congrArg State.status h) nofun

/-- A command that ends in FAULT took the fault that its operation raised. -/
theorem raise_of_exec_fault {s t : State} {i : Instr} (hi : isCommand i = true) (h : exec i s = .next t)
    (hfault : t.status = .fault) :
    ∃ c q ws, commandTurn s.params s.inputBytes s.inputPulses i = .raise c q ws ∧ t = s.takeFault (commandOutputs i) c q ws := by
  rw [exec_command s hi] at h
  obtain rfl := Host.Outcome.next.inj h
  cases hT : commandTurn s.params s.inputBytes s.inputPulses i with
  | more w => exact absurd hT (commandTurn_ne_more _ _ _ i w)
  | done r =>
    rw [hT] at hfault
    cases hfault
  | raise c q ws => exact ⟨c, q, ws, rfl, rfl⟩

/-- Only CapacityExceeded is raised with no position (60_exceptions.md R222; 43_tuya_levels.md R170). -/
theorem eq_capacityExceeded_of_no_position {p : Params} {data : List Byte} {pulses : List Word} {i : Instr} {c : ErrCode} {ws : Warn}
    (hi : isCommand i = true) (h : commandTurn p data pulses i = .raise c none ws) : c = .capacityExceeded := by
  have hsound := commandTurn_sound p data pulses i
  have hregular := commandTurn_regular p data pulses hi
  rw [h] at hsound hregular
  exact (hsound rfl).resolve_right hregular

theorem errCode_word_eq_capacityExceeded_iff (c : ErrCode) : c.word = 0x0307 ↔ c = .capacityExceeded := by
  cases c <;> decide

theorem takeFault_capacityExceeded_overflowedBoth (s : State) (q : Option Nat) (ws : Warn) :
    overflowedBoth s (s.takeFault toBoth .capacityExceeded q ws) ws.word := by
  cases q <;> rfl

/-- A composite operation whose first stage has PBUF as its output ends with the fault that the stage alone ends with
(45_chains.md R197). -/
theorem exec_of_firstStage_fault {s t : State} {first whole : Instr} {k : Work → Turn} (hfirst : isCommand first = true)
    (hwhole : isCommand whole = true) (hpbuf : commandOutputs first = toPbuf) (hboth : commandOutputs whole = toBoth)
    (hstage : commandTurn s.params s.inputBytes s.inputPulses whole =
      (commandTurn s.params s.inputBytes s.inputPulses first).stage Warn.none k)
    (ht : exec first s = .next t) (hfault : t.status = .fault) :
    (t.err ≠ 0x0307 → exec whole s = .next (faultedBoth s t.err t.pos t.warn)) ∧
    (t.err = 0x0307 → ∃ u, exec whole s = .next u ∧ overflowedBoth s u t.warn) := by
  obtain ⟨c, q, ws, hT, rfl⟩ := raise_of_exec_fault hfirst ht hfault
  have hexec : exec whole s = .next (s.takeFault toBoth c q ws) := by
    rw [exec_command s hwhole, hstage, hT, hboth, stage_raise, none_join, applyTurn_raise]
  rw [takeFault_err, takeFault_warn, hpbuf, hexec]
  refine ⟨fun hne => ?_, fun heq => ⟨_, rfl, ?_⟩⟩
  · cases q with
    | none => exact absurd ((errCode_word_eq_capacityExceeded_iff c).2 (eq_capacityExceeded_of_no_position hfirst hT)) hne
    | some k => rfl
  · obtain rfl := (errCode_word_eq_capacityExceeded_iff c).1 heq
    exact takeFault_capacityExceeded_overflowedBoth s q ws

/-! ### How the stages end -/

section
variable (p : Params) (data : List Byte) (pulses : List Word) (level : BitVec 2)

theorem commandTurn_prontoDec_eq_run :
    commandTurn p data pulses (.prontoDec level) = guardedRun p.ibufBytes data.length (prontoTurn p data) := rfl

theorem commandTurn_blDec_eq_run :
    commandTurn p data pulses (.blDec level) = guardedRun p.ibufBytes data.length (blDecTurn p data) := rfl

theorem commandTurn_tuyaPack_eq_run :
    commandTurn p data pulses (.tuyaPack level) = guardedRun p.ibufBytes data.length (packTurn p level data) := rfl

theorem commandTurn_b64Enc_eq_run :
    commandTurn p data pulses (.b64Enc level) = guardedRun p.ibufBytes data.length (b64EncTurn p data) := rfl

theorem commandTurn_blEnc_eq_run :
    commandTurn p data pulses (.blEnc level) = guardedRun p.pbufEntries pulses.length (blEncTurn p pulses) := rfl

theorem commandTurn_ser16_eq_run :
    commandTurn p data pulses (.ser16 level) = guardedRun p.pbufEntries pulses.length (serTurn p pulses) := rfl

/-- B64_ENC: the text where its input fits IBUF and it fits OBUF (44_base64.md R183). -/
theorem commandTurn_b64Enc :
    commandTurn p data pulses (.b64Enc level) =
      if data.length ≤ p.ibufBytes ∧ 4 * ((data.length + 2) / 3) ≤ p.obufBytes then
        .done (Work.afterBlocks (assembleB64 data) data.length)
      else .raise .capacityExceeded none Warn.none := by
  rw [commandTurn_b64Enc_eq_run]
  rcases Nat.lt_or_ge p.ibufBytes data.length with hgt | hle
  · rw [guardedRun_of_gt _ hgt, if_neg (by omega)]
  · rw [guardedRun_of_le _ hle, ← assembleB64_length]
    simpa [hle] using runTurns_b64EncTurn p data

/-- TUYA_PACK ends with the stream of a parse of its input, or its input or the stream does not fit (43_tuya_levels.md R172). -/
theorem commandTurn_tuyaPack_cases :
    (∃ r, commandTurn p data pulses (.tuyaPack level) = .done r ∧ r.pos = data.length ∧ r.warn = Warn.none ∧
      refMeaning r.out = some data ∧ r.out.length ≤ packBound data.length) ∨
    ((p.ibufBytes < data.length ∨ p.obufBytes < packBound data.length) ∧
      commandTurn p data pulses (.tuyaPack level) = .raise .capacityExceeded none Warn.none) := by
  rw [commandTurn_tuyaPack_eq_run]
  rcases Nat.lt_or_ge p.ibufBytes data.length with hgt | hle
  · exact .inr ⟨.inl hgt, guardedRun_of_gt _ hgt⟩
  · rw [guardedRun_of_le _ hle]
    obtain ⟨path, hparse, hfits, hoverflows⟩ := packRun_writes p level data
    have hbound := hparse.length_le_packBound (Nat.le_refl 0)
    rw [between_self, Nat.sub_zero] at hbound
    rcases Nat.lt_or_ge p.obufBytes (pathStream data [] path).length with hover | hfit
    · exact .inr ⟨.inr (hover.trans_le hbound), hoverflows hover⟩
    · obtain ⟨r, hr, hout, hpos, hwarn⟩ := hfits hfit
      exact .inl ⟨r, hr, hpos, hwarn, hout ▸ hparse.refMeaning_eq, hout ▸ hbound⟩

/-- SER16 of pulses up to 65535: their bytes where the train fits PBUF and they fit OBUF (41_broadlink.md R125). -/
theorem commandTurn_ser16 {train : List Word} (hle : ∀ v ∈ train, v.toNat ≤ 65535) :
    commandTurn p data train (.ser16 level) =
      if train.length ≤ p.pbufEntries ∧ 2 * train.length ≤ p.obufBytes then
        .done { Work.start with out := refSerial train, pos := train.length }
      else .raise .capacityExceeded none Warn.none := by
  rw [commandTurn_ser16_eq_run]
  rcases Nat.lt_or_ge p.pbufEntries train.length with hgt | hcap
  · rw [guardedRun_of_gt _ hgt, if_neg (by omega)]
  · obtain ⟨k, hrun⟩ := runTurns_serTurn_start p (List.append_nil train).symm hle
    have hend := serTurn_of_end (p := p) (pulses := train)
      (w := { Work.start with out := refSerial train, pos := train.length }) (by simp)
    rw [runTurns_of_done k hend] at hrun
    rw [guardedRun_of_le _ hcap]
    simpa [hcap] using hrun

/-- BL_ENC of a train that PBUF holds is its one turn (41_broadlink.md R110). -/
theorem commandTurn_blEnc {train : List Word} (hcap : train.length ≤ p.pbufEntries) :
    commandTurn p data train (.blEnc level) = blEncTurn p train Work.start := by
  rw [commandTurn_blEnc_eq_run, guardedRun_of_le _ hcap]
  exact runTurns_of_ends _ rfl (blEncTurn_never_more p train Work.start)

end

/-- The bytes of a train are two for each pulse (20_memory.md R57). -/
theorem refSerial_length (train : List Word) : (refSerial train).length = 2 * train.length := by
  induction train with
  | nil => rfl
  | cons v train ih =>
    rw [refSerial_cons, List.length_append, ih, List.length_cons]
    simp only [List.length_cons, List.length_nil]
    omega

/-! ### The pulses of BL_DEC -/

/-- Every pulse has a 16-bit form (41_broadlink.md R121, R125). -/
def Work.Narrow (w : Work) : Prop := ∀ v ∈ w.pulses, v.toNat ≤ 65535

/-- The working state that the turn ends in, if any, has narrow pulses. -/
def Turn.Narrow : Turn → Prop
  | .more w => w.Narrow
  | .done w => w.Narrow
  | .raise _ _ _ => True

theorem blCodeTurn_narrow (p : Params) (leftover : List Byte) (size v : Nat) {w : Work} (hw : w.Narrow) :
    (blCodeTurn p leftover size v w).Narrow := by
  unfold blCodeTurn
  split
  · exact hw
  · rename_i hv
    rw [pushing_push]
    split
    · intro u hu
      rcases List.mem_append.1 hu with hu | hu
      · exact hw u hu
      · obtain rfl := List.mem_singleton.1 hu
        exact (Nat.mod_le _ _).trans (Nat.not_lt.1 hv)
    · trivial

theorem blDecTurn_narrow (p : Params) (data : List Byte) {w : Work} (hw : w.Narrow) : (blDecTurn p data w).Narrow := by
  unfold blDecTurn
  split
  · unfold blHeaderTurn
    split
    · trivial
    · split
      · trivial
      · exact hw
  · exact blCodeTurn_narrow p _ _ _ hw
  · exact blCodeTurn_narrow p _ _ _ hw
  · trivial
  · rename_i hfetch
    unfold fetchBl at hfetch
    split at hfetch
    · split at hfetch <;> cases hfetch <;> trivial
    · split at hfetch
      · cases hfetch
        exact hw
      · split at hfetch <;> cases hfetch
        trivial

theorem runTurns_narrow {f : Work → Turn} (hf : ∀ w, w.Narrow → (f w).Narrow) (k : Nat) {w : Work} (hw : w.Narrow) :
    (runTurns f k w).Narrow := by
  have keep : ∀ v v', v.Narrow → f v = .more v' → v'.Narrow := fun v v' hv hm => by simpa [Turn.Narrow, hm] using hf v hv
  rcases runTurns_cases keep k w hw with ⟨v, hv, hr⟩ | ⟨v, hv, hr⟩
  · rw [hr]
    exact hv
  · rw [← hr]
    exact hf v hv

/-- A train that BL_DEC completes with fits PBUF, and SER16 has a form for each of its pulses. -/
theorem pulses_of_commandTurn_blDec {p : Params} {data : List Byte} {pulses : List Word} {level : BitVec 2} {r : Work}
    (h : commandTurn p data pulses (.blDec level) = .done r) : r.pulses.length ≤ p.pbufEntries ∧ r.Narrow := by
  have hsound := commandTurn_sound p data pulses (.blDec level)
  rw [h] at hsound
  refine ⟨hsound.2, ?_⟩
  rw [commandTurn_blDec_eq_run] at h
  rcases Nat.lt_or_ge p.ibufBytes data.length with hgt | hle
  · rw [guardedRun_of_gt _ hgt] at h
    cases h
  · rw [guardedRun_of_le _ hle] at h
    have hnarrow := runTurns_narrow (fun w => blDecTurn_narrow p data) (turnBound data.length) (w := Work.start) nofun
    rwa [h] at hnarrow

end Sys2Proof.Machine
end

section
/-! PROOFS. The composite operations: the text of a TUYA_PACK stream, the frame of a Pronto train, the text of a Broadlink train; and the
input check of every operation (45_chains.md R190 to R202). -/

namespace Sys2Proof.Machine

open Sys2Proof

/-! ### TUYA_PACK as a stage -/

section
variable {s : State} {level : BitVec 2}

theorem exec_tuyaPack_of_done {r : Work}
    (hpack : commandTurn s.params s.inputBytes s.inputPulses (.tuyaPack level) = .done r) :
    exec (.tuyaPack level) s = .next (doneWithBytes s r.out s.ilen 0) := by
  rcases commandTurn_tuyaPack_cases s.params s.inputBytes s.inputPulses level with ⟨w, hw, hpos, hwarn, -⟩ | ⟨-, hover⟩
  · obtain rfl := Turn.done.inj (hpack.symm.trans hw)
    rw [exec_command s rfl, hpack, applyTurn_done]
    refine (congrArg _ (complete_toObuf s r)).trans ?_
    rw [hpos, hwarn, ofNat_inputBytes_length, warn_none_word]
  · rw [hover] at hpack
    cases hpack

theorem done_of_exec_tuyaPack {stream : List Byte} {pos warn : Word}
    (h : exec (.tuyaPack level) s = .next (doneWithBytes s stream pos warn)) :
    ∃ r, commandTurn s.params s.inputBytes s.inputPulses (.tuyaPack level) = .done r ∧ r.out = stream := by
  rw [exec_command s rfl] at h
  exact done_of_applyTurn_doneWithBytes (Host.Outcome.next.inj h)

theorem raise_of_exec_tuyaPack_fault {t : State} (h : exec (.tuyaPack level) s = .next t) (hfault : t.status = .fault) :
    commandTurn s.params s.inputBytes s.inputPulses (.tuyaPack level) = .raise .capacityExceeded none Warn.none := by
  obtain ⟨c, q, ws, hraise, -⟩ := raise_of_exec_fault rfl h hfault
  rcases commandTurn_tuyaPack_cases s.params s.inputBytes s.inputPulses level with ⟨r, hdone, -⟩ | ⟨-, hover⟩
  · rw [hdone] at hraise
    cases hraise
  · exact hover

/-- TUYA_PACK reads nothing but the capacities and IBUF (00_scope.md R9). -/
theorem commandTurn_tuyaPack_of_inputs {r : State} {data : List Byte} (hparams : r.params = s.params) (hinput : r.inputBytes = data)
    (pulses : List Word) :
    commandTurn r.params r.inputBytes r.inputPulses (.tuyaPack level) = commandTurn s.params data pulses (.tuyaPack level) := by
  rw [hparams, hinput, commandTurn_tuyaPack_eq_run, commandTurn_tuyaPack_eq_run]

end

/-! ### TUYA_COMP -/

section
variable {s : State} {level : BitVec 2}

/-- Behind a TUYA_PACK that completes, TUYA_COMP ends as B64_ENC of the stream does. -/
theorem exec_tuyaComp_of_done {r : Work}
    (hpack : commandTurn s.params s.inputBytes s.inputPulses (.tuyaPack level) = .done r) :
    (r.out.length ≤ s.params.ibufBytes → 4 * ((r.out.length + 2) / 3) ≤ s.params.obufBytes →
      exec (.tuyaComp level) s = .next (doneWithBytes s (assembleB64 r.out) s.ilen 0)) ∧
    ((s.params.ibufBytes < r.out.length ∨ s.params.obufBytes < 4 * ((r.out.length + 2) / 3)) →
      ∃ u, exec (.tuyaComp level) s = .next u ∧ overflowedBytes s u 0) := by
  rw [exec_command s rfl, commandTurn_tuyaComp, hpack, stage_done, commandTurn_b64Enc]
  refine ⟨fun hfit htext => ?_, fun hover => ⟨_, rfl, ?_⟩⟩
  · rw [if_pos ⟨hfit, htext⟩, stage_done, applyTurn_done]
    refine (congrArg _ (complete_toObuf s _)).trans ?_
    rw [ofNat_inputBytes_length]
    rfl
  · rw [if_neg (by omega)]
    exact takeFault_overflowedBytes s Warn.none

theorem exec_tuyaComp_of_raise
    (hpack : commandTurn s.params s.inputBytes s.inputPulses (.tuyaPack level) = .raise .capacityExceeded none Warn.none) :
    ∃ u, exec (.tuyaComp level) s = .next u ∧ overflowedBytes s u 0 := by
  refine ⟨_, exec_command s rfl, ?_⟩
  rw [commandTurn_tuyaComp, hpack]
  exact takeFault_overflowedBytes s Warn.none

end

/-- Settles O42: each end of the TUYA_PACK stage is carried on by the B64_ENC stage; with room for every stage there is a stream. -/
theorem tuyaText : Obligations.TuyaText := by
  intro s level hcap
  refine ⟨fun hroom htext => ?_, fun stream hpack => ?_, fun t ht hfault => ?_⟩
  · have hlt : packBound s.ilen.toNat ≤ s.params.obufBytes := by omega
    obtain ⟨stream, hpack, -, hbound⟩ := packRoundTrip s level hcap hlt
    obtain ⟨r, hdone, rfl⟩ := done_of_exec_tuyaPack hpack
    exact ⟨r.out, hpack, (exec_tuyaComp_of_done hdone).1 (hbound.trans hroom) (by omega)⟩
  · obtain ⟨r, hdone, rfl⟩ := done_of_exec_tuyaPack hpack
    exact exec_tuyaComp_of_done hdone
  · exact exec_tuyaComp_of_raise (raise_of_exec_tuyaPack_fault ht hfault)

/-! ### PRONTO2BL -/

/-- Settles O43: BL_ENC's one turn on the train of a well-formed code, and the fault of the PRONTO_DEC stage otherwise. -/
theorem prontoToBroadlink : Obligations.ProntoToBroadlink := by
  intro s level hcap
  refine ⟨fun d o r rest train hinput hlen hd hroom htrain => ?_,
    fun t => exec_of_firstStage_fault rfl rfl rfl rfl (commandTurn_pronto2Bl _ _ _ level)⟩
  have htrainlen : train.length ≤ s.params.pbufEntries := by
    rw [htrain, List.length_map, burstWords_length]
    omega
  have hdecode : commandTurn s.params s.inputBytes s.inputPulses (.prontoDec level) =
      .done { Work.start with pulses := train, pos := s.inputBytes.length } := by
    rw [commandTurn_prontoDec_eq_run, guardedRun_of_le _ (by simpa using hcap),
      runTurns_prontoTurn_of_wellFormed s.params hinput hlen hd, if_pos hroom, htrain]
  have hexec : exec (.pronto2Bl level) s = .next (s.applyTurn toBoth
      ((blEncTurn s.params train Work.start).stage Warn.none fun e =>
        .done { Work.start with stage := 1, pulses := train, out := e.out, pos := s.inputBytes.length, warn := e.warn })) := by
    rw [exec_command s rfl, commandTurn_pronto2Bl, hdecode, stage_done, commandTurn_blEnc _ _ _ htrainlen]
    simp only [start_warn, none_join]
    rfl
  rw [hexec]
  refine ⟨fun hle hpay hfit => ?_, fun before after v hsplit hle hv => ?_, fun hle hpay => ?_, fun hle hpay hover => ?_⟩
  · rw [blEncTurn_of_ticks_le htrainlen hle, if_neg (Nat.not_lt.2 hpay), if_pos (by simpa using hfit), stage_done, applyTurn_done,
      complete_toBoth, ofNat_inputBytes_length, ← none_ofTicks_word]
    rfl
  · rw [blEncTurn_of_tick_gt htrainlen hsplit hle hv, stage_raise, none_join, applyTurn_raise, takeFault_toBoth,
      ← none_ofTicks_word]
    rfl
  · rw [blEncTurn_of_ticks_le htrainlen hle, if_pos hpay, stage_raise, none_join, applyTurn_raise, takeFault_toBoth,
      ← none_ofTicks_word]
    rfl
  · rw [blEncTurn_of_ticks_le htrainlen hle, if_neg (Nat.not_lt.2 hpay), if_neg (by simpa using hover), stage_raise, none_join,
      applyTurn_raise, ← none_ofTicks_word]
    exact ⟨_, rfl, takeFault_overflowedBoth s _⟩

/-! ### BL2TUYA -/

section
variable {s : State} {level : BitVec 2} {r : Work}
  (hdec : commandTurn s.params s.inputBytes s.inputPulses (.blDec level) = .done r)
include hdec

/-- Behind a BL_DEC that completes, a train whose bytes do not fit OBUF ends the whole at SER16. -/
theorem exec_bl2Tuya_of_serial_overflow (hover : s.params.obufBytes < 2 * r.pulses.length) :
    ∃ u, exec (.bl2Tuya level) s = .next u ∧ overflowedBoth s u r.warn.word := by
  obtain ⟨-, hnarrow⟩ := pulses_of_commandTurn_blDec hdec
  refine ⟨_, exec_command s rfl, ?_⟩
  rw [commandTurn_bl2Tuya, hdec, stage_done, commandTurn_ser16 _ _ _ hnarrow, if_neg (by omega), stage_raise, join_none]
  exact takeFault_overflowedBoth s _

/-- Where they fit, the last two stages are those of TUYA_COMP on the bytes of the train. -/
theorem commandTurn_bl2Tuya_of_serial (hfit : 2 * r.pulses.length ≤ s.params.obufBytes) :
    commandTurn s.params s.inputBytes s.inputPulses (.bl2Tuya level) =
      (commandTurn s.params (refSerial r.pulses) s.inputPulses (.tuyaPack level)).stage r.warn fun r2 =>
        (commandTurn s.params r2.out s.inputPulses (.b64Enc level)).stage r.warn fun r3 =>
          .done { Work.start with
            stage := 3, pulses := r.pulses, pos := r.pos, warn := r.warn, scratch := r2.out, out := r3.out } := by
  obtain ⟨hcap, hnarrow⟩ := pulses_of_commandTurn_blDec hdec
  rw [commandTurn_bl2Tuya, hdec, stage_done, commandTurn_ser16 _ _ _ hnarrow, if_pos ⟨hcap, hfit⟩, stage_done]

/-- A TUYA_PACK stage that faults ends the whole in CapacityExceeded with BL_DEC's warnings. -/
theorem exec_bl2Tuya_of_pack_raise
    (hpack : commandTurn s.params (refSerial r.pulses) s.inputPulses (.tuyaPack level) = .raise .capacityExceeded none Warn.none) :
    ∃ u, exec (.bl2Tuya level) s = .next u ∧ overflowedBoth s u r.warn.word := by
  rcases Nat.lt_or_ge s.params.obufBytes (2 * r.pulses.length) with hover | hfit
  · exact exec_bl2Tuya_of_serial_overflow hdec hover
  · refine ⟨_, exec_command s rfl, ?_⟩
    rw [commandTurn_bl2Tuya_of_serial hdec hfit, hpack, stage_raise, join_none]
    exact takeFault_overflowedBoth s _

/-- Behind a TUYA_PACK stage that completes, the whole ends as B64_ENC of the stream does. -/
theorem exec_bl2Tuya_of_pack_done {r2 : Work} (hfit : 2 * r.pulses.length ≤ s.params.obufBytes)
    (hpack : commandTurn s.params (refSerial r.pulses) s.inputPulses (.tuyaPack level) = .done r2) :
    (r2.out.length ≤ s.params.ibufBytes → 4 * ((r2.out.length + 2) / 3) ≤ s.params.obufBytes →
      exec (.bl2Tuya level) s =
        .next (doneWithBoth s (assembleB64 r2.out) r.pulses (BitVec.ofNat 32 r.pos) r.warn.word)) ∧
    ((s.params.ibufBytes < r2.out.length ∨ s.params.obufBytes < 4 * ((r2.out.length + 2) / 3)) →
      ∃ u, exec (.bl2Tuya level) s = .next u ∧ overflowedBoth s u r.warn.word) := by
  rw [exec_command s rfl, commandTurn_bl2Tuya_of_serial hdec hfit, hpack, stage_done, commandTurn_b64Enc]
  refine ⟨fun hroom htext => ?_, fun hover => ⟨_, rfl, ?_⟩⟩
  · rw [if_pos ⟨hroom, htext⟩]
    rfl
  · rw [if_neg (by omega), stage_raise, join_none]
    exact takeFault_overflowedBoth s _

/-- With room for every stage the stream is short enough for the last two. -/
theorem exec_bl2Tuya_of_room (hibuf : packBound (2 * r.pulses.length) ≤ s.params.ibufBytes)
    (hobuf : 4 * ((packBound (2 * r.pulses.length) + 2) / 3) ≤ s.params.obufBytes) :
    ∃ r2, commandTurn s.params (refSerial r.pulses) s.inputPulses (.tuyaPack level) = .done r2 ∧
      refMeaning r2.out = some (refSerial r.pulses) ∧
      exec (.bl2Tuya level) s =
        .next (doneWithBoth s (assembleB64 r2.out) r.pulses (BitVec.ofNat 32 r.pos) r.warn.word) := by
  have hle : 2 * r.pulses.length ≤ packBound (2 * r.pulses.length) := Nat.le_add_right _ _
  have hcases := commandTurn_tuyaPack_cases s.params (refSerial r.pulses) s.inputPulses level
  rw [refSerial_length] at hcases
  rcases hcases with ⟨r2, hpack, -, -, hmeaning, hbound⟩ | ⟨hover, -⟩
  · exact ⟨r2, hpack, hmeaning,
      (exec_bl2Tuya_of_pack_done hdec (by omega) hpack).1 (hbound.trans hibuf) (by omega)⟩
  · omega

end

theorem done_of_exec_blDec {s : State} {level : BitVec 2} {train : List Word} {pos warn : Word}
    (h : exec (.blDec level) s = .next (doneWithPulses s train pos warn)) :
    ∃ r, commandTurn s.params s.inputBytes s.inputPulses (.blDec level) = .done r ∧ r.pulses = train ∧
      BitVec.ofNat 32 r.pos = pos ∧ r.warn.word = warn := by
  rw [exec_command s rfl] at h
  exact done_of_applyTurn_doneWithPulses (Host.Outcome.next.inj h)

/-- Settles O44: behind a BL_DEC that completes, the ends of the stages after it; a packet of pulse codes is one that it completes on. -/
theorem broadlinkToTuya : Obligations.BroadlinkToTuya := by
  intro s level hcap
  refine ⟨fun rep length codes tail train hinput hlen hmin hcodes hroom hibuf hobuf htrain => ?_, fun train pos warn hexec => ?_,
    fun t => exec_of_firstStage_fault rfl rfl rfl rfl (commandTurn_bl2Tuya _ _ _ level)⟩
  · obtain ⟨r, hdec, hpulses, hpos, hwarn⟩ :=
      done_of_exec_blDec (blDecode s level rep length codes tail hcap hinput hlen hmin hcodes hroom)
    have hcount : r.pulses.length = codes.length := by rw [hpulses, List.length_map]
    rw [← hcount] at hibuf hobuf
    obtain ⟨r2, -, hmeaning, hwhole⟩ := exec_bl2Tuya_of_room hdec hibuf hobuf
    rw [hpos, hwarn, hpulses, ← htrain] at hwhole
    rw [hpulses, ← htrain] at hmeaning
    exact ⟨r2.out, hmeaning, hwhole⟩
  · obtain ⟨r, hdec, rfl, rfl, rfl⟩ := done_of_exec_blDec hexec
    refine ⟨fun hibuf hobuf => ?_, fun hover => ?_, fun r' t hparams hinput ht hfault => ?_,
      fun r' stream hparams hinput hfit hpack => ?_⟩
    · obtain ⟨r2, hpack, hmeaning, hwhole⟩ := exec_bl2Tuya_of_room hdec hibuf hobuf
      exact ⟨r2.out, hmeaning, fun r' hparams hinput =>
        exec_tuyaPack_of_done ((commandTurn_tuyaPack_of_inputs hparams hinput _).trans hpack), hwhole⟩
    · rcases hover with hobuf | hibuf
      · exact exec_bl2Tuya_of_serial_overflow hdec hobuf
      · refine exec_bl2Tuya_of_pack_raise hdec ?_
        rw [commandTurn_tuyaPack_eq_run]
        exact guardedRun_of_gt _ (by rwa [refSerial_length])
    · refine exec_bl2Tuya_of_pack_raise hdec ?_
      rw [← commandTurn_tuyaPack_of_inputs hparams hinput]
      exact raise_of_exec_tuyaPack_fault ht hfault
    · obtain ⟨r2, hdone, rfl⟩ := done_of_exec_tuyaPack hpack
      exact exec_bl2Tuya_of_pack_done hdec hfit ((commandTurn_tuyaPack_of_inputs hparams hinput _).symm.trans hdone)

/-! ### The input check of every operation -/

/-- Settles O45: the check comes before the first turn, and its fault does what every fault does. -/
theorem inputCapacity : Obligations.InputCapacity := by
  intro s i hi hlegal hover
  have hraise : commandTurn s.params s.inputBytes s.inputPulses i = .raise .capacityExceeded none Warn.none := by
    cases hreads : readsPulses i with
    | true =>
      rw [hreads, if_pos rfl] at hover
      rw [commandTurn_of_readsPulses _ _ _ hreads]
      exact guardedRun_of_gt _ (by rwa [inputPulses_length])
    | false =>
      rw [hreads, if_neg Bool.false_ne_true] at hover
      rw [commandTurn_of_readsBytes _ _ _ hlegal hreads]
      exact guardedRun_of_gt _ (by rwa [inputBytes_length])
  obtain ⟨honly, hkept, hinvalid⟩ := takeFault_effects s (commandOutputs i) .capacityExceeded none Warn.none
  exact ⟨_, by rw [exec_command s hi, hraise, applyTurn_raise], honly, hkept, hinvalid, rfl, rfl, rfl, rfl⟩

end Sys2Proof.Machine
end

section
/-! PROOFS. How a command ends in FAULT, and how the host leaves DONE and FAULT again (60_exceptions.md R221, R228). -/

namespace Sys2Proof.Machine

open Sys2Proof

/-! ### Taking a fault -/

/-- Settles O46: a command that ends in FAULT took the fault its operation raised, and that fault writes only what every fault writes. -/
theorem faultEffects : Obligations.FaultEffects := by
  intro s t i hi hexec hfault
  obtain ⟨c, q, ws, -, rfl⟩ := raise_of_exec_fault hi hexec hfault
  obtain ⟨honly, hkept, hinvalid⟩ := takeFault_effects s (commandOutputs i) c q ws
  obtain ⟨hlisted, hnonzero⟩ := word_mem_errValues c
  exact ⟨honly, hkept, hinvalid, takeFault_work .., hlisted, hnonzero⟩

/-! ### Writing CTRL -/

theorem finished_eq_false_iff (x : Status) : x.finished = false ↔ x = .idle ∨ x = .busy := by
  cases x <;> simp [Status.finished]

section
variable {s : State}

theorem irq_idle (h : s.status = .idle) : s.irq = false := by
  rw [State.irq, h]
  exact Bool.and_false _

theorem writeCtrl_ack_finished {v : Word} (hv : v.getLsbD 1 = true) (h : s.status = .done ∨ s.status = .fault) :
    s.writeCtrl v = { s with ctrl := v &&& 1, status := .idle } := by
  rw [State.writeCtrl, if_pos hv, acknowledge_of_finished ((finished_iff _).2 h)]

theorem writeCtrl_of_no_ack {v : Word} (hv : v.getLsbD 1 = false) : s.writeCtrl v = { s with ctrl := v &&& 1 } :=
  if_neg (Bool.eq_false_iff.1 hv)

/-- With no finished operation there is nothing to acknowledge, whatever bit 1 is. -/
theorem writeCtrl_of_not_finished (h : s.status = .idle ∨ s.status = .busy) (v : Word) :
    s.writeCtrl v = { s with ctrl := v &&& 1 } := by
  rw [State.writeCtrl, acknowledge_of_not ((finished_eq_false_iff _).2 h), ite_self]

end

/-- Settles O57: a write to CMD outside BUSY, and the three cases of a write to CTRL, each by the rule of that write. -/
theorem startAndAcknowledge : Obligations.StartAndAcknowledge := by
  intro s rest v
  refine ⟨fun hb => ?_, fun hv hfinished => ⟨?_, irq_idle rfl⟩, fun h => ?_⟩
  · exact step_eq_of_transact (regWrite_cmd (s := { s with sched := rest }) hb v)
  · exact step_eq_of_transact (writeCtrl_ack_finished (s := { s with sched := rest }) hv hfinished)
  · apply step_eq_of_transact
    rcases h with hv | hstate
    · exact writeCtrl_of_no_ack hv
    · exact writeCtrl_of_not_finished (s := { s with sched := rest }) hstate v

end Sys2Proof.Machine
end

section
/-! PROOFS. How every operation ends, and the reset input in any state (70_reset_and_hazards.md R240, R241, R254). -/

namespace Sys2Proof.Machine

open Sys2Proof

/-! ### The end of an operation -/

/-- The step from `s` to `t` ended an operation with the outputs `o`, in DONE or in FAULT (10_state.md R46). -/
structure EndsOperation (s t : State) (o : Outputs) : Prop where
  onlyResults : onlyResults s t
  othersKept : othersKept s t o
  work : t.work = Work.closed
  verdict : (t.status = .done ∧ t.err = 0) ∨ (t.status = .fault ∧ t.err ≠ 0)

theorem complete_endsOperation (s : State) (o : Outputs) (w : Work) : EndsOperation s (s.complete o w) o :=
  let ⟨honly, hkept⟩ := complete_effects s o w
  ⟨honly, hkept, complete_work .., .inl ⟨complete_status .., complete_err ..⟩⟩

theorem takeFault_endsOperation (s : State) (o : Outputs) (c : ErrCode) (q : Option Nat) (ws : Warn) :
    EndsOperation s (s.takeFault o c q ws) o :=
  let ⟨honly, hkept, _⟩ := takeFault_effects s o c q ws
  let ⟨_, hnonzero⟩ := word_mem_errValues c
  ⟨honly, hkept, takeFault_work .., .inr ⟨takeFault_status .., hnonzero⟩⟩

theorem applyTurn_endsOperation (s : State) (o : Outputs) {t : Turn} (h : ∀ w, t ≠ .more w) :
    EndsOperation s (s.applyTurn o t) o := by
  cases t with
  | more w => exact absurd rfl (h w)
  | done w => exact complete_endsOperation s o w
  | raise c q ws => exact takeFault_endsOperation s o c q ws

/-- Settles O47: a command applies one turn, its run's last, and that turn never goes on. -/
theorem operationEnds : Obligations.OperationEnds := by
  intro s i hi
  have hends := applyTurn_endsOperation s (commandOutputs i) (commandTurn_ne_more s.params s.inputBytes s.inputPulses i)
  exact ⟨_, exec_command s hi, hends.onlyResults, hends.othersKept, hends.work, hends.verdict⟩

/-! ### The reset input -/

/-- The registers read as after State.reset, whatever state the reset input met (70_reset_and_hazards.md R240). -/
theorem hardReset_regValue (s : State) (r : Nat) : s.hardReset.regValue r = State.reset.regValue r := rfl

/-- Settles O54: the registers are those of the reset state; the other parts are fields of the state, and each buffer takes one of
the next three draws. -/
theorem resetInput : Obligations.ResetInput := by
  intro s rest
  refine ⟨_, step_eq_of_transact (tr := .reset) rfl, hardReset_regValue _ 0, fun r hr => ?_, rfl, irq_idle rfl, rfl,
    rfl, rfl, rfl, Nat.le_refl _, Nat.le_add_right _ 1, Nat.le_add_right _ 2, rfl, rfl, rfl⟩
  exact (hardReset_regValue _ r).trans (reset_regValue hr)

end Sys2Proof.Machine
end
